-- ==== Sys2Proof/Config.lean ====
section
/-! DEFINITION. What the DNK-9E4 fixes (spec 00 R1) and the free values: values the spec leaves open, which nothing in
the model chooses (R3, R4). A free value is an opaque constant applied to the model's counter `State.free`. -/
namespace Sys2Proof.Config

/-- Dies of a module, 3 by 3 (R1). -/
def dies : Nat := 9
/-- Core sites per die (R1). -/
def sites : Nat := 100
/-- Group slots per quarter (R1). -/
def slotsPerQuarter : Nat := 16
/-- Vector registers of a quarter's pool (R151). -/
def poolRegs : Nat := 1024
/-- In-flight record entries of a group (R212). -/
def inflightEntries : Nat := 24
/-- Payload slots of a group's image (R322). -/
def payloadSlots : Nat := 24
/-- Accumulator units of a core (R1). -/
def accUnits : Nat := 128
/-- Core scratchpad bytes of a core (R1). -/
def spadBytes : Nat := 3145728
/-- Bytes of tier 0 (R196): 768 GiB. -/
def hbmBytes : Nat := 768 * 2 ^ 30
/-- Bytes of tier 1 (R196): 2 TiB. -/
def lpddrBytes : Nat := 2 ^ 41
/-- First tier-0 byte of the range of R197. -/
def reservedBase : Nat := 768 * 2 ^ 30 - 256 * 2 ^ 20
/-- HDM window bytes (R381): 2,816 GiB. -/
def hdmBytes : Nat := 2816 * 2 ^ 30
/-- Partitions (R1). -/
def partitions : Nat := 16
/-- Work queues (R175). -/
def queues : Nat := 8192
/-- Fabric ports (R356). -/
def ports : Nat := 36
/-- Core cycles in one microsecond at 940 MHz (R2). -/
def cyclesPerUs : Nat := 940

/-- A free value of width `w`: an undefined value of the spec (R3), one for each count and place. -/
opaque freeValue (w : Nat) (count place : Nat) : BitVec w

/-- A free choice: which of several outcomes an unspecified choice takes (R4). -/
opaque freeChoice (count place : Nat) : Nat

/-- The bits that an instruction of R54 returns for an operand where they meet its bound (log 14): one value for each
instruction and operand, since R54 makes it the same in every rounding mode. -/
opaque approximation (opcode operand : Nat) : Nat

/-- The bytes a scratchpad or accumulator byte holds before its first write after allocation (log 6). -/
opaque freeScratch (allocation address : Nat) : BitVec 8

/-- The measurement bytes, the identity seed and the signature of the attestation report (R410). -/
opaque attestByte (resets index : Nat) (nonce : BitVec 256) : BitVec 8

/-- The launch record, with the SYS bit of its queue above it, of a launch of another module whose cluster migrated here (log 36). -/
opaque foreignRecord (package launch : Nat) : BitVec 2049

/-- Core cycles one step takes beyond one (log 8: the model has no timing). -/
opaque stepCycles (count : Nat) : Nat

end Sys2Proof.Config
end

