-- ==== Sys2Proof/Word.lean ====
section
/-! DEFINITION. The word types of the machine (spec 01 R9, R10, R26; 03 R61) and a bank of like registers. -/
namespace Sys2Proof

/-- One byte (R8: records and memory are little-endian bytes). -/
abbrev Byte := BitVec 8
/-- One lane's 32-bit slice of a vector register (R10). -/
abbrev Lane32 := BitVec 32
/-- A 32-bit mask with one bit per lane (R13). -/
abbrev Mask := BitVec 32
/-- A uniform 64-bit register value (R9). -/
abbrev Word64 := BitVec 64
/-- A typed pointer (R26). -/
abbrev Ptr := BitVec 128
/-- An instruction word (R61). -/
abbrev CodeWord := BitVec 128
/-- One vector register: 32 lanes of 32 bits (R10). -/
abbrev VReg := Vector Lane32 32

/-- Read element `i` of a bank of registers; outside the bank the default `d`. -/
def rd {α : Type} {n : Nat} (d : α) (v : Vector α n) (i : Nat) : α := v.getD i d

/-- Write element `i` of a bank of registers; outside the bank nothing is written. -/
def wr {α : Type} {n : Nat} (v : Vector α n) (i : Nat) (a : α) : Vector α n := v.setIfInBounds i a

/-- Bits lo+n-1 : lo of a value, as a number. -/
def bitsAt (lo n : Nat) (x : Nat) : Nat := (x >>> lo) % 2 ^ n

/-- A vector register with the same value in every lane. -/
def VReg.splat (a : Lane32) : VReg := Vector.replicate 32 a

end Sys2Proof
end

