-- ==== Sys2Proof/Syntax.lean ====
section
/-! DEFINITION. The syntax of the machine's steps: the fields of an instruction word (spec 03 R61 to R67) and the ONE
inductive `Instr`, one constructor per row of the opcode table: program instructions carry their fields, device
operations and events carry what they concern. -/
namespace Sys2Proof

/-- Register file of an operand or a destination (R61, R67). -/
inductive File where
  | v | s | p | k
  deriving DecidableEq, Repr, Inhabited

/-- The operand types of R62. -/
inductive Ty where
  | i32 | n32 | i64 | n64 | f32 | f64 | f16x2 | bf16x2 | i16x2 | n16x2 | i8x4 | n8x4 | b32 | b64
  deriving DecidableEq, Repr, Inhabited

/-- A 22-bit operand field (R67). -/
structure Operand where
  num : BitVec 8 := 0
  file : File := .v
  latch : Bool := false
  idx : BitVec 2 := 0
  pat : BitVec 3 := 0
  parm : BitVec 5 := 0
  neg : Bool := false
  deriving DecidableEq, Repr, Inhabited

/-- The fields of an instruction word other than the opcode and the reserved bits 127:124 (R61). -/
structure Fields where
  g : Bool := false
  e : Bool := false
  grd : BitVec 4 := 0
  gneg : Bool := false
  dnum : BitVec 8 := 0
  dfile : File := .v
  n : Bool := false
  cap : BitVec 2 := 0
  didx : BitVec 2 := 0
  a : Operand := {}
  b : Operand := {}
  c : Operand := {}
  imm : BitVec 16 := 0
  mod : BitVec 6 := 0
  ty : BitVec 4 := 0
  deriving DecidableEq, Repr, Inhabited

/-- A core: its die and its core site (R1, R209). -/
structure CoreId where
  die : Nat
  site : Nat
  deriving DecidableEq, Repr, Inhabited

/-- A cache that the home directory of a line knows: the copy slice of a die, or the home's own agent H (R254). -/
inductive Agent where
  | copy (die : Nat)
  | home
  deriving DecidableEq, Repr, Inhabited

/-- What comes back from another module for a peer or regs part; `none` for a part performed in this module. -/
inductive Resp where
  | none
  | data (words : List (BitVec 128))
  | refused (cause : Nat) (extra : BitVec 64)
  deriving DecidableEq, Repr, Inhabited

/-- Where an error of R213 struck; `word` is the 64-bit word of a line of L1 data. `peer`: the package and partition of a peer line, which is
named by its virtual line number; none for a global line. `tagsReadable`: the tags, or the directory's, can still be read (R339). -/
inductive ErrorSite where
  | vectorFile (core : CoreId) (ctx : Nat)
  | scratch (core : CoreId) (ctx : Nat) (allocated : Bool)
  | chip (die word : Nat)
  | l1Data (core : CoreId) (peer : Option (Nat × Nat)) (line word : Nat)
  | l1Tags (core : CoreId) (tagsReadable : Bool)
  | l2Data (die : Nat) (peer : Option (Nat × Nat)) (line : Nat)
  | l2Tags (die slice : Nat) (tagsReadable : Bool)
  | instrCache (core : CoreId) (line : Nat)
  | tlb (core : CoreId) (part va : Nat)
  | tlb2 (die part va : Nat)
  | memory (line : Nat)
  deriving DecidableEq, Repr, Inhabited

/-- A mesh flit error of R216. -/
inductive FlitError where
  | corrected (die : Nat)
  | payload (ctx : Nat)
  | header (die : Nat)
  deriving DecidableEq, Repr, Inhabited

/-- A silent error (R336): a register of one side of a shadowed group whose bits change in a lane. -/
structure SilentError where
  shadow : Bool
  file : File
  num : Nat
  lane : Nat
  bits : BitVec 128
  deriving DecidableEq, Repr, Inhabited

/-- A contribution to a reduction slot (R367): from a local contributor or from a child port. -/
structure Contribution where
  group : Nat
  sequence : BitVec 64
  chunk : Nat
  /-- `true`: local contributor with this index; `false`: the partial of the child at this port. -/
  localSource : Bool
  source : Nat
  double : Bool
  op : Nat
  values : List (BitVec 64)
  tag : BitVec 64 := 0
  deriving DecidableEq, Repr, Inhabited

/-- One lane's element of a peer request (R359). -/
structure PeerLane where
  lane : Nat
  va : Nat
  size : Nat
  data : BitVec 128
  data2 : BitVec 128
  deriving DecidableEq, Repr, Inhabited

/-- A request that enters this module from the fabric (R359). `kind`: 0 load, 1 store, 2 atomic. -/
structure PeerReq where
  source : Nat
  part : Nat
  kind : Nat
  op : BitVec 6
  ty : BitVec 4
  sync : Bool
  colour : BitVec 8
  tag : BitVec 64
  lanes : List PeerLane
  /-- The grid of the access has the overlap-debug flag (R252). -/
  debug : Bool := false
  /-- Written-back bytes that carry the poison mark (R214). -/
  poison : Bool := false
  deriving DecidableEq, Repr, Inhabited

/-- How a multicast packet stands at a router block (R365): the branches with a free slot, and whether it comes from a child on its way up to
the root (R364). -/
structure TreeOffer where
  free : BitVec 36
  up : Bool := false
  deriving DecidableEq, Repr, Inhabited

/-- An acknowledgement of a multicast store (R365): its group, the child's port it comes from or none for the root's combined one, and a
member's cause with its extra data, 0 for none. -/
structure TreeAck where
  group : Nat
  child : Option Nat
  status : Nat := 0
  extra : BitVec 64 := 0
  deriving DecidableEq, Repr, Inhabited

/-- One 32-bit word of a regs store at a name directory (R226, R330, R372). -/
structure RegsWord where
  tag : BitVec 64
  lane : Nat
  ord : Nat
  slot : Nat
  gen : Nat
  reg : Nat
  rlane : Nat
  value : BitVec 32
  deriving DecidableEq, Repr, Inhabited

/-- What the target's directory answers for a regs part (R372, R363): of a dead name, the slot and generation of its word. -/
inductive RegsOutcome where
  | delivered
  | deadName (slot gen : Nat) (register : Bool)
  | retry
  | info (answer : BitVec 64)
  | lost
  deriving DecidableEq, Repr, Inhabited

/-- The machine's steps: one constructor per row of spec/opcode_table.json. -/
inductive Instr where
  /-- IADD (R104): Adds A and B per lane, modulo 2^w. -/
  | iadd (w : Fields)
  /-- ISUB (R104): Subtracts B from A per lane, modulo 2^w. -/
  | isub (w : Fields)
  /-- IMUL (R104): Writes the low w bits of A times B. -/
  | imul (w : Fields)
  /-- IMULH (R104): Writes the high w bits of the exact 2w-bit product of A and B. -/
  | imulh (w : Fields)
  /-- IMAD (R104): Writes A times B plus C, modulo 2^w. -/
  | imad (w : Fields)
  /-- IABS (R104): Writes the absolute value of A; the most negative value yields itself. -/
  | iabs (w : Fields)
  /-- IMIN (R104): Writes the smaller of A and B by the type's signedness. -/
  | imin (w : Fields)
  /-- IMAX (R104): Writes the larger of A and B by the type's signedness. -/
  | imax (w : Fields)
  /-- IDIV (R104): Divides A by B truncating toward zero, with fixed results for a zero divisor and overflow. -/
  | idiv (w : Fields)
  /-- IREM (R104): Writes the remainder of the truncating division of A by B. -/
  | irem (w : Fields)
  /-- AND (R104): Writes the bitwise AND of A and B. -/
  | and (w : Fields)
  /-- OR (R104): Writes the bitwise OR of A and B. -/
  | or (w : Fields)
  /-- XOR (R104): Writes the bitwise XOR of A and B. -/
  | xor (w : Fields)
  /-- ANDN (R104): Writes A AND NOT B. -/
  | andn (w : Fields)
  /-- SHL (R104): Shifts A left by B mod 256, giving 0 when the shift reaches the width. -/
  | shl (w : Fields)
  /-- SHR (R104): Shifts A right logically by B mod 256. -/
  | shr (w : Fields)
  /-- SAR (R104): Shifts A right arithmetically by B mod 256. -/
  | sar (w : Fields)
  /-- ROTL (R104): Rotates A left by B mod w. -/
  | rotl (w : Fields)
  /-- BFX (R106): Extracts a bit field of A, sign- or zero-extended by type. -/
  | bfx (w : Fields)
  /-- BFI (R106): Inserts the low bits of B into a bit field of A. -/
  | bfi (w : Fields)
  /-- BSEL (R104): Selects bits of A where C is 1 and of B elsewhere. -/
  | bsel (w : Fields)
  /-- POPC (R104): Counts the 1 bits of A. -/
  | popc (w : Fields)
  /-- CLZ (R104): Counts the leading zero bits of A. -/
  | clz (w : Fields)
  /-- CTZ (R104): Counts the trailing zero bits of A. -/
  | ctz (w : Fields)
  /-- BREV (R104): Reverses the bit order of A. -/
  | brev (w : Fields)
  /-- IADDC (R104): Writes into a mask the carry out of A plus B for each active lane. -/
  | iaddc (w : Fields)
  /-- IADDX (R104): Adds A, B and the lane's carry bit from a k register. -/
  | iaddx (w : Fields)
  /-- ICMP (R106): Compares A with B under the MOD condition and writes a lane mask. -/
  | icmp (w : Fields)
  /-- SEL (R104): Selects A or B per lane by a k register bit. -/
  | sel (w : Fields)
  /-- MOV (R104): Copies A to the destination. -/
  | mov (w : Fields)
  /-- LDI (R104): Loads the 16-bit immediate, sign- or zero-extended by type. -/
  | ldi (w : Fields)
  /-- LDIH (R106): Replaces one 16-bit half of A with the immediate. -/
  | ldih (w : Fields)
  /-- FADD (R107): Adds A and B with one rounding under fmt. -/
  | fadd (w : Fields)
  /-- FSUB (R107): Subtracts B from A with one rounding under fmt. -/
  | fsub (w : Fields)
  /-- FMUL (R107): Multiplies A and B with one rounding under fmt. -/
  | fmul (w : Fields)
  /-- FFMA (R55): Computes A times B plus C exactly and rounds once. -/
  | ffma (w : Fields)
  /-- FMIN (R109): Returns the smaller operand, ordering -0 below +0 and passing over a single NaN. -/
  | fmin (w : Fields)
  /-- FMAX (R109): Returns the larger operand, ordering -0 below +0 and passing over a single NaN. -/
  | fmax (w : Fields)
  /-- FRCP (R54): Computes 1/A within 1 ulp. -/
  | frcp (w : Fields)
  /-- FRSQ (R54): Computes 1/sqrt(A) within 1 ulp. -/
  | frsq (w : Fields)
  /-- FSQRT (R54): Computes the correctly rounded square root of A. -/
  | fsqrt (w : Fields)
  /-- FDIV (R54): Computes the correctly rounded quotient A/B. -/
  | fdiv (w : Fields)
  /-- FEXP2 (R54): Computes 2^A within 2 ulp. -/
  | fexp2 (w : Fields)
  /-- FLOG2 (R54): Computes log2 A within 2 ulp. -/
  | flog2 (w : Fields)
  /-- FSIN (R54): Computes sin A within the stated bound. -/
  | fsin (w : Fields)
  /-- FCOS (R54): Computes cos A within the stated bound. -/
  | fcos (w : Fields)
  /-- FSCALE (R110): Computes A times 2^n, with n taken from B, and rounds once. -/
  | fscale (w : Fields)
  /-- FGETEXP (R110): Returns the exponent of A as a value of the same format. -/
  | fgetexp (w : Fields)
  /-- FGETMAN (R110): Returns the significand of A in [1, 2) with A's sign. -/
  | fgetman (w : Fields)
  /-- FRINT (R110): Rounds A to an integral value under fmt.RM without setting NX. -/
  | frint (w : Fields)
  /-- FCMP (R111): Compares A with B under the MOD condition and writes a lane mask. -/
  | fcmp (w : Fields)
  /-- FCLASS (R111): Sets a lane's mask bit when A's class is selected in IMM. -/
  | fclass (w : Fields)
  /-- FDOT2 (R55): Computes the exact two-element dot product plus C and rounds once to FP32. -/
  | fdot2 (w : Fields)
  /-- CVT (R113): Converts an element of A into the TYPE format under fmt. -/
  | cvt (w : Fields)
  /-- CVTPK (R114): Converts A and B into a narrow format and packs the two results. -/
  | cvtpk (w : Fields)
  /-- CVTX (R113): Converts A with the rounding mode and saturation taken from IMM. -/
  | cvtx (w : Fields)
  /-- NQDEC (R115): Decodes one codebook-4 nibble per lane into FP32. -/
  | nqdec (w : Fields)
  /-- NQENC (R116): Encodes A into a codebook-4 index nibble of C. -/
  | nqenc (w : Fields)
  /-- SETFMT (R117): Register form: writes selected fmt fields from A and faults on a reserved value. -/
  | setfmt (w : Fields)
  /-- SETFMT_IMM (R117): Immediate form: writes selected fmt fields from IMM and faults on a reserved value. -/
  | setfmtImm (w : Fields)
  /-- GETFMT (R117): Writes fmt zero-extended to the destination. -/
  | getfmt (w : Fields)
  /-- GETFLG (R118): Reads lane flags, or their OR over the active lanes. -/
  | getflg (w : Fields)
  /-- CLRFLG (R118): Clears the selected sticky flags in each active lane. -/
  | clrflg (w : Fields)
  /-- KAND (R119): Writes the bitwise AND of two masks. -/
  | kand (w : Fields)
  /-- KOR (R119): Writes the bitwise OR of two masks. -/
  | kor (w : Fields)
  /-- KXOR (R119): Writes the bitwise XOR of two masks. -/
  | kxor (w : Fields)
  /-- KANDN (R119): Writes ka AND NOT kb. -/
  | kandn (w : Fields)
  /-- KNOT (R119): Writes the complement of a mask. -/
  | knot (w : Fields)
  /-- KMOV (R119): Copies a mask between k and s registers. -/
  | kmov (w : Fields)
  /-- KPOP (R119): Counts the 1 bits of a mask. -/
  | kpop (w : Fields)
  /-- KFFS (R119): Finds the lowest 1 bit of a mask, giving 32 for an empty mask. -/
  | kffs (w : Fields)
  /-- VOTE (R120): Writes a ballot, any, all or eq mask over the active lanes. -/
  | vote (w : Fields)
  /-- SHFL (R159): Each active lane pulls A from the lane that B names. -/
  | shfl (w : Fields)
  /-- SHFLU (R159): Each active lane pushes A to the lane that B names. -/
  | shflu (w : Fields)
  /-- ISCAN (R160): Computes an inclusive or exclusive integer scan over the active lanes. -/
  | iscan (w : Fields)
  /-- FSCAN (R160): Computes a floating-point scan over the active lanes in the fixed tree. -/
  | fscan (w : Fields)
  /-- IRED (R160): Reduces integer values over the active lanes. -/
  | ired (w : Fields)
  /-- FRED (R160): Reduces floating-point values over the active lanes in the fixed tree. -/
  | fred (w : Fields)
  /-- MATCH (R161): Gives each active lane the mask of active lanes holding an equal value. -/
  | matchLanes (w : Fields)
  /-- COMPACT (R162): Packs the selected active values into the lowest active lanes. -/
  | compact (w : Fields)
  /-- EXPAND (R162): Spreads the lowest active values into the selected lanes. -/
  | expand (w : Fields)
  /-- BRA (R128): Branches relative to its own address, splitting the group when lanes disagree. -/
  | bra (w : Fields)
  /-- BRX (R128): Branches to the address held in an s register, splitting the group when lanes disagree. -/
  | brx (w : Fields)
  /-- CALL (R129): Writes the return address to s and branches relative to itself. -/
  | call (w : Fields)
  /-- CALLX (R129): Writes the return address to s and branches to an address held in s. -/
  | callx (w : Fields)
  /-- RET (R129): Branches to the address held in an s register. -/
  | ret (w : Fields)
  /-- MARK (R163): Pushes a mark entry with the rejoin address, the active mask and fmt. -/
  | mark (w : Fields)
  /-- JOIN (R148): Pops a path or mark entry at its rejoin address and switches mask, fmt and pc. -/
  | join (w : Fields)
  /-- EXIT (R165): Ends the enabled active lanes and unwinds the stack as needed. -/
  | exit (w : Fields)
  /-- NOP (R130): Has no effect. -/
  | nop (w : Fields)
  /-- YIELD (R167): Ends the run, and saves the group when its pre-emption request flag is set. -/
  | yield (w : Fields)
  /-- YIELD_PAUSE (R167): Makes the group ineligible until a timeout, a pre-emption request or a register delivery. -/
  | yieldPause (w : Fields)
  /-- LD (R223): Checks the pointer, splits the access into parts and issues loads that land later under holds. -/
  | ld (w : Fields)
  /-- LD_LITERAL (R86): Reads code bytes at pc plus an offset through the instruction cache. -/
  | ldLiteral (w : Fields)
  /-- ST (R223): Checks the pointer, converts the data at issue and issues the store parts. -/
  | st (w : Fields)
  /-- ATOM (R230): Issues one atomic read-modify-write per lane element, performed at the home. -/
  | atom (w : Fields)
  /-- NARROW (R232): Copies a pointer to a narrower scope and drops clean L1 bytes of its range. -/
  | narrow (w : Fields)
  /-- WIDEN (R232): Copies a pointer to a wider scope and writes dirty L1 bytes of its range home. -/
  | widen (w : Fields)
  /-- LINCLR (R234): Rewrites a 128-byte line at its home and clears its poison. -/
  | linclr (w : Fields)
  /-- PMAKE (R122): Builds a valid pointer from a base, a length and immediate fields. -/
  | pmake (w : Fields)
  /-- PSET (R123): Copies a pointer and replaces one field. -/
  | pset (w : Fields)
  /-- PADD (R124): Moves a pointer by a signed element count and adjusts its length. -/
  | padd (w : Fields)
  /-- PSUB (R125): Writes the element distance between two pointers. -/
  | psub (w : Fields)
  /-- PGET (R125): Writes one field of a pointer. -/
  | pget (w : Fields)
  /-- PCHK (R126): Writes the fault cause that an access would raise, without faulting. -/
  | pchk (w : Fields)
  /-- PMOV (R127): Copies a pointer between p registers and vector quads. -/
  | pmov (w : Fields)
  /-- MMA (R294): Records a matrix arrival at the team's rendezvous latch and holds its fragment registers. -/
  | mma (w : Fields)
  /-- ROSTER (R292): Sets the team's roster from an index mask, or is refused. -/
  | roster (w : Fields)
  /-- ACALLOC (R295): Raises the team's accumulator unit count, or waits, or faults. -/
  | acalloc (w : Fields)
  /-- ACFREE (R296): Releases the team's highest accumulator units once no pending operation names them. -/
  | acfree (w : Fields)
  /-- ACZERO (R297): Zeroes a range of accumulator units, ordered against the matrix engine. -/
  | aczero (w : Fields)
  /-- ACRD (R299): Reads one tile row into registers after the earlier operations on the tile. -/
  | acrd (w : Fields)
  /-- ACWR (R299): Writes one tile row from registers for the active lanes. -/
  | acwr (w : Fields)
  /-- SEALM (R300): Closes the group's open matrix batch and numbers it. -/
  | sealm (w : Fields)
  /-- WAITP (R235): Waits until an in-flight path counter is at most a limit. -/
  | waitp (w : Fields)
  /-- WAITM (R301): Waits on the group's pending matrix batches and merges the team matrix flags. -/
  | waitm (w : Fields)
  /-- WAITC (R301): Waits on the group's pending copy batches. -/
  | waitc (w : Fields)
  /-- WAITH (R378): Waits until a register's hold count is zero, then acquires at pod scope. -/
  | waith (w : Fields)
  /-- SEALC (R300): Closes the group's open copy batch and numbers it. -/
  | sealc (w : Fields)
  /-- ARM (R377): Sets an arm hold expecting a count of delivered words on a register. -/
  | arm (w : Fields)
  /-- BAR_INIT (R303): Sets a barrier's expected arrivals, its scope and its byte expectation. -/
  | barInit (w : Fields)
  /-- BAR_ARRIVE (R304): Issues one local arrival, a release, on the team's barrier. -/
  | barArrive (w : Fields)
  /-- BAR_ARRIVE_REMOTE (R304): Issues one arrival on a barrier of another team of the cluster, counted on path 1. -/
  | barArriveRemote (w : Fields)
  /-- BAR_EXPECT (R305): Adds a byte expectation to a barrier's TX. -/
  | barExpect (w : Fields)
  /-- BAR_WAIT (R306): Waits until the barrier's phase differs from the named parity, then acquires. -/
  | barWait (w : Fields)
  /-- BAR_TRY (R306): Tests whether a barrier wait would be satisfied and writes a mask. -/
  | barTry (w : Fields)
  /-- RDID (R168): Reads a group, grid or residence identity. -/
  | rdid (w : Fields)
  /-- RDCLK (R169): Reads the module cycle counter. -/
  | rdclk (w : Fields)
  /-- VGROW (R170): Raises the group's vector allocation, or waits at the head of the next run, or faults. -/
  | vgrow (w : Fields)
  /-- VSHRINK (R153): Releases the group's highest vector registers to the quarter's pool. -/
  | vshrink (w : Fields)
  /-- GRIDGROW (R171): Asks the dispatcher to raise the grid's group count and stalls for the old count. -/
  | gridgrow (w : Fields)
  /-- XSET (R173): Sets an index register. -/
  | xset (w : Fields)
  /-- XADD (R173): Adds to an index register modulo 2^16. -/
  | xadd (w : Fields)
  /-- XGET (R173): Reads an index register zero-extended. -/
  | xget (w : Fields)
  /-- MYNAME (R379): Writes the group's own name as a regs pointer or a base value. -/
  | myname (w : Fields)
  /-- NAMEINFO (R380): Asks the name directory for a snapshot of a name's state. -/
  | nameinfo (w : Fields)
  /-- POLLPRE (R347): Reads the group's pre-emption request flag. -/
  | pollpre (w : Fields)
  /-- REGION (R346): Makes an explicit region entry at the next instruction. -/
  | region (w : Fields)
  /-- TRAP (R344): Raises the software-trap fault with a code. -/
  | trap (w : Fields)
  /-- BRKPT (R344): Raises the breakpoint fault. -/
  | brkpt (w : Fields)
  /-- HRET (R315): Leaves handler mode at the resume pc. -/
  | hret (w : Fields)
  /-- HRETR (R315): Leaves handler mode and restarts at the region entry pc. -/
  | hretr (w : Fields)
  /-- RDSR (R349): Local form: reads a local system register. -/
  | rdsr (w : Fields)
  /-- RDSR_MGMT (R349): Management form: reads a management register at a byte offset. -/
  | rdsrMgmt (w : Fields)
  /-- WRSR (R349): Local form: writes a local system register. -/
  | wrsr (w : Fields)
  /-- WRSR_MGMT (R349): Management form: releases at package scope, then writes a management register. -/
  | wrsrMgmt (w : Fields)
  /-- TLBINV (R351): Releases, removes matching translations from every TLB and waits for older walks. -/
  | tlbinv (w : Fields)
  /-- MBXS (R352): Debug monitor sends a message into the outbound mailbox ring. -/
  | mbxs (w : Fields)
  /-- MBXR (R352): Debug monitor reads a message from the inbound mailbox ring. -/
  | mbxr (w : Fields)
  /-- IFREAD (R353): Reads a 16-byte code unit through the instruction cache or at the home. -/
  | ifread (w : Fields)
  /-- HALT (R354): Stops and saves the group until it is resumed. -/
  | halt (w : Fields)
  /-- RUN_GRANT (R154): The quarter's arbiter grants the next run to an eligible group by level and age. -/
  | runGrant (core : CoreId) (quarter : Nat)
  /-- RUN_FETCH (R79): The quarter fetches a group's run whole into its instruction buffer. -/
  | runFetch (ctx : Nat)
  /-- LOAD_DATA_LANDS (R134): A load's data is written to its registers, lowers the holds and merges the flags. -/
  | loadDataLands (ctx id : Nat) (resp : Resp)
  /-- IN_FLIGHT_COMPLETION (R211): An in-flight operation completes and lowers its path counter in issue order. -/
  | inFlightCompletion (ctx id : Nat) (resp : Resp)
  /-- ATOMIC_PERFORM (R230): The home atomic unit performs an atomic and returns the old value. -/
  | atomicPerform (ctx id : Nat) (resp : Resp)
  /-- SYNC_ACCESS_PERFORM (R241): A synchronising access is performed at its home slice, with the overlap check when enabled. -/
  | syncAccessPerform (ctx id : Nat) (resp : Resp)
  /-- TRANSLATION_WALK (R200): A die's walker walks the four-level tables for a page and faults or fills the TLBs. -/
  | translationWalk (core : CoreId) (part : Nat) (va : Nat)
  /-- DRAIN (R249): A core writes home dirty global lines of the recorded colours for an acquire. -/
  | drain (line : Nat) (core : CoreId)
  /-- DRAINACK (R249): The home frees the drained record entry and lets the acquire proceed. -/
  | drainack (line : Nat) (core : CoreId)
  /-- GETS (R256): The home serves a request for a shared copy of a line. -/
  | gets (line : Nat) (from_ : Agent)
  /-- GETM (R256): The home serves a request for a modifiable copy of a line. -/
  | getm (line : Nat) (from_ : Agent)
  /-- PUTM (R256): The home takes a modified line back from its owner. -/
  | putm (line : Nat) (from_ : Agent)
  /-- PUTO (R256): The home takes an owned line back from its owner. -/
  | puto (line : Nat) (from_ : Agent)
  /-- PUTE (R256): The home takes back a clean exclusive line without data. -/
  | pute (line : Nat) (from_ : Agent)
  /-- FWDGETS (R257): An owner sends data to a reading requester and moves to O. -/
  | fwdgets (line : Nat) (at_ : Agent)
  /-- FWDGETM (R257): An owner sends data with an ack count to a writing requester and invalidates. -/
  | fwdgetm (line : Nat) (at_ : Agent)
  /-- INV (R257): A sharer invalidates its copy and sends InvAck to the requester. -/
  | inv (line : Nat) (at_ : Agent)
  /-- CNT (R257): An owner upgrading from O records the ack count it awaits. -/
  | cnt (line : Nat) (at_ : Agent)
  /-- BACKINV (R257): A holder gives up its copy to the home, with data when dirty. -/
  | backinv (line : Nat) (at_ : Agent)
  /-- DATA (R257): A requester receives line data with an ack count. -/
  | data (line : Nat) (at_ : Agent)
  /-- DATAE (R257): A requester receives line data in exclusive state. -/
  | datae (line : Nat) (at_ : Agent)
  /-- INVACK (R257): A requester counts one invalidation acknowledgement. -/
  | invack (line : Nat) (at_ : Agent)
  /-- PUTACK (R257): A cache in a write-back transient state reaches I. -/
  | putack (line : Nat) (at_ : Agent)
  /-- BACKACK (R258): The home merges returned data and frees the snoop-filter entry once every answer is in. -/
  | backack (line : Nat) (from_ : Agent)
  /-- RETIRE_NOTICE (R331): A receiver deletes its suppression entries for a retired tag. -/
  | retireNotice (tag : BitVec 64)
  /-- SUPPRESSION_RETRY (R330): The issuer resends a class-D access 64 mesh cycles after a retry answer. -/
  | suppressionRetry (ctx id : Nat)
  /-- SLICE_RETIRE (R208): A slice retirement request drains, invalidates and deals out the slice's buckets. -/
  | sliceRetire (die slice : Nat)
  /-- RETIREMENT_RETRY (R208): A requester reissues a request for a retiring slice after 64 mesh cycles. -/
  | retirementRetry (line : Nat) (from_ : Agent)
  /-- CORRECTABLE_ERROR (R213): A protected structure corrects an error and counts it. -/
  | correctableError (err : ErrorSite)
  /-- UNCORRECTABLE_ERROR (R213): A protected structure meets an uncorrectable error and poisons, drops or kills. -/
  | uncorrectableError (err : ErrorSite)
  /-- PATROL_SCRUB (R213): The scrubber reads HBM and LPDDR lines so that each is read every 24 hours. -/
  | patrolScrub (line : Nat)
  /-- MESH_FLIT_ERROR (R216): A flit's payload or header code fails and is corrected, kills a context or kills the die. -/
  | meshFlitError (err : FlitError)
  /-- CONGESTION_COUNTER_RELOAD (R186): Each quadrant's congestion counter is reloaded every 64 mesh cycles. -/
  | congestionCounterReload (die quadrant flits : Nat)
  /-- VGROW_GRANT (R152): A waiting vgrow is granted in order of first failure once registers are free. -/
  | vgrowGrant (core : CoreId) (quarter : Nat)
  /-- ACALLOC_GRANT (R295): A waiting acalloc is granted once units and quota allow it. -/
  | acallocGrant (core : CoreId)
  /-- PAUSE_EXPIRY (R167): A paused group becomes eligible when its pause time runs out. -/
  | pauseExpiry (ctx : Nat)
  /-- WORK_QUEUE_WRITE (R175): A host write to a queue register block is judged field by field and may post records. -/
  | workQueueWrite (queue word : Nat) (value : BitVec 64)
  /-- RECORD_ACCEPT (R176): The dispatcher copies a pending launch record, numbers it and advances QHEAD. -/
  | recordAccept (queue : Nat)
  /-- DISPATCH (R182): With free capacity the dispatcher places the first fitting candidate. -/
  | dispatch
  /-- HELD_CANDIDATE_RESERVE (R183): A candidate held 100 µs gets a reserved rectangle, or a host event in host-assisted mode. -/
  | heldCandidateReserve
  /-- PREEMPTION_DEADLINE (R319): At DEADLINE a group is saved between runs, at run end, or rolled back at a stall. -/
  | preemptionDeadline (ctx : Nat)
  /-- SAVE (R320): A group's issue stops, its record freezes, engines reach boundaries and its image is written. -/
  | save (ctx : Nat)
  /-- SAVE_FINISHED (R320): A finished save returns the resources and requests a save-finished event. -/
  | saveFinished (ctx : Nat)
  /-- RESOURCE_DEADLOCK_SAVE (R188): The dispatcher saves a victim team to break a vgrow or acalloc deadlock. -/
  | resourceDeadlockSave (core : CoreId)
  /-- GRIDGROW_RESULT (R172): The dispatcher applies a tagged gridgrow once and returns the old count. -/
  | gridgrowResult (ctx : Nat)
  /-- SLOT_RELEASE (R166): An ended group's slot and registers return once its in-flight record is empty. -/
  | slotRelease (ctx : Nat)
  /-- TEAM_END (R144): A team ends once its groups and its engine work are done, freeing its resources. -/
  | teamEnd (launch team : Nat)
  /-- GRID_COMPLETION (R185): After all its writes are performed, the grid's completion record is written and an event requested. -/
  | gridCompletion (launch : Nat)
  /-- EVENT_GRANT (R189): The event arbiter grants one event, numbers it and writes it into its ring. -/
  | eventGrant
  /-- CLUSTER_KILL (R337): Every group of a cluster stops at once, its tags are purged and its resources returned. -/
  | clusterKill (launch cluster reason : Nat)
  /-- SHADOW_MISMATCH (R336): A compare-buffer disagreement starts a decider run that corrects or kills. -/
  | shadowMismatch (ctx : Nat) (err : Option SilentError)
  /-- MATRIX_OPERATION (R270): A staged matrix operation is performed, checked and written to its tile. -/
  | matrixOperation (core : CoreId) (failedChecks : Nat)
  /-- BARRIER_ARRIVAL_APPLY (R302): A local arrival is applied at its barrier once the earlier stores are performed. -/
  | barrierArrivalApply (ctx id : Nat)
  /-- BARRIER_REMOTE_ARRIVAL (R304): A remote arrival is applied at a barrier of another team. -/
  | barrierRemoteArrival (ctx id : Nat)
  /-- COPY_START (R277): A copy start write checks the template and pointers and queues the copy. -/
  | copyStart (ctx id : Nat)
  /-- COPY_CHUNK (R281): The copy engine performs one 4 KiB chunk and counts it at the named barrier. -/
  | copyChunk (core : CoreId) (channel : Nat)
  /-- GATHER_START (R283): A gather start write checks the command block and queues the command. -/
  | gatherStart (ctx id : Nat)
  /-- GATHER_BAG (R286): The gather engine performs one bag of a gather or scatter-add command. -/
  | gatherBag (core : CoreId) (channel : Nat)
  /-- COLLECTIVE_START (R366): A collective start write checks the command block and begins sending chunks. -/
  | collectiveStart (ctx id : Nat)
  /-- REDUCTION_CONTRIBUTION (R367): A contribution or partial reaches a reduction slot and is added in the fixed order. -/
  | reductionContribution (part : Contribution)
  /-- REDUCTION_TOTAL (R367): A chunk's total reaches a contributor's destination and frees the slot. -/
  | reductionTotal (group : Nat) (sequence : BitVec 64) (chunk : Nat) (total : List (BitVec 64))
  /-- REDUCTION_ABORT (R369): A slot aborts on a kill or a lost participant, ending every command with aborted. -/
  | reductionAbort (group : Nat) (sequence : BitVec 64)
  /-- APERTURE_REGISTER_WRITE (R266): A write sets a copy channel's offset or count override register. -/
  | apertureRegisterWrite (ctx id : Nat)
  /-- FLIT_RESEND (R356): A port resends a flit that failed its CRC, going down after 16 failures. -/
  | flitResend (port : Nat) (failures : Nat)
  /-- PORT_STATUS_WRITE (R356): A write enables or takes down a fabric port. -/
  | portStatusWrite (port : Nat) (value : BitVec 64)
  /-- PEER_REQUEST (R359): A peer request is translated at the target and served, refused or parked. -/
  | peerRequest (req : PeerReq)
  /-- PARK_REWALK (R360): A parked request's tables are walked again every 64 µs. -/
  | parkRewalk (index : Nat)
  /-- KEEP_WAITING_NOTICE (R360): A notice restarts the requester's 1 s limit for a parked request. -/
  | keepWaitingNotice (ctx id : Nat)
  /-- REMOTE_FAULT_TIMEOUT (R360): The 1 s limit expires: cause 19 and a cancel. -/
  | remoteFaultTimeout (ctx id : Nat)
  /-- CANCEL (R360): The target drops a parked request not yet performed, or lets it stand. -/
  | cancel (tag : BitVec 64)
  /-- LOST_HOME_TIMEOUT (R362): A request with no answer or notice for 2 s declares its package lost. -/
  | lostHomeTimeout (package : Nat)
  /-- LOST_HOME_TABLE_WRITE (R362): A host write declares a package lost or clears its entry. -/
  | lostHomeTableWrite (index : Nat) (value : BitVec 64)
  /-- MULTICAST_STORE (R365): A multicast packet forks to free branches and members perform the store. -/
  | multicastStore (req : PeerReq) (group : Nat) (offer : TreeOffer)
  /-- MULTICAST_ACK (R365): Member acknowledgements combine up the tree to the issuer. -/
  | multicastAck (tag : BitVec 64) (ack : TreeAck)
  /-- REGS_WORD_DELIVERY (R372): The name directory applies, writes, parks, forwards or drops a delivered register word. -/
  | regsWordDelivery (word : RegsWord)
  /-- REGS_ACK (R372): A sender receives the outcome of a register word, faulting on dead name under DNT. -/
  | regsAck (ctx id : Nat) (outcome : RegsOutcome)
  /-- MIGRATE (R375): MIGCMD operation 1 marks a saved name as moving toward a destination package. -/
  | migrate (command : BitVec 64)
  /-- ADMIT (R375): MIGCMD operation 2 creates a guest entry for a migrated name at the destination. -/
  | admitName (command : BitVec 64)
  /-- HOST_MEMRD (R382): A host CXL.mem read is served at the line's home slice. -/
  | hostMemrd (offset : Nat) (exclusive : Bool)
  /-- HOST_MEMWR (R382): A host CXL.mem write is performed at the home before Cmp is sent. -/
  | hostMemwr (offset : Nat) (bytes : List Byte)
  /-- HOST_SNOOP (R381): The home slice of a tier-2 line answers a host snoop for the module. -/
  | hostSnoop (line : Nat) (invalidate : Bool)
  /-- BIAS_FLIP_TO_HOST (R387): A bias command with DIR 1 flushes the page's lines and flips it to host bias. -/
  | biasFlipToHost (command : BitVec 64)
  /-- BIAS_FLIP_TO_DEVICE (R388): A bias command with DIR 0 back-invalidates host copies and flips the page to device bias. -/
  | biasFlipToDevice (command : BitVec 64)
  /-- PAGEFLUSH (R396): A core walks its L1 for the page's lines, writes dirty bytes home and answers FlushAck. -/
  | pageflush (core : CoreId)
  /-- FLUSHACK (R396): After the last FlushAck the homes flush each line of the page to memory. -/
  | flushack (core : CoreId)
  /-- BISNPINV (R385): The home asks the host to give up a cached line of a host-bias page. -/
  | bisnpinv (line : Nat)
  /-- BISNPDATA (R385): The home recalls data of a host-cached line before a device load. -/
  | bisnpdata (line : Nat)
  /-- BIRSPI (R388): The host's answer clears the back-invalidate filter entry. -/
  | birspi (line : Nat)
  /-- FAULT_REPLY_RESUME (R391): A fault reply with action 0 resumes the waiting context or walks again. -/
  | faultReplyResume (part ctx : Nat)
  /-- FAULT_REPLY_REFUSE (R391): A fault reply with action 1 delivers the fault or refuses the parked request. -/
  | faultReplyRefuse (part ctx : Nat)
  /-- MONITOR_SUSPEND (R342): Mailbox command 1 raises a context's request flag and replies once it is saved. -/
  | monitorSuspend (die : Nat)
  /-- MONITOR_RESUME (R342): Mailbox command 2 makes a saved context a candidate. -/
  | monitorResume (die : Nat)
  /-- READ_IMAGE (R342): Mailbox command 3 replies with bytes of a context image. -/
  | readImage (die : Nat)
  /-- WRITE_IMAGE (R342): Mailbox command 4 writes permitted bytes of a saved image. -/
  | writeImage (die : Nat)
  /-- READ_MEMORY (R342): Mailbox command 5 replies with bytes read by a package-scope load. -/
  | readMemory (die : Nat)
  /-- WRITE_MEMORY (R342): Mailbox command 6 writes bytes and releases at package scope. -/
  | writeMemory (die : Nat)
  /-- CONTEXT_SAVE (R405): Context request action 0 saves every group of the context's cluster. -/
  | contextSave (part ctx : Nat)
  /-- CONTEXT_RESUME (R405): Context request action 1 makes a saved or halted cluster a candidate. -/
  | contextResume (part ctx : Nat)
  /-- CONTEXT_KILL (R405): Context request action 2 kills the context's cluster with reason 9. -/
  | contextKill (part ctx : Nat)
  /-- CHIP_WINDOW_WRITE (R195): A chip window write takes effect unless it overflows, overlaps or meets resident contexts. -/
  | chipWindowWrite (part die : Nat) (value : BitVec 64)
  /-- DISPATCH_CONTROL_WRITE (R401): A write sets PLEVEL and DEADLINE, raising a DEADLINE below 1,024 to 1,024. -/
  | dispatchControlWrite (value : BitVec 64)
  /-- FABRIC_BASE_WRITE (R403): A route or multicast base write takes effect unless it reaches the reserved range. -/
  | fabricBaseWrite (multicast : Bool) (value : BitVec 64)
  /-- POWER_WRITE (R407): A write sets the module power cap, clamped to 1,000 to 5,000 W. -/
  | powerWrite (value : BitVec 64)
  /-- POWER_PERIOD (R407): Every 10 µs the arbiter reads currents and sets die and core allowances. -/
  | powerPeriod (watts : List Nat)
  /-- ATTESTATION (R410): A GO write to the attestation register writes the signed report to the named address. -/
  | attestation (value : BitVec 64)
  /-- RESET (R411): A write of 1 to RESET ends every context and runs the bring-up sequence. -/
  | reset (value : BitVec 64)
  /-- POWER_ON (R411): Power-on runs the bring-up sequence to READY. -/
  | powerOn
  /-- MANAGEMENT_REGISTER_WRITE (R399): A write to a management register with no behaviour of its own sets its writable fields. -/
  | managementRegisterWrite (offset : Nat) (value : BitVec 64)
  /-- LINK_TRAINED (R356): A fabric port finishes link training, sets UP and joins the set of usable ports that routing chooses from. -/
  | linkTrained (port : Nat)
  /-- HOST_MAILBOX_WRITE (R341): A host CXL.io write places a message in the debug monitor's inbound ring, or advances the inbound tail or the outbound head. -/
  | hostMailboxWrite (die offset : Nat) (bytes : List Byte)
  /-- RELAUNCH_ORDER (R338): In host-assisted relaunch mode, the host orders a killed cluster relaunched, and the cluster becomes a candidate again. -/
  | relaunchOrder (launch cluster : Nat)
  deriving DecidableEq, Repr

end Sys2Proof
end

