-- ==== Sys2Proof/WellFormed.lean ====
section
/-! DEFINITION. Which words are legal instructions (spec 03 R62 to R73, R77, R82, and each instruction's entry): a `Form`
says what an instruction uses and accepts, and `Form.badPosition` gives the operand position of the first row of R82's
table that a word breaks. `Instr.WellFormed` says a program instruction breaks none. -/
namespace Sys2Proof

/-- The operand type that TYPE codes (R62); codes 14 and 15 are reserved. -/
def Ty.ofCode : BitVec 4 → Option Ty
  | 0 => some .i32 | 1 => some .n32 | 2 => some .i64 | 3 => some .n64 | 4 => some .f32 | 5 => some .f64
  | 6 => some .f16x2 | 7 => some .bf16x2 | 8 => some .i16x2 | 9 => some .n16x2 | 10 => some .i8x4 | 11 => some .n8x4
  | 12 => some .b32 | 13 => some .b64 | _ => none

/-- Types 2, 3, 5 and 13 take an even/odd pair in vector registers (R62). -/
def Ty.wide : Ty → Bool
  | .i64 | .n64 | .f64 | .b64 => true
  | _ => false

/-- Element width in bits of a scalar type, and the register width of a packed one (R62, R38). -/
def Ty.width (t : Ty) : Nat := if t.wide then 64 else 32

/-- Packed types hold several elements in one lane value (R38). -/
def Ty.packed : Ty → Bool
  | .f16x2 | .bf16x2 | .i16x2 | .n16x2 | .i8x4 | .n8x4 => true
  | _ => false

/-- Signed integer types (R37, R38). -/
def Ty.signed : Ty → Bool
  | .i32 | .i64 | .i16x2 | .i8x4 => true
  | _ => false

/-- The operand type of a word; a reserved code reads as b32 and is never well formed. -/
def Fields.type (w : Fields) : Ty := (Ty.ofCode w.ty).getD .b32

/-- MOD bit n. -/
def Fields.modBit (w : Fields) (n : Nat) : Bool := w.mod.getLsbD n

/-- MOD bits lo+n-1 : lo as a number. -/
def Fields.modBits (w : Fields) (lo n : Nat) : Nat := bitsAt lo n w.mod.toNat

/-- IMM bits lo+n-1 : lo as a number. -/
def Fields.immBits (w : Fields) (lo n : Nat) : Nat := bitsAt lo n w.imm.toNat

/-- What an operand position accepts (R67 to R71). `files = []` and no latch: the position is not used. -/
structure OpSpec where
  files : List File := []
  latch : Bool := false
  pat : Bool := false
  neg : Bool := false
  deriving DecidableEq, Repr

/-- Not used: the field must be zero (R63). -/
def OpSpec.none : OpSpec := {}
/-- A v or s register or a latch, with permutations (R101). -/
def OpSpec.any : OpSpec := { files := [.v, .s], latch := true, pat := true }
/-- The same, and NEG is defined (R68). -/
def OpSpec.anyNeg : OpSpec := { OpSpec.any with neg := true }
/-- A v register or a latch. -/
def OpSpec.vec : OpSpec := { files := [.v], latch := true, pat := true }
/-- A v register named as a register, PAT 0 (R293, R376). -/
def OpSpec.vreg : OpSpec := { files := [.v] }
/-- An s register or a latch (R291). -/
def OpSpec.uni : OpSpec := { files := [.s], latch := true, pat := true }
/-- A k register (R104, R119). -/
def OpSpec.kreg : OpSpec := { files := [.k] }
/-- A p register. -/
def OpSpec.preg : OpSpec := { files := [.p] }
/-- A p register or a v quad used as a pointer (R71). -/
def OpSpec.ptr : OpSpec := { files := [.p, .v] }

/-- What an instruction's entry says of its word. -/
structure Form where
  /-- Accepted destination files; `[]`: no register result (R63). -/
  dst : List File := []
  /-- The result is written later: N and CAP zero (R73). -/
  late : Bool := false
  a : OpSpec := .none
  b : OpSpec := .none
  c : OpSpec := .none
  /-- IMM bits the instruction uses. -/
  immMask : BitVec 16 := 0
  /-- MOD bits the instruction uses. -/
  modMask : BitVec 6 := 0
  /-- Values of MOD and IMM that the entry allows. -/
  fieldsOk : Bool := true
  /-- Accepted types; `[]`: TYPE is zero. -/
  types : List Ty := []
  /-- A listed type that the named file cannot hold, or a packed type with an immediate (R62, R105). -/
  typeOk : Bool := true
  gOk : Bool := true
  /-- Instructions of R77 need E = 1. -/
  needE : Bool := false
  /-- GRD and GNEG must be zero (taken under row 3 of R82). -/
  unguarded : Bool := false
  deriving DecidableEq, Repr

/-- A PARM within the limits of R69. -/
def Operand.parmOk (o : Operand) : Bool :=
  if o.pat = 0 then o.parm = 0
  else if o.pat = 4 then 1 ≤ o.parm.toNat && o.parm.toNat ≤ 5
  else o.pat ≠ 7

/-- Row 3 of R82 for an operand: an unused field that is not zero. -/
def OpSpec.breaksZero (x : OpSpec) (o : Operand) : Bool := x.files.isEmpty && !x.latch && o ≠ {}

/-- The operand position is used by the instruction. -/
def OpSpec.used (x : OpSpec) : Bool := !x.files.isEmpty || x.latch

/-- Row 6 of R82: the file or latch is not accepted. -/
def OpSpec.breaksFile (x : OpSpec) (o : Operand) : Bool :=
  x.used && (if o.latch then !x.latch else !x.files.contains o.file)

/-- Row 7 of R82: a latch read with other bits set. -/
def OpSpec.breaksLatch (x : OpSpec) (o : Operand) : Bool :=
  x.used && o.latch && (4 ≤ o.num.toNat || o.file ≠ .v || o.idx ≠ 0)

/-- Row 8 of R82: a pattern out of limits, or one where R65 or R71 forbid it. -/
def OpSpec.breaksPat (x : OpSpec) (g : Bool) (o : Operand) : Bool :=
  x.used && (!o.parmOk
    || (o.pat ≠ 0 && (!x.pat || (!o.latch && o.file ≠ .v)))
    || (g && o.pat ≠ 0 && o.pat ≠ 2))

/-- Row 9 of R82: NEG where it is not defined. -/
def OpSpec.breaksNeg (x : OpSpec) (o : Operand) : Bool := x.used && o.neg && !x.neg

/-- The lowest position number whose condition holds: 0 destination, 1 A, 2 B, 3 C. -/
def firstPosition (d a b c : Bool) : Option Nat :=
  if d then some 0 else if a then some 1 else if b then some 2 else if c then some 3 else none

/-- Row 3 of R82: a field that R63 requires to be zero is not. Non-zero N or CAP of an instruction without a register result is
reported at the destination's position, 0, as the later row for N and CAP gives it (log 95). -/
def Form.zeroRow (f : Form) (w : Fields) : Option Nat :=
  match firstPosition
      (f.dst.isEmpty && (w.dnum ≠ 0 || w.dfile ≠ .v || w.didx ≠ 0 || w.n || w.cap ≠ 0))
      (f.a.breaksZero w.a) (f.b.breaksZero w.b) (f.c.breaksZero w.c) with
  | some p => some p
  | none =>
    if w.imm &&& ~~~f.immMask ≠ 0 || w.mod &&& ~~~f.modMask ≠ 0 || (f.types.isEmpty && w.ty ≠ 0)
        || (f.unguarded && (w.grd ≠ 0 || w.gneg)) then some 0xFF else none

/-- Rows 4 and 5 of R82: TYPE and MOD (position 0xFF). An IMM value that an entry calls a bad encoding has no row in R82: it is
taken with these (log 95). -/
def Form.typeRow (f : Form) (w : Fields) : Option Nat :=
  if (!f.types.isEmpty && !(match Ty.ofCode w.ty with | some t => f.types.contains t | none => false))
    || !f.typeOk || !f.fieldsOk then some 0xFF else none

/-- Row 6 of R82. -/
def Form.fileRow (f : Form) (w : Fields) : Option Nat :=
  firstPosition (!f.dst.isEmpty && !w.n && !f.dst.contains w.dfile)
    (f.a.breaksFile w.a) (f.b.breaksFile w.b) (f.c.breaksFile w.c)

/-- Rows 7, 8 and 9 of R82. -/
def Form.operandRows (f : Form) (w : Fields) : Option Nat :=
  match firstPosition false (f.a.breaksLatch w.a) (f.b.breaksLatch w.b) (f.c.breaksLatch w.c) with
  | some p => some p
  | none =>
    match firstPosition false (f.a.breaksPat w.g w.a) (f.b.breaksPat w.g w.b) (f.c.breaksPat w.g w.c) with
    | some p => some p
    | none => firstPosition false (f.a.breaksNeg w.a) (f.b.breaksNeg w.b) (f.c.breaksNeg w.c)

/-- Rows 10 to 12 of R82. -/
def Form.lastRows (f : Form) (w : Fields) : Option Nat :=
  if (w.n && (w.dnum ≠ 0 || w.dfile ≠ .v || w.didx ≠ 0)) || (f.late && (w.n || w.cap ≠ 0)) then some 0
  else if !f.gOk || (f.needE && !w.e) then some 0xFF
  else none

/-- The operand position that the fault record gets for a bad encoding (R82), or none for a legal word. -/
def Form.badPosition (f : Form) (w : Fields) : Option Nat :=
  match f.zeroRow w with
  | some p => some p
  | none =>
    match f.typeRow w with
    | some p => some p
    | none =>
      match f.fileRow w with
      | some p => some p
      | none =>
        match f.operandRows w with
        | some p => some p
        | none => f.lastRows w

/-- Type set A of R104. -/
def Ty.setA : List Ty := [.i32, .n32, .i64, .n64]
/-- Type set P of R104. -/
def Ty.setP : List Ty := [.i16x2, .n16x2, .i8x4, .n8x4]
/-- Type set B of R104. -/
def Ty.setB : List Ty := [.b32, .b64]
/-- Every type (R131). -/
def Ty.all : List Ty :=
  [.i32, .n32, .i64, .n64, .f32, .f64, .f16x2, .bf16x2, .i16x2, .n16x2, .i8x4, .n8x4, .b32, .b64]
/-- The float types of R107. -/
def Ty.floats : List Ty := [.f32, .f64, .f16x2, .bf16x2]
/-- TYPE 0 to 5, the types of conversions and of matrix rows (R113, R298). -/
def Ty.conv : List Ty := [.i32, .n32, .i64, .n64, .f32, .f64]

namespace Form

/-- Operands A, and destination v or s (R101). -/
def alu1 (types : List Ty) : Form := { dst := [.v, .s], a := .any, types := types }
/-- A vector source A read through the crossbar (R157). -/
def cross (types : List Ty) : Form := { dst := [.v, .s], a := .vec, types := types }
/-- Operands A and B. -/
def alu2 (types : List Ty) : Form := { dst := [.v, .s], a := .any, b := .any, types := types }
/-- Operands A, B and C. -/
def alu3 (types : List Ty) : Form := { dst := [.v, .s], a := .any, b := .any, c := .any, types := types }
/-- Operands A and B, B from IMM when MOD bit 5 is set (R105). -/
def aluImm (types : List Ty) (w : Fields) : Form :=
  if w.modBit 5 then
    { dst := [.v, .s], a := .any, immMask := 0xFFFF, modMask := 0x20, types := types, typeOk := !w.type.packed }
  else { alu2 types with modMask := 0x20 }
/-- A mask result: DFILE k and G = 0 (R102). -/
def mask (f : Form) (w : Fields) : Form := { f with dst := [.k], gOk := !w.g }
/-- A predicate instruction of R119. -/
def pred (dst : List File) (a b : OpSpec) (w : Fields) : Form :=
  { dst := dst, a := a, b := b, types := [.b32], gOk := w.g }
/-- A control transfer of R128, R129. -/
def jump (w : Fields) (g : Bool) : Form := { gOk := w.g = g, needE := true }
/-- A group-uniform instruction without a type. -/
def uni1 (w : Fields) : Form := { gOk := w.g }
/-- The source format of a conversion needs its element number in range (R113). -/
def elemOk (code e : Nat) : Bool :=
  code ≤ 13 && (if code ≤ 5 then e = 0 else if code = 8 || code = 9 || code ≥ 12 then true else e ≤ 1)

end Form

/-- The destination formats of `cvtpk` that are 8 bits wide (R112, R114). -/
def Ty.narrow8 (code : Nat) : Bool := code = 8 || code = 9 || code = 12 || code = 13

/-- The number of 1 bits of an 8-bit mask. -/
def Form.pop8 (m : Nat) : Nat := ((List.range 8).filter (fun j => m.testBit j)).length

/-- A roster mask names 2, 4 or 8 groups (R292). -/
def Form.rosterOk (m : Nat) : Bool := Form.pop8 m = 2 || Form.pop8 m = 4 || Form.pop8 m = 8

/-- Tile kind and element format of `acrd` and `acwr` (R298). -/
def Form.tileOk (kind fmt : Nat) : Bool :=
  (kind = 0 && fmt ≤ 1) || (kind = 1 && fmt = 0) || (kind = 2 && fmt = 2)

/-- `myname` has its s form: DFILE names s, or N = 1, where DFILE is zero, and TYPE is that of the s form (R66, R376, log 96). -/
def Fields.mynameWord (w : Fields) : Bool := w.dfile = .s || (w.n && w.ty = 3)

/-- `pollpre` has its k form: DFILE names k, or N = 1, where DFILE is zero, and TYPE is that of the k form (R66, log 96). -/
def Fields.pollpreFlag (w : Fields) : Bool := w.dfile = .k || (w.n && w.ty = 12)

/-- The form of a program instruction, as its entry gives it; `none` for device operations and events. A p destination of `ld` is
accepted only as R221 says: with another TYPE, count or G the word breaks the file row, position 0 (log 95). -/
def Instr.form : Instr → Option Form
  | .iadd w => some (.aluImm (Ty.setA ++ Ty.setP) w)
  | .isub w => some (.aluImm (Ty.setA ++ Ty.setP) w)
  | .imul w => some (.aluImm Ty.setA w)
  | .imulh _ => some (.alu2 Ty.setA)
  | .imad _ => some (.alu3 Ty.setA)
  | .iabs _ => some (.alu1 [.i32, .i64, .i16x2, .i8x4])
  | .imin w => some (.aluImm (Ty.setA ++ Ty.setP) w)
  | .imax w => some (.aluImm (Ty.setA ++ Ty.setP) w)
  | .idiv _ => some (.alu2 Ty.setA)
  | .irem _ => some (.alu2 Ty.setA)
  | .and w => some (.aluImm (Ty.setB ++ Ty.setA) w)
  | .or w => some (.aluImm (Ty.setB ++ Ty.setA) w)
  | .xor w => some (.aluImm (Ty.setB ++ Ty.setA) w)
  | .andn w => some (.aluImm (Ty.setB ++ Ty.setA) w)
  | .shl w => some (.aluImm (Ty.setB ++ Ty.setA) w)
  | .shr w => some (.aluImm (Ty.setB ++ Ty.setA) w)
  | .sar w => some (.aluImm [.i32, .i64] w)
  | .rotl w => some (.aluImm (Ty.setB ++ Ty.setA) w)
  | .bfx w => some ({ Form.alu1 Ty.setA with immMask := 0xFFFF, fieldsOk := 1 ≤ w.immBits 8 8 && w.immBits 0 8 + w.immBits 8 8 ≤ w.type.width })
  | .bfi w => some ({ Form.alu2 Ty.setB with immMask := 0xFFFF, fieldsOk := 1 ≤ w.immBits 8 8 && w.immBits 0 8 + w.immBits 8 8 ≤ w.type.width })
  | .bsel _ => some (.alu3 Ty.setB)
  | .popc _ => some (.alu1 Ty.setB)
  | .clz _ => some (.alu1 Ty.setB)
  | .ctz _ => some (.alu1 Ty.setB)
  | .brev _ => some (.alu1 Ty.setB)
  | .iaddc w => some ((Form.alu2 [.n32, .n64]).mask w)
  | .iaddx _ => some ({ Form.alu2 [.n32, .n64] with c := .kreg })
  | .icmp w => some ({ (Form.aluImm Ty.setA w).mask w with modMask := 0x27, fieldsOk := w.modBits 0 3 ≤ 5 })
  | .sel _ => some ({ Form.alu2 Ty.setB with c := .kreg })
  | .mov _ => some (.alu1 Ty.setB)
  | .ldi w => some ({ dst := [.v, .s, .k], immMask := 0xFFFF, types := Ty.setA ++ Ty.setB, typeOk := !(w.dfile = .k && w.type.wide) })
  | .ldih w => some ({ Form.alu1 (Ty.setB ++ Ty.setA) with immMask := 0xFFFF, modMask := 0x03, fieldsOk := w.type.wide || w.modBits 0 2 ≤ 1 })
  | .fadd _ => some ({ dst := [.v, .s], a := .anyNeg, b := .anyNeg, types := Ty.floats })
  | .fsub _ => some ({ dst := [.v, .s], a := .anyNeg, b := .anyNeg, types := Ty.floats })
  | .fmul _ => some ({ dst := [.v, .s], a := .anyNeg, b := .anyNeg, types := Ty.floats })
  | .ffma _ => some ({ dst := [.v, .s], a := .anyNeg, b := .anyNeg, c := .anyNeg, types := Ty.floats })
  | .fmin _ => some (.alu2 Ty.floats)
  | .fmax _ => some (.alu2 Ty.floats)
  | .frcp _ => some (.alu1 [.f32, .f64])
  | .frsq _ => some (.alu1 [.f32, .f64])
  | .fsqrt _ => some (.alu1 [.f32, .f64])
  | .fdiv _ => some ({ dst := [.v, .s], a := .anyNeg, b := .anyNeg, types := [.f32, .f64] })
  | .fexp2 _ => some (.alu1 [.f32])
  | .flog2 _ => some (.alu1 [.f32])
  | .fsin _ => some (.alu1 [.f32])
  | .fcos _ => some (.alu1 [.f32])
  | .fscale _ => some (.alu2 [.f32, .f64])
  | .fgetexp _ => some (.alu1 [.f32, .f64])
  | .fgetman _ => some (.alu1 [.f32, .f64])
  | .frint _ => some (.alu1 Ty.floats)
  | .fcmp w => some ({ (Form.alu2 [.f32, .f64]).mask w with modMask := 0x07 })
  | .fclass w => some ({ (Form.alu1 [.f32, .f64]).mask w with immMask := 0x03FF })
  | .fdot2 _ => some (.alu3 [.bf16x2, .f16x2])
  | .cvt w => some ({ Form.alu1 Ty.conv with modMask := 0x3F, fieldsOk := Form.elemOk (w.modBits 0 4) (w.modBits 4 2) })
  | .cvtpk w => some (if Ty.narrow8 (w.modBits 0 4) then { Form.alu3 Ty.conv with modMask := 0x1F } else { Form.alu2 Ty.conv with modMask := 0x0F, fieldsOk := 6 ≤ w.modBits 0 4 && w.modBits 0 4 ≤ 13 })
  | .cvtx w => some ({ Form.alu1 Ty.conv with modMask := 0x3F, immMask := 0x000F, fieldsOk := Form.elemOk (w.modBits 0 4) (w.modBits 4 2) && w.immBits 0 3 ≤ 4 })
  | .nqdec _ => some ({ Form.alu3 [.f32] with modMask := 0x07 })
  | .nqenc _ => some ({ Form.alu3 [.f32] with modMask := 0x07 })
  | .setfmt w => some ({ a := .uni, modMask := 0x3F, types := [.b32], gOk := w.g })
  | .setfmtImm w => some ({ immMask := 0xFFFF, modMask := 0x1F, types := [.b32], gOk := w.g })
  | .getfmt w => some ({ dst := [.v, .s], types := [.b32], gOk := w.g || w.n || w.dfile = .v })
  | .getflg _ => some ({ dst := [.v, .s], types := [.b32] })
  | .clrflg w => some ({ immMask := 0x001F, gOk := !w.g })
  | .kand w => some (.pred [.k] .kreg .kreg w)
  | .kor w => some (.pred [.k] .kreg .kreg w)
  | .kxor w => some (.pred [.k] .kreg .kreg w)
  | .kandn w => some (.pred [.k] .kreg .kreg w)
  | .knot w => some (.pred [.k] .kreg .none w)
  | .kmov w => some (.pred [.k, .s] { files := [.k, .s], latch := true, pat := true } .none w)
  | .kpop w => some (.pred [.s] .kreg .none w)
  | .kffs w => some (.pred [.s] .kreg .none w)
  | .vote w => some ({ dst := [.k], a := .vec, types := [.b32], modMask := 0x03, gOk := !w.g })
  | .shfl w => some ({ dst := [.v, .s], a := .vec, b := .any, types := Ty.setB, gOk := !w.g })
  | .shflu w => some ({ dst := [.v, .s], a := .vec, b := .any, types := Ty.setB, gOk := !w.g })
  | .iscan w => some ({ Form.cross Ty.setA with modMask := 0x0F, fieldsOk := w.modBits 0 3 ≤ 5, gOk := !w.g })
  | .fscan w => some ({ Form.cross [.f32, .f64] with modMask := 0x0F, fieldsOk := w.modBits 0 3 ≤ 2, gOk := !w.g })
  | .ired w => some ({ Form.cross Ty.setA with modMask := 0x07, fieldsOk := w.modBits 0 3 ≤ 5, gOk := !w.g })
  | .fred w => some ({ Form.cross [.f32, .f64] with modMask := 0x07, fieldsOk := w.modBits 0 3 ≤ 2, gOk := !w.g })
  | .matchLanes w => some ({ dst := [.v, .s], a := .vec, types := Ty.setB, gOk := !w.g })
  | .compact w => some ({ dst := [.v, .s], a := .vec, b := .kreg, types := Ty.setB, gOk := !w.g })
  | .expand w => some ({ dst := [.v, .s], a := .vec, b := .kreg, types := Ty.setB, gOk := !w.g })
  | .bra w => some ({ Form.jump w false with immMask := 0xFFFF, modMask := 0x03, fieldsOk := w.modBits 0 2 ≤ 2 })
  | .brx w => some ({ Form.jump w false with a := .uni, modMask := 0x03, fieldsOk := w.modBits 0 2 ≤ 2 })
  | .call w => some ({ Form.jump w true with dst := [.s], immMask := 0xFFFF, unguarded := true })
  | .callx w => some ({ Form.jump w true with dst := [.s], a := .uni, unguarded := true })
  | .ret w => some ({ Form.jump w true with a := .uni, unguarded := true })
  | .mark w => some ({ immMask := 0xFFFF, gOk := w.g, unguarded := true })
  | .join w => some ({ Form.jump w true with unguarded := true })
  | .exit w => some (Form.jump w false)
  | .nop _ => some ({})
  | .yield w => some ({ Form.jump w true with unguarded := true })
  | .yieldPause w => some ({ Form.jump w true with immMask := 0xFFFF, modMask := 0x03, fieldsOk := w.modBits 0 2 = 1, unguarded := true })
  | .ld w => some ({ dst := if w.g && w.type = .b64 && w.modBits 0 2 = 0 then [.v, .s, .k, .p] else [.v, .s, .k], late := true, a := .ptr, b := if w.modBit 4 then .any else .none, immMask := 0xFFFF, modMask := 0x17, types := Ty.all, typeOk := !(w.dfile = .k && w.type.wide), gOk := w.g || w.dfile = .v })
  | .ldLiteral w => some ({ dst := if w.g && w.type = .b64 && w.modBits 0 2 = 1 then [.v, .s, .k, .p] else [.v, .s, .k], late := true, immMask := 0xFFFF, modMask := 0x0B, types := Ty.all, typeOk := !(w.dfile = .k && w.type.wide), gOk := w.g || w.dfile = .v })
  | .st w => some ({ a := .ptr, b := if w.modBit 4 then .any else .none, immMask := 0xFFFF, modMask := 0x17, types := Ty.all, c := { files := if w.g && w.type = .b64 && w.modBits 0 2 = 0 then [.v, .s, .p] else [.v, .s], latch := w.modBits 0 2 = 0, pat := true } })
  | .atom w => some ({ dst := if w.modBit 5 then [.v, .s] else [], late := true, a := .ptr, b := if w.modBit 4 then .any else .none, c := .any, immMask := 0xFFFF, modMask := 0x3F, fieldsOk := w.modBits 0 4 ≤ 13, types := Ty.conv ++ Ty.setB, gOk := w.g || w.dfile = .v })
  | .narrow w => some ({ dst := [.p], a := .preg, immMask := 0x0007, fieldsOk := w.immBits 0 3 ≤ 4, gOk := w.g })
  | .widen w => some ({ dst := [.p], a := .preg, immMask := 0x0007, fieldsOk := w.immBits 0 3 ≤ 4, gOk := w.g })
  | .linclr w => some ({ a := .ptr, b := if w.modBit 4 then .uni else .none, c := .vec, immMask := 0xFFFF, modMask := 0x10, types := [.b32], gOk := w.g })
  | .pmake w => some ({ dst := [.p, .v], a := .any, b := .any, immMask := 0xFFFF, modMask := 0x3F, gOk := w.n || (w.dfile = .p) = w.g })
  | .pset w => some ({ dst := [.p, .v], a := .ptr, b := if w.modBit 4 then .none else .any, immMask := if w.modBit 4 then 0xFFFF else 0, modMask := 0x1F, fieldsOk := w.modBits 0 4 ≤ 10, gOk := w.n || (w.dfile = .p) = w.g })
  | .padd w => some ({ dst := [.p, .v], a := .ptr, b := if w.modBit 4 then .none else .any, immMask := if w.modBit 4 then 0xFFFF else 0, modMask := 0x10, gOk := w.n || (w.dfile = .p) = w.g })
  | .psub _ => some ({ dst := [.v, .s], a := .ptr, b := .ptr })
  | .pget w => some ({ dst := [.v, .s], a := .ptr, modMask := 0x0F, fieldsOk := w.modBits 0 4 ≤ 10 })
  | .pchk w => some ({ dst := [.v, .s], a := .ptr, b := if w.modBit 4 then .any else .none, immMask := 0xFFFF, modMask := 0x3F, fieldsOk := !(w.modBit 3 && w.modBit 5), gOk := w.g || w.n || w.dfile = .v })
  | .pmov w => some ({ dst := [.p, .v], a := .ptr, gOk := w.n || (w.dfile = .p) = w.g })
  | .mma w => some ({ a := .vreg, b := .vreg, c := .vreg, immMask := 0x00FF, gOk := w.g, unguarded := true })
  | .roster w => some ({ immMask := 0x00FF, fieldsOk := Form.rosterOk (w.immBits 0 8), gOk := w.g })
  | .acalloc w => some ({ dst := [.s], a := if w.a = {} then .none else .uni, immMask := if w.a = {} then 0x00FF else 0, gOk := w.g })
  | .acfree w => some ({ a := if w.a = {} then .none else .uni, immMask := if w.a = {} then 0x00FF else 0, gOk := w.g })
  | .aczero w => some ({ immMask := 0xFFFF, gOk := w.g })
  | .acrd w => some ({ dst := [.v], b := if w.modBit 5 then .none else .uni, immMask := if w.modBit 5 then 0xFFFF else 0x00FF, modMask := 0x2F, fieldsOk := Form.tileOk (w.modBits 0 2) (w.modBits 2 2), types := Ty.conv, gOk := !w.g })
  | .acwr w => some ({ c := .vec, b := if w.modBit 5 then .none else .uni, immMask := if w.modBit 5 then 0xFFFF else 0x00FF, modMask := 0x2F, fieldsOk := Form.tileOk (w.modBits 0 2) (w.modBits 2 2), types := Ty.conv, gOk := !w.g })
  | .sealm w => some ({ dst := if w.modBit 0 then [.s] else [], modMask := 0x01, gOk := w.g })
  | .waitp w => some ({ a := if w.modBit 5 then .none else .uni, immMask := if w.modBit 5 then 0xFF07 else 0x0007, modMask := 0x20, gOk := w.g })
  | .waitm w => some ({ a := if w.modBit 5 then .none else .uni, immMask := if w.modBit 5 then 0xFF00 else 0, modMask := 0x20, gOk := w.g })
  | .waitc w => some ({ a := if w.modBit 5 then .none else .uni, immMask := if w.modBit 5 then 0xFF00 else 0, modMask := 0x20, gOk := w.g })
  | .waith w => some ({ a := .vreg, gOk := w.g })
  | .sealc w => some ({ dst := if w.modBit 0 then [.s] else [], modMask := 0x01, gOk := w.g })
  | .arm w => some ({ a := .vreg, immMask := 0x003F, fieldsOk := w.immBits 0 6 ≤ 32, gOk := w.g })
  | .barInit w => some ({ a := if w.modBit 5 then .none else .uni, b := if w.b = {} then .none else .uni, immMask := if w.modBit 5 then 0xFFFF else 0x003F, modMask := 0x21, fieldsOk := !w.modBit 5 || (1 ≤ w.immBits 6 10 && w.immBits 6 10 ≤ 768), gOk := w.g })
  | .barArrive w => some ({ immMask := 0x003F, gOk := w.g })
  | .barArriveRemote w => some ({ a := .uni, immMask := 0x003F, modMask := 0x10, gOk := w.g })
  | .barExpect w => some ({ b := if w.modBit 5 then .none else .uni, immMask := if w.modBit 5 then 0xFFFF else 0x003F, modMask := 0x20, gOk := w.g })
  | .barWait w => some ({ a := if w.a = {} then .none else .uni, immMask := if w.a = {} then 0x007F else 0x003F, gOk := w.g })
  | .barTry w => some ({ dst := [.k], a := if w.a = {} then .none else .uni, immMask := if w.a = {} then 0x007F else 0x003F, gOk := w.g })
  | .rdid w => some ({ dst := [.v, .s], modMask := 0x0F, types := [.n32, .n64], gOk := if w.modBits 0 4 = 8 then !w.g && (w.n || w.dfile = .v) else w.g || w.n || w.dfile = .v })
  | .rdclk w => some ({ dst := [.s], types := [.n64], gOk := w.g })
  | .vgrow w => some ({ immMask := 0xFFFF, fieldsOk := w.imm.toNat % 8 = 0 && 8 ≤ w.imm.toNat && w.imm.toNat ≤ 248, gOk := w.g })
  | .vshrink w => some ({ immMask := 0xFFFF, fieldsOk := w.imm.toNat % 8 = 0 && 8 ≤ w.imm.toNat && w.imm.toNat ≤ 248, gOk := w.g })
  | .gridgrow w => some ({ dst := [.s], b := if w.modBit 5 then .none else .uni, immMask := if w.modBit 5 then 0xFFFF else 0, modMask := 0x20, types := [.n64], gOk := w.g })
  | .xset w => some ({ a := if w.modBit 5 then .none else .uni, immMask := if w.modBit 5 then 0xFFFF else 0, modMask := 0x23, fieldsOk := 1 ≤ w.modBits 0 2, gOk := w.g })
  | .xadd w => some ({ a := if w.modBit 5 then .none else .uni, immMask := if w.modBit 5 then 0xFFFF else 0, modMask := 0x23, fieldsOk := 1 ≤ w.modBits 0 2, gOk := w.g })
  | .xget w => some ({ dst := [.v, .s], modMask := 0x03, fieldsOk := 1 ≤ w.modBits 0 2, types := [.n32], gOk := w.g })
  | .myname w => some (if Fields.mynameWord w then { dst := [.s], types := [.n64], gOk := w.g } else { dst := [.p], immMask := 0x00FF, gOk := w.g })
  | .nameinfo w => some ({ dst := [.s], late := true, a := .preg, types := [.n64], gOk := w.g })
  | .pollpre w => some (if Fields.pollpreFlag w then { dst := [.k], types := [.b32], gOk := w.g } else { dst := [.s], types := [.n64], gOk := w.g })
  | .region w => some ({ gOk := w.g, unguarded := true })
  | .trap w => some ({ a := if w.a = {} then .none else .uni, immMask := if w.a = {} then 0xFFFF else 0, gOk := w.g, needE := true })
  | .brkpt w => some ({ gOk := w.g })
  | .hret w => some ({ gOk := w.g, needE := true, unguarded := true })
  | .hretr w => some ({ gOk := w.g, needE := true, unguarded := true })
  | .rdsr w => some ({ dst := [.s], immMask := 0x00FF, fieldsOk := w.immBits 0 8 ≤ 3, types := [.n64], gOk := w.g })
  | .rdsrMgmt w => some ({ dst := [.s], b := .uni, modMask := 0x20, types := [.n64], gOk := w.g })
  | .wrsr w => some ({ a := .uni, immMask := 0x00FF, fieldsOk := w.immBits 0 8 ≤ 3, types := [.b64], gOk := w.g })
  | .wrsrMgmt w => some ({ a := .uni, b := .uni, modMask := 0x20, types := [.b64], gOk := w.g })
  | .tlbinv w => some ({ a := if w.modBits 0 2 = 2 then .none else .uni, b := if w.modBits 0 2 = 1 then .uni else .none, immMask := if w.modBit 4 then 0x000F else 0, modMask := 0x13, fieldsOk := w.modBits 0 2 ≤ 2, gOk := w.g })
  | .mbxs w => some ({ dst := [.k], c := .vec, types := [.b32], gOk := !w.g, unguarded := true })
  | .mbxr w => some ({ dst := [.v], types := [.b32], gOk := !w.g, unguarded := true })
  | .ifread w => some ({ dst := [.p], a := .uni, modMask := 0x01, types := [.b64], gOk := w.g })
  | .halt w => some ({ gOk := w.g, needE := true, unguarded := true })
  | .runGrant _ _ => none
  | .runFetch _ => none
  | .loadDataLands _ _ _ => none
  | .inFlightCompletion _ _ _ => none
  | .atomicPerform _ _ _ => none
  | .syncAccessPerform _ _ _ => none
  | .translationWalk _ _ _ => none
  | .drain _ _ => none
  | .drainack _ _ => none
  | .gets _ _ => none
  | .getm _ _ => none
  | .putm _ _ => none
  | .puto _ _ => none
  | .pute _ _ => none
  | .fwdgets _ _ => none
  | .fwdgetm _ _ => none
  | .inv _ _ => none
  | .cnt _ _ => none
  | .backinv _ _ => none
  | .data _ _ => none
  | .datae _ _ => none
  | .invack _ _ => none
  | .putack _ _ => none
  | .backack _ _ => none
  | .retireNotice _ => none
  | .suppressionRetry _ _ => none
  | .sliceRetire _ _ => none
  | .retirementRetry _ _ => none
  | .correctableError _ => none
  | .uncorrectableError _ => none
  | .patrolScrub _ => none
  | .meshFlitError _ => none
  | .congestionCounterReload _ _ _ => none
  | .vgrowGrant _ _ => none
  | .acallocGrant _ => none
  | .pauseExpiry _ => none
  | .workQueueWrite _ _ _ => none
  | .recordAccept _ => none
  | .dispatch => none
  | .heldCandidateReserve => none
  | .preemptionDeadline _ => none
  | .save _ => none
  | .saveFinished _ => none
  | .resourceDeadlockSave _ => none
  | .gridgrowResult _ => none
  | .slotRelease _ => none
  | .teamEnd _ _ => none
  | .gridCompletion _ => none
  | .eventGrant => none
  | .clusterKill _ _ _ => none
  | .shadowMismatch _ _ => none
  | .matrixOperation _ _ => none
  | .barrierArrivalApply _ _ => none
  | .barrierRemoteArrival _ _ => none
  | .copyStart _ _ => none
  | .copyChunk _ _ => none
  | .gatherStart _ _ => none
  | .gatherBag _ _ => none
  | .collectiveStart _ _ => none
  | .reductionContribution _ => none
  | .reductionTotal _ _ _ _ => none
  | .reductionAbort _ _ => none
  | .apertureRegisterWrite _ _ => none
  | .flitResend _ _ => none
  | .portStatusWrite _ _ => none
  | .peerRequest _ => none
  | .parkRewalk _ => none
  | .keepWaitingNotice _ _ => none
  | .remoteFaultTimeout _ _ => none
  | .cancel _ => none
  | .lostHomeTimeout _ => none
  | .lostHomeTableWrite _ _ => none
  | .multicastStore _ _ _ => none
  | .multicastAck _ _ => none
  | .regsWordDelivery _ => none
  | .regsAck _ _ _ => none
  | .migrate _ => none
  | .admitName _ => none
  | .hostMemrd _ _ => none
  | .hostMemwr _ _ => none
  | .hostSnoop _ _ => none
  | .biasFlipToHost _ => none
  | .biasFlipToDevice _ => none
  | .pageflush _ => none
  | .flushack _ => none
  | .bisnpinv _ => none
  | .bisnpdata _ => none
  | .birspi _ => none
  | .faultReplyResume _ _ => none
  | .faultReplyRefuse _ _ => none
  | .monitorSuspend _ => none
  | .monitorResume _ => none
  | .readImage _ => none
  | .writeImage _ => none
  | .readMemory _ => none
  | .writeMemory _ => none
  | .contextSave _ _ => none
  | .contextResume _ _ => none
  | .contextKill _ _ => none
  | .chipWindowWrite _ _ _ => none
  | .dispatchControlWrite _ => none
  | .fabricBaseWrite _ _ => none
  | .powerWrite _ => none
  | .powerPeriod _ => none
  | .attestation _ => none
  | .reset _ => none
  | .powerOn => none
  | .managementRegisterWrite _ _ => none
  | .linkTrained _ => none
  | .hostMailboxWrite _ _ _ => none
  | .relaunchOrder _ _ => none

/-- The fields of a program instruction. -/
def Instr.fields : Instr → Option Fields
  | .iadd w => some w
  | .isub w => some w
  | .imul w => some w
  | .imulh w => some w
  | .imad w => some w
  | .iabs w => some w
  | .imin w => some w
  | .imax w => some w
  | .idiv w => some w
  | .irem w => some w
  | .and w => some w
  | .or w => some w
  | .xor w => some w
  | .andn w => some w
  | .shl w => some w
  | .shr w => some w
  | .sar w => some w
  | .rotl w => some w
  | .bfx w => some w
  | .bfi w => some w
  | .bsel w => some w
  | .popc w => some w
  | .clz w => some w
  | .ctz w => some w
  | .brev w => some w
  | .iaddc w => some w
  | .iaddx w => some w
  | .icmp w => some w
  | .sel w => some w
  | .mov w => some w
  | .ldi w => some w
  | .ldih w => some w
  | .fadd w => some w
  | .fsub w => some w
  | .fmul w => some w
  | .ffma w => some w
  | .fmin w => some w
  | .fmax w => some w
  | .frcp w => some w
  | .frsq w => some w
  | .fsqrt w => some w
  | .fdiv w => some w
  | .fexp2 w => some w
  | .flog2 w => some w
  | .fsin w => some w
  | .fcos w => some w
  | .fscale w => some w
  | .fgetexp w => some w
  | .fgetman w => some w
  | .frint w => some w
  | .fcmp w => some w
  | .fclass w => some w
  | .fdot2 w => some w
  | .cvt w => some w
  | .cvtpk w => some w
  | .cvtx w => some w
  | .nqdec w => some w
  | .nqenc w => some w
  | .setfmt w => some w
  | .setfmtImm w => some w
  | .getfmt w => some w
  | .getflg w => some w
  | .clrflg w => some w
  | .kand w => some w
  | .kor w => some w
  | .kxor w => some w
  | .kandn w => some w
  | .knot w => some w
  | .kmov w => some w
  | .kpop w => some w
  | .kffs w => some w
  | .vote w => some w
  | .shfl w => some w
  | .shflu w => some w
  | .iscan w => some w
  | .fscan w => some w
  | .ired w => some w
  | .fred w => some w
  | .matchLanes w => some w
  | .compact w => some w
  | .expand w => some w
  | .bra w => some w
  | .brx w => some w
  | .call w => some w
  | .callx w => some w
  | .ret w => some w
  | .mark w => some w
  | .join w => some w
  | .exit w => some w
  | .nop w => some w
  | .yield w => some w
  | .yieldPause w => some w
  | .ld w => some w
  | .ldLiteral w => some w
  | .st w => some w
  | .atom w => some w
  | .narrow w => some w
  | .widen w => some w
  | .linclr w => some w
  | .pmake w => some w
  | .pset w => some w
  | .padd w => some w
  | .psub w => some w
  | .pget w => some w
  | .pchk w => some w
  | .pmov w => some w
  | .mma w => some w
  | .roster w => some w
  | .acalloc w => some w
  | .acfree w => some w
  | .aczero w => some w
  | .acrd w => some w
  | .acwr w => some w
  | .sealm w => some w
  | .waitp w => some w
  | .waitm w => some w
  | .waitc w => some w
  | .waith w => some w
  | .sealc w => some w
  | .arm w => some w
  | .barInit w => some w
  | .barArrive w => some w
  | .barArriveRemote w => some w
  | .barExpect w => some w
  | .barWait w => some w
  | .barTry w => some w
  | .rdid w => some w
  | .rdclk w => some w
  | .vgrow w => some w
  | .vshrink w => some w
  | .gridgrow w => some w
  | .xset w => some w
  | .xadd w => some w
  | .xget w => some w
  | .myname w => some w
  | .nameinfo w => some w
  | .pollpre w => some w
  | .region w => some w
  | .trap w => some w
  | .brkpt w => some w
  | .hret w => some w
  | .hretr w => some w
  | .rdsr w => some w
  | .rdsrMgmt w => some w
  | .wrsr w => some w
  | .wrsrMgmt w => some w
  | .tlbinv w => some w
  | .mbxs w => some w
  | .mbxr w => some w
  | .ifread w => some w
  | .halt w => some w
  | .runGrant _ _ => none
  | .runFetch _ => none
  | .loadDataLands _ _ _ => none
  | .inFlightCompletion _ _ _ => none
  | .atomicPerform _ _ _ => none
  | .syncAccessPerform _ _ _ => none
  | .translationWalk _ _ _ => none
  | .drain _ _ => none
  | .drainack _ _ => none
  | .gets _ _ => none
  | .getm _ _ => none
  | .putm _ _ => none
  | .puto _ _ => none
  | .pute _ _ => none
  | .fwdgets _ _ => none
  | .fwdgetm _ _ => none
  | .inv _ _ => none
  | .cnt _ _ => none
  | .backinv _ _ => none
  | .data _ _ => none
  | .datae _ _ => none
  | .invack _ _ => none
  | .putack _ _ => none
  | .backack _ _ => none
  | .retireNotice _ => none
  | .suppressionRetry _ _ => none
  | .sliceRetire _ _ => none
  | .retirementRetry _ _ => none
  | .correctableError _ => none
  | .uncorrectableError _ => none
  | .patrolScrub _ => none
  | .meshFlitError _ => none
  | .congestionCounterReload _ _ _ => none
  | .vgrowGrant _ _ => none
  | .acallocGrant _ => none
  | .pauseExpiry _ => none
  | .workQueueWrite _ _ _ => none
  | .recordAccept _ => none
  | .dispatch => none
  | .heldCandidateReserve => none
  | .preemptionDeadline _ => none
  | .save _ => none
  | .saveFinished _ => none
  | .resourceDeadlockSave _ => none
  | .gridgrowResult _ => none
  | .slotRelease _ => none
  | .teamEnd _ _ => none
  | .gridCompletion _ => none
  | .eventGrant => none
  | .clusterKill _ _ _ => none
  | .shadowMismatch _ _ => none
  | .matrixOperation _ _ => none
  | .barrierArrivalApply _ _ => none
  | .barrierRemoteArrival _ _ => none
  | .copyStart _ _ => none
  | .copyChunk _ _ => none
  | .gatherStart _ _ => none
  | .gatherBag _ _ => none
  | .collectiveStart _ _ => none
  | .reductionContribution _ => none
  | .reductionTotal _ _ _ _ => none
  | .reductionAbort _ _ => none
  | .apertureRegisterWrite _ _ => none
  | .flitResend _ _ => none
  | .portStatusWrite _ _ => none
  | .peerRequest _ => none
  | .parkRewalk _ => none
  | .keepWaitingNotice _ _ => none
  | .remoteFaultTimeout _ _ => none
  | .cancel _ => none
  | .lostHomeTimeout _ => none
  | .lostHomeTableWrite _ _ => none
  | .multicastStore _ _ _ => none
  | .multicastAck _ _ => none
  | .regsWordDelivery _ => none
  | .regsAck _ _ _ => none
  | .migrate _ => none
  | .admitName _ => none
  | .hostMemrd _ _ => none
  | .hostMemwr _ _ => none
  | .hostSnoop _ _ => none
  | .biasFlipToHost _ => none
  | .biasFlipToDevice _ => none
  | .pageflush _ => none
  | .flushack _ => none
  | .bisnpinv _ => none
  | .bisnpdata _ => none
  | .birspi _ => none
  | .faultReplyResume _ _ => none
  | .faultReplyRefuse _ _ => none
  | .monitorSuspend _ => none
  | .monitorResume _ => none
  | .readImage _ => none
  | .writeImage _ => none
  | .readMemory _ => none
  | .writeMemory _ => none
  | .contextSave _ _ => none
  | .contextResume _ _ => none
  | .contextKill _ _ => none
  | .chipWindowWrite _ _ _ => none
  | .dispatchControlWrite _ => none
  | .fabricBaseWrite _ _ => none
  | .powerWrite _ => none
  | .powerPeriod _ => none
  | .attestation _ => none
  | .reset _ => none
  | .powerOn => none
  | .managementRegisterWrite _ _ => none
  | .linkTrained _ => none
  | .hostMailboxWrite _ _ _ => none
  | .relaunchOrder _ _ => none

/-- A device operation or event, not an instruction of a program. -/
def Instr.isEvent (i : Instr) : Bool := i.fields.isNone

/-- Which form of an opcode with two forms the word of a program instruction has (R86, R117, R167, R304, R349): the
constructor agrees with the bits that select the form. -/
def Instr.selected : Instr → Bool
  | .setfmt w => w.a ≠ {}
  | .setfmtImm w => w.a = {}
  | .yield w => w.mod = 0
  | .yieldPause w => w.mod ≠ 0
  | .ld w => !w.modBit 3
  | .ldLiteral w => w.modBit 3
  | .barArrive w => !w.modBit 4
  | .barArriveRemote w => w.modBit 4
  | .rdsr w => !w.modBit 5
  | .rdsrMgmt w => w.modBit 5
  | .wrsr w => !w.modBit 5
  | .wrsrMgmt w => w.modBit 5
  | _ => true

/-- A program instruction whose word breaks no row of R82 that depends on the word alone. -/
def Instr.WellFormed (i : Instr) : Bool :=
  match i.form, i.fields with
  | some f, some w => i.selected && (f.badPosition w).isNone
  | _, _ => false

end Sys2Proof
end

