-- ==== Sys2Proof/Decode.lean ====
section
/-! DEFINITION. Decoding (spec 03 R61, R67, R82 to R86): the fields of a 128-bit word, the opcode map, rejection by the
operand position of R82, literal pools, and the encoder written from the same tables. -/
namespace Sys2Proof

/-- Register file codes of R61 and R67. -/
def File.ofCode (c : BitVec 2) : File :=
  if c = 0 then .v else if c = 1 then .s else if c = 2 then .p else .k

/-- The code of a register file (R61, R67). -/
def File.code : File → BitVec 2
  | .v => 0 | .s => 1 | .p => 2 | .k => 3

/-- The parts of a 22-bit operand field (R67). -/
def Operand.unpack (b : BitVec 22) : Operand :=
  { num := b.extractLsb' 0 8, file := File.ofCode (b.extractLsb' 8 2), latch := b.getLsbD 10, idx := b.extractLsb' 11 2,
    pat := b.extractLsb' 13 3, parm := b.extractLsb' 16 5, neg := b.getLsbD 21 }

/-- The 22-bit field of an operand (R67). -/
def Operand.pack (o : Operand) : BitVec 22 :=
  BitVec.ofBool o.neg ++ o.parm ++ o.pat ++ o.idx ++ BitVec.ofBool o.latch ++ o.file.code ++ o.num

/-- The fields of a word (R61). -/
def Fields.unpack (x : CodeWord) : Fields :=
  { g := x.getLsbD 10, e := x.getLsbD 11, grd := x.extractLsb' 12 4, gneg := x.getLsbD 16, dnum := x.extractLsb' 17 8,
    dfile := File.ofCode (x.extractLsb' 25 2), n := x.getLsbD 27, cap := x.extractLsb' 28 2, didx := x.extractLsb' 30 2,
    a := Operand.unpack (x.extractLsb' 32 22), b := Operand.unpack (x.extractLsb' 54 22),
    c := Operand.unpack (x.extractLsb' 76 22), imm := x.extractLsb' 98 16, mod := x.extractLsb' 114 6,
    ty := x.extractLsb' 120 4 }

/-- The word with opcode `opc` and these fields; bits 127:124 zero (R61). -/
def Fields.pack (opc : BitVec 10) (w : Fields) : CodeWord :=
  0#4 ++ w.ty ++ w.mod ++ w.imm ++ w.c.pack ++ w.b.pack ++ w.a.pack ++ w.didx ++ w.cap ++ BitVec.ofBool w.n
    ++ w.dfile.code ++ w.dnum ++ BitVec.ofBool w.gneg ++ w.grd ++ BitVec.ofBool w.e ++ BitVec.ofBool w.g ++ opc

/-- The opcode field (R61). -/
def opcodeOf (x : CodeWord) : BitVec 10 := x.extractLsb' 0 10

/-- The opcode map of R83, with the form of an opcode that has two (R86, R117, R167, R304, R349). -/
def Instr.ofOpcode (opc : Nat) (w : Fields) : Option Instr :=
  match opc with
  | 0x000 => some (.iadd w)
  | 0x001 => some (.isub w)
  | 0x002 => some (.imul w)
  | 0x003 => some (.imulh w)
  | 0x004 => some (.imad w)
  | 0x005 => some (.iabs w)
  | 0x006 => some (.imin w)
  | 0x007 => some (.imax w)
  | 0x008 => some (.idiv w)
  | 0x009 => some (.irem w)
  | 0x00A => some (.and w)
  | 0x00B => some (.or w)
  | 0x00C => some (.xor w)
  | 0x00D => some (.andn w)
  | 0x00E => some (.shl w)
  | 0x00F => some (.shr w)
  | 0x010 => some (.sar w)
  | 0x011 => some (.rotl w)
  | 0x012 => some (.bfx w)
  | 0x013 => some (.bfi w)
  | 0x014 => some (.bsel w)
  | 0x015 => some (.popc w)
  | 0x016 => some (.clz w)
  | 0x017 => some (.ctz w)
  | 0x018 => some (.brev w)
  | 0x019 => some (.iaddc w)
  | 0x01A => some (.iaddx w)
  | 0x01B => some (.icmp w)
  | 0x01C => some (.sel w)
  | 0x01D => some (.mov w)
  | 0x01E => some (.ldi w)
  | 0x01F => some (.ldih w)
  | 0x080 => some (.fadd w)
  | 0x081 => some (.fsub w)
  | 0x082 => some (.fmul w)
  | 0x083 => some (.ffma w)
  | 0x084 => some (.fmin w)
  | 0x085 => some (.fmax w)
  | 0x086 => some (.frcp w)
  | 0x087 => some (.frsq w)
  | 0x088 => some (.fsqrt w)
  | 0x089 => some (.fdiv w)
  | 0x08A => some (.fexp2 w)
  | 0x08B => some (.flog2 w)
  | 0x08C => some (.fsin w)
  | 0x08D => some (.fcos w)
  | 0x08E => some (.fscale w)
  | 0x08F => some (.fgetexp w)
  | 0x090 => some (.fgetman w)
  | 0x091 => some (.frint w)
  | 0x092 => some (.fcmp w)
  | 0x093 => some (.fclass w)
  | 0x094 => some (.fdot2 w)
  | 0x100 => some (.cvt w)
  | 0x101 => some (.cvtpk w)
  | 0x102 => some (.cvtx w)
  | 0x103 => some (.nqdec w)
  | 0x104 => some (.nqenc w)
  | 0x105 => some (if w.a = {} then .setfmtImm w else .setfmt w)
  | 0x106 => some (.getfmt w)
  | 0x107 => some (.getflg w)
  | 0x108 => some (.clrflg w)
  | 0x140 => some (.kand w)
  | 0x141 => some (.kor w)
  | 0x142 => some (.kxor w)
  | 0x143 => some (.kandn w)
  | 0x144 => some (.knot w)
  | 0x145 => some (.kmov w)
  | 0x146 => some (.kpop w)
  | 0x147 => some (.kffs w)
  | 0x148 => some (.vote w)
  | 0x180 => some (.shfl w)
  | 0x181 => some (.shflu w)
  | 0x182 => some (.iscan w)
  | 0x183 => some (.fscan w)
  | 0x184 => some (.ired w)
  | 0x185 => some (.fred w)
  | 0x186 => some (.matchLanes w)
  | 0x187 => some (.compact w)
  | 0x188 => some (.expand w)
  | 0x1C0 => some (.bra w)
  | 0x1C1 => some (.brx w)
  | 0x1C2 => some (.call w)
  | 0x1C3 => some (.callx w)
  | 0x1C4 => some (.ret w)
  | 0x1C5 => some (.mark w)
  | 0x1C6 => some (.join w)
  | 0x1C7 => some (.exit w)
  | 0x1C8 => some (.nop w)
  | 0x1C9 => some (if w.mod = 0 then .yield w else .yieldPause w)
  | 0x200 => some (if w.modBit 3 then .ldLiteral w else .ld w)
  | 0x201 => some (.st w)
  | 0x202 => some (.atom w)
  | 0x203 => some (.narrow w)
  | 0x204 => some (.widen w)
  | 0x205 => some (.linclr w)
  | 0x240 => some (.pmake w)
  | 0x241 => some (.pset w)
  | 0x242 => some (.padd w)
  | 0x243 => some (.psub w)
  | 0x244 => some (.pget w)
  | 0x245 => some (.pchk w)
  | 0x246 => some (.pmov w)
  | 0x280 => some (.mma w)
  | 0x281 => some (.roster w)
  | 0x282 => some (.acalloc w)
  | 0x283 => some (.acfree w)
  | 0x284 => some (.aczero w)
  | 0x285 => some (.acrd w)
  | 0x286 => some (.acwr w)
  | 0x287 => some (.sealm w)
  | 0x2C0 => some (.waitp w)
  | 0x2C1 => some (.waitm w)
  | 0x2C2 => some (.waitc w)
  | 0x2C3 => some (.waith w)
  | 0x2C4 => some (.sealc w)
  | 0x2C5 => some (.arm w)
  | 0x2C6 => some (.barInit w)
  | 0x2C7 => some (if w.modBit 4 then .barArriveRemote w else .barArrive w)
  | 0x2C8 => some (.barExpect w)
  | 0x2C9 => some (.barWait w)
  | 0x2CA => some (.barTry w)
  | 0x300 => some (.rdid w)
  | 0x301 => some (.rdclk w)
  | 0x302 => some (.vgrow w)
  | 0x303 => some (.vshrink w)
  | 0x304 => some (.gridgrow w)
  | 0x305 => some (.xset w)
  | 0x306 => some (.xadd w)
  | 0x307 => some (.xget w)
  | 0x308 => some (.myname w)
  | 0x309 => some (.nameinfo w)
  | 0x30A => some (.pollpre w)
  | 0x30B => some (.region w)
  | 0x340 => some (.trap w)
  | 0x341 => some (.brkpt w)
  | 0x342 => some (.hret w)
  | 0x343 => some (.hretr w)
  | 0x344 => some (if w.modBit 5 then .rdsrMgmt w else .rdsr w)
  | 0x345 => some (if w.modBit 5 then .wrsrMgmt w else .wrsr w)
  | 0x346 => some (.tlbinv w)
  | 0x347 => some (.mbxs w)
  | 0x348 => some (.mbxr w)
  | 0x349 => some (.ifread w)
  | 0x34A => some (.halt w)
  | _ => none

/-- The opcode of a program instruction (R83); none for a device operation or event, which has no word. -/
def Instr.opcode : Instr → Option (BitVec 10)
  | .iadd _ => some 0x000
  | .isub _ => some 0x001
  | .imul _ => some 0x002
  | .imulh _ => some 0x003
  | .imad _ => some 0x004
  | .iabs _ => some 0x005
  | .imin _ => some 0x006
  | .imax _ => some 0x007
  | .idiv _ => some 0x008
  | .irem _ => some 0x009
  | .and _ => some 0x00A
  | .or _ => some 0x00B
  | .xor _ => some 0x00C
  | .andn _ => some 0x00D
  | .shl _ => some 0x00E
  | .shr _ => some 0x00F
  | .sar _ => some 0x010
  | .rotl _ => some 0x011
  | .bfx _ => some 0x012
  | .bfi _ => some 0x013
  | .bsel _ => some 0x014
  | .popc _ => some 0x015
  | .clz _ => some 0x016
  | .ctz _ => some 0x017
  | .brev _ => some 0x018
  | .iaddc _ => some 0x019
  | .iaddx _ => some 0x01A
  | .icmp _ => some 0x01B
  | .sel _ => some 0x01C
  | .mov _ => some 0x01D
  | .ldi _ => some 0x01E
  | .ldih _ => some 0x01F
  | .fadd _ => some 0x080
  | .fsub _ => some 0x081
  | .fmul _ => some 0x082
  | .ffma _ => some 0x083
  | .fmin _ => some 0x084
  | .fmax _ => some 0x085
  | .frcp _ => some 0x086
  | .frsq _ => some 0x087
  | .fsqrt _ => some 0x088
  | .fdiv _ => some 0x089
  | .fexp2 _ => some 0x08A
  | .flog2 _ => some 0x08B
  | .fsin _ => some 0x08C
  | .fcos _ => some 0x08D
  | .fscale _ => some 0x08E
  | .fgetexp _ => some 0x08F
  | .fgetman _ => some 0x090
  | .frint _ => some 0x091
  | .fcmp _ => some 0x092
  | .fclass _ => some 0x093
  | .fdot2 _ => some 0x094
  | .cvt _ => some 0x100
  | .cvtpk _ => some 0x101
  | .cvtx _ => some 0x102
  | .nqdec _ => some 0x103
  | .nqenc _ => some 0x104
  | .setfmt _ | .setfmtImm _ => some 0x105
  | .getfmt _ => some 0x106
  | .getflg _ => some 0x107
  | .clrflg _ => some 0x108
  | .kand _ => some 0x140
  | .kor _ => some 0x141
  | .kxor _ => some 0x142
  | .kandn _ => some 0x143
  | .knot _ => some 0x144
  | .kmov _ => some 0x145
  | .kpop _ => some 0x146
  | .kffs _ => some 0x147
  | .vote _ => some 0x148
  | .shfl _ => some 0x180
  | .shflu _ => some 0x181
  | .iscan _ => some 0x182
  | .fscan _ => some 0x183
  | .ired _ => some 0x184
  | .fred _ => some 0x185
  | .matchLanes _ => some 0x186
  | .compact _ => some 0x187
  | .expand _ => some 0x188
  | .bra _ => some 0x1C0
  | .brx _ => some 0x1C1
  | .call _ => some 0x1C2
  | .callx _ => some 0x1C3
  | .ret _ => some 0x1C4
  | .mark _ => some 0x1C5
  | .join _ => some 0x1C6
  | .exit _ => some 0x1C7
  | .nop _ => some 0x1C8
  | .yield _ | .yieldPause _ => some 0x1C9
  | .ld _ | .ldLiteral _ => some 0x200
  | .st _ => some 0x201
  | .atom _ => some 0x202
  | .narrow _ => some 0x203
  | .widen _ => some 0x204
  | .linclr _ => some 0x205
  | .pmake _ => some 0x240
  | .pset _ => some 0x241
  | .padd _ => some 0x242
  | .psub _ => some 0x243
  | .pget _ => some 0x244
  | .pchk _ => some 0x245
  | .pmov _ => some 0x246
  | .mma _ => some 0x280
  | .roster _ => some 0x281
  | .acalloc _ => some 0x282
  | .acfree _ => some 0x283
  | .aczero _ => some 0x284
  | .acrd _ => some 0x285
  | .acwr _ => some 0x286
  | .sealm _ => some 0x287
  | .waitp _ => some 0x2C0
  | .waitm _ => some 0x2C1
  | .waitc _ => some 0x2C2
  | .waith _ => some 0x2C3
  | .sealc _ => some 0x2C4
  | .arm _ => some 0x2C5
  | .barInit _ => some 0x2C6
  | .barArrive _ | .barArriveRemote _ => some 0x2C7
  | .barExpect _ => some 0x2C8
  | .barWait _ => some 0x2C9
  | .barTry _ => some 0x2CA
  | .rdid _ => some 0x300
  | .rdclk _ => some 0x301
  | .vgrow _ => some 0x302
  | .vshrink _ => some 0x303
  | .gridgrow _ => some 0x304
  | .xset _ => some 0x305
  | .xadd _ => some 0x306
  | .xget _ => some 0x307
  | .myname _ => some 0x308
  | .nameinfo _ => some 0x309
  | .pollpre _ => some 0x30A
  | .region _ => some 0x30B
  | .trap _ => some 0x340
  | .brkpt _ => some 0x341
  | .hret _ => some 0x342
  | .hretr _ => some 0x343
  | .rdsr _ | .rdsrMgmt _ => some 0x344
  | .wrsr _ | .wrsrMgmt _ => some 0x345
  | .tlbinv _ => some 0x346
  | .mbxs _ => some 0x347
  | .mbxr _ => some 0x348
  | .ifread _ => some 0x349
  | .halt _ => some 0x34A
  | .runGrant _ _ => none
  | .runFetch _ => none
  | .loadDataLands _ _ _ => none
  | .inFlightCompletion _ _ _ => none
  | .atomicPerform _ _ _ => none
  | .syncAccessPerform _ _ _ => none
  | .translationWalk _ _ _ => none
  | .drain _ _ => none
  | .drainack _ _ => none
  | .gets _ _ => none
  | .getm _ _ => none
  | .putm _ _ => none
  | .puto _ _ => none
  | .pute _ _ => none
  | .fwdgets _ _ => none
  | .fwdgetm _ _ => none
  | .inv _ _ => none
  | .cnt _ _ => none
  | .backinv _ _ => none
  | .data _ _ => none
  | .datae _ _ => none
  | .invack _ _ => none
  | .putack _ _ => none
  | .backack _ _ => none
  | .retireNotice _ => none
  | .suppressionRetry _ _ => none
  | .sliceRetire _ _ => none
  | .retirementRetry _ _ => none
  | .correctableError _ => none
  | .uncorrectableError _ => none
  | .patrolScrub _ => none
  | .meshFlitError _ => none
  | .congestionCounterReload _ _ _ => none
  | .vgrowGrant _ _ => none
  | .acallocGrant _ => none
  | .pauseExpiry _ => none
  | .workQueueWrite _ _ _ => none
  | .recordAccept _ => none
  | .dispatch => none
  | .heldCandidateReserve => none
  | .preemptionDeadline _ => none
  | .save _ => none
  | .saveFinished _ => none
  | .resourceDeadlockSave _ => none
  | .gridgrowResult _ => none
  | .slotRelease _ => none
  | .teamEnd _ _ => none
  | .gridCompletion _ => none
  | .eventGrant => none
  | .clusterKill _ _ _ => none
  | .shadowMismatch _ _ => none
  | .matrixOperation _ _ => none
  | .barrierArrivalApply _ _ => none
  | .barrierRemoteArrival _ _ => none
  | .copyStart _ _ => none
  | .copyChunk _ _ => none
  | .gatherStart _ _ => none
  | .gatherBag _ _ => none
  | .collectiveStart _ _ => none
  | .reductionContribution _ => none
  | .reductionTotal _ _ _ _ => none
  | .reductionAbort _ _ => none
  | .apertureRegisterWrite _ _ => none
  | .flitResend _ _ => none
  | .portStatusWrite _ _ => none
  | .peerRequest _ => none
  | .parkRewalk _ => none
  | .keepWaitingNotice _ _ => none
  | .remoteFaultTimeout _ _ => none
  | .cancel _ => none
  | .lostHomeTimeout _ => none
  | .lostHomeTableWrite _ _ => none
  | .multicastStore _ _ _ => none
  | .multicastAck _ _ => none
  | .regsWordDelivery _ => none
  | .regsAck _ _ _ => none
  | .migrate _ => none
  | .admitName _ => none
  | .hostMemrd _ _ => none
  | .hostMemwr _ _ => none
  | .hostSnoop _ _ => none
  | .biasFlipToHost _ => none
  | .biasFlipToDevice _ => none
  | .pageflush _ => none
  | .flushack _ => none
  | .bisnpinv _ => none
  | .bisnpdata _ => none
  | .birspi _ => none
  | .faultReplyResume _ _ => none
  | .faultReplyRefuse _ _ => none
  | .monitorSuspend _ => none
  | .monitorResume _ => none
  | .readImage _ => none
  | .writeImage _ => none
  | .readMemory _ => none
  | .writeMemory _ => none
  | .contextSave _ _ => none
  | .contextResume _ _ => none
  | .contextKill _ _ => none
  | .chipWindowWrite _ _ _ => none
  | .dispatchControlWrite _ => none
  | .fabricBaseWrite _ _ => none
  | .powerWrite _ => none
  | .powerPeriod _ => none
  | .attestation _ => none
  | .reset _ => none
  | .powerOn => none
  | .managementRegisterWrite _ _ => none
  | .linkTrained _ => none
  | .hostMailboxWrite _ _ _ => none
  | .relaunchOrder _ _ => none

/-- What decoding a word gives: an instruction, or the operand position of a bad encoding of subcode 0 (R82). -/
inductive Decoded where
  | instr (i : Instr)
  | bad (position : Nat)
  deriving DecidableEq, Repr

/-- Decode a word (R82): the rows of the table that depend on the word alone, in the table's order. -/
def decodeWord (x : CodeWord) : Decoded :=
  match Instr.ofOpcode (opcodeOf x).toNat (Fields.unpack x) with
  | none => .bad 0xFF
  | some i =>
    if x.extractLsb' 124 4 ≠ 0 then .bad 0xFF
    else
      match i.form with
      | none => .bad 0xFF
      | some f =>
        match f.badPosition (Fields.unpack x) with
        | some p => .bad p
        | none => .instr i

/-- The instruction of a word, or none. -/
def decode (x : CodeWord) : Option Instr :=
  match decodeWord x with
  | .instr i => some i
  | .bad _ => none

/-- The word of a program instruction (R61, R67, R83). -/
def encode (i : Instr) : Option CodeWord :=
  match i.opcode, i.fields with
  | some opc, some w => some (w.pack opc)
  | _, _ => none

/-- A little-endian number from bytes (R8). -/
def leNat : List Byte → Nat
  | [] => 0
  | b :: bs => b.toNat + 256 * leNat bs

/-- The `n` little-endian bytes of a number (R8). -/
def leBytes : Nat → Nat → List Byte
  | 0, _ => []
  | n + 1, x => BitVec.ofNat 8 x :: leBytes n (x / 256)

/-- Decode the instruction at the head of a byte list, with the bytes that follow it (R61: sixteen bytes). -/
def decodeBytes (bs : List Byte) : Option (Instr × List Byte) :=
  if bs.length < 16 then none
  else match decode (BitVec.ofNat 128 (leNat (bs.take 16))) with
    | some i => some (i, bs.drop 16)
    | none => none

/-- The host's numbering of a table row's bits: bit 0 is the lowest bit of the word. -/
def decodeTableWord (nbits w : Nat) : Option Instr :=
  match decodeBytes (leBytes 16 (w % 2 ^ nbits)) with
  | some (i, _) => some i
  | none => none

/-- The number of pool units after a unit that is a pool header at place `h` of its block (R84). -/
def poolLength (h : Nat) (x : CodeWord) : Option Nat :=
  let len := (x.extractLsb' 10 3).toNat
  if x.extractLsb' 0 10 = 0x3FF ∧ x.extractLsb' 13 115 = 0 ∧ 1 ≤ len ∧ h + len ≤ 7 then some len else none

/-- Which units of a block, from unit `h` on, are pool units; `cover` units are covered by an earlier header (R84, R85). -/
def poolScan : Nat → Nat → List CodeWord → List Bool
  | _, _, [] => []
  | h, 0, x :: xs =>
    match poolLength h x with
    | some len => true :: poolScan (h + 1) len xs
    | none => false :: poolScan (h + 1) 0 xs
  | h, n + 1, _ :: xs => true :: poolScan (h + 1) n xs

/-- Unit `u` of a 128-byte block of eight words is a pool unit (R85). -/
def isPoolUnit (block : List CodeWord) (u : Nat) : Bool := (poolScan 0 0 block).getD u false

end Sys2Proof
end

