-- ==== Sys2Proof/Machine/State.lean ====
section
/-! DEFINITION. The state of one module, as plain data: groups (spec 01, 03, 06, 18), teams, clusters and grids (06, 08),
cores with their L1, engines and TLBs (10, 15), the coherence between dies (12), memory (10), names and fabric (20), host
and management (21, 24). The group that issues is `State.g`; every other group is in `State.gs`. -/
namespace Sys2Proof.Machine
open Sys2Proof

/-- Memory: address and byte, addresses strictly rising, no byte equal to what an unlisted address reads as (zero). -/
abbrev Memory := List Host.Cell

/-- Scratchpad contents: byte address and byte, addresses strictly rising; an unlisted byte reads as `unwritten` says. -/
abbrev Scratch := List Host.Cell

/-- The 128 bytes of a line; byte `i` at bits 8i+7 : 8i. -/
abbrev LineData := BitVec 1024
/-- One bit per byte of a line. -/
abbrev ByteMask := BitVec 128

/-- A fault as its record needs it (R35, R36). -/
structure FaultRec where
  cause : Nat
  depth : Nat := 0
  lane : Nat := 0xFF
  mask : Mask := 0
  pc : Nat := 0
  regionPc : Nat := 0
  regionCount : Nat := 0
  kind : Nat := 0
  pos : Nat := 0xFF
  addr : BitVec 64 := 0
  extra : BitVec 64 := 0
  ptr : Ptr := 0
  deriving DecidableEq, Repr

/-- A fetched unit of a run (R79): a word, a unit covered by a literal pool (R85), a fetch error, or poison of a page with
PCHK = 0, which kills the cluster (R215). -/
inductive Fetched where
  | word (w : CodeWord)
  | pool
  | kill
  | error (cause : Nat) (extra : Nat)
  deriving DecidableEq, Repr

/-- An entry of the mark-join stack (R147). -/
structure StackEntry where
  /-- KIND: `true` path entry, `false` mark entry. -/
  path : Bool
  addr : Nat
  mask : Mask
  fmt : BitVec 18
  deriving DecidableEq, Repr

/-- What a translation gave for one 4 KiB piece of a virtual address space (R199, R200). -/
structure Translation where
  /-- The virtual page number, of 4 KiB. -/
  vpn : Nat
  /-- The physical address of its first byte: tier × 2^52 + frame address. -/
  frame : Nat
  write : Bool
  exec : Bool
  tso : Bool
  pchk : Bool
  deriving DecidableEq, Repr

/-- One lane's part of an access (R223): its pointer, element index, and the data of a store or atomic. -/
structure LaneAcc where
  lane : Nat
  ptr : Ptr
  index : BitVec 64
  /-- Store data per element after conversion, or atomic operands (for `cas`: compare, new). -/
  data : List (BitVec 128) := []
  /-- Elements performed so far, lowest first: a load's data, an atomic's old value, zero for a store. -/
  got : List (BitVec 128) := []
  /-- Bytes of the next element already performed, where a misaligned private access goes byte by byte (R250): offset and byte. -/
  bytes : List (Nat × Byte) := []
  performed : Bool := false
  deriving DecidableEq, Repr

/-- Idempotence classes of R329. -/
inductive IdemClass where
  | i | d | c
  deriving DecidableEq, Repr

/-- Kinds of R327 (and `none` for an empty entry, which is not listed). -/
inductive EntryKind where
  | load | store | atomic | regsStore | engineStart | remoteArrival | copy | gather | literal | scopeWalk | linclr
  | nameInfo | localArrival | gridgrow
  deriving DecidableEq, Repr

/-- One entry of a group's in-flight record (R212, R326, R327). -/
structure Entry where
  /-- The model's handle of the entry: rising in issue order within the group. -/
  id : Nat
  kind : EntryKind
  cls : IdemClass
  path : Nat
  slot : Nat := 0
  slots : Nat := 1
  done : Bool := false
  mod : BitVec 6 := 0
  ty : BitVec 4 := 0
  g : Bool := false
  quad : Bool := false
  dfile : File := .v
  dest : Nat := 0
  anchor : Nat := 0
  tag : BitVec 64 := 0
  mask : Mask := 0
  fmt : BitVec 32 := 0
  lanes : List LaneAcc := []
  /-- Translations of the pages the part touches (global space). -/
  pages : List Translation := []
  /-- Address of the issuing instruction, for a fault reported after issue (R34). -/
  pc : Nat := 0
  /-- The access is counted by its path's counter (R211); not for class-C work. -/
  counted : Bool := true
  /-- Immediate of the instruction: barrier number, new scope or count. -/
  imm : Nat := 0
  /-- For a copy, gather or collective: the command's engine record (core list) number. -/
  work : Nat := 0
  /-- The operation was sent; a request awaiting its peer (R360) with the time its 1 s limit began, and the time it
  was first sent or last heard of (R362). -/
  sentAt : Option Nat := none
  heardAt : Nat := 0
  /-- Retry not before this time (R330). -/
  retryAt : Option Nat := none
  /-- Waits for host service after a failed replay or a held engine fault (R333, R281). -/
  hostWait : Bool := false
  /-- The lines for which the drains of an acquire were sent (R249). -/
  drained : List Nat := []
  /-- The first part of the same instruction; a part of it failed, and later failures are not reported (R34). -/
  instr : Nat := 0
  muted : Bool := false
  /-- Poison was read, with the PCHK of the leaf (R215). -/
  poison : Option Bool := none
  /-- The lowest enabled lane of an instruction with G = 1 (R34). -/
  lane0 : Nat := 0
  /-- The first element of the lowest lane that failed (R35). -/
  failElem : Nat := 0
  /-- The lanes with a multicast pointer have left for their tree (R365). -/
  treeSent : Bool := false
  /-- It was sent, or left by its tree, before a replay or a retry cleared that it had been (R330, R331). -/
  everSent : Bool := false
  everTree : Bool := false
  /-- A restore has yet to send it again (R332); how often that has happened. -/
  replay : Bool := false
  round : Nat := 0
  /-- A `narrow` walked past a line that its request had asked for: what comes back is not kept (R233). -/
  noKeep : Bool := false
  /-- Its instruction closes its region (R317). -/
  closes : Bool := false
  /-- Issued in handler mode: s0 to s7 are hs0 to hs7 (R24). -/
  handler : Bool := false
  deriving DecidableEq, Repr

/-- What a started run waits for (R80, R81): a register hold, an entry or slot, a uniform result, a full batch list. -/
inductive Stall where
  | none
  | hold (reg : Nat)
  | record
  | uniform (entry : Nat)
  | batch
  | tile
  | other
  deriving DecidableEq, Repr

/-- Residence of a context (R137, R323) and how it stands between runs. -/
inductive Status where
  | resident | saved | ended | killed
  deriving DecidableEq, Repr

/-- What a group that is not in a started run waits for, beyond a wait-class instruction. -/
inductive Pending where
  | none
  /-- A refused `vgrow` (R152) or `acalloc` (R295) at its pc. -/
  | vgrow (n : Nat)
  | acalloc (n : Nat)
  /-- A `yield.pause` until the time (R167). -/
  | pause (until_ : Nat)
  /-- Held for host service under PFMODE = 1 (R203), with the undelivered fault. -/
  | host (fault : FaultRec)
  deriving DecidableEq, Repr

/-- The identities of a group (R139) and what its launch record gave it (R177). -/
structure Ident where
  /-- Context number (R321); 2^24, which no context has, in the blank group. -/
  ctx : Nat := 2 ^ 24
  launch : Nat := 0
  index : Nat := 0
  team : Nat := 0
  member : Nat := 0
  cluster : Nat := 0
  teamSize : Nat := 1
  width : Nat := 1
  height : Nat := 1
  perCore : Nat := 1
  part : Nat := 0
  queue : Nat := 0
  system : Bool := false
  monitor : Bool := false
  laneBytes : Nat := 0
  coreBytes : Nat := 0
  clusterBytes : Nat := 0
  barriers : Nat := 0
  entry : Nat := 0
  sideTables : Nat := 0
  templates : Nat := 0
  trapVector : Nat := 0
  nameable : Bool := false
  shadowed : Bool := false
  idempotent : Bool := false
  overlapDebug : Bool := false
  deriving DecidableEq, Repr

/-- Where a group resides (R139): die, core site, quarter, slot, cluster number. -/
structure Place where
  die : Nat := 0
  site : Nat := 0
  quarter : Nat := 0
  slot : Nat := 0
  clusterNo : Nat := 0
  deriving DecidableEq, Repr

/-- The registers of one side of a shadowed group, with where it stands (R334, R336). -/
structure SideRegs where
  v : Vector VReg 256
  alloc : Nat
  s : Vector Word64 64
  hs : Vector Word64 8
  p : Vector Ptr 16
  k : Vector Mask 16
  x : Vector (BitVec 16) 4
  lat : Vector (Vector (Option (BitVec 64)) 32) 4
  fmt : BitVec 32
  flags : Vector (BitVec 5) 32
  pc : Nat
  regionPc : Nat
  regionCount : Nat
  active : Mask
  live : Mask
  stack : List StackEntry
  depth : Nat
  /-- Instructions of the run so far, the next class-D number and the gridgrows completed (R76, R329, R172). -/
  issued : Nat
  seqD : BitVec 22
  gridgrows : Nat
  deriving DecidableEq, Repr

/-- Entries of the load-value queue for one instruction of the leader (R334): `size` registers, each with its value for all 32 lanes, or
one uniform value. What memory returns comes by the parts of the access, each with its elements. -/
structure QueueEntry where
  /-- The instruction: the handle of its first in-flight entry, or the next one to be given; and the region it belongs to. -/
  instr : Nat
  region : Nat
  size : Nat
  lanes : List VReg := []
  uniform : BitVec 128 := 0
  latch : Vector (Option (BitVec 64)) 32 := Vector.replicate 32 none
  parts : List Entry := []
  /-- The shadow has taken it; it is kept for its region's sake (R335). -/
  taken : Bool := false
  deriving DecidableEq, Repr

/-- Where a region of the shadow began: its entry pc and counter, the class-D number and the gridgrows completed there, and the operations that
it has produced since. -/
structure RegionStart where
  pc : Nat := 0
  count : Nat := 0
  seqD : BitVec 22 := 0
  gridgrows : Nat := 0
  ops : Nat := 0
  deriving DecidableEq, Repr

/-- A place of the compare buffer (R335): the leader's operation, in its in-flight parts, and the shadow's; whether it closes its region; what
each side holds after it; and where the shadow's region began. -/
structure Compared where
  instr : Nat
  closes : Bool
  ours : List Entry
  theirs : List Entry
  leader : SideRegs
  shadow : SideRegs
  start : RegionStart := {}
  deriving DecidableEq, Repr

/-- A decider run (R336): its registers, the operations of the region that come before the one in question, and the kept queue entries that it
has not taken. -/
structure Decider where
  regs : SideRegs
  skip : Nat
  queue : List QueueEntry
  deriving DecidableEq, Repr

/-- The shadow of a shadowed group (R334, R335): its slot, its registers, and what stands between it and its leader. It works out each
instruction as its leader issues it; what it produces is compared when its quarter gets it there (log 15). -/
structure Shadow where
  slot : Nat
  quarter : Nat
  /-- Its registers; none before its first instruction, which finds its leader's. -/
  now : Option SideRegs := none
  /-- Its own parts of accesses that return data, by the handle of the leader's part. -/
  wants : List (Nat × Entry) := []
  /-- The load-value queue and the compare buffer, oldest first. -/
  queue : List QueueEntry := []
  compare : List Compared := []
  /-- Its current region. -/
  start : RegionStart := {}
  /-- In-flight entries from this one on belong to no instruction that has been observed. -/
  seen : Nat := 0
  /-- The region of its oldest operation needed more than 256 entries; the region began before the group's last restore. -/
  overflow : Bool := false
  stale : Bool := false
  /-- The compare buffer's oldest operations differ: both sides have stopped; the decider's run (R336). -/
  stopped : Bool := false
  decider : Option Decider := none
  /-- Its image while the group is saved (R323, R335), byte addresses from the image's base. -/
  image : Memory := []
  deriving DecidableEq, Repr

/-- A group (R9): its registers, control state, runs and in-flight record. -/
structure Group where
  id : Ident := {}
  place : Place := {}
  status : Status := .ended
  level : Nat := 7
  -- registers (R9)
  v : Vector VReg 256 := Vector.replicate 256 (VReg.splat 0)
  alloc : Nat := 8
  s : Vector Word64 64 := Vector.replicate 64 0
  hs : Vector Word64 8 := Vector.replicate 8 0
  p : Vector Ptr 16 := Vector.replicate 16 0
  k : Vector Mask 16 := Vector.replicate 16 0
  x : Vector (BitVec 16) 4 := Vector.replicate 4 0
  fmt : BitVec 32 := 0
  flags : Vector (BitVec 5) 32 := Vector.replicate 32 0
  pc : Nat := 0
  regionPc : Nat := 0
  regionCount : Nat := 0
  active : Mask := 0xFFFFFFFF
  live : Mask := 0xFFFFFFFF
  stack : List StackEntry := []
  holds : Vector (BitVec 8) 256 := Vector.replicate 256 0
  depth : Nat := 0
  -- runs (R76 to R80)
  lat : Vector (Vector (Option (BitVec 64)) 32) 4 := Vector.replicate 4 (Vector.replicate 32 none)
  running : Bool := false
  issued : Nat := 0
  ibuf : List Fetched := []
  stall : Stall := .none
  pending : Pending := .none
  -- in-flight record and batches
  entries : List Entry := []
  nextId : Nat := 0
  /-- Parts of the instruction at pc that wait for an entry (R212, R224). -/
  unsent : List Entry := []
  seqD : BitVec 22 := 0
  /-- Class-D tags sent and not yet retired (R329). -/
  liveTags : List (BitVec 64) := []
  openMatrix : List Nat := []
  openCopy : List Nat := []
  /-- Closed, uncompleted batches: number and the operations not yet complete (R274, R282). -/
  matrixBatches : List (Nat × List Nat) := []
  copyBatches : List (Nat × List Nat) := []
  nextMatrix : Nat := 0
  nextCopy : Nat := 0
  gridgrows : Nat := 0
  /-- It has acquired at core scope, so that its releases cover stores of other groups of its core (R244). -/
  taken : Bool := false
  /-- Registers or units reserved for a granted request that has not yet issued again (R152, R295). -/
  granted : Nat := 0
  -- pre-emption (R319)
  request : Bool := false
  /-- The time at which the DEADLINE of the request is reached (R319, R401). -/
  deadline : Nat := 0
  /-- Rolled back at its save (R319); the save was asked for by the host, or by `halt` (R182, R354); a save has begun and has not
  finished (R320). -/
  rolledBack : Bool := false
  hostSave : Bool := false
  saving : Bool := false
  /-- That save is the one of a `halt`, which is always reported (R354). -/
  halted : Bool := false
  /-- Its restore is under way: it has its place again and is not resident yet (R374). -/
  restoring : Bool := false
  /-- A fault has ended it or was reported after its end (R34, R166). -/
  reported : Bool := false
  /-- The faults to be reported at the next run boundaries, one at each (R268, R281). -/
  boundaryFaults : List FaultRec := []
  /-- The record of the depth-1 fault, while a fault met there is held for the host in its place (R203, R314). -/
  heldRecord : Option (List Byte) := none
  -- naming (R370)
  nameSlot : Nat := 0
  nameGen : Nat := 0
  namePackage : Nat := 0
  -- arbitration (R154, R186)
  lastGrant : Option Nat := none
  /-- Grants of its quarter in a row at which it was eligible and not chosen (R155). -/
  waited : Nat := 0
  /-- Of these, the last ones in a row at which no group of a higher level was eligible (R156). -/
  waitedTop : Nat := 0
  memOps : Nat := 0
  memBound : Bool := false
  shadow : Option Shadow := none
  /-- The operations an `acrd` waits for, with its first unit and unit count (R272). -/
  tileWait : Option (List Nat × Nat × Nat) := none
  deriving DecidableEq, Repr

/-- A transaction barrier (R287). -/
structure Barrier where
  phase : Bool := false
  init : Bool := false
  scope : Bool := false
  expArr : Nat := 0
  arr : Nat := 0
  tx : Int := 0
  deriving DecidableEq, Repr

/-- An arrival at the rendezvous latch (R268, R292 to R294). -/
structure Arrival where
  ctx : Nat
  op : Nat
  handle : Nat
  mfa : Nat
  mfb : Nat
  macc : Nat
  regA : Nat
  regB : Nat
  regS : Nat
  /-- The fragment registers it holds (R268). -/
  held : List Nat
  pc : Nat
  mask : Mask
  deriving DecidableEq, Repr

/-- A team (R137): what its groups share. -/
structure Team where
  launch : Nat
  team : Nat
  cluster : Nat
  core : CoreId
  /-- The partition that its resources are charged to (R180, R402). -/
  part : Nat := 0
  size : Nat := 1
  image : Nat := 0
  /-- Serial numbers of the allocations of its scratchpad bytes and of its accumulator units; zero where nothing of the core had been given
  back since bring-up (log 6). -/
  alloc : Nat := 0
  accAlloc : Nat := 0
  resident : Bool := true
  /-- Groups of it were saved while their cluster stays resident, and may return (R182, R188). -/
  savedAlone : Bool := false
  roster : BitVec 8 := 0
  flags : BitVec 5 := 0
  units : Nat := 0
  barriers : List Barrier := []
  /-- Arrivals pending per member, oldest first. -/
  arrivals : List (List Arrival) := []
  lane : Scratch := []
  core_ : Scratch := []
  acc : Scratch := []
  /-- Units whose unlisted bytes are zero: granted by `acalloc`, or cleared (R295, R297). -/
  zeroUnits : List Nat := []
  deriving DecidableEq, Repr

/-- State of a cluster (R141, R182, R337, R338). -/
inductive ClusterState where
  | pending | resident | saved | ended | killed
  deriving DecidableEq, Repr

/-- A cluster: its place, state and relaunches. -/
structure Cluster where
  launch : Nat
  cluster : Nat
  /-- The partition that it is placed in (R180, R402). -/
  part : Nat := 0
  state : ClusterState := .pending
  die : Nat := 0
  site : Nat := 0
  number : Nat := 0
  relaunches : Nat := 0
  /-- Serial number of the allocation of its scratchpad bytes, as of a team's. -/
  alloc : Nat := 0
  mem : Scratch := []
  /-- Ready to be placed again: the save finished, or it was resumed (R182). -/
  candidate : Bool := false
  /-- Admitted from another module and not yet placed here (R402). -/
  unplaced : Bool := false
  /-- Killed in host-assisted relaunch mode: the host may order its relaunch (R338, R406). -/
  assisted : Bool := false
  deriving DecidableEq, Repr

/-- A grid: the retained record and its counts (R176, R185). -/
structure Grid where
  launch : Nat
  queue : Nat
  part : Nat
  system : Bool
  record : List Byte
  groups : Nat
  /-- Clusters made resident so far: the next cluster to become a candidate (R142). -/
  placed : Nat := 0
  faulted : Nat := 0
  lost : List Nat := []
  relaunched : Nat := 0
  /-- Results of gridgrows kept by (group index, ordinal) (R172). -/
  grown : List (Nat × Nat × Nat) := []
  /-- Completed gridgrows by group index, for a group that comes home (R172, R375). -/
  counts : List (Nat × Nat) := []
  /-- Another module's grid, of which contexts were admitted here (R402): nothing of it is dispatched or completed here (log 36). -/
  foreign : Bool := false
  deriving DecidableEq, Repr

/-- What is free on one core site: slots as (quarter, slot), registers of each quarter, scratchpad bytes, accumulator units, barriers. -/
structure FreeShare where
  site : Nat
  slots : List (Nat × Nat)
  regs : List Nat
  spad : Nat
  units : Nat
  barriers : Nat
  deriving DecidableEq, Repr

/-- A held candidate (R182 step 4, R183): since when, whether a shortage of names was reported (R370); once a rectangle is reserved for it,
the die and, of each site, what later candidates may still take there. -/
structure Held where
  launch : Nat
  cluster : Nat
  team : Option Nat := none
  since : Nat
  short : Bool := false
  reserved : Bool := false
  die : Nat := 0
  shares : List FreeShare := []
  deriving DecidableEq, Repr

/-- One 128-byte line of an L1 (R204). -/
structure L1Line where
  /-- Physical line number for a global line; package and virtual line for a peer line. -/
  line : Nat
  peer : Option Nat := none
  vline : Nat
  data : LineData := 0
  valid : ByteMask := 0
  dirty : ByteMask := 0
  colours : BitVec 8 := 0
  /-- Class of the line: `true` read-shared, `false` the plain class. -/
  shared : Bool := false
  wide : Bool := false
  poison : Bool := false
  /-- The partition whose tables reach it (page flush, R396). -/
  stamp : Nat := 0
  deriving DecidableEq, Repr

/-- A cached translation (R202). -/
structure TlbEntry where
  part : Nat
  base : Nat
  size : Nat
  t : Translation
  deriving DecidableEq, Repr

/-- A copy channel's override registers (R266). -/
structure Channel where
  src : BitVec 64 := 0
  dst : BitVec 64 := 0
  count : BitVec 64 := 0
  deriving DecidableEq, Repr

/-- Kinds of engine work (R265). -/
inductive WorkKind where
  | copy | gather | collective
  deriving DecidableEq, Repr

/-- An accepted engine command: a copy, a gather command or a collective (R276, R283, R366). The oldest of a channel runs. -/
structure Work where
  id : Nat
  kind : WorkKind
  core : CoreId
  channel : Nat
  ctx : Nat
  /-- Its class-C entry (R265). -/
  entry : Nat := 0
  /-- Template or command block as read at the start. -/
  block : List Byte
  srcOff : BitVec 64 := 0
  dstOff : BitVec 64 := 0
  count : BitVec 64 := 0
  /-- Next chunk or bag; the bag under way, and the elements of a scatter-add's bag already added (R286); indices that fell outside the
  table. -/
  next : Nat := 0
  cur : Nat := 0
  part : Nat := 0
  missed : Nat := 0
  /-- Its groups were saved (R290). -/
  frozen : Bool := false
  /-- Chunks of a collective whose totals have landed (R368), or bags of a scatter-add performed before earlier ones (R285). -/
  landed : List Nat := []
  /-- Byte offset of its command block in the team's core space. -/
  off : Nat := 0
  /-- The fault for which it waits for the host (R281). -/
  held : Option FaultRec := none
  /-- The tag and lane of its start, which mark its adds (R286). -/
  tag : BitVec 64 := 0
  lane : Nat := 0
  /-- A chunk or bag is under way, with the translations that it reads and writes by (R281, R351). -/
  begun : Bool := false
  pages : List Translation := []
  wpages : List Translation := []
  /-- The elements of the chunk under way have been read and converted: what is still to be written, by element number (R281). -/
  read : Bool := false
  data : List (Int × BitVec 128) := []
  /-- The chunks of a collective that have been sent, and whose totals have not landed, with their tags (R367, R368). -/
  sends : List (Nat × BitVec 64) := []
  deriving DecidableEq, Repr

/-- A write of an accumulator range that follows an operation (R272): bytes at offsets of the team's units, or units cleared. -/
structure TileWrite where
  first : Nat
  units : Nat
  clear : Bool := false
  puts : List (Nat × List Byte) := []
  deriving DecidableEq, Repr

/-- A matrix operation that has reached rendezvous (R268, R270): staged, or waiting for a place with its arrivals. -/
structure MatrixOp where
  id : Nat
  launch : Nat
  team : Nat
  core : CoreId
  handle : Nat
  mfa : Nat
  mfb : Nat
  macc : Nat
  r : Nat
  /-- Each member's arrival, in roster order. -/
  arrivals : List Arrival
  staged : Bool := false
  a : List Byte := []
  b : List Byte := []
  scale : List Byte := []
  after : List TileWrite := []
  deriving DecidableEq, Repr

/-- A line of an instruction cache, by physical line number (R1, R87). -/
structure ILine where
  line : Nat
  data : LineData
  deriving DecidableEq, Repr

/-- A core site's own state: L1, instruction cache, TLB, channels, grants, correctable events (R204, R87, R202, R266, R154, R348). -/
structure Core where
  l1 : List L1Line := []
  icache : List ILine := []
  tlb : List TlbEntry := []
  channels : List Channel := []
  /-- Per quarter, the last grants, newest first: to a memory-bound group; to a level lower than the highest eligible one
  (R155, R186). -/
  grants : List (List (Bool × Bool)) := []
  corece : Nat := 0
  dead : Bool := false
  /-- Teams whose scratchpad bytes, and whose accumulator units, were placed here since bring-up; `acfree` counts as another of the latter
  (log 6). -/
  spadTeams : Nat := 0
  accTeams : Nat := 0
  deriving DecidableEq, Repr

/-- Stable and transient states of R257. -/
inductive CState where
  | I | S | E | M | O | IS_D | IM_AD | IM_A | SM_AD | SM_A | OM_A | MI_A | OI_A | II_A
  deriving DecidableEq, Repr

/-- Message kinds of R255. -/
inductive MsgKind where
  | getS | getM | putM | putO | putE | fwdGetS | fwdGetM | inv | cnt | backInv | data | dataE | invAck | putAck | backAck
  deriving DecidableEq, Repr

/-- A coherence message in flight (R255): it concerns a line; messages of one network between two stops stay in order. -/
structure Msg where
  kind : MsgKind
  line : Nat
  src : Agent
  dst : Agent
  /-- The requester of a forward. -/
  req : Agent := .home
  n : Nat := 0
  data : LineData := 0
  poison : Bool := false
  withData : Bool := false
  /-- Answered with retry by a retiring slice; it is sent again at this time (R208). -/
  retryAt : Option Nat := none
  /-- The request has reached its home and waits there (R258, R263): its number in the order of arrival. -/
  arrived : Option Nat := none
  deriving DecidableEq, Repr

/-- A fill of a core's L1 that a slice holds until its line is stable (R257). -/
structure HeldFill where
  core : CoreId
  shared : Bool
  wide : Bool
  vline : Nat
  part : Nat
  deriving DecidableEq, Repr

/-- A line in a cache of the protocol: a copy slice, or the local agent H (R254, R257). -/
structure CLine where
  agent : Agent
  line : Nat
  st : CState := .I
  data : LineData := 0
  poison : Bool := false
  /-- Acks counted, and the number awaited once known. -/
  acks : Nat := 0
  need : Option Nat := none
  /-- OM_A: Cnt was received. -/
  counted : Bool := false
  deferred : List Msg := []
  /-- Own-die fills, and cores' write-backs, that are held until the line is stable (R257). -/
  fills : List HeldFill := []
  writers : List CoreId := []
  /-- Time of the last use (R263). -/
  stamp : Nat := 0
  deriving DecidableEq, Repr

/-- A directory entry (R256). -/
inductive DirState where
  | I | S | E | M | O
  deriving DecidableEq, Repr

structure Dir where
  line : Nat
  st : DirState := .I
  owner : Agent := .home
  sharers : List Agent := []
  deriving DecidableEq, Repr

/-- A snoop-filter entry (R258): the stamp of its last use; while it is being freed, the BackAcks still awaited. -/
structure Snoop where
  line : Nat
  stamp : Nat
  awaiting : List Agent := []
  freeing : Bool := false
  deriving DecidableEq, Repr

/-- A line in a home slice's memory-side copy (R254). -/
structure HomeLine where
  line : Nat
  data : LineData
  dirty : Bool
  poison : Bool
  stamp : Nat := 0
  deriving DecidableEq, Repr

/-- A read-shared peer line in a slice of a die (R205), with the time of its last use (R263). -/
structure PeerCopy where
  die : Nat
  package : Nat
  part : Nat
  vline : Nat
  data : LineData
  poison : Bool
  stamp : Nat := 0
  /-- The bytes that have come. -/
  valid : ByteMask := 0
  deriving DecidableEq, Repr

/-- A releaser record entry (R248): the cores' masks on a line, oldest first; a drain under way. -/
structure Releaser where
  line : Nat
  core : CoreId
  mask : BitVec 8
  draining : Bool := false
  drained : Bool := false
  deriving DecidableEq, Repr

/-- A suppression entry (R330). -/
structure Suppress where
  /-- Which receiver keeps it: its kind (0 slice, 1 directory, 2 core starts, 3 core barriers, 4 chip stop, 5 cluster owner
  core) and number. -/
  table : Nat
  site : Nat
  tag : BitVec 64
  lane : Nat
  ord : Nat := 0
  old : BitVec 128 := 0
  deriving DecidableEq, Repr

/-- The last synchronising access to a line that was performed (R252). -/
structure LastSync where
  line : Nat
  addr : Nat
  size : Nat
  /-- The grid of the access has the overlap-debug flag. -/
  debug : Bool := false
  /-- Of a list of stores: a plain store, which stands over an older synchronising one (R251). -/
  plain : Bool := false
  deriving DecidableEq, Repr

/-- Pegboard states of R371. -/
structure Peg where
  slot : Nat
  gen : Nat := 0
  st : Nat := 0
  part : Nat := 0
  ctx : Nat := 0
  die : Nat := 0
  site : Nat := 0
  qtr : Nat := 0
  gslot : Nat := 0
  fwd : Nat := 0
  rst : Bool := false
  parked : List RegsWord := []
  deriving DecidableEq, Repr

/-- A guest entry (R371, R375): a name of another package that migrated here. -/
structure Guest where
  package : Nat
  peg : Peg
  deriving DecidableEq, Repr

/-- Which of this module's own requests is parked: its context, its entry, and how often that was replayed (R259, R361). -/
structure OwnRequest where
  ctx : Nat
  entry : Nat
  round : Nat := 0
  deriving DecidableEq, Repr

/-- A parked peer request (R360): when its last notice went out, the failing walk's cause, extra data and address, and that it waits
for the host (R406). -/
structure Parked where
  req : PeerReq
  since : Nat
  cause : Nat
  extra : Nat
  addr : Nat
  assisted : Bool := false
  /-- A request of this module to its own peer space (R259). -/
  own : Option OwnRequest := none
  deriving DecidableEq, Repr

/-- A request from another module of which a misaligned element goes byte by byte (R250): the bytes performed so far, each with its element's
number and its offset, and the PCHK of poison met. -/
structure PeerJob where
  req : PeerReq
  got : List (Nat × Nat × Byte) := []
  poison : Option Bool := none
  deriving DecidableEq, Repr

/-- A Save of the context request register that is under way (R405): its partition, and the cluster that it names. -/
structure SaveRequest where
  part : Nat
  launch : Nat
  cluster : Nat
  deriving DecidableEq, Repr

/-- A reduction slot (R367): contributions not yet added, and the partial sum. -/
structure RedSlot where
  group : Nat
  sequence : BitVec 64
  chunk : Nat
  added : List (Bool × Nat) := []
  waiting : List Contribution := []
  partial_ : List (BitVec 64) := []
  double : Bool := false
  op : Nat := 0
  sentUp : Bool := false
  deriving DecidableEq, Repr

/-- A multicast packet with the branches that have not yet taken it (R365). -/
structure McPacket where
  req : PeerReq
  group : Nat
  branches : BitVec 36
  local_ : Bool
  /-- Children whose acknowledgement is awaited (R365). -/
  awaiting : BitVec 36 := 0
  /-- The cause with which a member refused the store, with its extra data (R359); 0 for none. -/
  status : Nat := 0
  extra : BitVec 64 := 0
  deriving DecidableEq, Repr

/-- A pending event of the event arbiter (R189). -/
structure Event where
  kind : Nat
  part : Nat
  queue : Nat
  launch : Nat
  info : BitVec 64
  deriving DecidableEq, Repr

/-- What the host's answer to a fault-ring entry goes to (R203, R281, R333, R360): a stopped group, an in-flight entry, a parked request. -/
inductive FaultSource where
  | group
  | entry (id : Nat)
  | parked (tag : BitVec 64)
  deriving DecidableEq, Repr

/-- A fault-ring entry that has not been written yet (R390). -/
structure FaultEntry where
  part : Nat
  ctx : Nat
  source : FaultSource
  addr : BitVec 64
  words : List (BitVec 64)
  deriving DecidableEq, Repr

/-- What the module knows of an event or fault ring, by the offset of its register (R390): it holds its entries until its register is
rewritten; an interrupt is due; when the last one was sent. -/
structure Ring where
  off : Nat
  held : Bool := false
  due : Bool := false
  sent : Option Nat := none
  deriving DecidableEq, Repr

/-- A bias flip in progress (R386 to R388, R396). -/
structure Flip where
  page : Nat
  toHost : Bool
  /-- Cores that have not yet walked their L1; cores whose FlushAck is awaited; lines whose flush is complete (R396). -/
  cores : List CoreId := []
  acks : List CoreId := []
  done : List Nat := []
  deriving DecidableEq, Repr

/-- A CXL.mem access of the host to a byte of the window (R381, R382). -/
inductive HostReq where
  | read (offset : Nat) (exclusive : Bool)
  | write (offset : Nat) (bytes : List Byte)
  deriving DecidableEq, Repr

/-- What the module sends out, newest first: to the host, or to other modules. -/
inductive Out where
  | interrupt (vector : Nat)
  | memData (offset : Nat) (data : LineData)
  | memCmp (offset : Nat)
  | snoopResp (line : Nat) (data : Option LineData)
  | biSnp (line : Nat) (data : Bool)
  | request (port : Nat) (target : Nat) (req : PeerReq)
  | writeback (port : Nat) (target part vline : Nat) (data : LineData) (mask : ByteMask) (colours : BitVec 8) (poison : Bool)
  | answer (port : Option Nat) (target : Nat) (tag : BitVec 64) (status : Nat) (data : List (BitVec 128))
  | notice (port : Option Nat) (target : Nat) (tag : BitVec 64)
  | cancel (port : Option Nat) (target : Nat) (tag : BitVec 64)
  | retire (port : Option Nat) (target : Nat) (tag : BitVec 64)
  | partialUp (port group : Nat) (sequence : BitVec 64) (chunk : Nat) (values : List (BitVec 64))
  | totalDown (port group : Nat) (sequence : BitVec 64) (chunk : Nat) (values : List (BitVec 64))
  | multicast (port group : Nat) (req : PeerReq)
  | multicastAck (port : Nat) (tag : BitVec 64) (status : Nat) (extra : BitVec 64)
  | abort (port group : Nat) (sequence : BitVec 64)
  | regsForward (port : Option Nat) (target : Nat) (word : RegsWord)
  | nameForward (port : Option Nat) (target : Nat) (slot fwd : Nat)
  | nameEnded (port : Option Nat) (target slot gen : Nat)
  deriving DecidableEq, Repr

/-- Fabric ports (R356): trained, flits resent. UP and EN are seen through the status register. -/
structure Port where
  port : Nat
  up : Bool := false
  en : Bool := true
  resends : Nat := 0
  deriving DecidableEq, Repr

/-- A slice's status (R207). -/
structure Slice where
  die : Nat
  slice : Nat
  cecnt : Nat := 0
  cethr : Nat := 1024
  retire : Bool := false
  retired : Bool := false
  deriving DecidableEq, Repr

/-- An enabled-site mask with exactly 96 bits set: the four corner sites are disabled (R409, log 3). -/
def harvestDefault : BitVec 100 := BitVec.ofNat 100 (2 ^ 100 - 1 - 1 - 2 ^ 9 - 2 ^ 90 - 2 ^ 99)

/-- What the flash holds (R409, R410): validity of the signatures, the configuration record's format and serial number, the harvest maps, the
slices retired at manufacture, the SerDes and memory trims, the identity's helper data, and the certificate of the attestation key. -/
structure Flash where
  firmwareOk : Bool := true
  configOk : Bool := true
  /-- The enabled-site mask of each die (log 3). -/
  harvest : List (BitVec 100) := List.replicate 9 harvestDefault
  retired : List (Nat × Nat) := []
  format : Nat := 1
  serial : Nat := 0
  trims : List Byte := []
  helperData : List Byte := []
  certificate : List Byte := []
  deriving DecidableEq, Repr

/-- What happens next, as data (log 1): an event, or another group becomes the one that issues. -/
inductive Act where
  | event (i : Instr)
  | focus (ctx : Nat)
  deriving DecidableEq, Repr

/-- The module. -/
structure State where
  -- the model's own fields
  agenda : List Act := []
  free : Nat := 0
  -- groups
  g : Group := {}
  gs : List Group := []
  -- teams, clusters, grids
  teams : List Team := []
  clusters : List Cluster := []
  grids : List Grid := []
  held : List Held := []
  nextLaunch : Nat := 0
  nextAlloc : Nat := 2
  /-- Waiting `vgrow` and `acalloc` requests by context, in the order of first failure (R152, R295). -/
  vgrowQueue : List Nat := []
  acallocQueue : List Nat := []
  /-- The QTAIL writes whose records are not all accepted, in order of arrival: the queue and the tail written (R176). -/
  arrivalOrder : List (Nat × Nat) := []
  -- cores and engines
  cores : List (CoreId × Core) := []
  works : List Work := []
  nextWork : Nat := 0
  ops : List MatrixOp := []
  nextOp : Nat := 0
  -- memory
  mem : Memory := []
  poison : List Nat := []
  chip : Memory := []
  chipPoison : List Nat := []
  homeLines : List HomeLine := []
  dirs : List Dir := []
  snoops : List Snoop := []
  clines : List CLine := []
  peerCopies : List PeerCopy := []
  msgs : List Msg := []
  nextArrival : Nat := 0
  releasers : List Releaser := []
  lastSync : List LastSync := []
  /-- Where synchronising stores wrote, newest first: a byte belongs to the newest that covers it (R251). -/
  wrote : List LastSync := []
  /-- Bytes that overlapping synchronising stores left undefined (R251). -/
  undef : List Nat := []
  suppress : List Suppress := []
  /-- Peer write-backs whose acknowledgement has not come: the core and the target package (R247). -/
  peerWrites : List (CoreId × Nat) := []
  tlb2 : List (Nat × TlbEntry) := []
  /-- Slice map entries that differ from j mod 16, per die (R207). -/
  sliceMap : List (Nat × Nat × Nat) := []
  slices : List Slice := []
  congestion : List (Nat × Nat × Nat) := []
  -- host
  /-- Pages in host bias, and lines in the back-invalidate filter (R385). -/
  hostPages : List Nat := []
  biFilter : List Nat := []
  /-- Lines whose back-invalidate snoops await the host's answer: those of BISnpInv, and those of BISnpData (R385). -/
  biAsked : List Nat := []
  biDataAsked : List Nat := []
  /-- Host accesses that have arrived and are not answered yet, oldest first (R382, R387). -/
  hostReqs : List HostReq := []
  flip : Option Flip := none
  -- names and fabric
  pegs : List Peg := []
  guests : List Guest := []
  ports : List Port := []
  parked : List Parked := []
  peerJobs : List PeerJob := []
  redSlots : List RedSlot := []
  redBuffer : List Contribution := []
  /-- Collectives that must abort: group and sequence number (R369). -/
  aborts : List (Nat × BitVec 64) := []
  packets : List McPacket := []
  /-- The tags of multicast stores that went down from here, with their groups, until their retire notice (R331, R365). -/
  treeTags : List (BitVec 64 × Nat) := []
  out : List Out := []
  -- management
  /-- Management registers without a structure of their own: 8-byte words at their offsets, by offset rising; an unlisted word has its reset value. -/
  regs : List (Nat × BitVec 64) := []
  saveAsked : List SaveRequest := []
  faultBuffer : List FaultEntry := []
  events : List Event := []
  rings : List Ring := []
  nextEvent : Nat := 0
  flash : Flash := {}
  resets : Nat := 0
  /-- Per die, its allowance in watts and the equal share of each of its enabled cores in microwatts (R407). -/
  power : List (Nat × Nat) := []
  time : Nat := 0
  /-- A die was lost (R216). -/
  fatal : Bool := false
  package : Nat := 0
  deriving DecidableEq, Repr

/-- The state after reset: nothing is resident, memory lists nothing, every register at its reset value; the bring-up of
R411 has not run (log 3). The first launch and the first event get sequence number 0 (`nextLaunch`, `nextEvent`): the model's choice, for
R176 and R189 give no first number (log 3). -/
def State.reset : State := {}

/-- Why a step stops the machine. -/
inductive Fault where
  /-- A die was lost to an uncorrectable header error (R216): module-fatal. Raised by `step` in every later step but the grant of a
  report, a power-on and a reset. Safe: the spec gives a module that has lost a die no other behaviour. -/
  | moduleFatal
  deriving DecidableEq, Repr

/-- Why an instruction has no meaning here. -/
inductive Refusal where
  /-- Raised by an arm of `exec` whose instruction the model does not give a meaning. Safe: the machine stops. -/
  | notModelled (mnemonic : String)
  deriving DecidableEq, Repr

/-- An outcome of this machine. -/
abbrev Result := Host.Outcome State Fault Refusal

end Sys2Proof.Machine
end

