-- ==== Sys2Proof/Machine/Mem.lean ====
section
/-! DEFINITION. Operations over memory and tables: bytes of memory and scratchpads, lines, the newest copy of a line among
the caches of spec 12, management registers (24), home slices (R206), and translation (R198 to R203). -/
namespace Sys2Proof.Machine
open Sys2Proof

/-! Association lists. -/

/-- The first entry of a list that satisfies `p`, replaced by `f` of it; the list unchanged when there is none. -/
def modifyFirst {α : Type} (p : α → Bool) (f : α → α) : List α → List α
  | [] => []
  | a :: as => if p a then f a :: as else a :: modifyFirst p f as

/-- Replace the first entry that satisfies `p` by `a`, or add `a` at the end. -/
def putFirst {α : Type} (p : α → Bool) (a : α) : List α → List α
  | [] => [a]
  | b :: bs => if p b then a :: bs else b :: putFirst p a bs

/-- Remove the first entry that satisfies `p`. -/
def dropFirst {α : Type} (p : α → Bool) : List α → List α
  | [] => []
  | a :: as => if p a then as else a :: dropFirst p as

/-- Remove the last entry that satisfies `p`. -/
def dropLastOf {α : Type} (p : α → Bool) (l : List α) : List α := (dropFirst p l.reverse).reverse

/-- The smallest number below `n` that satisfies `p`, counting up from `i`. -/
def findFrom (p : Nat → Bool) : Nat → Nat → Option Nat
  | 0, _ => none
  | n + 1, i => if p i then some i else findFrom p n (i + 1)

/-! Bytes of memory. Addresses are tier × 2^52 + frame address; an unlisted byte is zero (R411 step 7). -/

/-- Read one byte. -/
def memGet : Memory → Nat → Byte
  | [], _ => 0
  | (x, b) :: rest, a => if a = x then b else if a < x then 0 else memGet rest a

/-- Write one byte, keeping the canonical form. -/
def memPut : Memory → Nat → Byte → Memory
  | [], a, b => if b = 0 then [] else [(a, b)]
  | (x, c) :: rest, a, b =>
    if a = x then (if b = 0 then rest else (a, b) :: rest)
    else if a < x then (if b = 0 then (x, c) :: rest else (a, b) :: (x, c) :: rest)
    else (x, c) :: memPut rest a b

/-- The canonical form from a lower bound on: addresses rising, no zero byte. -/
def memWfFrom : Nat → Memory → Bool
  | _, [] => true
  | lo, (x, b) :: rest => lo ≤ x && b ≠ 0 && memWfFrom (x + 1) rest

/-- The canonical form of memory: addresses strictly rising, no listed byte equal to what an unlisted one reads as. -/
def Memory.wf (m : Memory) : Bool := memWfFrom 0 m

/-- Read `n` bytes from an address. -/
def memRead (m : Memory) (a n : Nat) : List Byte := (List.range n).map (fun i => memGet m (a + i))

/-- Write bytes from an address. -/
def memWrite : Memory → Nat → List Byte → Memory
  | m, _, [] => m
  | m, a, b :: bs => memWrite (memPut m a b) (a + 1) bs

/-- What a byte of a scratchpad that was not written since its allocation reads as: zero, to which bring-up cleared it, under the serial numbers
of memory that nothing had used before (R411), else a free value (log 6). -/
def unwritten (alloc a : Nat) : Byte := if alloc < 2 then 0 else Config.freeScratch alloc a

/-- Read one byte of a scratchpad. -/
def scratchGet (alloc : Nat) : Scratch → Nat → Byte
  | [], a => unwritten alloc a
  | (x, b) :: rest, a => if a = x then b else if a < x then unwritten alloc a else scratchGet alloc rest a

/-- Write one byte of a scratchpad. -/
def scratchPut : Scratch → Nat → Byte → Scratch
  | [], a, b => [(a, b)]
  | (x, c) :: rest, a, b =>
    if a = x then (a, b) :: rest else if a < x then (a, b) :: (x, c) :: rest else (x, c) :: scratchPut rest a b

/-- Read `n` bytes of a scratchpad. -/
def scratchRead (alloc : Nat) (m : Scratch) (a n : Nat) : List Byte :=
  (List.range n).map (fun i => scratchGet alloc m (a + i))

/-- Write bytes of a scratchpad. -/
def scratchWrite : Scratch → Nat → List Byte → Scratch
  | m, _, [] => m
  | m, a, b :: bs => scratchWrite (scratchPut m a b) (a + 1) bs

/-! Lines. -/

/-- Byte `i` of a line. -/
def lineByte (d : LineData) (i : Nat) : Byte := d.extractLsb' (8 * i) 8

/-- A line from its bytes. -/
def lineOfBytes (bs : List Byte) : LineData := BitVec.ofNat 1024 (leNat bs)

/-- The bytes of a line. -/
def lineBytes (d : LineData) : List Byte := leBytes 128 d.toNat

/-- The bit mask of a byte mask: 0xFF in each byte whose bit is set, for the lowest `n` bytes from byte `i` on. -/
def spreadMask (m : ByteMask) : Nat → Nat → Nat → Nat
  | 0, _, acc => acc
  | n + 1, i, acc => spreadMask m n (i + 1) (if m.getLsbD i then acc ||| (0xFF <<< (8 * i)) else acc)

/-- `new` in the bytes of the mask, `old` elsewhere. -/
def mergeLine (old new : LineData) (m : ByteMask) : LineData :=
  let k : LineData := BitVec.ofNat 1024 (spreadMask m 128 0 0)
  (old &&& ~~~k) ||| (new &&& k)

/-- The byte mask of `n` bytes from byte `i`, within a line. -/
def byteRange (i n : Nat) : ByteMask := BitVec.ofNat 128 ((2 ^ n - 1) <<< i)

/-- Bytes placed from byte `i` of a line. -/
def placeBytes (i : Nat) (bs : List Byte) : LineData := BitVec.ofNat 1024 (leNat bs <<< (8 * i))

/-- The memory copy of a line. -/
def memLine (m : Memory) (line : Nat) : LineData := lineOfBytes (memRead m (128 * line) 128)

/-- Write the bytes of a line that the mask names. -/
def memPutLine (m : Memory) (line : Nat) (d : LineData) (mask : ByteMask) : Memory :=
  (List.range 128).foldl (fun m i => if mask.getLsbD i then memPut m (128 * line + i) (lineByte d i) else m) m

/-- Every byte of a line. -/
def allBytes : ByteMask := BitVec.allOnes 128

/-! Home slices and agents (R206, R254). -/

/-- The home hash b of R206 of a line number. -/
def homeHash (line : Nat) : Nat :=
  let h := (line % 65536) ^^^ ((line >>> 16) % 65536) ^^^ ((line >>> 32) % 65536) ^^^ ((line >>> 48) % 65536)
  h * 9 / 64

/-- The home die and bucket of a line (R206). -/
def homeDie (line : Nat) : Nat := homeHash line / 1024
/-- The bucket of a line (R206). -/
def homeBucket (line : Nat) : Nat := homeHash line % 1024

/-- Entry `j` of die `d`'s slice map (R207). -/
def State.sliceOf (s : State) (d j : Nat) : Nat :=
  match s.sliceMap.find? (fun e => e.1 = d && e.2.1 = j) with
  | some e => e.2.2
  | none => j % 16

/-- The home slice of a line: die and slice number (R206). -/
def State.homeSlice (s : State) (line : Nat) : Nat × Nat := (homeDie line, s.sliceOf (homeDie line) (homeBucket line))

/-- The slice of die `d` that holds the line (R206 step 4). -/
def State.copySlice (s : State) (d line : Nat) : Nat × Nat := (d, s.sliceOf d (homeBucket line))

/-- The agent through which die `d` reaches a line (R254): H on its home die, the copy slice elsewhere. -/
def agentOf (d line : Nat) : Agent := if d = homeDie line then .home else .copy d

/-- The state of a line in an agent's cache; an unlisted line is in I. -/
def State.cline (s : State) (a : Agent) (line : Nat) : CLine :=
  (s.clines.find? (fun c => c.agent = a && c.line = line)).getD { agent := a, line := line }

/-- Replace the state of a line in an agent's cache; a line in I with nothing kept is unlisted. -/
def State.setCline (s : State) (c : CLine) : State :=
  let rest := s.clines.filter (fun x => !(x.agent = c.agent && x.line = c.line))
  if c.st = .I && c.deferred.isEmpty then { s with clines := rest } else { s with clines := c :: rest }

/-- States in which an agent holds the newest data of the line (R257). -/
def CState.owns : CState → Bool
  | .E | .M | .O | .OM_A | .MI_A | .OI_A | .IM_A | .SM_A => true
  | _ => false

/-- The home's memory-side copy of a line, else memory (R254, R263). -/
def State.homeData (s : State) (line : Nat) : LineData × Bool :=
  match s.homeLines.find? (fun h => h.line = line) with
  | some h => (h.data, h.poison)
  | none => (memLine s.mem line, s.poison.contains line)

/-- A message carries the newest data of its line: it makes its receiver an owner, or brings back a modified line. -/
def State.carriesNewest (s : State) (line : Nat) (m : Msg) : Bool :=
  m.line = line && (match m.kind with
    | .dataE => true
    | .data => (match (s.cline m.dst line).st with | .IM_AD | .SM_AD => true | _ => false)
    | .backAck => m.withData
    | _ => false)

/-- What memory and the home hold of a line, or, where the host caches it, what the host gives back to a recall: the same, or its own newer
data (R385). -/
def State.recalled (s : State) (line : Nat) : LineData × Bool :=
  if s.biFilter.contains line && Config.freeChoice s.free (2 ^ 33 + line) % 2 = 1 then (Config.freeValue 1024 s.free (2 ^ 43 + line), false)
  else s.homeData line

/-- The newest copy of a line in the coherent caches, with its poison mark (R238, R254). -/
def State.newest (s : State) (line : Nat) : LineData × Bool :=
  match s.clines.find? (fun c => c.line = line && c.st.owns) with
  | some c => (c.data, c.poison)
  | none =>
    match s.msgs.find? (s.carriesNewest line) with
    | some m => (m.data, m.poison)
    | none => s.recalled line

/-- A line that the host caches is recalled for an access of the module itself: BISnpInv goes out, and the host's answer is awaited in the same
step (R385, log 9). -/
def State.recallHost (line : Nat) (s : State) : State :=
  if s.biFilter.contains line then
    let d := (s.recalled line).1
    { s with
      homeLines := s.homeLines.map (fun h => if h.line = line then { h with data := d } else h)
      mem := memPutLine s.mem line d allBytes
      biFilter := s.biFilter.filter (· ≠ line), biAsked := s.biAsked.filter (· ≠ line), biDataAsked := s.biDataAsked.filter (· ≠ line)
      out := .biSnp line false :: s.out }
  else s

/-- A write that every copy of the line in the coherent caches sees at once. The module's own writes (images, rings,
completion records) are made so, in one step (log 9). -/
def State.writeLine (s : State) (line : Nat) (d : LineData) (mask : ByteMask) : State :=
  { s with
    clines := s.clines.map (fun c => if c.line = line then { c with data := mergeLine c.data d mask } else c)
    msgs := s.msgs.map (fun m => if m.line = line then { m with data := mergeLine m.data d mask } else m)
    homeLines := s.homeLines.map (fun h => if h.line = line then { h with data := mergeLine h.data d mask } else h)
    mem := memPutLine s.mem line d mask }

/-- Read `n` bytes at a physical address from the newest copies, with whether any line read is poisoned. -/
def State.physRead (s : State) (a : Nat) : Nat → List Byte
  | 0 => []
  | n + 1 => lineByte (s.newest (a / 128)).1 (a % 128) :: s.physRead (a + 1) n

/-- A line of the `n` bytes at a physical address is poisoned. -/
def State.physPoison (s : State) (a n : Nat) : Bool :=
  (List.range ((a % 128 + n + 127) / 128)).any (fun i => (s.newest (a / 128 + i)).2)

/-- Write bytes at a physical address in every copy. -/
def State.physWrite (s : State) (a : Nat) : List Byte → State
  | [] => s
  | b :: bs => ((s.recallHost (a / 128)).writeLine (a / 128) (placeBytes (a % 128) [b]) (byteRange (a % 128) 1)).physWrite (a + 1) bs

/-! Management registers (24). -/

/-- The reset value of a register word that has no structure of its own (R175, R401, R407). -/
def regReset (off : Nat) : BitVec 64 :=
  if off = 0x001000 then BitVec.ofNat 64 (16000 <<< 8)
  else if off = 0x000020 then 5000
  else if 0x100000 ≤ off ∧ off < 0x140000 ∧ off % 32 = 16 then BitVec.ofNat 64 (7 <<< 37)
  else 0

/-- A register word. -/
def State.reg (s : State) (off : Nat) : BitVec 64 :=
  match s.regs.find? (fun r => r.1 = off) with
  | some r => r.2
  | none => regReset off

/-- Insert a word by rising offset. -/
def putWord : List (Nat × BitVec 64) → Nat → BitVec 64 → List (Nat × BitVec 64)
  | [], o, v => [(o, v)]
  | (x, c) :: rest, o, v =>
    if o = x then (o, v) :: rest else if o < x then (o, v) :: (x, c) :: rest else (x, c) :: putWord rest o v

/-- Set a register word; a word at its reset value is not listed. -/
def State.setReg (s : State) (off : Nat) (v : BitVec 64) : State :=
  if v = regReset off then { s with regs := s.regs.filter (fun r => r.1 ≠ off) } else { s with regs := putWord s.regs off v }

/-- A field of a register word, as a number. -/
def State.regField (s : State) (off lo n : Nat) : Nat := bitsAt lo n (s.reg off).toNat

/-- The block of partition `p` (R404). -/
def partBlock (p : Nat) : Nat := 0x010000 + 0x1000 * p
/-- The block of work queue `q` (R175). -/
def queueBlock (q : Nat) : Nat := 0x100000 + 32 * q
/-- READY of R411. -/
def State.ready (s : State) : Bool := (s.reg 0).getLsbD 0
/-- A bit of the mode register (R406): 0 PARK, 1 PRIO, 2 RELAUNCH, 3 BIAS, 4 PEG, 5 POWER, 6 RETIRE. -/
def State.hostMode (s : State) (n : Nat) : Bool := (s.reg 0x10).getLsbD n
/-- PFMODE = 1 of a partition (R198). -/
def State.pfmode (s : State) (p : Nat) : Bool := s.regField (partBlock p + 0x98) 0 2 = 1

/-! Cores. -/

/-- A core's own state. -/
def State.core (s : State) (c : CoreId) : Core :=
  match s.cores.find? (fun x => x.1 = c) with
  | some x => x.2
  | none => {}

/-- Replace a core's own state. -/
def State.setCore (s : State) (c : CoreId) (x : Core) : State :=
  { s with cores := putFirst (fun y => y.1 = c) (c, x) s.cores }

/-- Change several cores' own states. -/
def State.takeCores (f : Core → Core) (l : List CoreId) (s : State) : State := l.foldl (fun s c => s.setCore c (f (s.core c))) s

/-- A correctable event of a core: its counter saturates (R213, R348). -/
def State.corrected (c : CoreId) (s : State) : State :=
  s.setCore c { s.core c with corece := Nat.min (2 ^ 32 - 1) ((s.core c).corece + 1) }

/-- The harvest map enables the site (R409). -/
def State.siteBuilt (s : State) (c : CoreId) : Bool :=
  c.die < Config.dies && c.site < Config.sites && (s.flash.harvest.getD c.die 0).getLsbD c.site

/-- The site is enabled by the harvest map (R409) and its core is alive. -/
def State.siteEnabled (s : State) (c : CoreId) : Bool :=
  s.siteBuilt c && !(s.core c).dead

/-! Translation. -/

/-- The right an access needs (R200): read, write, execute. -/
inductive Right where
  | read | write | exec
  deriving DecidableEq, Repr

/-- The permission extra data for a lacking right (R36). -/
def Right.bit : Right → Nat
  | .read => 1 | .write => 2 | .exec => 4

/-- A failed translation: cause 8 or 9 with its extra data. -/
structure WalkFault where
  cause : Nat
  extra : Nat
  deriving DecidableEq, Repr

/-- The capacity in bytes of a tier, of which tier 2's is set by TLIMIT (R196, R412). -/
def State.tierLimit (s : State) (tier : Nat) : Nat :=
  if tier = 0 then Config.reservedBase else if tier = 1 then Config.lpddrBytes
  else 4096 * s.regField 0x28 12 40

/-- The leaf of a walk as it maps the 4 KiB piece `vpn`: `size` is the page size. -/
def leafTranslation (e vpn size : Nat) : Translation :=
  let tier := bitsAt 4 2 e
  let frame := bitsAt 12 40 e * 4096
  { vpn := vpn, frame := tier * 2 ^ 52 + frame / size * size + vpn * 4096 % size, write := e.testBit 1, exec := e.testBit 2,
    tso := e.testBit 3, pchk := e.testBit 6 }

/-- An entry at a level breaks R199 or R200; `size` is what a leaf there maps, `table` the size of the next table. That a table entry with W, X,
TSO or PCHK set raises the fault is the model's choice: R199 has them zero, and R200 does not list them (log 103). -/
def State.badEntry (s : State) (level e size table : Nat) : Bool :=
  let leaf := e.testBit 7
  let tier := bitsAt 4 2 e
  let frame := bitsAt 12 40 e * 4096
  let align := if leaf then (if level = 3 then 4096 else size) else table
  !e.testBit 0 || bitsAt 9 3 e ≠ 0 || bitsAt 52 12 e ≠ 0 || tier = 3
    || (level = 0 && leaf) || (level = 3 && !leaf) || (e.testBit 8 && level ≠ 3)
    || (!leaf && (tier ≠ 0 || e.testBit 1 || e.testBit 2 || e.testBit 3 || e.testBit 6))
    || frame % align ≠ 0
    || s.tierLimit tier < (if leaf then frame / size * size + size else frame + table)

/-- Walk from a level down: `base` is the table, the list the levels left as (index shift, index bits, leaf size, next
table size) (R198, R200). A 64 KiB page uses an unspecified one of the 16 entries of its group (R199). -/
def State.walkFrom (s : State) (va : Nat) (r : Right) : Nat → Nat → List (Nat × Nat × Nat × Nat) → Except WalkFault (Translation × Nat)
  | level, _, [] => .error { cause := 8, extra := level }
  | level, base, (sh, bits, size, table) :: rest =>
    let entry (i : Nat) : Nat := leNat (s.physRead (base + 8 * i) 8)
    let i := bitsAt sh bits va
    let e := if level = 3 && (entry i).testBit 8 then entry (i / 16 * 16 + Config.freeChoice s.free (64 + base + i / 16) % 16) else entry i
    let size := if level = 3 && e.testBit 8 then 65536 else size
    if s.badEntry level e size table then .error { cause := 8, extra := level }
    else if e.testBit 7 then
      let t := leafTranslation e (va / 4096) size
      if (r = .write && !t.write) || (r = .exec && !t.exec) then .error { cause := 9, extra := r.bit }
      else .ok (t, size)
    else s.walkFrom va r (level + 1) (bitsAt 12 40 e * 4096) rest

/-- A walk of a partition's tables (R198 to R200), with the page size. -/
def State.walk (s : State) (part va : Nat) (r : Right) : Except WalkFault (Translation × Nat) :=
  let ctl := partBlock part + 0x98
  let root := s.regField ctl 17 35 * 131072
  if !(s.reg ctl).getLsbD 63 || Config.reservedBase < root + 131072 then .error { cause := 8, extra := 0 }
  else s.walkFrom va r 0 root
    [(38, 14, 2 ^ 38, 4096), (29, 9, 2 ^ 29, 2048), (21, 8, 2 ^ 21, 4096), (12, 9, 4096, 4096)]

/-- A TLB entry stands for an address of a partition. -/
def TlbEntry.maps (e : TlbEntry) (part va : Nat) : Bool := e.part = part && e.base ≤ va && va < e.base + e.size

/-- A cached translation of a page, from a TLB list (R202). -/
def tlbFind (l : List TlbEntry) (part va : Nat) : Option TlbEntry := l.find? (fun e => e.maps part va)

/-- The translation of one 4 KiB piece from an entry that maps a page around it. -/
def TlbEntry.at (e : TlbEntry) (va : Nat) : Translation :=
  { e.t with vpn := va / 4096, frame := e.t.frame / e.size * e.size + va / 4096 * 4096 % e.size }

/-- Both TLBs of a core hold the entry: 128 entries of the core, 16,384 of the die (R1, R202); the oldest of a full TLB is replaced
(log 10). -/
def State.tlbFill (s : State) (c : CoreId) (e : TlbEntry) : State :=
  let k := s.core c
  let s := s.setCore c { k with tlb := (e :: k.tlb).take 128 }
  let mine (x : Nat × TlbEntry) : Bool := x.1 = c.die
  if s.tlb2.any (fun x => mine x && x.2.part = e.part && x.2.base = e.base && x.2.size = e.size) then s
  else { s with tlb2 := (c.die, e) :: (if (s.tlb2.filter mine).length < 16384 then s.tlb2 else dropLastOf mine s.tlb2) }

/-! Code (R83 to R87). -/

/-- Lines of an instruction cache: 128 KiB (R1). -/
def icacheLines : Nat := 1024

/-- An instruction cache holds the line; the oldest of a full one is replaced (log 52). -/
def State.icacheFill (c : CoreId) (l : ILine) (s : State) : State :=
  let k := s.core c
  s.setCore c { k with icache := (l :: k.icache.filter (fun x => x.line ≠ l.line)).take icacheLines }

/-- The bytes of the units of a cached line for which the memory's newer contents answer: R87 leaves the choice open, unit by unit. -/
def State.newUnits (s : State) (line : Nat) : ByteMask :=
  (List.range 8).foldl (fun m u =>
    if Config.freeChoice s.free (2 ^ 32 + 8 * line + u) % 2 = 1 then m ||| byteRange (16 * u) 16 else m) 0

/-- A line of code as a core's instruction cache gives it, and the bytes of it that are poisoned: a line it holds may answer with its old
contents (R87); any other is filled from the newest copy. -/
def State.codeLine (c : CoreId) (line : Nat) (s : State) : State × LineData × ByteMask :=
  let d := s.newest line
  match (s.core c).icache.find? (fun l => l.line = line) with
  | none => (if d.2 then s else s.icacheFill c { line := line, data := d.1 }, d.1, if d.2 then allBytes else 0)
  | some l => (s, mergeLine l.data d.1 (s.newUnits line), if d.2 then s.newUnits line else 0)

/-- Translate for an access of a core: with TEN = 0 every access faults at level 0 (R198); a TLB entry stands for the tables until it is
invalidated; a miss walks and fills, and a fault fills nothing (R200, R202). -/
def State.translate (s : State) (c : CoreId) (part va : Nat) (r : Right) : State × Except WalkFault Translation :=
  let judge (t : Translation) : Except WalkFault Translation :=
    if (r = .write && !t.write) || (r = .exec && !t.exec) then .error { cause := 9, extra := r.bit } else .ok t
  if !(s.reg (partBlock part + 0x98)).getLsbD 63 then (s, .error { cause := 8, extra := 0 })
  else match tlbFind (s.core c).tlb part va with
  | some e => (s, judge (e.at va))
  | none =>
    match tlbFind ((s.tlb2.filter (fun x => x.1 = c.die)).map (·.2)) part va with
    | some e => (s.tlbFill c e, judge (e.at va))
    | none =>
      match s.walk part va r with
      | .error f => (s, .error f)
      | .ok (t, size) =>
        (s.tlbFill c { part := part, base := va / size * size, size := size, t := { t with frame := t.frame / size * size } }, .ok t)

/-! The module's own accesses to a partition's global space: images, rings, records and tables (log 9). -/

/-- The physical address of a virtual byte for the module's own use, by a walk. -/
def State.vaddr (s : State) (part va : Nat) (r : Right) : Option Nat :=
  match s.walk part va r with
  | .ok (t, _) => some (t.frame + va % 4096)
  | .error _ => none

/-- The physical addresses of `n` bytes from a virtual address; none when a page fails. -/
def State.vaddrs (s : State) (part : Nat) (r : Right) : Nat → Nat → Option (List Nat)
  | 0, _ => some []
  | n + 1, va =>
    match s.vaddr part va r, s.vaddrs part r n (va + 1) with
    | some a, some as => some (a :: as)
    | _, _ => none

/-- Read `n` bytes of a partition's global space; none when a page fails or a line is poisoned. -/
def State.virtRead (s : State) (part va n : Nat) : Option (List Byte) :=
  match s.vaddrs part .read n va with
  | none => none
  | some as =>
    if as.any (fun a => (s.newest (a / 128)).2) then none
    else some (as.map (fun a => lineByte (s.newest (a / 128)).1 (a % 128)))

/-- A physical byte as a core sees it: from its L1 where it is valid there, else from the newest copy (R204). -/
def State.coreByte (s : State) (c : CoreId) (a : Nat) : Byte :=
  match (s.core c).l1.find? (fun l => l.peer.isNone && l.line = a / 128) with
  | some l => if l.valid.getLsbD (a % 128) then lineByte l.data (a % 128) else lineByte (s.newest (a / 128)).1 (a % 128)
  | none => lineByte (s.newest (a / 128)).1 (a % 128)

/-- Read `n` bytes of a partition's global space as a core sees them. -/
def State.coreRead (s : State) (c : CoreId) (part va n : Nat) : Option (List Byte) :=
  match s.vaddrs part .read n va with
  | none => none
  | some as => if as.any (fun a => (s.newest (a / 128)).2) then none else some (as.map (s.coreByte c))

/-- Write bytes of a partition's global space, in every copy of the lines and in the bytes that a core's L1 holds valid;
none when a page fails. -/
def State.virtWrite (s : State) (core : Option CoreId) (part va : Nat) (bs : List Byte) : Option State :=
  match s.vaddrs part .write bs.length va with
  | none => none
  | some as =>
    let s := (as.zip bs).foldl (fun s x => s.physWrite x.1 [x.2]) s
    match core with
    | none => some s
    | some c =>
      let k := s.core c
      let upd (l : L1Line) : L1Line :=
        if l.peer.isSome then l
        else (as.zip bs).foldl (fun l x => if x.1 / 128 = l.line && l.valid.getLsbD (x.1 % 128) then
          { l with data := mergeLine l.data (placeBytes (x.1 % 128) [x.2]) (byteRange (x.1 % 128) 1) } else l) l
      some (s.setCore c { k with l1 := k.l1.map upd })

/-! Routes (R357, R362, R403). -/

/-- Entry `p` of the route table. -/
def State.routeEntry (s : State) (p : Nat) : Nat := leNat (s.physRead (s.regField 0x2000 21 31 * 2 ^ 21 + 8 * p) 8)

/-- The port status bits UP and EN. -/
def State.portUp (s : State) (j : Nat) : Bool := (s.ports.find? (fun x => x.port = j)).any (fun x => x.up && x.en)

/-- The port by which a packet for package `p` leaves on a virtual network (R357). -/
def State.route (s : State) (p network : Nat) : Option Nat :=
  let e := s.routeEntry p
  let l := (List.range Config.ports).filter (fun j => e.testBit j && s.portUp j)
  if !e.testBit 36 || l.isEmpty then none else l[(p ^^^ (8 * network)) % l.length]?

/-- An entry of the multicast table (R364). -/
def State.multicastEntry (s : State) (group : Nat) : Nat := leNat (s.physRead (s.regField 0x2008 22 30 * 2 ^ 22 + 16 * group) 16)
/-- MVALID of a multicast group; zero without MEN (R364, R403). -/
def State.multicastValid (s : State) (group : Nat) : Bool := (s.reg 0x2008).getLsbD 0 && (s.multicastEntry group).testBit 44

/-! Command blocks (R284, R366). -/

/-- A field of a block of bytes. -/
def blockField (bs : List Byte) (off n : Nat) : Nat := leNat ((bs.drop off).take n)

/-- The multicast group of a collective's block. -/
def collGroup (b : List Byte) : Nat := bitsAt 0 18 (blockField b 0x24 4)
/-- The sequence number of a collective's block. -/
def collSequence (b : List Byte) : BitVec 64 := BitVec.ofNat 64 (blockField b 0x30 8)

end Sys2Proof.Machine
end

