-- ==== Sys2Proof/Machine/Operands.lean ====
section
/-! DEFINITION. Registers and operand forms: the register files of a group (spec 01 R9 to R15, R24), effective register
numbers and their bounds (R11, R15, R66, R67), permutations (03 R69, R70), latch reads (R72, R74), NEG (R68), the immediate
forms, and the lanes an instruction acts on (R13, R64). -/
namespace Sys2Proof.Machine
open Sys2Proof

/-- Read a mask register; k0 reads all ones (R13). -/
def Group.readK (g : Group) (n : Nat) : Mask := if n = 0 then 0xFFFFFFFF else rd 0 g.k n
/-- Write a mask register; a write to k0 is discarded (R13). -/
def Group.writeK (g : Group) (n : Nat) (v : Mask) : Group := if n = 0 then g else { g with k := wr g.k n v }
/-- Read a uniform register; in handler mode s0 to s7 are hs0 to hs7 (R24). -/
def Group.readS (g : Group) (n : Nat) : Word64 := if 0 < g.depth ∧ n < 8 then rd 0 g.hs n else rd 0 g.s n
/-- Write a uniform register; in handler mode s0 to s7 are hs0 to hs7 (R24). -/
def Group.writeS (g : Group) (n : Nat) (v : Word64) : Group :=
  if 0 < g.depth ∧ n < 8 then { g with hs := wr g.hs n v } else { g with s := wr g.s n v }
/-- Read a pointer register. -/
def Group.readP (g : Group) (n : Nat) : Ptr := rd 0 g.p n
/-- Write a pointer register. -/
def Group.writeP (g : Group) (n : Nat) (v : Ptr) : Group := { g with p := wr g.p n v }
/-- Read an index register; index select 0 adds nothing (R14). -/
def Group.readX (g : Group) (n : Nat) : Nat := if n = 0 then 0 else (rd 0 g.x n).toNat
/-- Write an index register, keeping bits 15:0 (R14). -/
def Group.writeX (g : Group) (n : Nat) (v : BitVec 16) : Group := if n = 0 then g else { g with x := wr g.x n v }
/-- Lane `l` of vector register `n`. -/
def Group.readV (g : Group) (n l : Nat) : Lane32 := rd 0 (rd (VReg.splat 0) g.v n) l
/-- Write lane `l` of vector register `n`. -/
def Group.writeV (g : Group) (n l : Nat) (a : Lane32) : Group :=
  { g with v := wr g.v n (wr (rd (VReg.splat 0) g.v n) l a) }
/-- A vector register with the lanes of a mask replaced. -/
@[irreducible] def putLanes (old : VReg) (m : Mask) (f : Nat → Lane32) : VReg :=
  Vector.ofFn fun l : Fin 32 => if m.getLsbD l.1 then f l.1 else rd 0 old l.1
/-- Write the lanes of a vector register that a mask names. -/
def Group.writeVMask (g : Group) (n : Nat) (m : Mask) (f : Nat → Lane32) : Group :=
  { g with v := wr g.v n (putLanes (rd (VReg.splat 0) g.v n) m f) }
/-- The even/odd pair at `n` in lane `l`: low half in the even register (R11). -/
def Group.readPair (g : Group) (n l : Nat) : BitVec 64 := g.readV (n + 1) l ++ g.readV n l
/-- The pointer quad at `n` in lane `l` (R11). -/
def Group.readQuad (g : Group) (n l : Nat) : Ptr := g.readV (n + 3) l ++ g.readV (n + 2) l ++ g.readV (n + 1) l ++ g.readV n l

/-- The hold byte's COUNT (R20). -/
def Group.holdCount (g : Group) (n : Nat) : Nat := (rd 0 g.holds n).toNat % 64
/-- The hold byte's ARM (R20). -/
def Group.holdArm (g : Group) (n : Nat) : Bool := (rd 0 g.holds n).getLsbD 6
/-- Set a hold byte. -/
def Group.setHold (g : Group) (n : Nat) (arm : Bool) (count : Nat) : Group :=
  { g with holds := wr g.holds n (BitVec.ofNat 8 ((if arm then 64 else 0) + count % 64)) }
/-- Raise a scoreboard hold by one for a new asynchronous write (R20). -/
def Group.raiseHold (g : Group) (n : Nat) : Group := g.setHold n false (g.holdCount n + 1)
/-- Lower a hold by one; at zero the hold byte becomes zero (R20, R372). -/
def Group.lowerHold (g : Group) (n : Nat) : Group :=
  if g.holdCount n ≤ 1 then g.setHold n false 0 else g.setHold n (g.holdArm n) (g.holdCount n - 1)

/-- The effective register number of an operand (R67). -/
def Group.num (g : Group) (o : Operand) : Nat := o.num.toNat + g.readX o.idx.toNat
/-- The effective destination number (R66). -/
def Group.dnum (g : Group) (w : Fields) : Nat := w.dnum.toNat + g.readX w.didx.toNat

/-- The lanes the guard enables (R64). -/
def Group.guard (g : Group) (w : Fields) : Mask :=
  if w.gneg then ~~~(g.readK w.grd.toNat) else g.readK w.grd.toNat
/-- The active, enabled lanes (R13). -/
def Group.lanes (g : Group) (w : Fields) : Mask := g.active &&& g.guard w

/-- The lowest lane of a mask; 32 for an empty one. -/
def lowestLane (m : Mask) : Nat := (findFrom (fun l => m.getLsbD l) 32 0).getD 32

/-- A use of registers by an operand position (R11, R15): `count` registers from `num`, which must be a multiple of
`align`. -/
structure RegUse where
  pos : Nat
  file : File
  num : Nat
  count : Nat := 1
  align : Nat := 1
  write : Bool := false
  deriving DecidableEq, Repr

/-- The number of registers of a file (R15). -/
def Group.limit (g : Group) : File → Nat
  | .v => g.alloc
  | .s => 64
  | .p => 16
  | .k => 16

/-- The use breaks R11 or R15. -/
def Group.outOfBounds (g : Group) (u : RegUse) : Bool := u.num % u.align ≠ 0 || g.limit u.file < u.num + u.count

/-- The use an operand makes: a v operand of a wide type is a pair; others are one register (R11, R62). -/
def Group.useOf (g : Group) (pos : Nat) (o : Operand) (wide : Bool) : List RegUse :=
  if o.latch then []
  else if o.file = .v ∧ wide then [{ pos := pos, file := .v, num := g.num o, count := 2, align := 2 }]
  else [{ pos := pos, file := o.file, num := g.num o }]

/-- The use of a pointer operand: a p register or a v quad (R11, R71). -/
def Group.usePtr (g : Group) (pos : Nat) (o : Operand) : List RegUse :=
  if o.file = .v then [{ pos := pos, file := .v, num := g.num o, count := 4, align := 4 }]
  else [{ pos := pos, file := o.file, num := g.num o }]

/-- The use of the destination; none with N = 1 (R66). -/
def Group.useDest (g : Group) (w : Fields) (wide : Bool) : List RegUse :=
  if w.n then []
  else if w.dfile = .v ∧ wide then [{ pos := 0, file := .v, num := g.dnum w, count := 2, align := 2, write := true }]
  else [{ pos := 0, file := w.dfile, num := g.dnum w, write := true }]

/-- The source lane that lane `i` receives under a pattern; none: zero is supplied (R69). -/
def patLane (pat parm i : Nat) : Option Nat :=
  match pat with
  | 1 => some ((i + parm) % 32)
  | 2 => some parm
  | 3 => some (i ^^^ parm)
  | 4 => some (i ^^^ (2 ^ parm - 1))
  | 5 => if i + parm ≤ 31 then some (i + parm) else none
  | 6 => if parm ≤ i then some (i - parm) else none
  | _ => some i

/-- Lane `j` of latch `n`: the value captured in this run, else an undefined value (R74), a free value (log 5). -/
def State.readLatch (s : State) (n j : Nat) : BitVec 64 :=
  match rd none (rd (Vector.replicate 32 none) s.g.lat n) j with
  | some x => x
  | none => Config.freeValue 64 s.free (1024 + 32 * n + j)

/-- Lane `j` of an operand's register or latch, before the pattern; 32-bit types fill the low half (R12, R70). -/
def State.readRaw (s : State) (o : Operand) (wide : Bool) (j : Nat) : BitVec 64 :=
  if o.latch then (if wide then s.readLatch (o.num.toNat % 4) j else (s.readLatch (o.num.toNat % 4) j).setWidth 32 |>.setWidth 64)
  else match o.file with
    | .v => if wide then s.g.readPair (s.g.num o) j else (s.g.readV (s.g.num o) j).setWidth 64
    | .s => if wide then s.g.readS (s.g.num o) else ((s.g.readS (s.g.num o)).setWidth 32).setWidth 64
    | .k => (s.g.readK (s.g.num o)).setWidth 64
    | .p => (s.g.readP (s.g.num o)).setWidth 64

/-- Negation of an operand value (R68): the sign bit of each floating element, or two's complement. -/
def negate (t : Ty) (x : BitVec 64) : BitVec 64 :=
  match t with
  | .f32 => x ^^^ 0x80000000
  | .f64 => x ^^^ 0x8000000000000000
  | .f16x2 | .bf16x2 => x ^^^ 0x80008000
  | _ => if t.wide then -x else ((-x).setWidth 32).setWidth 64

/-- The value of an operand in lane `i`: register or latch, pattern, then NEG (R67 to R71). -/
def State.readOp (s : State) (t : Ty) (o : Operand) (wide : Bool) (i : Nat) : BitVec 64 :=
  let x := match patLane o.pat.toNat o.parm.toNat i with
    | some j => s.readRaw o wide j
    | none => 0
  if o.neg then negate t x else x

/-- Operand A of a word in lane `i`, by its type. -/
def State.opA (s : State) (w : Fields) (i : Nat) : BitVec 64 := s.readOp w.type w.a w.type.wide i
/-- Operand B. -/
def State.opB (s : State) (w : Fields) (i : Nat) : BitVec 64 := s.readOp w.type w.b w.type.wide i
/-- Operand C. -/
def State.opC (s : State) (w : Fields) (i : Nat) : BitVec 64 := s.readOp w.type w.c w.type.wide i

/-- IMM extended to the operand type: sign-extended for i types, zero-extended otherwise (R104, R105). -/
def immOf (w : Fields) : BitVec 64 :=
  if w.type.signed then (if w.type.wide then w.imm.signExtend 64 else (w.imm.signExtend 32).setWidth 64) else w.imm.setWidth 64

/-- Operand B, or IMM when MOD bit 5 is set (R105). -/
def State.opBImm (s : State) (w : Fields) (i : Nat) : BitVec 64 := if w.modBit 5 then immOf w else s.opB w i

/-- The pointer that lane `l` uses: the p register, or its quad (R223). With G = 1 a quad is lane 0's. -/
def State.ptrOf (s : State) (o : Operand) (l : Nat) : Ptr :=
  if o.file = .v then s.g.readQuad (s.g.num o) l else s.g.readP (s.g.num o)

/-- A uniform 64-bit value: operand `o` read with G = 1, or an immediate when the operand is absent. -/
def State.uniform (s : State) (o : Operand) (absent : Bool) (imm : Nat) : BitVec 64 :=
  if absent then BitVec.ofNat 64 imm else s.readOp .n64 o true 0

end Sys2Proof.Machine
end

