-- ==== Sys2Proof/Machine/Flags.lean ====
section
/-! DEFINITION. The fields of fmt (spec 01 R16, R17), and the sticky flags of a lane (R19, 04 R118). -/
namespace Sys2Proof.Machine
open Sys2Proof

/-- Flags as bits (R118): 0 NX, 1 UF, 2 OF, 3 DZ, 4 NV. -/
abbrev FlagBits := BitVec 5

/-- Inexact. -/
def flagNX : FlagBits := 1
/-- Underflow. -/
def flagUF : FlagBits := 2
/-- Overflow. -/
def flagOF : FlagBits := 4
/-- Division by zero. -/
def flagDZ : FlagBits := 8
/-- Invalid operation. -/
def flagNV : FlagBits := 16

/-- The rounding mode of fmt (R16). -/
def fmtRM (f : BitVec 32) : Nat := bitsAt 0 3 f.toNat
/-- FZ32 (R16). -/
def fmtFZ32 (f : BitVec 32) : Bool := f.getLsbD 3
/-- FZ64 (R16). -/
def fmtFZ64 (f : BitVec 32) : Bool := f.getLsbD 4
/-- SAT (R16). -/
def fmtSAT (f : BitVec 32) : Bool := f.getLsbD 5
/-- MFA (R16). -/
def fmtMFA (f : BitVec 32) : Nat := bitsAt 6 4 f.toNat
/-- MFB (R16). -/
def fmtMFB (f : BitVec 32) : Nat := bitsAt 10 4 f.toNat
/-- MACC (R16). -/
def fmtMACC (f : BitVec 32) : Nat := bitsAt 14 2 f.toNat
/-- NANP (R16). -/
def fmtNANP (f : BitVec 32) : Bool := f.getLsbD 16
/-- DNT (R16). -/
def fmtDNT (f : BitVec 32) : Bool := f.getLsbD 17

/-- A value that fmt may hold (R17). -/
def fmtLegal (f : BitVec 32) : Bool :=
  fmtRM f ≤ 4 && fmtMACC f ≠ 3 && fmtMFA f ≤ 7 && fmtMFB f ≤ 7 && fmtMFB f ≠ 6 && bitsAt 18 14 f.toNat = 0

/-- Flags ORed into the lanes of a mask (R19). -/
@[irreducible] def orFlags (fl : Vector (BitVec 5) 32) (m : Mask) (f : Nat → FlagBits) : Vector (BitVec 5) 32 :=
  Vector.ofFn fun l : Fin 32 => if m.getLsbD l.1 then rd 0 fl l.1 ||| f l.1 else rd 0 fl l.1

/-- OR flags into the lanes of a mask (R19). -/
def Group.raiseFlags (g : Group) (m : Mask) (f : Nat → FlagBits) : Group := { g with flags := orFlags g.flags m f }

end Sys2Proof.Machine
end

