-- ==== Sys2Proof/Machine/Ops.lean ====
section
/-! DEFINITION. Shared operations: finding groups, the events they report, the end of a group and the kill of a cluster
(spec 06 R144, 18 R337), TAKING A FAULT (R34, R35, R313, R314) and leaving its handler (R315), runs (03 R76 to R80), region
entries (R317), the issue of an instruction (R25, R76, R78, R82, R15, R21, R34) and the writing of its result (R66, R72). -/
namespace Sys2Proof.Machine
open Sys2Proof

/-! Groups. -/

/-- The blank group: no context. -/
def Group.blank : Group := {}

/-- Every group of the module, the issuing one first. -/
def State.groups (s : State) : List Group := s.g :: s.gs

/-- A context's group is present. -/
def State.has (s : State) (ctx : Nat) : Bool := s.groups.any (fun g => g.id.ctx = ctx)

/-- The group of a context; blank when there is none. -/
def State.group (s : State) (ctx : Nat) : Group := (s.groups.find? (fun g => g.id.ctx = ctx)).getD .blank

/-- The context becomes the issuing group; nothing when it is absent. -/
def State.focus (ctx : Nat) (s : State) : State :=
  if s.g.id.ctx = ctx then s
  else match s.gs.find? (fun g => g.id.ctx = ctx) with
    | none => s
    | some g => { s with g := g, gs := s.g :: s.gs.filter (fun h => h.id.ctx ≠ ctx) }

/-- Act on a context as the issuing group, then return to the group that was issuing. -/
def State.onCtx (ctx : Nat) (k : State → State) (s : State) : State :=
  if s.has ctx then (k (s.focus ctx)).focus s.g.id.ctx else s

/-- Change a context's group. -/
def State.modGroup (ctx : Nat) (f : Group → Group) (s : State) : State :=
  if s.g.id.ctx = ctx then { s with g := f s.g } else { s with gs := modifyFirst (fun g => g.id.ctx = ctx) f s.gs }

/-- The groups that are gone are dropped; a gone issuing group becomes blank. -/
def State.dropGroups (s : State) (p : Group → Bool) : State :=
  { s with g := if p s.g then .blank else s.g, gs := s.gs.filter (fun g => !p g) }

/-- The core of a group's residence. -/
def Group.core (g : Group) : CoreId := ⟨g.place.die, g.place.site⟩

/-- A group's team. -/
def Team.isOf (t : Team) (g : Group) : Bool := t.launch = g.id.launch && t.team = g.id.team
/-- The team of a group; a default team when there is none. -/
def State.teamOf (s : State) (g : Group) : Team :=
  (s.teams.find? (fun t => t.isOf g)).getD { launch := g.id.launch, team := g.id.team, cluster := g.id.cluster, core := g.core }
/-- Change the team of a group. -/
def State.modTeam (g : Group) (f : Team → Team) (s : State) : State :=
  { s with teams := modifyFirst (fun t => t.isOf g) f s.teams }

/-- An event for the event arbiter (R189). -/
def State.event (s : State) (e : Event) : State := { s with events := s.events ++ [e] }
/-- A module-error event: partition field 0xFFFF (R189); its kind-specific field is open (log 40). -/
def State.moduleError (s : State) : State :=
  s.event { kind := 6, part := 0xFFFF, queue := 0xFFFFFFFF, launch := 0, info := Config.freeValue 64 s.free (2 ^ 50 + s.events.length) }

/-! The two sides of a shadowed group (R334). -/

/-- What a group's side holds now. -/
def Group.side (g : Group) : SideRegs :=
  { v := g.v, alloc := g.alloc, s := g.s, hs := g.hs, p := g.p, k := g.k, x := g.x, lat := g.lat, fmt := g.fmt, flags := g.flags, pc := g.pc
    regionPc := g.regionPc, regionCount := g.regionCount, active := g.active, live := g.live, stack := g.stack, depth := g.depth
    issued := g.issued, seqD := g.seqD, gridgrows := g.gridgrows }

/-- The group with what a side holds. -/
def Group.withSide (r : SideRegs) (g : Group) : Group :=
  { g with v := r.v, alloc := r.alloc, s := r.s, hs := r.hs, p := r.p, k := r.k, x := r.x, lat := r.lat, fmt := r.fmt, flags := r.flags
           pc := r.pc, regionPc := r.regionPc, regionCount := r.regionCount, active := r.active, live := r.live, stack := r.stack
           depth := r.depth, issued := r.issued, seqD := r.seqD, gridgrows := r.gridgrows }

/-- A state to work out in what the issuing group's shadow does: it sends nothing that leaves it, so that only its side is looked at after
(R334). -/
def State.sandbox (r : SideRegs) (s : State) : State :=
  { s with g := { s.g.withSide r with shadow := none, entries := [], unsent := [] } }

/-- A group that still stands in a run, or between two. -/
def State.stands (ctx : Nat) (s : State) : Bool := s.g.id.ctx = ctx && s.g.status = .resident

/-- What comes to the issuing group from elsewhere comes to both of its sides. -/
def State.alike (f : State → State) (s : State) : State :=
  let t := f s
  match s.g.shadow with
  | none => t
  | some x =>
    match x.now with
    | none => t
    | some r =>
      let u := f (s.sandbox r)
      if t.stands s.g.id.ctx && u.stands s.g.id.ctx then
        { t with g := { t.g with shadow := t.g.shadow.map (fun (y : Shadow) => { y with now := some u.g.side }) } }
      else t

/-! Context images (R321, R322). -/

/-- The global-space address of a group's context image. -/
def State.imageAddr (s : State) (g : Group) : Nat :=
  s.regField (partBlock g.id.part + 0x110) 16 36 * 65536 + 49152 * g.id.ctx

/-- Write bytes at an offset of a group's image; the flag is false when the image is unreachable (R321). A debug monitor has
no image in any area (log 11): nothing is written. -/
def State.imageWrite (s : State) (g : Group) (off : Nat) (bs : List Byte) : State × Bool :=
  if g.id.monitor then (s, true)
  else match s.virtWrite (some g.core) g.id.part (s.imageAddr g + off) bs with
    | some s' => (s', true)
    | none => (s, false)

/-- Read bytes at an offset of a group's image, as its own core sees them (R236, R315); zeros where it cannot be read. -/
def State.imageRead (s : State) (g : Group) (off n : Nat) : List Byte :=
  if g.id.monitor then List.replicate n 0
  else (s.coreRead g.core g.id.part (s.imageAddr g + off) n).getD (List.replicate n 0)

/-- The 64 bytes of a fault record (R35). -/
def FaultRec.bytes (f : FaultRec) : List Byte :=
  leBytes 2 f.cause ++ leBytes 1 f.depth ++ leBytes 1 f.lane ++ leBytes 4 f.mask.toNat ++ leBytes 8 f.pc
    ++ leBytes 8 f.regionPc ++ leBytes 4 f.regionCount ++ leBytes 1 f.kind ++ leBytes 1 f.pos ++ leBytes 2 0
    ++ leBytes 8 f.addr.toNat ++ leBytes 8 f.extra.toNat ++ leBytes 16 f.ptr.toNat

/-! Ends and kills. -/

/-- A group's name is freed and its generation rises (R370, R374); a guest's name is freed at its own package. -/
def State.freeName (s : State) (g : Group) : State :=
  if g.nameSlot = 0 then s
  else if g.namePackage = s.package then
    let next (p : Peg) : Peg := { slot := p.slot, gen := (p.gen + 1) % 65536 }
    { s with pegs := modifyFirst (fun p => p.slot = g.nameSlot && p.gen = g.nameGen) next s.pegs }
  else
    { s with guests := s.guests.filter (fun x => !(x.package = g.namePackage && x.peg.slot = g.nameSlot))
             out := .nameEnded (s.route g.namePackage 1) g.namePackage g.nameSlot g.nameGen :: s.out }

/-- The context number that a class-D tag names (R329). -/
def tagCtx (t : BitVec 64) : Nat := bitsAt 22 24 t.toNat
/-- The package that a class-D tag names (R329). -/
def tagPackage (t : BitVec 64) : Nat := bitsAt 46 18 t.toNat

/-- Every receiver purges the tags of a context (R331). -/
def State.purgeTags (s : State) (ctx : Nat) : State :=
  { s with suppress := s.suppress.filter (fun e => !(tagCtx e.tag = ctx && tagPackage e.tag = s.package % 2 ^ 18)) }

/-- A cause-12 record against a pending arrival (R268). -/
def Arrival.faultRec (a : Arrival) (extra : Nat) : FaultRec :=
  { cause := 12, pc := a.pc, mask := a.mask, lane := lowestLane a.mask, extra := BitVec.ofNat 64 extra }

/-- A fault to be reported at a run boundary of a group, after those of other instructions that wait already (R34, R268). -/
def Group.atBoundary (f : FaultRec) (g : Group) : Group := { g with boundaryFaults := g.boundaryFaults ++ [f] }

/-- A matrix operation or arrival leaves a group's matrix batches; a closed batch with none left is complete (R274). -/
def Group.opDone (op : Nat) (g : Group) : Group :=
  { g with openMatrix := g.openMatrix.filter (· ≠ op)
           matrixBatches := (g.matrixBatches.map (fun b => (b.1, b.2.filter (· ≠ op)))).filter (fun b => !b.2.isEmpty) }

/-- A hold byte of an image lowered by one; at zero the byte becomes zero (R20, R372). -/
def holdLowered (h : Nat) : Nat := if h % 64 ≤ 1 then 0 else h - 1

/-- The group belongs to the cluster. -/
def Group.inCluster (g : Group) (launch cluster : Nat) : Bool :=
  g.id.launch = launch && g.id.cluster = cluster && g.id.ctx ≠ 2 ^ 24 && !g.id.monitor

/-- The ports of a multicast group's tree at this module toward its children (R364). -/
def State.treeChildren (s : State) (group : Nat) : List Nat :=
  (List.range Config.ports).filter (fun j => (s.multicastEntry group).testBit j)

/-- The issuer's notices to the other modules that performed a class-D operation: its tag is needed no more (R331). That of a multicast
store goes up its tree, and from the root down to its members. -/
def State.retireTag (e : Entry) (s : State) : State :=
  let m := s.multicastEntry e.anchor
  let sent : List Out := if (e.sentAt.isSome || e.everSent) && e.anchor ≠ s.package then [.retire (s.route e.anchor 0) e.anchor e.tag] else []
  let tree : List Out :=
    if !(e.treeSent || e.everTree) then []
    else if m.testBit 43 then (s.treeChildren e.anchor).map (fun j => .retire (some j) e.anchor e.tag)
    else [.retire (some (m / 2 ^ 37 % 64)) e.anchor e.tag]
  if e.cls = .d && (e.path = 4 || e.path = 5) then { s with out := sent ++ tree ++ s.out } else s

/-- What a killed group leaves: its image says killed, its record is written when the reason has one, its tags are purged at every
receiver and its name freed (R331, R337). -/
def State.killGroup (rec : Option FaultRec) (s : State) (g : Group) : State :=
  let s := match rec with
    | none => s
    | some r => (s.imageWrite g 0x40 r.bytes).1
  let s := (s.imageWrite g 4 [4]).1
  (g.entries.foldl (fun s e => if e.done then s else s.retireTag e) (s.purgeTags g.id.ctx)).freeName g

/-- The fault record that reasons 5, 6 and 7 write in a group (R337). -/
def Group.killRec (g : Group) (cause extra : Nat) : FaultRec :=
  { cause := cause, depth := g.depth, mask := g.active, pc := g.pc, regionPc := g.regionPc, regionCount := g.regionCount,
    extra := BitVec.ofNat 64 extra }

/-- A flag bit of a retained record's word at 0x10 (R177): 51 nameable, 52 shadowed, 53 idempotent, 54 overlap-debug,
55 dead-name-trap. -/
def Grid.flag (x : Grid) (n : Nat) : Bool := (leNat ((x.record.drop 0x10).take 8)).testBit n

/-- The collectives to which contexts contribute: group and sequence number. -/
def State.collectivesOf (s : State) (ctxs : List Nat) : List (Nat × BitVec 64) :=
  (s.works.filter (fun x => x.kind = .collective && ctxs.contains x.ctx)).map (fun x => (collGroup x.block, collSequence x.block))

/-- The ports of a multicast group's tree at this module: toward its children, and toward its parent (R364). -/
def State.treePorts (s : State) (group : Nat) : List Nat :=
  let m := s.multicastEntry group
  s.treeChildren group ++ (if m.testBit 43 then [] else [m / 2 ^ 37 % 64])

/-- A collective aborts: its slots are given up, the modules of its tree are told once, and its commands here are to end (R369). -/
def State.abortCollective (s : State) (x : Nat × BitVec 64) : State :=
  if s.aborts.contains x then s
  else { s with aborts := s.aborts ++ [x], redSlots := s.redSlots.filter (fun r => !(r.group = x.1 && r.sequence = x.2))
                redBuffer := s.redBuffer.filter (fun c => !(c.group = x.1 && c.sequence = x.2))
                out := (s.treePorts x.1).map (fun j => Out.abort j x.1 x.2) ++ s.out }

/-- A kill of a cluster (R337): every group stops, engine work is abandoned (R290) and its collectives abort (R369), resources return, the kill is reported,
and the cluster is relaunched in hardware mode when its launch is idempotent, at most twice (R338). -/
def State.killCluster (launch cluster reason : Nat) (rec : Group → Option FaultRec) (s : State) : State :=
  let mine := s.groups.filter (fun g => g.inCluster launch cluster)
  let ctxs := mine.map (·.id.ctx)
  let s := (s.collectivesOf ctxs).foldl State.abortCollective (mine.foldl (fun s g => State.killGroup (rec g) s g) s)
  let s := s.dropGroups (fun g => g.inCluster launch cluster)
  let s := { s with
    teams := s.teams.filter (fun t => !(t.launch = launch && t.cluster = cluster))
    ops := s.ops.filter (fun o => !(o.arrivals.any (fun m => ctxs.contains m.ctx)))
    works := s.works.filter (fun x => !(ctxs.contains x.ctx))
    vgrowQueue := s.vgrowQueue.filter (fun c => !ctxs.contains c)
    acallocQueue := s.acallocQueue.filter (fun c => !ctxs.contains c) }
  let grid := s.grids.find? (fun x => x.launch = launch)
  let cluster_ := s.clusters.find? (fun c => c.launch = launch && c.cluster = cluster)
  let part := (cluster_.map (·.part)).getD 0
  let queue := (grid.map (·.queue)).getD 0xFFFFFFFF
  let idem := (grid.map (fun x => x.flag 53 && !x.foreign)).getD false
  let relaunches := (cluster_.map (·.relaunches)).getD 0
  let s := s.event { kind := 3, part := part, queue := queue, launch := launch,
                     info := BitVec.ofNat 64 (cluster + reason * 2 ^ 32) }
  let again := idem && !s.hostMode 2 && relaunches < 2
  let killed (c : Cluster) : Cluster :=
    { c with state := if again then .pending else .killed, candidate := again, mem := [], assisted := s.hostMode 2
             relaunches := if again then c.relaunches + 1 else c.relaunches }
  let s := { s with clusters := modifyFirst (fun c => c.launch = launch && c.cluster = cluster) killed s.clusters
                    held := s.held.filter (fun h => !(h.launch = launch && h.cluster = cluster))
                    saveAsked := s.saveAsked.filter (fun r => !(r.launch = launch && r.cluster = cluster)) }
  if again then
    let s := { s with grids := modifyFirst (fun x => x.launch = launch) (fun x => { x with relaunched := x.relaunched + 1 }) s.grids }
    s.event { kind := 4, part := part, queue := queue, launch := launch, info := BitVec.ofNat 64 cluster }
  else { s with grids := modifyFirst (fun x => x.launch = launch) (fun x => { x with lost := x.lost ++ [cluster] }) s.grids }

/-- The group's part of a fault record (R35). -/
def Group.stamp (g : Group) (f : FaultRec) : FaultRec :=
  { f with depth := g.depth, regionPc := g.regionPc, regionCount := g.regionCount }

/-- The fault's record is written, event kind 2 names the cause and the group index, and the completion record counts the group
(R313); none when the image is unreachable. -/
def State.recordFault (f : FaultRec) (s : State) : Option State :=
  let g := s.g
  let (s, ok) := s.imageWrite g 0x40 f.bytes
  if !ok then none
  else
    let s := s.event { kind := 2, part := g.id.part, queue := g.id.queue, launch := g.id.launch,
                       info := BitVec.ofNat 64 (f.cause % 65536 + g.id.index * 2 ^ 32) }
    some { s with g := { s.g with reported := true }
                  grids := modifyFirst (fun x => x.launch = g.id.launch) (fun x => { x with faulted := x.faulted + 1 }) s.grids }

/-- The cluster of a context's group is killed because an image of it cannot be reached (R321). -/
def State.killUnreachable (ctx : Nat) (s : State) : State :=
  let g := s.group ctx
  if g.id.ctx = 2 ^ 24 || g.id.monitor then s else s.killCluster g.id.launch g.id.cluster 10 (fun _ => none)

/-- Holds of a group are lowered; those of a saved group in its image too, from which its restore sets them (R268, R332). An image that cannot
be written kills the cluster (R321). -/
def State.lowerHolds (ctx : Nat) (regs : List Nat) (s : State) : State :=
  let s := s.modGroup ctx (fun g => regs.foldl Group.lowerHold g)
  let g := s.group ctx
  if g.status = .saved then
    let r := regs.foldl (fun (r : State × Bool) n =>
      if r.2 then r.1.imageWrite g (0x780 + n) (leBytes 1 (holdLowered (leNat (r.1.imageRead g (0x780 + n) 1)))) else r) (s, true)
    if r.2 then r.1 else r.1.killUnreachable ctx
  else s

/-- A fault of a group that has ended: it enters no handler, and its first fault is recorded and counted (R5, log 43). An unreachable image
kills the cluster with reason 10 (R321). -/
def State.recordEnded (ctx : Nat) (f : FaultRec) (s : State) : State :=
  s.onCtx ctx (fun s =>
    if s.g.reported then s
    else match s.recordFault (s.g.stamp f) with
      | some t => t
      | none => s.killUnreachable ctx)

/-- A pending arrival is given up: it forms no operation, its holds are lowered, and its member takes cause 12 at its next run boundary
(R268, R274); of a member that has ended it is recorded at once (R5). -/
def State.failArrival (extra : Nat) (s : State) (a : Arrival) : State :=
  let s := (s.lowerHolds a.ctx a.held).modGroup a.ctx (Group.opDone a.op)
  if (s.group a.ctx).status = .ended then s.recordEnded a.ctx (a.faultRec extra)
  else s.modGroup a.ctx (Group.atBoundary (a.faultRec extra))

/-- A rostered member of a team ends while arrivals of other members are pending: all of these are given up (R268). -/
def State.memberEnds (s : State) (g : Group) : State :=
  let t := s.teamOf g
  let pend := t.arrivals.flatten
  if t.roster.getLsbD g.id.member && pend.any (fun a => a.ctx ≠ g.id.ctx) then
    let s := s.modTeam g (fun t => { t with arrivals := t.arrivals.map (fun _ => []) })
    pend.foldl (fun s a => if a.ctx = g.id.ctx then s else State.failArrival 0 s a) s
  else s

/-- The issuing group leaves (R144, R166): its name is freed, its run stops, its in-flight record goes on. The flag is false when its
image cannot be written. -/
def State.quit (s : State) : State × Bool :=
  let g := s.g
  let s := s.memberEnds g
  let s := s.freeName g
  let r := s.imageWrite g 4 [3]
  ({ r.1 with g := { r.1.g with status := .ended, running := false, ibuf := [], stall := .none, pending := .none, request := false }
              vgrowQueue := r.1.vgrowQueue.filter (· ≠ g.id.ctx), acallocQueue := r.1.acallocQueue.filter (· ≠ g.id.ctx) }, r.2)

/-- A kill of a context's cluster with a reason that writes no record. -/
def State.killCtx (ctx reason : Nat) (s : State) : State :=
  let g := s.group ctx
  if g.id.ctx = 2 ^ 24 then s
  else if g.id.monitor then s.onCtx ctx (fun s => s.quit.1)
  else s.killCluster g.id.launch g.id.cluster reason (fun _ => none)

/-- A kill of the issuing group's cluster that leaves a record in every group (reasons 5 to 7). -/
def State.killRecorded (reason cause extra : Nat) (s : State) : State :=
  s.killCluster s.g.id.launch s.g.id.cluster reason (fun g => some (g.killRec cause extra))

/-! Runs. -/

/-- A `gridgrow` that is not executed leaves nothing between a shadow and its leader (R172, R334). -/
def Shadow.forget (id : Nat) (x : Shadow) : Shadow :=
  { x with queue := x.queue.filter (fun q => q.instr ≠ 2 * id + 1), wants := x.wants.filter (fun w => w.1 ≠ id)
           compare := x.compare.filter (fun c => c.instr ≠ id)
           start := if x.wants.any (fun w => w.1 = id) then { x.start with ops := x.start.ops - 1 } else x.start }

/-- A run of the issuing group is over: its latches are undefined (R74), its buffer is empty, its memory operations count no more (R186),
and a `gridgrow` at which it stood has not been executed (R172). -/
def Group.stopRun (g : Group) : Group :=
  { g with running := false, issued := 0, ibuf := [], stall := .none, unsent := [], tileWait := none, memOps := 0
           entries := g.entries.filter (fun e => e.kind ≠ .gridgrow)
           shadow := (g.entries.find? (fun e => e.kind = .gridgrow)).elim g.shadow (fun e => g.shadow.map (Shadow.forget e.id))
           lat := Vector.replicate 4 (Vector.replicate 32 none) }

/-- A run that completes (R186). -/
def Group.completeRun (g : Group) : Group := { g.stopRun with entries := g.entries, shadow := g.shadow, memBound := 4 < g.memOps }

/-- The deadline of the group's pre-emption request has passed: no run of it is granted, and one that stalls is rolled back (R184, R319). -/
def Group.overdue (time : Nat) (g : Group) : Bool := g.request && g.deadline ≤ time

/-- A region entry at the instruction that comes next (R22, R317). -/
def Group.enterRegion (g : Group) : Group := { g with regionPc := g.pc, regionCount := (g.regionCount + 1) % 2 ^ 32 }

/-! Faults. -/

/-- The record of the depth-1 fault is kept before a fault met there is written in its place for the host (R203, R314). -/
def State.keepRecord (g : Group) (s : State) : State :=
  if g.depth = 1 ∧ g.heldRecord.isNone then s.modGroup g.id.ctx (fun h => { h with heldRecord := some (s.imageRead g 0x40 64) }) else s

/-- A handler bank's entry word (R316): resume pc, mask, fmt bits 17:0, stack depth. -/
def bankEntry (resume : Nat) (mask : Mask) (fmt : BitVec 32) (depth : Nat) : List Byte :=
  leBytes 16 (resume + mask.toNat * 2 ^ 64 + (fmt.toNat % 2 ^ 18) * 2 ^ 96 + depth * 2 ^ 114)

/-- A handler bank's region word (R316). -/
def bankRegion (pc count : Nat) : List Byte := leBytes 16 (pc + count * 2 ^ 64)

/-- Entry to handler mode (R314) of the issuing group, whose record `f` is not yet written; `resume` is where it goes on.
An unreachable image kills the cluster with reason 10 (R321). -/
def State.enterHandler (f : FaultRec) (resume : Nat) (s : State) : State :=
  let g := s.g
  let old := g.heldRecord.getD (s.imageRead g 0x40 64)
  let (s, ok1) := if g.depth = 1 then
      s.imageWrite g (0x680 + 0x40) ((g.hs.toList.map (fun x => leBytes 8 x.toNat)).flatten ++ old)
    else (s, true)
  let (s, ok2) := s.imageWrite g 0x40 f.bytes
  let (s, ok3) := s.imageWrite g (0x680 + 0xC0 + 16 * g.depth) (bankEntry resume g.active g.fmt g.stack.length)
  let (s, ok4) := s.imageWrite g (0x680 + 0xE0 + 16 * g.depth) (bankRegion g.regionPc g.regionCount)
  if ok1 && ok2 && ok3 && ok4 then
    { s with g := { g.stopRun with
        depth := g.depth + 1
        hs := wr (wr (Vector.replicate 8 0) 0 (BitVec.ofNat 64 (s.imageAddr g + 0x40))) 1 (BitVec.ofNat 64 f.cause)
        pc := g.id.trapVector, pending := .none, heldRecord := none } }
  else s.killCtx g.id.ctx 10

/-- The issuing group ends (R144, R166). A fault that waited for its next run boundary is recorded first (R5, log 43). An unreachable
image kills the cluster with reason 10 (R321). -/
def State.endGroup (s : State) : State :=
  let told : Option State := match s.g.reported, s.g.boundaryFaults with
    | false, f :: _ => s.recordFault (s.g.stamp f)
    | _, _ => some s
  match told with
  | none => s.killCtx s.g.id.ctx 10
  | some t => if t.quit.2 then t.quit.1 else t.killCtx s.g.id.ctx 10

/-- The fault ends the group (R313). An unreachable image kills the cluster with reason 10 (R321). -/
def State.faultEnds (f : FaultRec) (s : State) : State :=
  match s.recordFault f with
  | some t => t.endGroup
  | none => s.killCtx s.g.id.ctx 10

/-- Delivery of a fault to the issuing group, by the rows of R313 after host service: kills, no trap vector, handler depth,
handler. -/
def State.deliver (f : FaultRec) (resume : Nat) (s : State) : State :=
  if f.cause = 20 then s.killRecorded 6 20 f.extra.toNat
  else if f.cause = 21 then s.killRecorded 5 21 f.extra.toNat
  else if s.g.id.trapVector = 0 then s.faultEnds f
  else if s.g.depth = 2 then
    let met : FaultRec := { f with cause := 22, extra := BitVec.ofNat 64 f.cause }
    s.killCluster s.g.id.launch s.g.id.cluster 7
      (fun g => if g.id.ctx = s.g.id.ctx then some met else some (g.killRec 22 f.cause))
  else s.enterHandler f resume

/-- A fault-ring entry is to be written (R390). -/
def State.faultFor (e : FaultEntry) (s : State) : State := { s with faultBuffer := s.faultBuffer ++ [e] }

/-- What a partition's fault ring has room for: nothing while it is disabled or holds its entries (R390). -/
def State.faultRoom (s : State) (part : Nat) : Nat :=
  let off := partBlock part + 0x140
  let log := s.regField (off + 8) 0 5
  let used := (s.regField (off + 16) 0 20 + 2 ^ 20 - s.regField (off + 8) 32 20) % 2 ^ 20
  if log < 4 || 20 < log || s.rings.any (fun r => r.off = off && r.held) then 0 else 2 ^ log - 1 - used

/-- The fault-entry buffer is full: 1,024 entries wait for which their rings have no room (R390). -/
def State.faultsFull (s : State) : Bool :=
  1024 ≤ ((List.range Config.partitions).map (fun p => (s.faultBuffer.filter (fun f => f.part = p)).length - s.faultRoom p)).foldl (· + ·) 0

/-- The fault is held for host service (R203): the record is written, an entry goes to the partition's fault ring, and the
group waits. -/
def State.holdForHost (f : FaultRec) (s : State) : State :=
  let g := s.g
  let (s, ok) := (s.keepRecord g).imageWrite g 0x40 f.bytes
  if !ok then s.killCtx g.id.ctx 10
  else
    { s with g := { s.g.stopRun with pending := .host f } }.faultFor
      { part := g.id.part, ctx := g.id.ctx, source := .group, addr := f.addr
        words := [BitVec.ofNat 64 (s.imageAddr g + 0x40), BitVec.ofNat 64 g.id.ctx, f.addr, 0] }

/-- TAKING A FAULT (R313): the issuing group's run stops and the fault is delivered. `resume` is the faulting pc for a
precise fault, else the pc at which the group stopped (R314). `hostable`: a local translation or permission fault. -/
def State.takeFault (f : FaultRec) (resume : Nat) (hostable : Bool) (s : State) : State :=
  let f := s.g.stamp f
  if hostable && (f.cause = 8 || f.cause = 9) && s.pfmode s.g.id.part && !s.faultsFull then s.holdForHost f
  else { s with g := s.g.stopRun }.deliver f resume

/-- A precise fault at the issue of the instruction at pc (R34): its lanes, the lowest of which is reported. -/
def State.faultAt (w : Fields) (f : FaultRec) (s : State) : State :=
  let m := s.g.lanes w
  let lane := if f.lane = 0xFF then (if m = 0 then 0xFF else lowestLane m) else f.lane
  s.takeFault { f with pc := s.g.pc, mask := m, lane := lane } s.g.pc true

/-- An illegal-instruction fault (R82): lane 0xFF, a subcode and an operand position. -/
def State.illegal (subcode pos : Nat) (mask : Mask) (s : State) : State :=
  s.takeFault { cause := 1, pc := s.g.pc, mask := mask, pos := pos, extra := BitVec.ofNat 64 subcode } s.g.pc false

/-- A fault reported after issue to a context (R34): the group stops where it stands, both sides of a shadowed one. One that waits in `vgrow` or
`acalloc` leaves its queue, and takes the last place when it fails there again (log 102). One that has ended enters no handler. -/
def State.faultAfter (ctx : Nat) (f : FaultRec) (s : State) : State :=
  match (s.group ctx).status with
  | .ended => s.recordEnded ctx f
  | .resident =>
    s.onCtx ctx (fun s =>
      State.alike (fun s => s.takeFault f s.g.pc false)
        { s with vgrowQueue := s.vgrowQueue.filter (· ≠ ctx), acallocQueue := s.acallocQueue.filter (· ≠ ctx) })
  | _ => s

/-- Return from the handler at depth d (R315): `toRegion` for hretr. The entry and the region are read from the image; a reserved fmt
value there is not written but faults (R17). -/
def State.leaveHandler (toRegion : Bool) (s : State) : State :=
  let g := s.g
  let d := g.depth
  let entry := leNat (s.imageRead g (0x680 + 0xC0 + 16 * (d - 1)) 16)
  let region := leNat (s.imageRead g (0x680 + 0xE0 + 16 * (d - 1)) 16)
  let sdepth := bitsAt 114 6 entry
  let resume := bitsAt 0 52 entry / 16 * 16
  let rpc := bitsAt 0 52 region / 16 * 16
  let hs : Vector Word64 8 := if d = 2 then
      Vector.ofFn (fun i : Fin 8 => BitVec.ofNat 64 (leNat (s.imageRead g (0x680 + 0x40 + 8 * i.1) 8)))
    else g.hs
  let fmt : BitVec 32 := BitVec.ofNat 32 (bitsAt 96 18 entry)
  let (t, ok) := if d = 2 then s.imageWrite g 0x40 (s.imageRead g (0x680 + 0x80) 64) else (s, true)
  if !fmtLegal fmt then s.illegal 4 0xFF g.active
  else if !ok then t.killCtx g.id.ctx 10
  else
    let s := t
    { s with g := { g.completeRun with
        stack := g.stack.drop (g.stack.length - sdepth)
        active := BitVec.ofNat 32 (bitsAt 64 32 entry) &&& g.live
        fmt := fmt
        regionPc := rpc, regionCount := bitsAt 64 32 region
        pc := if toRegion then rpc else resume
        hs := hs, depth := d - 1, heldRecord := none } }

/-! Issue. -/

/-- A run boundary: a fault that waited for it is delivered (R268, R281). -/
def State.boundary (s : State) : State :=
  match s.g.boundaryFaults with
  | [] => s
  | f :: rest =>
    if s.g.status = .resident then State.alike (fun s => s.takeFault f s.g.pc false) { s with g := { s.g with boundaryFaults := rest } } else s

/-- The instruction is done: the pc moves on, a region entry is made when the instruction closes its region, and E = 1 ends
the run (R76, R317). -/
def State.finish (w : Fields) (closes : Bool) (s : State) : State :=
  let g := { s.g with pc := (s.g.pc + 16) % 2 ^ 52, issued := s.g.issued + 1, stall := .none, ibuf := s.g.ibuf.drop 1 }
  let g := if closes then g.enterRegion else g
  if w.e then { s with g := g.completeRun }.boundary else { s with g := g }

/-- The instruction is done but for a uniform result that entry `id` brings: the run stalls there, and has ended once the
result is written when E = 1 (R21, R80). -/
def State.finishBlocked (w : Fields) (closes : Bool) (id : Nat) (s : State) : State :=
  let g := { s.g with pc := (s.g.pc + 16) % 2 ^ 52, issued := s.g.issued + 1, ibuf := if w.e then [] else s.g.ibuf.drop 1 }
  let g := if closes then g.enterRegion else g
  { s with g := { g with stall := .uniform id } }

/-- A control transfer: the run ends and the next one begins at the target (R76, R77). -/
def State.jump (target : Nat) (closes : Bool) (s : State) : State :=
  let g := { s.g with pc := target % 2 ^ 52, stall := .none }
  let g := if closes then g.enterRegion else g
  { s with g := g.completeRun }.boundary

/-- The run stalls at this instruction (R80). -/
def State.stalls (r : Stall) (s : State) : State := { s with g := { s.g with stall := r } }

/-- The run ends at this instruction with pc standing at it, and the group waits (R152, R295). -/
def State.waitsAt (p : Pending) (s : State) : State := { s with g := { s.g.stopRun with pending := p } }

/-- The first use that is out of bounds (R15). -/
def firstOutOfBounds (g : Group) (uses : List RegUse) : Option RegUse := uses.find? g.outOfBounds

/-- A register-bounds fault (R15, R36): the effective number and the file. -/
def boundsFault (u : RegUse) : FaultRec :=
  { cause := 2, pos := u.pos, extra := BitVec.ofNat 64 (u.num % 2 ^ 18 + u.file.code.toNat * 2 ^ 24) }

/-- The vector registers of a list of uses. -/
def heldRegs (g : Group) (uses : List RegUse) : List Nat :=
  ((uses.filter (fun u => u.file = .v)).map (fun u => (List.range u.count).map (fun i => u.num + i))).flatten.filter
    (fun n => g.holdCount n ≠ 0)

/-- The first destination register with an arm hold (R21). -/
def firstArmed (g : Group) (uses : List RegUse) : Option (RegUse × Nat) :=
  (uses.filter (·.write)).findSome? (fun u => ((heldRegs g [u]).find? (fun n => g.holdArm n)).map (fun n => (u, n)))

/-- Instructions that only a system context may execute (R25), but for `rdsr`, whose registers decide. -/
def privileged : Instr → Bool
  | .wrsr _ | .wrsrMgmt _ | .tlbinv _ | .linclr _ | .ifread _ | .halt _ | .rdsrMgmt _ => true
  | _ => false

/-- Instructions that only a debug monitor may execute (R343, R352). -/
def monitorOnly : Instr → Bool
  | .mbxs _ | .mbxr _ => true
  | _ => false

/-- Wait-class instructions (R78). -/
def waitClass : Instr → Bool
  | .waitp _ | .waitm _ | .waitc _ | .waith _ | .barWait _ => true
  | _ => false

/-- Every instruction but `waith` stalls on a held register it names (R21, R378). -/
def stallsOnHolds : Instr → Bool
  | .waith _ => false
  | _ => true

/-- The operand position of a bad encoding, if the word is no legal instruction (R82). -/
def badEncoding (i : Instr) (w : Fields) : Option Nat :=
  match i.form with
  | some f => f.badPosition w
  | none => some 0xFF

/-- The checks at issue, in R34's order, and then the instruction's own effect. `uses` are its registers; `system` says that
this use of the instruction needs a system context; an instruction that enables no lane makes only the checks of R64 and
then `idle`. -/
def State.issueWith (i : Instr) (w : Fields) (system : Bool) (uses : List RegUse) (idle : State → State)
    (body : State → State) (s : State) : Result :=
  match badEncoding i w with
  | some pos => .next (s.illegal 0 pos (s.g.lanes w))
  | none =>
    if s.g.issued = 23 ∧ !w.e then .next (s.illegal 0 0xFF (s.g.lanes w))
    else if (system ∧ !s.g.id.system) ∨ (monitorOnly i ∧ !s.g.id.monitor) then .next (s.illegal 1 0xFF (s.g.lanes w))
    else if waitClass i ∧ s.g.issued ≠ 0 then .next (s.illegal 2 0xFF (s.g.lanes w))
    else match firstOutOfBounds s.g uses with
      | some u => .next (s.faultAt w (boundsFault u))
      | none =>
        if s.g.lanes w = 0 then .next (idle s)
        else match firstArmed s.g uses with
          | some (u, n) => .next (s.faultAt w { cause := 13, pos := u.pos, extra := BitVec.ofNat 64 n })
          | none =>
            match heldRegs s.g (if stallsOnHolds i then uses else []) with
            | n :: _ => .next (s.stalls (.hold n))
            | [] => .next (body s)

/-- The ordinary issue: with no lane enabled the instruction only advances (R64, R65). -/
def State.issue (i : Instr) (w : Fields) (uses : List RegUse) (body : State → State) (s : State) : Result :=
  s.issueWith i w (privileged i) uses (fun s => s.finish w false) body

/-! Results. -/

/-- What a latch lane receives from a vector result: a 64-bit value, or a 32-bit one whose high half is undefined (R72). -/
def captured (s : State) (wide : Bool) (cap lane : Nat) (x : BitVec 64) : BitVec 64 :=
  if wide then x else Config.freeValue 32 s.free (32 * cap + lane) ++ x.setWidth 32

/-- The lanes of a latch after a vector result was captured in the lanes of a mask (R72). -/
@[irreducible] def latchLanes (s : State) (wide : Bool) (cap : Nat) (m : Mask) (f : Nat → BitVec 64)
    (old : Vector (Option (BitVec 64)) 32) : Vector (Option (BitVec 64)) 32 :=
  Vector.ofFn fun l : Fin 32 => if m.getLsbD l.1 then some (captured s wide cap l.1 (f l.1)) else rd none old l.1

/-- Capture a vector result in the active, enabled lanes (R72). -/
def State.captureLanes (w : Fields) (wide : Bool) (m : Mask) (f : Nat → BitVec 64) (s : State) : State :=
  let c := w.cap.toNat
  { s with g := { s.g with lat := wr s.g.lat c (latchLanes s wide c m f (rd (Vector.replicate 32 none) s.g.lat c)) } }

/-- Capture a uniform result in every lane (R72). -/
def State.captureUniform (w : Fields) (x : BitVec 64) (s : State) : State :=
  { s with g := { s.g with lat := wr s.g.lat w.cap.toNat (Vector.replicate 32 (some x)) } }

/-- Write a vector register, or a pair, in the lanes of a mask. -/
def Group.writeLanes (g : Group) (n : Nat) (wide : Bool) (m : Mask) (f : Nat → BitVec 64) : Group :=
  if wide then (g.writeVMask n m (fun l => (f l).setWidth 32)).writeVMask (n + 1) m (fun l => ((f l) >>> 32).setWidth 32)
  else g.writeVMask n m (fun l => (f l).setWidth 32)

/-- Write a synchronous result (R12, R65, R66, R72). With G = 1, and for an s or k destination, it is uniform: the value of
lane 0's operands, or of the lowest active lane with G = 0; a 32-bit result in an s register is zero-extended (log 12). -/
def State.putResult (w : Fields) (wide : Bool) (f : Nat → BitVec 64) (s : State) : State :=
  let m := s.g.lanes w
  let d := s.g.dnum w
  let cut (x : BitVec 64) : BitVec 64 := if wide then x else (x.setWidth 32).setWidth 64
  if w.g then
    let x := cut (f 0)
    let g := if w.n then s.g
      else match w.dfile with
        | .v => s.g.writeLanes d wide m (fun _ => x)
        | .s => s.g.writeS d x
        | .k => s.g.writeK d (x.setWidth 32)
        | .p => s.g
    { s with g := g }.captureUniform w x
  else if w.n || w.dfile = .v then
    let v : Vector (BitVec 64) 32 := Vector.ofFn fun l : Fin 32 => cut (f l.1)
    let at_ (l : Nat) : BitVec 64 := rd 0 v l
    let s' := s.captureLanes w wide m at_
    if w.n then s' else { s' with g := s'.g.writeLanes d wide m at_ }
  else
    let x := cut (f (lowestLane m))
    let g := match w.dfile with
      | .s => s.g.writeS d x
      | .k => s.g.writeK d (x.setWidth 32)
      | _ => s.g
    { s with g := g }.captureUniform w x

/-- Write a mask result (R102): the whole k register, captured as a uniform value. -/
def State.putMask (w : Fields) (f : Nat → Bool) (s : State) : State :=
  let m := s.g.lanes w
  let x : Mask := BitVec.ofNat 32 (leNatBits ((List.range 32).map (fun l => m.getLsbD l && f l)))
  let g := if w.n then s.g else s.g.writeK (s.g.dnum w) x
  { s with g := g }.captureUniform w (x.setWidth 64)
where
  /-- A number from bits, lowest first. -/
  leNatBits : List Bool → Nat
    | [] => 0
    | b :: bs => (if b then 1 else 0) + 2 * leNatBits bs

/-- Write a pointer result: a p register, or a v quad in the lanes of the mask; bits 63:0 are captured (R72, R121). -/
def State.putPtr (w : Fields) (f : Nat → Ptr) (s : State) : State :=
  let m := s.g.lanes w
  let d := s.g.dnum w
  if w.g then
    let x := f 0
    let quad (g : Group) : Group := (List.range 4).foldl (fun g i => g.writeVMask (d + i) m (fun _ => (x >>> (32 * i)).setWidth 32)) g
    let g := if w.n then s.g else if w.dfile = .v then quad s.g else s.g.writeP d x
    { s with g := g }.captureUniform w (x.setWidth 64)
  else
    let v : Vector Ptr 32 := Vector.ofFn fun l : Fin 32 => f l.1
    let quad (g : Group) : Group :=
      (List.range 4).foldl (fun g i => g.writeVMask (d + i) m (fun l => (rd 0 v l >>> (32 * i)).setWidth 32)) g
    let s' := s.captureLanes w true m (fun l => (rd 0 v l).setWidth 64)
    if w.n then s' else { s' with g := quad s'.g }

end Sys2Proof.Machine
end

