-- ==== Sys2Proof/Machine/Integer.lean ====
section
/-! DEFINITION. Integer and bit instructions (spec 04 R102, R104 to R106). Every result is formed exactly over the integers
and kept modulo 2^w; packed types work element by element (R38). -/
namespace Sys2Proof.Machine
open Sys2Proof

/-! Shapes. -/

/-- The uses of destination and A. -/
def State.uses1 (s : State) (w : Fields) : List RegUse := s.g.useDest w w.type.wide ++ s.g.useOf 1 w.a w.type.wide
/-- The uses of destination, A and B. -/
def State.uses2 (s : State) (w : Fields) : List RegUse := s.uses1 w ++ s.g.useOf 2 w.b w.type.wide
/-- The uses of destination, A, B and C. -/
def State.uses3 (s : State) (w : Fields) : List RegUse := s.uses2 w ++ s.g.useOf 3 w.c w.type.wide
/-- The uses of destination and A, and of B unless it is immediate (R105). -/
def State.usesImm (s : State) (w : Fields) : List RegUse := if w.modBit 5 then s.uses1 w else s.uses2 w

/-- The frame of R102: the result of each active lane, or once with G = 1. -/
def laneResult (i : Instr) (w : Fields) (uses : List RegUse) (f : State → Nat → BitVec 64) (s : State) : Result :=
  s.issue i w uses (fun s => (s.putResult w w.type.wide (f s)).finish w false)

/-- A mask result of R102. -/
def laneMask (i : Instr) (w : Fields) (uses : List RegUse) (f : State → Nat → Bool) (s : State) : Result :=
  s.issue i w uses (fun s => (s.putMask w (f s)).finish w false)

/-! Values. -/

/-- Element width and count of a type (R38). -/
def Ty.elems : Ty → Nat × Nat
  | .i16x2 | .n16x2 | .f16x2 | .bf16x2 => (16, 2)
  | .i8x4 | .n8x4 => (8, 4)
  | t => (t.width, 1)

/-- A w-bit pattern as a two's-complement number. -/
def toSigned (w x : Nat) : Int := if 2 ^ (w - 1) ≤ x then (x : Int) - 2 ^ w else x

/-- An integer modulo 2^w. -/
def ofSigned (w : Nat) (x : Int) : Nat := (x % 2 ^ w).toNat

/-- A w-bit pattern as a number of the type's signedness (R37). -/
def elemValue (t : Ty) (w x : Nat) : Int := if t.signed then toSigned w x else x

/-- Apply an exact operation to each element (R102, R104): elements as numbers, each result modulo 2^w. -/
def mapElems (t : Ty) (f : Int → Int → Int → Int) (a b c : BitVec 64) : BitVec 64 :=
  let w := (Ty.elems t).1
  let e (k : Nat) (x : BitVec 64) : Int := elemValue t w (bitsAt (w * k) w x.toNat)
  BitVec.ofNat 64 ((List.range (Ty.elems t).2).foldl (fun n k => n + ofSigned w (f (e k a) (e k b) (e k c)) * 2 ^ (w * k)) 0)

/-- `idiv` (R104): truncation toward zero; a zero divisor gives all ones. -/
def divTrunc (a b : Int) : Int := if b = 0 then -1 else a.tdiv b
/-- `irem` (R104): a zero divisor gives a. -/
def remTrunc (a b : Int) : Int := if b = 0 then a else a.tmod b

/-- Number of 1 bits of the low `w` bits. -/
def popCount (w x : Nat) : Nat := ((List.range w).filter (fun i => x.testBit i)).length
/-- Leading zero bits of a w-bit value; w when it is zero. -/
def leadingZeros (w x : Nat) : Nat := (findFrom (fun i => x.testBit (w - 1 - i)) w 0).getD w
/-- Trailing zero bits of a w-bit value; w when it is zero. -/
def trailingZeros (w x : Nat) : Nat := (findFrom (fun i => x.testBit i) w 0).getD w
/-- Bit j of the result is bit w−1−j of x. -/
def bitReverse (w x : Nat) : Nat := (List.range w).foldl (fun n j => if x.testBit (w - 1 - j) then n + 2 ^ j else n) 0

/-- Shift left by `b mod 256`; 0 past the width (R104). -/
def shiftLeft (w : Nat) (a b : BitVec 64) : BitVec 64 :=
  let n := b.toNat % 256
  if w ≤ n then 0 else BitVec.ofNat 64 (a.toNat * 2 ^ n % 2 ^ w)
/-- Logical right shift by `b mod 256` (R104). -/
def shiftRight (w : Nat) (a b : BitVec 64) : BitVec 64 :=
  let n := b.toNat % 256
  if w ≤ n then 0 else a >>> n
/-- Arithmetic right shift by `b mod 256` (R104). -/
def shiftArith (w : Nat) (a b : BitVec 64) : BitVec 64 :=
  BitVec.ofNat 64 (ofSigned w (toSigned w (a.toNat % 2 ^ w) / 2 ^ min (b.toNat % 256) w))
/-- Rotate left by `b mod w` (R104). -/
def rotateLeft (w : Nat) (a b : BitVec 64) : BitVec 64 :=
  let n := b.toNat % w
  let x := a.toNat % 2 ^ w
  BitVec.ofNat 64 (x * 2 ^ n % 2 ^ w + x / 2 ^ (w - n))

/-- A comparison condition of R106 and R124: 0 eq, 1 ne, 2 lt, 3 le, 4 gt, 5 ge. -/
def compareInt (cond : Nat) (a b : Int) : Bool :=
  match cond with
  | 0 => a = b | 1 => a ≠ b | 2 => a < b | 3 => a ≤ b | 4 => a > b | _ => a ≥ b

/-- The bit of the k register in C that governs lane `l` (R104). -/
def State.carryBit (s : State) (w : Fields) (l : Nat) : Bool := (s.g.readK (s.g.num w.c)).getLsbD l

/-! Meanings. -/

def execIadd (w : Fields) (s : State) : Result :=
  laneResult (.iadd w) w (s.usesImm w) (fun s l => mapElems w.type (fun a b _ => a + b) (s.opA w l) (s.opBImm w l) 0) s
def execIsub (w : Fields) (s : State) : Result :=
  laneResult (.isub w) w (s.usesImm w) (fun s l => mapElems w.type (fun a b _ => a - b) (s.opA w l) (s.opBImm w l) 0) s
def execImul (w : Fields) (s : State) : Result :=
  laneResult (.imul w) w (s.usesImm w) (fun s l => mapElems w.type (fun a b _ => a * b) (s.opA w l) (s.opBImm w l) 0) s
def execImulh (w : Fields) (s : State) : Result :=
  laneResult (.imulh w) w (s.uses2 w)
    (fun s l => mapElems w.type (fun a b _ => a * b / 2 ^ w.type.width) (s.opA w l) (s.opB w l) 0) s
def execImad (w : Fields) (s : State) : Result :=
  laneResult (.imad w) w (s.uses3 w) (fun s l => mapElems w.type (fun a b c => a * b + c) (s.opA w l) (s.opB w l) (s.opC w l)) s
def execIabs (w : Fields) (s : State) : Result :=
  laneResult (.iabs w) w (s.uses1 w) (fun s l => mapElems w.type (fun a _ _ => a.natAbs) (s.opA w l) 0 0) s
def execImin (w : Fields) (s : State) : Result :=
  laneResult (.imin w) w (s.usesImm w) (fun s l => mapElems w.type (fun a b _ => min a b) (s.opA w l) (s.opBImm w l) 0) s
def execImax (w : Fields) (s : State) : Result :=
  laneResult (.imax w) w (s.usesImm w) (fun s l => mapElems w.type (fun a b _ => max a b) (s.opA w l) (s.opBImm w l) 0) s
def execIdiv (w : Fields) (s : State) : Result :=
  laneResult (.idiv w) w (s.uses2 w) (fun s l => mapElems w.type (fun a b _ => divTrunc a b) (s.opA w l) (s.opB w l) 0) s
def execIrem (w : Fields) (s : State) : Result :=
  laneResult (.irem w) w (s.uses2 w) (fun s l => mapElems w.type (fun a b _ => remTrunc a b) (s.opA w l) (s.opB w l) 0) s
def execAnd (w : Fields) (s : State) : Result :=
  laneResult (.and w) w (s.usesImm w) (fun s l => s.opA w l &&& s.opBImm w l) s
def execOr (w : Fields) (s : State) : Result :=
  laneResult (.or w) w (s.usesImm w) (fun s l => s.opA w l ||| s.opBImm w l) s
def execXor (w : Fields) (s : State) : Result :=
  laneResult (.xor w) w (s.usesImm w) (fun s l => s.opA w l ^^^ s.opBImm w l) s
def execAndn (w : Fields) (s : State) : Result :=
  laneResult (.andn w) w (s.usesImm w) (fun s l => s.opA w l &&& ~~~(s.opBImm w l)) s
def execShl (w : Fields) (s : State) : Result :=
  laneResult (.shl w) w (s.usesImm w) (fun s l => shiftLeft w.type.width (s.opA w l) (s.opBImm w l)) s
def execShr (w : Fields) (s : State) : Result :=
  laneResult (.shr w) w (s.usesImm w) (fun s l => shiftRight w.type.width (s.opA w l) (s.opBImm w l)) s
def execSar (w : Fields) (s : State) : Result :=
  laneResult (.sar w) w (s.usesImm w) (fun s l => shiftArith w.type.width (s.opA w l) (s.opBImm w l)) s
def execRotl (w : Fields) (s : State) : Result :=
  laneResult (.rotl w) w (s.usesImm w) (fun s l => rotateLeft w.type.width (s.opA w l) (s.opBImm w l)) s
/-- R106: pos in IMM bits 7:0, len in bits 15:8; sign-extended for i types. -/
def execBfx (w : Fields) (s : State) : Result :=
  laneResult (.bfx w) w (s.uses1 w) (fun s l =>
    let len := w.immBits 8 8
    let x := bitsAt (w.immBits 0 8) len (s.opA w l).toNat
    BitVec.ofNat 64 (if w.type.signed then ofSigned w.type.width (toSigned len x) else x)) s
/-- R106: bits pos+len−1 : pos of A replaced by the low bits of B. -/
def execBfi (w : Fields) (s : State) : Result :=
  laneResult (.bfi w) w (s.uses2 w) (fun s l =>
    let m : BitVec 64 := BitVec.ofNat 64 ((2 ^ w.immBits 8 8 - 1) * 2 ^ w.immBits 0 8)
    (s.opA w l &&& ~~~m) ||| ((s.opB w l <<< w.immBits 0 8) &&& m)) s
def execBsel (w : Fields) (s : State) : Result :=
  laneResult (.bsel w) w (s.uses3 w) (fun s l => (s.opA w l &&& s.opC w l) ||| (s.opB w l &&& ~~~(s.opC w l))) s
def execPopc (w : Fields) (s : State) : Result :=
  laneResult (.popc w) w (s.uses1 w) (fun s l => BitVec.ofNat 64 (popCount w.type.width (s.opA w l).toNat)) s
def execClz (w : Fields) (s : State) : Result :=
  laneResult (.clz w) w (s.uses1 w) (fun s l => BitVec.ofNat 64 (leadingZeros w.type.width (s.opA w l).toNat)) s
def execCtz (w : Fields) (s : State) : Result :=
  laneResult (.ctz w) w (s.uses1 w) (fun s l => BitVec.ofNat 64 (trailingZeros w.type.width (s.opA w l).toNat)) s
def execBrev (w : Fields) (s : State) : Result :=
  laneResult (.brev w) w (s.uses1 w) (fun s l => BitVec.ofNat 64 (bitReverse w.type.width (s.opA w l).toNat)) s
/-- The carry out of a + b, as a mask (R102, R104); the destination is one k register. -/
def execIaddc (w : Fields) (s : State) : Result :=
  laneMask (.iaddc w) w (s.uses2 w) (fun s l => 2 ^ w.type.width ≤ (s.opA w l).toNat + (s.opB w l).toNat) s
def execIaddx (w : Fields) (s : State) : Result :=
  laneResult (.iaddx w) w (s.uses2 w ++ s.g.useOf 3 w.c false)
    (fun s l => mapElems w.type (fun a b _ => a + b + (if s.carryBit w l then 1 else 0)) (s.opA w l) (s.opB w l) 0) s
/-- R106: the condition in MOD bits 2:0, signed or unsigned by type. -/
def execIcmp (w : Fields) (s : State) : Result :=
  laneMask (.icmp w) w (s.usesImm w) (fun s l =>
    compareInt (w.modBits 0 3) (elemValue w.type w.type.width (s.opA w l).toNat)
      (elemValue w.type w.type.width (s.opBImm w l).toNat)) s
def execSel (w : Fields) (s : State) : Result :=
  laneResult (.sel w) w (s.uses2 w ++ s.g.useOf 3 w.c false)
    (fun s l => if s.carryBit w l then s.opA w l else s.opB w l) s
def execMov (w : Fields) (s : State) : Result :=
  laneResult (.mov w) w (s.uses1 w) (fun s l => s.opA w l) s
def execLdi (w : Fields) (s : State) : Result :=
  laneResult (.ldi w) w (s.g.useDest w w.type.wide) (fun _ _ => immOf w) s
/-- R106: half h, from MOD bits 1:0, of A replaced by IMM. -/
def execLdih (w : Fields) (s : State) : Result :=
  laneResult (.ldih w) w (s.uses1 w) (fun s l =>
    let h := 16 * w.modBits 0 2
    (s.opA w l &&& ~~~((0xFFFF : BitVec 64) <<< h)) ||| ((w.imm.setWidth 64) <<< h)) s

end Sys2Proof.Machine
end

