-- ==== Sys2Proof/Machine/Fp.lean ====
section
/-! DEFINITION. Exact arithmetic on the number formats (spec 02): decoding (R39, R40), rounding (R41, R42), flushing (R43),
NaNs (R44, R45), conversions (R46 to R50), codebook-4 (R51 to R53), roots and transcendental functions (R54) and sums (R55).
A finite value is a sign, a natural significand and a power of two; results are formed exactly and rounded once. -/
namespace Sys2Proof.Machine
open Sys2Proof

/-- The floating-point formats of R39. -/
inductive FFmt where
  | f64 | f32 | f16 | bf16 | e4m3 | e5m2
  deriving DecidableEq, Repr

/-- Width in bits (R39). -/
def FFmt.bits : FFmt → Nat
  | .f64 => 64 | .f32 => 32 | .f16 => 16 | .bf16 => 16 | .e4m3 => 8 | .e5m2 => 8
/-- Fraction width (R39). -/
def FFmt.frac : FFmt → Nat
  | .f64 => 52 | .f32 => 23 | .f16 => 10 | .bf16 => 7 | .e4m3 => 3 | .e5m2 => 2
/-- Exponent width (R39). -/
def FFmt.exp (f : FFmt) : Nat := f.bits - 1 - f.frac
/-- Bias (R39). -/
def FFmt.bias (f : FFmt) : Nat := 2 ^ (f.exp - 1) - 1
/-- Exponent of the smallest normal value. -/
def FFmt.emin (f : FFmt) : Int := 1 - f.bias
/-- Exponent of the largest finite value; E4M3 uses the exponent field of all ones (R40). -/
def FFmt.emax (f : FFmt) : Int := if f = .e4m3 then 8 else f.bias
/-- Significand, of F+1 bits, of the largest finite value (R39, R40). -/
def FFmt.maxSig (f : FFmt) : Nat := if f = .e4m3 then 14 else 2 ^ (f.frac + 1) - 1

/-- A decoded value: a NaN keeps its sign, whether it signals, and its fraction. -/
inductive FVal where
  | nan (sign signalling : Bool) (frac : Nat)
  | inf (sign : Bool)
  | fin (sign : Bool) (m : Nat) (e : Int)
  deriving DecidableEq, Repr

/-- A result with the flags it raises. -/
abbrev FRes := Nat × FlagBits

/-- How an operation rounds: the fields of fmt that govern it (R18). -/
structure FCtx where
  rm : Nat := 0
  fz32 : Bool := false
  fz64 : Bool := false
  sat : Bool := false
  nanp : Bool := false
  deriving DecidableEq, Repr

/-- RNE, no flushing, canonical NaNs: engines, atomics and matrices (R58, R60). -/
def FCtx.plain : FCtx := {}
/-- RNE, SAT = 1, no flushing (R279, R284). -/
def FCtx.engine : FCtx := { sat := true }
/-- The fields of fmt. -/
def FCtx.ofFmt (f : BitVec 32) : FCtx :=
  { rm := fmtRM f, fz32 := fmtFZ32 f, fz64 := fmtFZ64 f, sat := fmtSAT f, nanp := fmtNANP f }

/-- The flush bit that governs a format (R43). -/
def FCtx.flushes (c : FCtx) : FFmt → Bool
  | .f64 => c.fz64
  | .f32 | .f16 | .bf16 => c.fz32
  | _ => false

/-- The bits of a sign. -/
def FFmt.signBit (f : FFmt) (s : Bool) : Nat := if s then 2 ^ (f.bits - 1) else 0
/-- ±∞; in E4M3 the NaN of that sign (R40, R42). -/
def FFmt.infBits (f : FFmt) (s : Bool) : Nat :=
  f.signBit s + (if f = .e4m3 then 0x7F else (2 ^ f.exp - 1) * 2 ^ f.frac)
/-- ± the largest finite value. -/
def FFmt.maxBits (f : FFmt) (s : Bool) : Nat := f.infBits s - 1
/-- The quiet bit of a fraction. -/
def FFmt.quiet (f : FFmt) : Nat := 2 ^ (f.frac - 1)
/-- The canonical NaN (R44). -/
def FFmt.canonical (f : FFmt) : Nat := if f = .e4m3 then 0x7F else f.infBits false + f.quiet

/-- Decode a pattern (R39, R40). -/
def FFmt.decode (f : FFmt) (x : Nat) : FVal :=
  let s := x.testBit (f.bits - 1)
  let ex := bitsAt f.frac f.exp x
  let fr := bitsAt 0 f.frac x
  if f = .e4m3 ∧ ex = 15 ∧ fr = 7 then .nan s false 7
  else if f ≠ .e4m3 ∧ ex = 2 ^ f.exp - 1 then (if fr = 0 then .inf s else .nan s (!fr.testBit (f.frac - 1)) fr)
  else if ex = 0 then .fin s fr (f.emin - f.frac)
  else .fin s (2 ^ f.frac + fr) (f.emin - f.frac + (ex - 1 : Nat))

/-- Decode a source operand, flushing a subnormal when the context says so (R43). -/
def FFmt.read (f : FFmt) (c : FCtx) (x : Nat) : FVal :=
  match f.decode x with
  | .fin s m e => if c.flushes f ∧ m < 2 ^ f.frac then .fin s 0 e else .fin s m e
  | v => v

/-- The number of bits of a number. -/
def bitLen (m : Nat) : Nat := if m = 0 then 0 else Nat.log2 m + 1

/-- Drop `sh` low bits of a significand, rounding by mode (R41); with whether that was inexact. -/
def roundShift (rm : Nat) (sign : Bool) (m sh : Nat) : Nat × Bool :=
  let sh := min sh (bitLen m + 2)
  let q := m >>> sh
  let r := m % 2 ^ sh
  let twice := 2 * r
  let up : Bool := match rm with
    | 0 => 2 ^ sh < twice || (twice = 2 ^ sh && q % 2 = 1 && sh ≠ 0)
    | 2 => r ≠ 0 && !sign
    | 3 => r ≠ 0 && sign
    | 4 => sh ≠ 0 && 2 ^ sh ≤ twice
    | _ => false
  (if up then q + 1 else q, r ≠ 0)

/-- The result of an overflow (R42); a saturating conversion gives the largest finite value (R47). -/
def FFmt.overflow (f : FFmt) (rm : Nat) (saturate sign : Bool) : FRes :=
  let toInf : Bool := match rm with
    | 1 => false | 2 => !sign | 3 => sign | _ => true
  (if saturate || !toInf then f.maxBits sign else f.infBits sign, flagOF ||| flagNX)

/-- Round a non-zero exact value m × 2^e (R41 to R43). -/
def FFmt.round (f : FFmt) (c : FCtx) (conv : Bool) (sign : Bool) (m : Nat) (e : Int) : FRes :=
  let p := f.frac + 1
  let l := bitLen m
  let (q, _) := if p < l then roundShift c.rm sign m (l - p) else (m <<< (p - l), false)
  let inexact := p < l && m % 2 ^ (l - p) ≠ 0
  let e1 : Int := e + l - 1 + (if 2 ^ p ≤ q then 1 else 0)
  let q := if 2 ^ p ≤ q then q / 2 else q
  if f.emax < e1 ∨ (e1 = f.emax ∧ f.maxSig < q) then f.overflow c.rm (conv && c.sat) sign
  else if e1 < f.emin then
    if c.flushes f then (f.signBit sign, flagUF ||| flagNX)
    else
      let sh := f.emin - f.frac - e
      let (q, ix) := if 0 < sh then roundShift c.rm sign m sh.toNat else (m <<< (-sh).toNat, false)
      (f.signBit sign + q, if ix then flagUF ||| flagNX else 0)
  else (f.signBit sign + (e1 - f.emin + 1).toNat * 2 ^ f.frac + (q - 2 ^ f.frac), if inexact then flagNX else 0)

/-- Round an exact value that may be zero; a zero keeps the sign given. -/
def FFmt.roundVal (f : FFmt) (c : FCtx) (conv : Bool) (sign : Bool) (m : Nat) (e : Int) : FRes :=
  if m = 0 then (f.signBit sign, 0) else f.round c conv sign m e

/-- The NaN of a result (R44, R45): canonical, or the first NaN operand quietened and fitted to the format. -/
def FFmt.nanResult (f : FFmt) (c : FCtx) (ops : List (FFmt × FVal)) : Nat :=
  let first := ops.findSome? (fun o => match o.2 with | .nan s _ fr => some (o.1, s, fr) | _ => none)
  match c.nanp, first with
  | true, some (src, s, fr) =>
    if f = .e4m3 then f.infBits s
    else
      let pay := if src = .e4m3 then 0 else if f.frac ≤ src.frac then fr >>> (src.frac - f.frac) else fr <<< (f.frac - src.frac)
      f.infBits s + (pay ||| f.quiet)
  | _, _ => f.canonical

/-- An operand is a NaN. -/
def FVal.isNan : FVal → Bool
  | .nan .. => true
  | _ => false
/-- An operand is a signalling NaN. -/
def FVal.isSnan : FVal → Bool
  | .nan _ s _ => s
  | _ => false
/-- The sign of a value. -/
def FVal.sign : FVal → Bool
  | .nan s _ _ => s | .inf s => s | .fin s _ _ => s
/-- The value with its sign inverted. -/
def FVal.neg : FVal → FVal
  | .nan s q fr => .nan (!s) q fr | .inf s => .inf (!s) | .fin s m e => .fin (!s) m e
/-- A zero. -/
def FVal.isZero : FVal → Bool
  | .fin _ 0 _ => true
  | _ => false
/-- An infinity. -/
def FVal.isInf : FVal → Bool
  | .inf _ => true
  | _ => false

/-- The exact product of two values that are not NaNs; none for 0 × ∞. -/
def FVal.mul : FVal → FVal → Option FVal
  | .inf s, y => if y.isZero then none else some (.inf (s != y.sign))
  | x, .inf s => if x.isZero then none else some (.inf (x.sign != s))
  | .fin s m e, .fin s' m' e' => some (.fin (s != s') (m * m') (e + e'))
  | x, _ => some x

/-- m × 2^e at a smaller exponent `lo`, with its sign. -/
def scaledTo (lo : Int) (s : Bool) (m : Nat) (e : Int) : Int :=
  let x : Int := (m <<< (e - lo).toNat : Nat)
  if s then -x else x

/-- The least exponent of the finite terms. -/
def leastExp (l : List FVal) : Int :=
  l.foldl (fun a v => match v with | .fin _ m e => if m = 0 then a else min a e | _ => a) (2 ^ 20)

/-- The exact sum of terms that are not NaNs (R41): none where infinities of both signs meet; an exact zero is −0 when every
term is negative or when the terms differ in sign and the mode is toward −∞. -/
def sumVals (rm : Nat) (l : List FVal) : Option FVal :=
  let infs := l.filter FVal.isInf
  if infs.any FVal.sign && infs.any (fun v => !v.sign) then none
  else match infs with
    | v :: _ => some v
    | [] =>
      let lo := leastExp l
      let total : Int := l.foldl (fun a v => match v with | .fin s m e => if m = 0 then a else a + scaledTo lo s m e | _ => a) 0
      if total = 0 then
        some (.fin (if l.all FVal.sign then true else if l.all (fun v => !v.sign) then false else rm = 3) 0 0)
      else some (.fin (total < 0) total.natAbs lo)

/-- An arithmetic result (R41 to R45): `ops` are the operands in the order A, B, C; `terms` the terms of the exact sum, none
for an invalid product. Beside a quiet NaN operand only an invalid product sets NV: infinities of opposite sign among the terms do not
(log 97). -/
def FFmt.sumResult (f : FFmt) (c : FCtx) (ops : List (FFmt × FVal)) (terms : List (Option FVal)) : FRes :=
  let bad := terms.any Option.isNone
  let nv := bad || ops.any (fun o => o.2.isSnan)
  if ops.any (fun o => o.2.isNan) then (f.nanResult c ops, if nv then flagNV else 0)
  else if bad then (f.canonical, flagNV)
  else match sumVals c.rm (terms.filterMap id) with
    | none => (f.canonical, flagNV)
    | some (.inf s) => (f.infBits s, 0)
    | some (.fin s m e) => f.roundVal c false s m e
    | some (.nan ..) => (f.canonical, flagNV)

/-- A product term of two operands; a NaN operand makes no invalid product. -/
def mulTerm (x y : FVal) : Option FVal := if x.isNan || y.isNan then some (.fin false 0 0) else x.mul y

/-- fadd and fsub (R55). -/
def fAdd (f : FFmt) (c : FCtx) (sub : Bool) (a b : Nat) : FRes :=
  let x := f.read c a
  let y := f.read c b
  f.sumResult c [(f, x), (f, y)] [some x, some (if sub then y.neg else y)]
/-- fmul (R55). -/
def fMul (f : FFmt) (c : FCtx) (a b : Nat) : FRes :=
  let x := f.read c a
  let y := f.read c b
  f.sumResult c [(f, x), (f, y)] [mulTerm x y]
/-- ffma (R55). -/
def fFma (f : FFmt) (c : FCtx) (a b d : Nat) : FRes :=
  let x := f.read c a
  let y := f.read c b
  let z := f.read c d
  f.sumResult c [(f, x), (f, y), (f, z)] [mulTerm x y, some z]
/-- fdot2 (R55): two products of 16-bit elements and an FP32 addend, rounded once to FP32. With NANP = 1 element 0 of a packed operand
counts before its element 1 (R45, log 97). -/
def fDot2 (f : FFmt) (c : FCtx) (a b d : Nat) : FRes :=
  let e (x k : Nat) : FVal := f.read c (bitsAt (16 * k) 16 x)
  let z := FFmt.f32.read c d
  FFmt.f32.sumResult c [(f, e a 0), (f, e a 1), (f, e b 0), (f, e b 1), (.f32, z)]
    [mulTerm (e a 0) (e b 0), mulTerm (e a 1) (e b 1), some z]

/-- Order of two values that are not NaNs, −0 and +0 equal. -/
def FVal.lt (x y : FVal) : Bool :=
  match x, y with
  | .inf s, y => s && !(y = .inf true)
  | x, .inf s => !s && !(x = .inf false)
  | .fin s m e, .fin s' m' e' =>
    let lo := min e e'
    scaledTo lo s m e < scaledTo lo s' m' e'
  | _, _ => false

/-- The pattern of an operand after flushing. -/
def FFmt.flushed (f : FFmt) (c : FCtx) (x : Nat) : Nat := if (f.read c x).isZero then f.signBit (x.testBit (f.bits - 1)) else x

/-- fmin and fmax (R109): −0 below +0, a single NaN is passed over. -/
def fMinMax (f : FFmt) (c : FCtx) (isMax : Bool) (a b : Nat) : FRes :=
  let x := f.read c a
  let y := f.read c b
  let nv : FlagBits := if x.isSnan || y.isSnan then flagNV else 0
  if x.isNan && y.isNan then (f.nanResult c [(f, x), (f, y)], nv)
  else if x.isNan then (f.flushed c b, nv)
  else if y.isNan then (f.flushed c a, nv)
  else
    let less := x.lt y || (!y.lt x && x.sign && !y.sign)
    (if less != isMax then f.flushed c a else f.flushed c b, nv)

/-- The integer part of a square root, bit by bit from bit `n` − 1. -/
def sqrtBits (x : Nat) : Nat → Nat → Nat
  | 0, r => r
  | n + 1, r => sqrtBits x n (if (r + 2 ^ n) * (r + 2 ^ n) ≤ x then r + 2 ^ n else r)

/-- The integer square root. -/
def natSqrt (x : Nat) : Nat := sqrtBits x (bitLen x / 2 + 1) 0

/-- m / m' × 2^(e − e') with a sticky low bit, for rounding to at most 53 bits. -/
def divSticky (m : Nat) (e : Int) (m' : Nat) (e' : Int) : Nat × Int :=
  let k := 60 + bitLen m'
  let q := (m <<< k) / m'
  (2 * q + (if (m <<< k) % m' = 0 then 0 else 1), e - e' - k - 1)

/-- fdiv (R54). -/
def fDiv (f : FFmt) (c : FCtx) (a b : Nat) : FRes :=
  let x := f.read c a
  let y := f.read c b
  let sg := x.sign != y.sign
  if x.isNan || y.isNan then (f.nanResult c [(f, x), (f, y)], if x.isSnan || y.isSnan then flagNV else 0)
  else if (x.isInf && y.isInf) || (x.isZero && y.isZero) then (f.canonical, flagNV)
  else match x, y with
    | .inf _, _ => (f.infBits sg, 0)
    | _, .inf _ => (f.signBit sg, 0)
    | .fin _ m e, .fin _ m' e' =>
      if m' = 0 then (f.infBits sg, flagDZ)
      else if m = 0 then (f.signBit sg, 0)
      else let (q, e1) := divSticky m e m' e'; f.round c false sg q e1
    | _, _ => (f.canonical, flagNV)

/-- √m × 2^(e/2) with a sticky low bit. -/
def sqrtSticky (m : Nat) (e : Int) : Nat × Int :=
  let k : Nat := 120 + (e % 2).toNat
  let r := natSqrt (m <<< k)
  (2 * r + (if r * r = m <<< k then 0 else 1), (e - k) / 2 - 1)

/-- fsqrt (R54). -/
def fSqrt (f : FFmt) (c : FCtx) (a : Nat) : FRes :=
  match f.read c a with
  | .nan s q fr => (f.nanResult c [(f, .nan s q fr)], if q then flagNV else 0)
  | .inf s => if s then (f.canonical, flagNV) else (f.infBits false, 0)
  | .fin s m e =>
    if m = 0 then (f.signBit s, 0)
    else if s then (f.canonical, flagNV)
    else let (q, e1) := sqrtSticky m e; f.round c false false q e1

/-- frint (R110): an integral value of the same format; never NX. -/
def fRint (f : FFmt) (c : FCtx) (a : Nat) : FRes :=
  match f.read c a with
  | .nan s q fr => (f.nanResult c [(f, .nan s q fr)], if q then flagNV else 0)
  | .inf s => (f.infBits s, 0)
  | .fin s m e =>
    if 0 ≤ e then f.roundVal c false s m e
    else (f.signBit s + (f.roundVal c false false (roundShift c.rm s m (-e).toNat).1 0).1, 0)

/-- fscale (R110): the exact product with 2^n, rounded once. -/
def fScale (f : FFmt) (c : FCtx) (a : Nat) (n : Int) : FRes :=
  match f.read c a with
  | .nan s q fr => (f.nanResult c [(f, .nan s q fr)], if q then flagNV else 0)
  | .inf s => (f.infBits s, 0)
  | .fin s m e => f.roundVal c false s m (e + n)

/-- fgetexp (R110). -/
def fGetExp (f : FFmt) (c : FCtx) (a : Nat) : FRes :=
  match f.read c a with
  | .nan s q fr => (f.nanResult c [(f, .nan s q fr)], if q then flagNV else 0)
  | .inf _ => (f.infBits false, 0)
  | .fin _ m e =>
    if m = 0 then (f.infBits true, flagDZ)
    else
      let x := e + bitLen m - 1
      (f.roundVal c false (x < 0) x.natAbs 0)

/-- fgetman (R110). -/
def fGetMan (f : FFmt) (c : FCtx) (a : Nat) : FRes :=
  match f.read c a with
  | .nan s q fr => (f.nanResult c [(f, .nan s q fr)], if q then flagNV else 0)
  | .inf _ => (f.canonical, flagNV)
  | .fin s m _ => f.roundVal c false s m (1 - bitLen m)

/-- fcmp (R111): 0 eq, 1 ne, 2 lt, 3 le, 4 gt, 5 ge, 6 unordered, 7 ordered; with NV. -/
def fCmp (f : FFmt) (c : FCtx) (cond a b : Nat) : Bool × FlagBits :=
  let x := f.read c a
  let y := f.read c b
  let un := x.isNan || y.isNan
  let nv := x.isSnan || y.isSnan || (un && 2 ≤ cond && cond ≤ 5)
  let lt := x.lt y
  let gt := y.lt x
  let r : Bool := match cond with
    | 0 => !un && !lt && !gt | 1 => un || lt || gt | 2 => !un && lt | 3 => !un && !gt | 4 => !un && gt | 5 => !un && !lt
    | 6 => un | _ => !un
  (r, if nv then flagNV else 0)

/-- The class number of R111. -/
def fClass (f : FFmt) (a : Nat) : Nat :=
  match f.decode a with
  | .nan _ q _ => if q then 0 else 1
  | .inf s => if s then 2 else 9
  | .fin s m _ =>
    if m = 0 then (if s then 5 else 6)
    else if m < 2 ^ f.frac then (if s then 4 else 7)
    else (if s then 3 else 8)

/-! Conversions (R46 to R50). -/

/-- A number format of R112. -/
inductive NumFmt where
  | int (signed : Bool) (width : Nat)
  | flt (f : FFmt)
  deriving DecidableEq, Repr

/-- The format codes of R112. -/
def NumFmt.ofCode : Nat → NumFmt
  | 0 => .int true 32 | 1 => .int false 32 | 2 => .int true 64 | 3 => .int false 64 | 4 => .flt .f32 | 5 => .flt .f64
  | 6 => .flt .f16 | 7 => .flt .bf16 | 8 => .flt .e4m3 | 9 => .flt .e5m2 | 10 => .int true 16 | 11 => .int false 16
  | 12 => .int true 8 | _ => .int false 8

/-- Width in bits. -/
def NumFmt.width : NumFmt → Nat
  | .int _ w => w
  | .flt f => f.bits

/-- Float to float (R46, R47). -/
def convFF (src dst : FFmt) (c : FCtx) (x : Nat) : FRes :=
  match src.read c x with
  | .nan s q fr => (dst.nanResult c [(src, .nan s q fr)], if q then flagNV else 0)
  | .inf s =>
    if dst = .e4m3 then (if c.sat then (dst.maxBits s, flagNX) else (dst.infBits s, flagNV)) else (dst.infBits s, 0)
  | .fin s m e => dst.roundVal c true s m e

/-- The ends of an integer format's range. -/
def intRange (signed : Bool) (w : Nat) : Int × Int := if signed then (-(2 ^ (w - 1)), 2 ^ (w - 1) - 1) else (0, 2 ^ w - 1)

/-- Float to integer (R48). -/
def convFI (src : FFmt) (signed : Bool) (w : Nat) (c : FCtx) (x : Nat) : FRes :=
  let (lo, hi) := intRange signed w
  match src.read c x with
  | .nan .. => (0, flagNV)
  | .inf s => (ofSigned w (if s then lo else hi), flagNV)
  | .fin s m e =>
    if m = 0 then (0, 0)
    else
      let (q, ix) := if 0 ≤ e then (m <<< min e.toNat 1100, false) else roundShift c.rm s m (-e).toNat
      let v : Int := if s then -(q : Int) else q
      if v < lo then (ofSigned w lo, flagNV) else if hi < v then (ofSigned w hi, flagNV)
      else (ofSigned w v, if ix then flagNX else 0)

/-- Integer to float (R49). -/
def convIF (signed : Bool) (w : Nat) (dst : FFmt) (c : FCtx) (x : Nat) : FRes :=
  let v : Int := if signed then toSigned w x else x
  dst.roundVal c true (v < 0) v.natAbs 0

/-- Integer to integer (R50). From a signed to a wider unsigned format both sentences of R50 apply: with SAT = 1 the value is clamped
(log 97). -/
def convII (signed : Bool) (w : Nat) (signed' : Bool) (w' : Nat) (c : FCtx) (x : Nat) : FRes :=
  let v : Int := if signed then toSigned w x else x
  let (lo, hi) := intRange signed' w'
  let widening := (w < w' && (signed = signed' || !signed)) || (signed = signed' && w = w')
  (ofSigned w' (if widening || !c.sat then v else if v < lo then lo else if hi < v then hi else v), 0)

/-- Any conversion of R46 to R50. -/
def convert (src dst : NumFmt) (c : FCtx) (x : Nat) : FRes :=
  match src, dst with
  | .flt a, .flt b => convFF a b c x
  | .flt a, .int sg w => convFI a sg w c x
  | .int sg w, .flt b => convIF sg w b c x
  | .int sg w, .int sg' w' => convII sg w sg' w' c x

/-! Codebook-4 (R51 to R53). -/

/-- 1,024 × the magnitude of q[8 + j] (R51). -/
def nqMag (j : Nat) : Nat := [43, 130, 221, 318, 426, 556, 724, 1024].getD j 0
/-- 1,024 × the magnitude of q[i]; q[i] = −q[15 − i] (R51). -/
def nqAbs (i : Nat) : Nat := if 8 ≤ i then nqMag (i - 8) else nqMag (7 - i)

/-- Decode (R52): q[i] × c × S / 256 rounded to FP32 under RNE; NaNs are canonical. -/
def nqDecode (i c sc : Nat) : FRes :=
  if c = 0 then (0, 0)
  else match FFmt.f32.decode sc with
    | .nan _ q _ => (FFmt.f32.canonical, if q then flagNV else 0)
    | .inf s => (FFmt.f32.infBits (s != (i < 8)), 0)
    | .fin s m e => FFmt.f32.roundVal .plain false (s != (i < 8)) (nqAbs i * c * m) (e - 18)

/-- Encode x against the block scale m (R53, R116). -/
def nqEncode (x m : Nat) : FRes :=
  match FFmt.f32.decode m with
  | .fin false mm me =>
    if mm = 0 then (8, flagNV)
    else match FFmt.f32.decode x with
      | .nan .. => (8, flagNV)
      | .inf s => (if s then 0 else 15, flagNX)
      | .fin s xm xe =>
        if xm = 0 then (if s then 7 else 8, flagNX)
        else
          -- |x| and every |q| m as integers at one exponent
          let lo := min xe (me - 10)
          let ax := scaledTo lo false xm xe
          let aq (j : Nat) : Int := scaledTo lo false (nqMag j * mm) (me - 10)
          let best := (List.range 8).foldl (fun b j => if (ax - aq j).natAbs < (ax - aq b).natAbs then j else b) 0
          (if s then 7 - best else 8 + best, if ax = aq best then 0 else flagNX)
  | _ => (8, flagNV)

/-! Functions with an error bound (R54). An exact value x is given as a sign, a significand and an exponent, far more
precise than the bound; the result is the pattern of `Config.approximation` where that meets the bound, else the nearest. -/

/-- |y − x| ≤ tol, all as integers at one exponent. -/
def withinTol (lo : Int) (sy : Bool) (ym : Nat) (ye : Int) (sx : Bool) (xm : Nat) (xe : Int) (tm : Nat) (te : Int) : Bool :=
  ((scaledTo lo sy ym ye - scaledTo lo sx xm xe).natAbs : Int) ≤ scaledTo lo false tm te

/-- A pattern within `tm` × 2^te of the exact value; an infinity stands for the value that overflows to it. -/
def FFmt.meets (f : FFmt) (y : Nat) (s : Bool) (m : Nat) (e : Int) (tm : Nat) (te : Int) : Bool :=
  let lo := min (min e te) (f.emin - f.frac)
  match f.decode y with
  | .nan .. => false
  | .inf sy => withinTol lo sy 1 (f.emax + 1) s m e tm te
  | .fin sy ym ye => withinTol lo sy ym ye s m e tm te

/-- The result of a bounded function (R54): within `n` ulp of a non-zero exact value, or within an absolute bound. Overflow,
tininess and flushing follow R42 and R43, and NX is set. Where the exact value and the returned one differ in these, the returned one
decides (log 97). -/
def FFmt.bounded (f : FFmt) (c : FCtx) (opcode operand : Nat) (s : Bool) (m : Nat) (e : Int) (tol : Option (Nat × Int)) (n : Nat) :
    FRes :=
  let x := e + bitLen m - 1
  let (tm, te) := tol.getD (n, max x f.emin - f.frac)
  let cand := Config.approximation opcode operand % 2 ^ f.bits
  let ne := f.round { rm := 0 } false s m e
  let y := if f.meets cand s m e tm te then cand else ne.1
  match f.decode y with
  | .inf _ => (y, flagOF ||| flagNX)
  | .fin sy ym _ =>
    if ym < 2 ^ f.frac then (if c.flushes f then (f.signBit sy, flagUF ||| flagNX) else (y, flagUF ||| flagNX)) else (y, flagNX)
  | .nan .. => (y, flagNX)

/-- The significand is a power of two. -/
def isPow2 (m : Nat) : Bool := m ≠ 0 && 2 ^ (bitLen m - 1) = m

/-- frcp (R54). -/
def fRcp (f : FFmt) (c : FCtx) (a : Nat) : FRes :=
  match f.read c a with
  | .nan s q fr => (f.nanResult c [(f, .nan s q fr)], if q then flagNV else 0)
  | .inf s => (f.signBit s, 0)
  | .fin s m e =>
    if m = 0 then (f.infBits s, flagDZ)
    else if isPow2 m then f.round { c with rm := 0 } false s 1 (1 - bitLen m - e)
    else let (q, e1) := divSticky 1 0 m e; f.bounded c 0x086 a s q e1 none 1

/-- frsq (R54). -/
def fRsq (f : FFmt) (c : FCtx) (a : Nat) : FRes :=
  match f.read c a with
  | .nan s q fr => (f.nanResult c [(f, .nan s q fr)], if q then flagNV else 0)
  | .inf s => if s then (f.canonical, flagNV) else (0, 0)
  | .fin s m e =>
    if m = 0 then (f.infBits s, flagDZ)
    else if s then (f.canonical, flagNV)
    else
      let x := e + bitLen m - 1
      if isPow2 m && x % 2 = 0 then f.round { c with rm := 0 } false false 1 (-x / 2)
      else
        -- 1 / √(m 2^e): the square root of 2^k / m, at an even exponent
        let k : Nat := 400 + ((-e) % 2).toNat
        let r := natSqrt (2 ^ k / m)
        f.bounded c 0x087 a false (2 * r + 1) ((-e - k) / 2 - 1) none 1

/-- ln 2 × 2^256 and π × 2^640, rounded down. -/
def ln2Fix : Nat := 0xb17217f7d1cf79abc9e3b39803f2f6af40f343267298b62d8a0d175b8baafa2b
def piFix : Nat :=
  0x3243f6a8885a308d313198a2e03707344a4093822299f31d0082efa98ec4e6c89452821e638d01377be5466cf34e90c6cc0ac29b7c97c50dd3f84d5b5b54709179216d5d98979fb1bd1310ba698dfb5ac

/-- The sum of x^k / k! over k < n, in fixed point of 256 fraction bits, from term `t` of index `k`. -/
def expSeries (x : Nat) : Nat → Nat → Nat → Nat → Nat
  | 0, _, _, acc => acc
  | n + 1, k, t, acc => expSeries x n (k + 1) (t * x / 2 ^ 256 / (k + 1)) (acc + t)

/-- fexp2 (R54). -/
def fExp2 (c : FCtx) (a : Nat) : FRes :=
  let f := FFmt.f32
  match f.read c a with
  | .nan s q fr => (f.nanResult c [(f, .nan s q fr)], if q then flagNV else 0)
  | .inf s => if s then (0, 0) else (f.infBits false, 0)
  | .fin s m e =>
    let fix : Nat := if 0 ≤ e then m <<< min (256 + e.toNat) 600 else m <<< (256 - (-e).toNat)
    let v : Int := if s then -(fix : Int) else fix
    let n := v / 2 ^ 256
    let r := (v % 2 ^ 256).toNat
    if r = 0 then f.round { c with rm := 0 } false false 1 (max (-100000) (min n 100000))
    else f.bounded c 0x08A a false (expSeries (r * ln2Fix / 2 ^ 256) 64 0 (2 ^ 256) 0) (max (-100000) (min n 100000) - 256) none 2

/-- Bits of log2 of y, a fixed-point number in [1, 2) with 256 fraction bits, by repeated squaring. -/
def log2Bits : Nat → Nat → Nat → Nat
  | 0, _, acc => acc
  | n + 1, y, acc =>
    let z := y * y / 2 ^ 256
    if 2 ^ 257 ≤ z then log2Bits n (z / 2) (2 * acc + 1) else log2Bits n z (2 * acc)

/-- flog2 (R54). -/
def fLog2 (c : FCtx) (a : Nat) : FRes :=
  let f := FFmt.f32
  match f.read c a with
  | .nan s q fr => (f.nanResult c [(f, .nan s q fr)], if q then flagNV else 0)
  | .inf s => if s then (f.canonical, flagNV) else (f.infBits false, 0)
  | .fin s m e =>
    if m = 0 then (f.infBits true, flagDZ)
    else if s then (f.canonical, flagNV)
    else
      let x := e + bitLen m - 1
      if isPow2 m then f.roundVal c false (x < 0) x.natAbs 0
      else
        let y := m <<< (256 + 1 - bitLen m)
        let v : Int := x * 2 ^ 110 + log2Bits 110 y 0
        f.bounded c 0x08B a (v < 0) v.natAbs (-110) none 2

/-- Terms of the sine or cosine series of x (fixed point, 640 fraction bits, which hold x^3 of the
least subnormal x), alternating from term `t` of index `k`. -/
def trigSeries (x2 : Nat) : Nat → Nat → Nat → Int → Int
  | 0, _, _, acc => acc
  | n + 1, k, t, acc =>
    trigSeries x2 n (k + 2) (t * x2 / 2 ^ 640 / ((k + 1) * (k + 2))) (if k / 2 % 2 = 0 then acc + t else acc - t)

/-- sin (`false`) or cos (`true`) of a fixed-point angle, by the quadrant of its reduction by π/2. -/
def trigFix (cosine : Bool) (v : Int) : Int :=
  let h : Int := piFix / 2
  let k := v / h
  let r := (v % h).toNat
  let x2 := r * r / 2 ^ 640
  let sn := trigSeries x2 80 1 r 0
  let cs := trigSeries x2 80 0 (2 ^ 640) 0
  match (k + (if cosine then 1 else 0)) % 4 with
  | 0 => sn | 1 => cs | 2 => -sn | _ => -cs

/-- fsin and fcos (R54). Beyond 2^16 in magnitude the value is undefined and NX is set. -/
def fTrig (c : FCtx) (cosine : Bool) (undefined_ : BitVec 32) (a : Nat) : FRes :=
  let f := FFmt.f32
  match f.read c a with
  | .nan s q fr => (f.nanResult c [(f, .nan s q fr)], if q then flagNV else 0)
  | .inf _ => (f.canonical, flagNV)
  | .fin s m e =>
    if m = 0 then (if cosine then 0x3F800000 else f.signBit s, 0)
    else
      let big : Bool := 16 < e + bitLen m - 1 || (e + bitLen m - 1 = 16 && !isPow2 m)
      if big then (undefined_.toNat, flagNX)
      else
        let fix : Nat := m <<< (640 + e).toNat
        let y := if s && !cosine then -trigFix false fix else trigFix cosine fix
        let within := fix ≤ piFix
        f.bounded c (if cosine then 0x08D else 0x08C) a (y < 0) y.natAbs (-640)
          (if within then none else some (1, -21)) 2

end Sys2Proof.Machine
end

