-- ==== Sys2Proof/Machine/Float.lean ====
section
/-! DEFINITION. Floating-point instructions (spec 04 R107 to R111): inputs flushed under R43, one rounding under fmt, flags
ORed into the lanes (R19). With G = 1 the flags of the one operation go to every active, enabled lane (log 13). -/
namespace Sys2Proof.Machine
open Sys2Proof

/-- The format of a floating operand type (R38, R39). -/
def floatOf : Ty → FFmt
  | .f64 => .f64 | .f16x2 => .f16 | .bf16x2 => .bf16 | _ => .f32

/-- Apply an operation to each element of a floating type, ORing the flags (R38). -/
def mapFloat (t : Ty) (f : FFmt → Nat → Nat → Nat → FRes) (a b c : BitVec 64) : BitVec 64 × FlagBits :=
  let w := (floatOf t).bits
  let r := (List.range (if t.packed then 2 else 1)).foldl (fun (r : Nat × FlagBits) k =>
    let x := f (floatOf t) (bitsAt (w * k) w a.toNat) (bitsAt (w * k) w b.toNat) (bitsAt (w * k) w c.toNat)
    (r.1 + x.1 * 2 ^ (w * k), r.2 ||| x.2)) (0, 0)
  (BitVec.ofNat 64 r.1, r.2)

/-- The frame of R102 for a result with flags: a value and flags for each active lane, or once with G = 1. -/
def flaggedResult (i : Instr) (w : Fields) (uses : List RegUse) (wide : Bool) (f : State → Nat → BitVec 64 × FlagBits)
    (s : State) : Result :=
  s.issue i w uses (fun s =>
    let m := s.g.lanes w
    let r : Vector (BitVec 64 × FlagBits) 32 := Vector.ofFn fun l : Fin 32 => f s (if w.g then 0 else l.1)
    let at_ (l : Nat) : BitVec 64 × FlagBits := rd (0, 0) r l
    let s := { s with g := s.g.raiseFlags m (fun l => (at_ l).2) }
    (s.putResult w wide (fun l => (at_ l).1)).finish w false)

/-- An elementwise floating-point instruction under fmt. -/
def floatResult (i : Instr) (w : Fields) (uses : List RegUse) (f : FCtx → FFmt → Nat → Nat → Nat → FRes) (s : State) : Result :=
  flaggedResult i w uses w.type.wide
    (fun s l => mapFloat w.type (f (FCtx.ofFmt s.g.fmt)) (s.opA w l) (s.opB w l) (s.opC w l)) s

/-- A floating-point mask with flags (R102, R111). -/
def floatMask (i : Instr) (w : Fields) (uses : List RegUse) (f : State → Nat → Bool × FlagBits) (s : State) : Result :=
  s.issue i w uses (fun s =>
    let r : Vector (Bool × FlagBits) 32 := Vector.ofFn fun l : Fin 32 => f s l.1
    let at_ (l : Nat) : Bool × FlagBits := rd (false, 0) r l
    let s := { s with g := s.g.raiseFlags (s.g.lanes w) (fun l => (at_ l).2) }
    (s.putMask w (fun l => (at_ l).1)).finish w false)

def execFadd (w : Fields) (s : State) : Result :=
  floatResult (.fadd w) w (s.uses2 w) (fun c f a b _ => fAdd f c false a b) s
def execFsub (w : Fields) (s : State) : Result :=
  floatResult (.fsub w) w (s.uses2 w) (fun c f a b _ => fAdd f c true a b) s
def execFmul (w : Fields) (s : State) : Result :=
  floatResult (.fmul w) w (s.uses2 w) (fun c f a b _ => fMul f c a b) s
def execFfma (w : Fields) (s : State) : Result :=
  floatResult (.ffma w) w (s.uses3 w) (fun c f a b d => fFma f c a b d) s
def execFmin (w : Fields) (s : State) : Result :=
  floatResult (.fmin w) w (s.uses2 w) (fun c f a b _ => fMinMax f c false a b) s
def execFmax (w : Fields) (s : State) : Result :=
  floatResult (.fmax w) w (s.uses2 w) (fun c f a b _ => fMinMax f c true a b) s
def execFrcp (w : Fields) (s : State) : Result :=
  floatResult (.frcp w) w (s.uses1 w) (fun c f a _ _ => fRcp f c a) s
def execFrsq (w : Fields) (s : State) : Result :=
  floatResult (.frsq w) w (s.uses1 w) (fun c f a _ _ => fRsq f c a) s
def execFsqrt (w : Fields) (s : State) : Result :=
  floatResult (.fsqrt w) w (s.uses1 w) (fun c f a _ _ => fSqrt f c a) s
def execFdiv (w : Fields) (s : State) : Result :=
  floatResult (.fdiv w) w (s.uses2 w) (fun c f a b _ => fDiv f c a b) s
def execFexp2 (w : Fields) (s : State) : Result :=
  floatResult (.fexp2 w) w (s.uses1 w) (fun c _ a _ _ => fExp2 c a) s
def execFlog2 (w : Fields) (s : State) : Result :=
  floatResult (.flog2 w) w (s.uses1 w) (fun c _ a _ _ => fLog2 c a) s
/-- R54: beyond 2^16 in magnitude the value is undefined, a free value for each lane, and NX is set. -/
def execFsin (w : Fields) (s : State) : Result :=
  flaggedResult (.fsin w) w (s.uses1 w) false (fun s l =>
    mapFloat w.type (fun _ a _ _ => fTrig (FCtx.ofFmt s.g.fmt) false (Config.freeValue 32 s.free (2048 + l)) a) (s.opA w l) 0 0) s
def execFcos (w : Fields) (s : State) : Result :=
  flaggedResult (.fcos w) w (s.uses1 w) false (fun s l =>
    mapFloat w.type (fun _ a _ _ => fTrig (FCtx.ofFmt s.g.fmt) true (Config.freeValue 32 s.free (2048 + l)) a) (s.opA w l) 0 0) s
/-- R110: n is bits 31:0 of B as i32, for both types. -/
def execFscale (w : Fields) (s : State) : Result :=
  floatResult (.fscale w) w (s.uses2 w) (fun c f a b _ => fScale f c a (toSigned 32 (b % 2 ^ 32))) s
def execFgetexp (w : Fields) (s : State) : Result :=
  floatResult (.fgetexp w) w (s.uses1 w) (fun c f a _ _ => fGetExp f c a) s
def execFgetman (w : Fields) (s : State) : Result :=
  floatResult (.fgetman w) w (s.uses1 w) (fun c f a _ _ => fGetMan f c a) s
def execFrint (w : Fields) (s : State) : Result :=
  floatResult (.frint w) w (s.uses1 w) (fun c f a _ _ => fRint f c a) s
/-- R111: the condition in MOD bits 2:0. -/
def execFcmp (w : Fields) (s : State) : Result :=
  floatMask (.fcmp w) w (s.uses2 w)
    (fun s l => fCmp (floatOf w.type) (FCtx.ofFmt s.g.fmt) (w.modBits 0 3) (s.opA w l).toNat (s.opB w l).toNat) s
/-- R111: the class of A is selected by its bit of IMM; never flushed, no flag. -/
def execFclass (w : Fields) (s : State) : Result :=
  floatMask (.fclass w) w (s.uses1 w) (fun s l => (w.imm.getLsbD (fClass (floatOf w.type) (s.opA w l).toNat), 0)) s
/-- R55: c and d are single f32 registers. -/
def execFdot2 (w : Fields) (s : State) : Result :=
  flaggedResult (.fdot2 w) w (s.uses3 w) false (fun s l =>
    let r := fDot2 (floatOf w.type) (FCtx.ofFmt s.g.fmt) (s.opA w l).toNat (s.opB w l).toNat (s.opC w l).toNat
    (BitVec.ofNat 64 r.1, r.2)) s

end Sys2Proof.Machine
end

