-- ==== Sys2Proof/Machine/Convert.lean ====
section
/-! DEFINITION. Conversion, format and flag instructions (spec 04 R112 to R118). -/
namespace Sys2Proof.Machine
open Sys2Proof

/-- The source of cvt and cvtx (R113): a 64-bit code reads a pair; a narrow code reads element `e`. -/
def State.cvtSource (s : State) (w : Fields) (l : Nat) : Nat :=
  let code := w.modBits 0 4
  let n := (NumFmt.ofCode code).width
  let x := (s.readOp w.type w.a (n = 64) l).toNat
  if n = 64 then x else bitsAt (n * w.modBits 4 2) n x

/-- The uses of cvt and cvtx: the source width is the source code's. -/
def State.usesCvt (s : State) (w : Fields) : List RegUse :=
  s.g.useDest w w.type.wide ++ s.g.useOf 1 w.a ((NumFmt.ofCode (w.modBits 0 4)).width = 64)

/-- A result of 64 bits from a conversion. -/
def FRes.wide (r : FRes) : BitVec 64 × FlagBits := (BitVec.ofNat 64 r.1, r.2)

def execCvt (w : Fields) (s : State) : Result :=
  flaggedResult (.cvt w) w (s.usesCvt w) w.type.wide (fun s l =>
    FRes.wide (convert (NumFmt.ofCode (w.modBits 0 4)) (NumFmt.ofCode w.ty.toNat) (FCtx.ofFmt s.g.fmt) (s.cvtSource w l))) s
/-- R113: rounding mode in IMM bits 2:0 and SAT in bit 3. -/
def execCvtx (w : Fields) (s : State) : Result :=
  flaggedResult (.cvtx w) w (s.usesCvt w) w.type.wide (fun s l =>
    FRes.wide (convert (NumFmt.ofCode (w.modBits 0 4)) (NumFmt.ofCode w.ty.toNat)
      { FCtx.ofFmt s.g.fmt with rm := w.immBits 0 3, sat := w.imm.getLsbD 3 } (s.cvtSource w l))) s
/-- R114: two conversions to a narrow format, packed; for an 8-bit format into half h of C. The result is one b32 register. -/
def execCvtpk (w : Fields) (s : State) : Result :=
  let dst := NumFmt.ofCode (w.modBits 0 4)
  let uses := s.g.useDest w false ++ s.g.useOf 1 w.a w.type.wide ++ s.g.useOf 2 w.b w.type.wide
    ++ (if dst.width = 8 then s.g.useOf 3 w.c false else [])
  flaggedResult (.cvtpk w) w uses false (fun s l =>
    let c := FCtx.ofFmt s.g.fmt
    let x := convert (NumFmt.ofCode w.ty.toNat) dst c (s.opA w l).toNat
    let y := convert (NumFmt.ofCode w.ty.toNat) dst c (s.opB w l).toNat
    let n := dst.width
    let res : BitVec 64 :=
      if n = 16 then BitVec.ofNat 64 (x.1 + y.1 * 65536)
      else
        let h := if w.modBit 4 then 16 else 0
        (s.readOp .b32 w.c false l &&& ~~~((0xFFFF : BitVec 64) <<< h)) ||| (BitVec.ofNat 64 (x.1 + y.1 * 256) <<< h)
    (res, x.2 ||| y.2)) s
/-- R115: nibble n of A, block code in bits 7:0 of B, S in C. -/
def execNqdec (w : Fields) (s : State) : Result :=
  flaggedResult (.nqdec w) w (s.uses3 w) false (fun s l =>
    FRes.wide (nqDecode (bitsAt (4 * w.modBits 0 3) 4 (s.opA w l).toNat) (bitsAt 0 8 (s.opB w l).toNat) (s.opC w l).toNat)) s
/-- R116: C with nibble n replaced by the index of A at block scale B. -/
def execNqenc (w : Fields) (s : State) : Result :=
  flaggedResult (.nqenc w) w (s.uses3 w) false (fun s l =>
    let r := nqEncode (s.opA w l).toNat (s.opB w l).toNat
    let n := 4 * w.modBits 0 3
    ((s.opC w l &&& ~~~((0xF : BitVec 64) <<< n)) ||| (BitVec.ofNat 64 r.1 <<< n), r.2)) s

/-- The bits of fmt that MOD selects (R117). -/
def setfmtMask (w : Fields) : BitVec 32 :=
  (if w.modBit 0 then 0x7 else 0) ||| (if w.modBit 1 then 0x18 else 0) ||| (if w.modBit 2 then 0x20 else 0)
    ||| (if w.modBit 3 then 0x3FC0 else 0) ||| (if w.modBit 4 then 0xC000 else 0) ||| (if w.modBit 5 then 0x30000 else 0)

/-- The new fmt, or a subcode-4 fault at an operand position (R17, R117). An implicit region entry follows (R317). -/
def State.setFmt (w : Fields) (val : BitVec 32) (pos : Nat) (s : State) : State :=
  let m := setfmtMask w
  let new := (s.g.fmt &&& ~~~m) ||| (val &&& m)
  if fmtLegal new then { s with g := { s.g with fmt := new } }.finish w true
  else s.illegal 4 pos (s.g.lanes w)

def execSetfmt (w : Fields) (s : State) : Result :=
  s.issue (.setfmt w) w (s.g.useOf 1 w.a false) (fun s => s.setFmt w ((s.readOp .b32 w.a false 0).setWidth 32) 1)
def execSetfmtImm (w : Fields) (s : State) : Result :=
  s.issue (.setfmtImm w) w [] (fun s => s.setFmt w (w.imm.setWidth 32) 0xFF)
def execGetfmt (w : Fields) (s : State) : Result :=
  laneResult (.getfmt w) w (s.g.useDest w false) (fun s _ => s.g.fmt.setWidth 64) s
/-- R118: each lane's flags, or with G = 1 their OR over the active lanes. -/
def execGetflg (w : Fields) (s : State) : Result :=
  laneResult (.getflg w) w (s.g.useDest w false) (fun s l =>
    if w.g then
      ((List.range 32).foldl (fun (a : FlagBits) i => if (s.g.lanes w).getLsbD i then a ||| rd 0 s.g.flags i else a) 0).setWidth 64
    else (rd 0 s.g.flags l).setWidth 64) s
def execClrflg (w : Fields) (s : State) : Result :=
  s.issue (.clrflg w) w [] (fun s =>
    let m := s.g.lanes w
    let clear (l : Nat) : FlagBits := rd 0 s.g.flags l &&& ~~~(w.imm.setWidth 5)
    let fl : Vector (BitVec 5) 32 := Vector.ofFn fun l : Fin 32 => if m.getLsbD l.1 then clear l.1 else rd 0 s.g.flags l.1
    { s with g := { s.g with flags := fl } }.finish w false)

end Sys2Proof.Machine
end

