-- ==== Sys2Proof/Machine/Predicate.lean ====
section
/-! DEFINITION. Predicate instructions (spec 04 R119, R120): whole masks, whatever the active mask. -/
namespace Sys2Proof.Machine
open Sys2Proof

/-- A k register operand. -/
def State.maskOp (s : State) (o : Operand) : Mask := s.g.readK (s.g.num o)

/-- A predicate instruction of R119: the result is uniform. -/
def predResult (i : Instr) (w : Fields) (f : State → Mask) (s : State) : Result :=
  s.issue i w (s.g.useDest w false ++ s.g.useOf 1 w.a false ++ (if w.b = {} then [] else s.g.useOf 2 w.b false))
    (fun s => (s.putResult w false (fun _ => (f s).setWidth 64)).finish w false)

def execKand (w : Fields) (s : State) : Result := predResult (.kand w) w (fun s => s.maskOp w.a &&& s.maskOp w.b) s
def execKor (w : Fields) (s : State) : Result := predResult (.kor w) w (fun s => s.maskOp w.a ||| s.maskOp w.b) s
def execKxor (w : Fields) (s : State) : Result := predResult (.kxor w) w (fun s => s.maskOp w.a ^^^ s.maskOp w.b) s
def execKandn (w : Fields) (s : State) : Result := predResult (.kandn w) w (fun s => s.maskOp w.a &&& ~~~(s.maskOp w.b)) s
def execKnot (w : Fields) (s : State) : Result := predResult (.knot w) w (fun s => ~~~(s.maskOp w.a)) s
/-- The source is a k register, or bits 31:0 of an s register or latch. -/
def execKmov (w : Fields) (s : State) : Result :=
  predResult (.kmov w) w (fun s => (s.readOp .b32 w.a false 0).setWidth 32) s
def execKpop (w : Fields) (s : State) : Result :=
  predResult (.kpop w) w (fun s => BitVec.ofNat 32 (popCount 32 (s.maskOp w.a).toNat)) s
def execKffs (w : Fields) (s : State) : Result :=
  predResult (.kffs w) w (fun s => BitVec.ofNat 32 (trailingZeros 32 (s.maskOp w.a).toNat)) s

/-- R120: ballot, any, all or eq over the active lanes. -/
def execVote (w : Fields) (s : State) : Result :=
  laneMask (.vote w) w (s.uses1 w) (fun s l =>
    let m := s.g.lanes w
    let some_ (p : Nat → Bool) : Bool := (List.range 32).any (fun i => m.getLsbD i && p i)
    match w.modBits 0 2 with
    | 0 => s.opA w l ≠ 0
    | 1 => some_ (fun i => s.opA w i ≠ 0)
    | 2 => !some_ (fun i => s.opA w i = 0)
    | _ => !some_ (fun i => s.opA w i ≠ s.opA w (lowestLane m))) s

end Sys2Proof.Machine
end

