-- ==== Sys2Proof/Machine/CrossLane.lean ====
section
/-! DEFINITION. Cross-lane instructions (spec 07 R157 to R162): shuffles, scans and reductions in the tree of R56, match,
compact and expand. -/
namespace Sys2Proof.Machine
open Sys2Proof

/-- The uses of shfl and shflu: B is one register (R159). -/
def State.usesShfl (s : State) (w : Fields) : List RegUse := s.uses1 w ++ s.g.useOf 2 w.b false

/-- A vector result in which some active lanes receive nothing: those lanes, and an s destination whose lowest active lane
receives nothing, are not written (R157); only written lanes are captured. -/
def State.putSome (w : Fields) (wide : Bool) (f : Nat → Option (BitVec 64)) (s : State) : State :=
  let m := s.g.lanes w
  if w.n || w.dfile = .v then
    let v : Vector (Option (BitVec 64)) 32 := Vector.ofFn fun l : Fin 32 => if m.getLsbD l.1 then f l.1 else none
    let at_ (l : Nat) : Option (BitVec 64) := rd none v l
    let m' : Mask := BitVec.ofNat 32 ((List.range 32).foldl (fun n l => if (at_ l).isSome then n + 2 ^ l else n) 0)
    let val (l : Nat) : BitVec 64 := (at_ l).getD 0
    let s' := s.captureLanes w wide m' val
    if w.n then s' else { s' with g := s'.g.writeLanes (s.g.dnum w) wide m' val }
  else match f (lowestLane m) with
    | none => s
    | some x => { s with g := s.g.writeS (s.g.dnum w) x }.captureUniform w x

/-- A cross-lane instruction with a partial result. -/
def partialResult (i : Instr) (w : Fields) (uses : List RegUse) (f : State → Nat → Option (BitVec 64)) (s : State) : Result :=
  s.issue i w uses (fun s => (s.putSome w w.type.wide (f s)).finish w false)

/-- The lanes of a mask, ascending. -/
def laneList (m : Mask) : List Nat := (List.range 32).filter (fun l => m.getLsbD l)

def execShfl (w : Fields) (s : State) : Result :=
  laneResult (.shfl w) w (s.usesShfl w) (fun s l => s.opA w ((s.readOp .n32 w.b false l).toNat % 32)) s
/-- Lane t receives the value of the highest active lane that aims at it. -/
def execShflu (w : Fields) (s : State) : Result :=
  partialResult (.shflu w) w (s.usesShfl w) (fun s t =>
    (((laneList (s.g.lanes w)).filter (fun l => (s.readOp .n32 w.b false l).toNat % 32 = t)).getLast?).map (s.opA w)) s

/-- A lane of a scan: a value, or absent, and the flags its steps raised. -/
abbrev ScanLane := Option (BitVec 64)

/-- One step of the tree of R56 at distance d: every lane at once; the lower lane is the left operand. -/
def scanStep (op : BitVec 64 → BitVec 64 → BitVec 64 × FlagBits) (d : Nat) (y : Vector ScanLane 32 × FlagBits) :
    Vector ScanLane 32 × FlagBits :=
  let comb (l : Nat) : ScanLane × FlagBits :=
    if l < d then (rd none y.1 l, 0)
    else match rd none y.1 (l - d), rd none y.1 l with
      | some a, some b => ((op a b).1, (op a b).2)
      | some a, none => (some a, 0)
      | none, z => (z, 0)
  let r : Vector (ScanLane × FlagBits) 32 := Vector.ofFn fun l : Fin 32 => comb l.1
  (r.map (·.1), r.toList.foldl (fun f x => f ||| x.2) y.2)

/-- The inclusive scan of R56 over the active lanes. -/
def scanTree (op : BitVec 64 → BitVec 64 → BitVec 64 × FlagBits) (m : Mask) (x : Nat → BitVec 64) :
    Vector ScanLane 32 × FlagBits :=
  [1, 2, 4, 8, 16].foldl (fun y d => scanStep op d y)
    (Vector.ofFn fun l : Fin 32 => if m.getLsbD l.1 then some (x l.1) else none, 0)

/-- The operation of an integer scan (R160). -/
def intScanOp (t : Ty) (code : Nat) (a b : BitVec 64) : BitVec 64 × FlagBits :=
  (match code with
    | 0 => mapElems t (fun x y _ => x + y) a b 0
    | 1 => mapElems t (fun x y _ => min x y) a b 0
    | 2 => mapElems t (fun x y _ => max x y) a b 0
    | 3 => a &&& b | 4 => a ||| b | _ => a ^^^ b, 0)

/-- The identity of an integer scan (R160). -/
def intScanId (t : Ty) (code : Nat) : BitVec 64 :=
  let w := t.width
  BitVec.ofNat 64 (match code with
    | 1 => if t.signed then 2 ^ (w - 1) - 1 else 2 ^ w - 1
    | 2 => if t.signed then 2 ^ (w - 1) else 0
    | 3 => 2 ^ w - 1
    | _ => 0)

/-- The operation of a float scan (R160). -/
def floatScanOp (f : FFmt) (c : FCtx) (code : Nat) (a b : BitVec 64) : BitVec 64 × FlagBits :=
  FRes.wide (match code with
    | 0 => fAdd f c false a.toNat b.toNat
    | 1 => fMinMax f c false a.toNat b.toNat
    | _ => fMinMax f c true a.toNat b.toNat)

/-- The identity of a float scan (R160). -/
def floatScanId (f : FFmt) (code : Nat) : BitVec 64 :=
  BitVec.ofNat 64 (match code with | 0 => 0 | 1 => f.infBits false | _ => f.infBits true)

/-- A scan's results from its tree: inclusive, exclusive (the nearest active lane below, or the identity), or the whole
reduction (R160). -/
def scanResult (reduce excl : Bool) (m : Mask) (ident : BitVec 64) (y : Vector ScanLane 32) (l : Nat) : BitVec 64 :=
  if reduce then (rd none y 31).getD ident
  else if excl then
    match ((laneList m).filter (fun j => j < l)).getLast? with
    | some j => (rd none y j).getD ident
    | none => ident
  else (rd none y l).getD ident

/-- An integer scan or reduction. -/
def intScan (i : Instr) (w : Fields) (reduce : Bool) (s : State) : Result :=
  s.issue i w (s.uses1 w) (fun s =>
    let m := s.g.lanes w
    let y := scanTree (intScanOp w.type (w.modBits 0 3)) m (s.opA w)
    (s.putResult w w.type.wide (scanResult reduce (w.modBit 3) m (intScanId w.type (w.modBits 0 3)) y.1)).finish w false)

/-- A float scan or reduction: the flags of all steps go to every active lane. -/
def floatScan (i : Instr) (w : Fields) (reduce : Bool) (s : State) : Result :=
  s.issue i w (s.uses1 w) (fun s =>
    let m := s.g.lanes w
    let f := floatOf w.type
    let c := FCtx.ofFmt s.g.fmt
    let y := scanTree (floatScanOp f c (w.modBits 0 3)) m (fun l => BitVec.ofNat 64 (f.flushed c (s.opA w l).toNat))
    let s := { s with g := s.g.raiseFlags m (fun _ => y.2) }
    (s.putResult w w.type.wide (scanResult reduce (w.modBit 3) m (floatScanId f (w.modBits 0 3)) y.1)).finish w false)

def execIscan (w : Fields) (s : State) : Result := intScan (.iscan w) w false s
def execFscan (w : Fields) (s : State) : Result := floatScan (.fscan w) w false s
def execIred (w : Fields) (s : State) : Result := intScan (.ired w) w true s
def execFred (w : Fields) (s : State) : Result := floatScan (.fred w) w true s

/-- R161: the mask of active lanes whose value equals the lane's. -/
def execMatchLanes (w : Fields) (s : State) : Result :=
  laneResult (.matchLanes w) w (s.uses1 w) (fun s l =>
    BitVec.ofNat 64 ((laneList (s.g.lanes w)).foldl (fun n j => if s.opA w j = s.opA w l then n + 2 ^ j else n) 0)) s

/-- The place of lane `l` in a list of lanes. -/
def placeOf (l : Nat) : List Nat → Nat → Option Nat
  | [], _ => none
  | x :: xs, j => if x = l then some j else placeOf l xs (j + 1)

/-- The active lanes whose bit in the k register B is 1 (R162). -/
def State.chosen (s : State) (w : Fields) : List Nat := laneList (s.g.lanes w &&& s.maskOp w.b)

def execCompact (w : Fields) (s : State) : Result :=
  partialResult (.compact w) w (s.usesShfl w) (fun s l =>
    ((placeOf l (laneList (s.g.lanes w)) 0).bind (fun j => (s.chosen w)[j]?)).map (s.opA w)) s
def execExpand (w : Fields) (s : State) : Result :=
  partialResult (.expand w) w (s.usesShfl w) (fun s l =>
    ((placeOf l (s.chosen w) 0).bind (fun j => (laneList (s.g.lanes w))[j]?)).map (s.opA w)) s

end Sys2Proof.Machine
end

