-- ==== Sys2Proof/Machine/Control.lean ====
section
/-! DEFINITION. Control transfer and divergence (spec 04 R128 to R130, 06 R146 to R150, 07 R163 to R167). -/
namespace Sys2Proof.Machine
open Sys2Proof

/-- The target of a branch: the instruction's address plus 16 × the signed immediate (R128). -/
def State.branchTarget (s : State) (w : Fields) : Nat := (((s.g.pc : Int) + 16 * w.imm.toInt) % 2 ^ 52).toNat

/-- The target held in s register A: bits 51:4, times 16 (R128). Of a latch as A with G = 0 the spec does not say which lane's value is the one
target; here it is what lane 0 reads through the pattern (log 109). -/
def State.registerTarget (s : State) (w : Fields) : Nat := bitsAt 4 48 (s.readOp .n64 w.a true 0).toNat * 16

/-- Pops of the mark-join stack until a path with a live lane is found; none when the group ends (R148). -/
def Group.unwind (g : Group) : List StackEntry → Option Group
  | [] => none
  | e :: rest =>
    let g' := { g with stack := rest, active := e.mask &&& g.live, fmt := e.fmt.setWidth 32
                       pc := if e.path then e.addr else (e.addr + 16) % 2 ^ 52 }
    if e.mask &&& g.live = 0 then g.unwind rest else some g'

/-- The stack is unwound as a join would unwind it; the run ends, and the group ends when no live lane is found (R148). -/
def State.unwound (s : State) : State :=
  match s.g.unwind s.g.stack with
  | some g => { s with g := g }.jump g.pc true
  | none => s.endGroup

/-- A branch to `target` taken by the lanes T (R128, R148). -/
def State.branch (w : Fields) (target : Nat) (s : State) : State :=
  let t := s.g.lanes w
  let all : Bool := t = s.g.active
  match w.modBits 0 2 with
  | 1 => s.jump target false
  | 2 => if all then s.jump target false else s.finish w false
  | _ =>
    if all then s.jump target false
    else if 32 ≤ s.g.stack.length then s.faultAt w { cause := 11 }
    else
      let e : StackEntry := { path := true, addr := target, mask := t, fmt := s.g.fmt.setWidth 18 }
      { s with g := { s.g with stack := e :: s.g.stack, active := s.g.active &&& ~~~t } }.finish w true

def execBra (w : Fields) (s : State) : Result :=
  s.issue (.bra w) w [] (fun s => s.branch w (s.branchTarget w))
def execBrx (w : Fields) (s : State) : Result :=
  s.issue (.brx w) w (s.g.useOf 1 w.a true) (fun s => s.branch w (s.registerTarget w))
/-- R129: the address of the next instruction goes to the s destination. -/
def execCall (w : Fields) (s : State) : Result :=
  s.issue (.call w) w (s.g.useDest w true)
    (fun s => (s.putResult w true (fun _ => BitVec.ofNat 64 ((s.g.pc + 16) % 2 ^ 52))).jump (s.branchTarget w) false)
def execCallx (w : Fields) (s : State) : Result :=
  s.issue (.callx w) w (s.g.useDest w true ++ s.g.useOf 1 w.a true)
    (fun s => (s.putResult w true (fun _ => BitVec.ofNat 64 ((s.g.pc + 16) % 2 ^ 52))).jump (s.registerTarget w) false)
def execRet (w : Fields) (s : State) : Result :=
  s.issue (.ret w) w (s.g.useOf 1 w.a true) (fun s => s.jump (s.registerTarget w) false)
/-- R148, R163: push a mark entry; a 33rd entry faults with cause 11. -/
def execMark (w : Fields) (s : State) : Result :=
  s.issue (.mark w) w [] (fun s =>
    if 32 ≤ s.g.stack.length then s.faultAt w { cause := 11 }
    else
      let e : StackEntry := { path := false, addr := s.branchTarget w, mask := s.g.active, fmt := s.g.fmt.setWidth 18 }
      { s with g := { s.g with stack := e :: s.g.stack } }.finish w true)
/-- R148: a join at the nearest mark's address pops; anywhere else it has no effect. -/
def execJoin (w : Fields) (s : State) : Result :=
  s.issue (.join w) w [] (fun s =>
    match s.g.stack.find? (fun e => !e.path) with
    | some e => if e.addr = s.g.pc then s.unwound else s.finish w true
    | none => s.finish w true)
/-- R146, R165: the lanes of T exit; when no active lane is left the stack is unwound, or the group ends. -/
def execExit (w : Fields) (s : State) : Result :=
  s.issue (.exit w) w [] (fun s =>
    let t := s.g.lanes w
    let live := s.g.live &&& ~~~t
    let all : Bool := t = s.g.active
    let g := { s.g with live := live, active := s.g.active &&& ~~~t, stack := s.g.stack.map (fun e => { e with mask := e.mask &&& live }) }
    if !all then { s with g := g }.finish w true
    else if live = 0 then { s with g := g }.endGroup
    else { s with g := g }.unwound)
def execNop (w : Fields) (s : State) : Result := s.issue (.nop w) w [] (fun s => s.finish w false)

/-- Form 0 of yield (R167): with the request flag set the group stops at the next instruction to be saved. -/
def State.yields (s : State) : State :=
  if s.g.request then { s with g := { s.g with saving := true } } else s

def execYield (w : Fields) (s : State) : Result :=
  s.issue (.yield w) w [] (fun s => (s.finish w false).yields)
/-- Form 1: not eligible until 16 × IMM core cycles have passed, a request, or a remote store; then as form 0. -/
def execYieldPause (w : Fields) (s : State) : Result :=
  s.issue (.yieldPause w) w [] (fun s =>
    let s := s.finish w false
    if s.g.request then s.yields
    else if s.g.status = .resident ∧ s.g.pending = .none then
      { s with g := { s.g with pending := .pause (s.time + 16 * w.imm.toNat) } }
    else s)

end Sys2Proof.Machine
end

