-- ==== Sys2Proof/Machine/GroupControl.lean ====
section
/-! DEFINITION. Identity, time, register allocation, grid growth and index registers (spec 06 R151 to R153, 07 R168 to
R173). -/
namespace Sys2Proof.Machine
open Sys2Proof

/-- The group count of the issuing group's grid (R168 code 15); that of another module's grid is open here (log 36). -/
def State.gridCount (s : State) : Nat :=
  match s.grids.find? (fun x => x.launch = s.g.id.launch) with
  | some x => if x.foreign then (Config.freeValue 32 s.free 6).toNat else x.groups
  | none => 0

/-- The identity that a code selects in lane `l` (R139, R168). -/
def State.identity (s : State) (code l : Nat) : Nat :=
  let g := s.g
  let t := g.id.team % (g.id.width * g.id.height * g.id.perCore)
  let c := t / g.id.perCore
  match code with
  | 0 => g.id.index | 1 => g.id.team | 2 => g.id.member | 3 => g.id.cluster | 4 => t
  | 5 => c % g.id.width | 6 => c / g.id.width | 7 => t % g.id.perCore | 8 => l
  | 9 => g.place.die | 10 => g.place.site | 11 => g.place.quarter | 12 => g.place.slot | 13 => g.place.clusterNo
  | 14 => s.package | _ => s.gridCount

def execRdid (w : Fields) (s : State) : Result :=
  laneResult (.rdid w) w (s.g.useDest w w.type.wide) (fun s l => BitVec.ofNat 64 (s.identity (w.modBits 0 4) l)) s
/-- R169: the module cycle counter. -/
def execRdclk (w : Fields) (s : State) : Result :=
  laneResult (.rdclk w) w (s.g.useDest w true) (fun s _ => BitVec.ofNat 64 s.time) s

/-- The group holds its slot and its registers: it is resident, has ended with an in-flight record that is not empty (R166), or
its save has not finished (R320), or its restore has begun (R374). -/
def Group.holdsPlace (g : Group) : Bool :=
  g.id.ctx ≠ 2 ^ 24 && (g.status = .resident || g.status = .ended || (g.status = .saved && (g.saving || g.restoring)))

/-- Vector registers a group takes of its quarter's pool, reserved ones among them, doubled on a shadowed launch (R178). -/
def Group.poolUse (g : Group) : Nat := if g.holdsPlace then (g.alloc + g.granted) * (if g.id.shadowed then 2 else 1) else 0

/-- The quarter a group's shadow lies on (R334). -/
def Group.shadowQuarter (g : Group) : Nat := (g.place.quarter + 2) % 4

/-- Registers in use on a quarter: leaders and shadows. -/
def State.quarterUse (s : State) (c : CoreId) (q : Nat) : Nat :=
  (s.groups.filter (fun g => g.core = c && g.holdsPlace)).foldl (fun n g =>
    let one := g.alloc + g.granted
    n + (if g.place.quarter = q then one else 0) + (if g.id.shadowed && g.shadowQuarter = q then one else 0)) 0

/-- Registers of a partition in use on a core (R180). -/
def State.partRegs (s : State) (c : CoreId) (p : Nat) : Nat :=
  (s.groups.filter (fun g => g.core = c && g.id.part = p && !g.id.monitor)).foldl (fun n g => n + g.poolUse) 0

/-- VREG8 of a partition's quota, in registers (R180). -/
def State.quotaRegs (s : State) (p : Nat) : Nat := 8 * s.regField (partBlock p + 0x90) 7 10

/-- Pool and quota of the group's quarter and core can give it `n` more registers (R151, R181). -/
def State.canGrow (s : State) (g : Group) (n : Nat) : Bool :=
  let k := if g.id.shadowed then 2 else 1
  s.quarterUse g.core g.place.quarter + n ≤ Config.poolRegs
    && (!g.id.shadowed || s.quarterUse g.core g.shadowQuarter + n ≤ Config.poolRegs)
    && s.partRegs g.core g.id.part + k * n ≤ s.quotaRegs g.id.part

/-- The waiting requests of a quarter, in the order of first failure (R152). On a shadowed launch a request needs registers of its shadow's quarter
too; the spec does not say that it stands in that quarter's order as well, and here it stands in its leader's alone (log 108). -/
def State.quarterQueue (s : State) (c : CoreId) (q : Nat) : List Nat :=
  s.vgrowQueue.filter (fun x => let g := s.group x; g.core = c && g.place.quarter = q)

/-- The allocation fault of R170: the requested allocation and file v. -/
def allocFault (a : Int) : FaultRec := { cause := 2, extra := BitVec.ofNat 64 (a % 2 ^ 18).toNat }

/-- Registers from `a` on, `n` of them, hold zero and no hold (R152). -/
def Group.clearRegs (g : Group) (a n : Nat) : Group :=
  { g with v := (List.range n).foldl (fun v i => wr v (a + i) (VReg.splat 0)) g.v
           holds := (List.range n).foldl (fun h i => wr h (a + i) 0) g.holds }

/-- R152, R170, R181: grow at once, fault, or end the run here and wait. -/
def execVgrow (w : Fields) (s : State) : Result :=
  s.issue (.vgrow w) w [] (fun s =>
    let n := w.imm.toNat
    let a := s.g.alloc
    let k := if s.g.id.shadowed then 2 else 1
    if 256 < a + n ∨ s.quotaRegs s.g.id.part < k * (a + n) then s.faultAt w (allocFault ((a : Int) + n))
    else if s.g.granted = n ∨ ((s.quarterQueue s.g.core s.g.place.quarter).isEmpty ∧ s.canGrow s.g n) then
      { s with g := { s.g with alloc := a + n, granted := 0 }.clearRegs a n }.finish w true
    else
      { s with vgrowQueue := s.vgrowQueue ++ [s.g.id.ctx] }.waitsAt (.vgrow n))

/-- R153, R170: a released register with a scoreboard hold stalls, one with an arm hold faults. -/
def execVshrink (w : Fields) (s : State) : Result :=
  s.issue (.vshrink w) w [] (fun s =>
    let n := w.imm.toNat
    let a := s.g.alloc
    if a < n + 8 then s.faultAt w (allocFault ((a : Int) - n))
    else
      let regs := (List.range n).map (fun i => a - n + i)
      match regs.find? (fun r => s.g.holdCount r ≠ 0 && s.g.holdArm r) with
      | some r => s.faultAt w { cause := 13, extra := BitVec.ofNat 64 r }
      | none =>
        match regs.find? (fun r => s.g.holdCount r ≠ 0) with
        | some r => s.stalls (.hold r)
        | none => { s with g := { s.g with alloc := a - n }.clearRegs (a - n) n }.finish w true)

/-- R171, R172 (the entry keeps N and CAP for the result): the request goes to the dispatcher; the run stalls at the `gridgrow` until the old
count comes. A run that is stopped meanwhile leaves it unexecuted; it is issued again with the same tag, so that its region entry is made when
its result has come (R317, log 107). -/
def execGridgrow (w : Fields) (s : State) : Result :=
  s.issue (.gridgrow w) w (s.g.useDest w true ++ (if w.modBit 5 then [] else s.g.useOf 2 w.b true)) (fun s =>
    let a := s.uniform w.b (w.modBit 5) w.imm.toNat
    let id := s.g.nextId
    let e : Entry := { id := id, kind := .gridgrow, cls := .d, path := 8, slots := 0, dfile := .s, dest := s.g.dnum w, tag := a,
                       imm := s.g.gridgrows, counted := false, pc := s.g.pc, instr := id, quad := w.n, mod := w.cap.setWidth 6 }
    { s with g := { s.g with entries := s.g.entries ++ [e], nextId := id + 1 } }.stalls (.uniform id))

/-- The value of xset and xadd: A, or IMM when MOD bit 5 is set (R173). -/
def State.indexValue (s : State) (w : Fields) : BitVec 16 := (s.uniform w.a (w.modBit 5) w.imm.toNat).setWidth 16

/-- The uses of xset and xadd. -/
def State.usesIndex (s : State) (w : Fields) : List RegUse := if w.modBit 5 then [] else s.g.useOf 1 w.a true

def execXset (w : Fields) (s : State) : Result :=
  s.issue (.xset w) w (s.usesIndex w)
    (fun s => { s with g := s.g.writeX (w.modBits 0 2) (s.indexValue w) }.finish w false)
def execXadd (w : Fields) (s : State) : Result :=
  s.issue (.xadd w) w (s.usesIndex w) (fun s =>
    { s with g := s.g.writeX (w.modBits 0 2) (BitVec.ofNat 16 (s.g.readX (w.modBits 0 2)) + s.indexValue w) }.finish w false)
def execXget (w : Fields) (s : State) : Result :=
  laneResult (.xget w) w (s.g.useDest w false) (fun s _ => BitVec.ofNat 64 (s.g.readX (w.modBits 0 2))) s

end Sys2Proof.Machine
end

