-- ==== Sys2Proof/Machine/Pointer.lean ====
section
/-! DEFINITION. Typed pointers: fields (spec 01 R26 to R31), the checks at use (R32, R34, 11 R218, R219), the pairing of
element formats with types (11 R220, R222), and the pointer instructions (04 R121 to R127). -/
namespace Sys2Proof.Machine
open Sys2Proof

/-! Fields (R26). -/

def Ptr.base (p : Ptr) : Nat := bitsAt 0 52 p.toNat
def Ptr.anchor (p : Ptr) : Nat := bitsAt 52 18 p.toNat
def Ptr.lcount (p : Ptr) : Nat := bitsAt 70 32 p.toNat
def Ptr.lgran (p : Ptr) : Nat := bitsAt 102 2 p.toNat
def Ptr.efmt (p : Ptr) : Nat := bitsAt 104 6 p.toNat
def Ptr.space (p : Ptr) : Nat := bitsAt 110 3 p.toNat
def Ptr.cls (p : Ptr) : Nat := bitsAt 113 2 p.toNat
def Ptr.scope (p : Ptr) : Nat := bitsAt 115 3 p.toNat
def Ptr.colour (p : Ptr) : Nat := bitsAt 118 8 p.toNat
def Ptr.valid (p : Ptr) : Bool := p.getLsbD 127
/-- The pointer's class is synchronising. -/
def Ptr.sync (p : Ptr) : Bool := Ptr.cls p = 2

/-- Replace `n` bits from bit `lo` (R123). -/
def Ptr.set (p : Ptr) (lo n v : Nat) : Ptr :=
  let m : Ptr := BitVec.ofNat 128 ((2 ^ n - 1) * 2 ^ lo)
  (p &&& ~~~m) ||| (BitVec.ofNat 128 (v % 2 ^ n * 2 ^ lo))

/-- A pointer from its fields, VALID set and bit 126 zero. -/
def Ptr.make (base anchor lcount lgran efmt space cls scope colour : Nat) : Ptr :=
  BitVec.ofNat 128 (base % 2 ^ 52 + anchor % 2 ^ 18 * 2 ^ 52 + lcount % 2 ^ 32 * 2 ^ 70 + lgran % 4 * 2 ^ 102
    + efmt % 64 * 2 ^ 104 + space % 8 * 2 ^ 110 + cls % 4 * 2 ^ 113 + scope % 8 * 2 ^ 115 + colour % 256 * 2 ^ 118 + 2 ^ 127)

/-- Elements of a granule (R26). -/
def granOf (g : Nat) : Nat := [1, 64, 4096, 262144].getD g 1
/-- The length L in elements (R28). -/
def Ptr.length (p : Ptr) : Nat := Ptr.lcount p * granOf (Ptr.lgran p)
/-- encode(len) of R121: count and granule. -/
def encodeLen (len : Nat) : Nat × Nat :=
  match findFrom (fun g => len / granOf g < 2 ^ 32) 4 0 with
  | some g => (len / granOf g, g)
  | none => (2 ^ 32 - 1, 3)
/-- A pointer with its length re-encoded. -/
def Ptr.setLength (p : Ptr) (len : Nat) : Ptr := Ptr.set (Ptr.set p 70 32 (encodeLen len).1) 102 2 (encodeLen len).2

/-- Byte size of an element format (R27); nq4 and reserved codes have none. -/
def elemSize (efmt : Nat) : Option Nat :=
  match efmt with
  | 0x00 | 0x08 | 0x0C | 0x14 | 0x15 => some 1
  | 0x01 | 0x09 | 0x0D | 0x12 | 0x13 => some 2
  | 0x02 | 0x0A | 0x0E | 0x11 => some 4
  | 0x03 | 0x0B | 0x0F | 0x10 => some 8
  | 0x04 | 0x20 => some 16
  | _ => none
/-- The format codebook-4 (R27). -/
def efNq4 : Nat := 0x18
/-- A reserved element format (R27). -/
def efReserved (efmt : Nat) : Bool := (elemSize efmt).isNone && efmt ≠ efNq4
/-- The byte size used in address arithmetic; an nq4 element lies in one byte. A reserved format has no size: 1
stands there, in the address that a bad pointer's record holds (R35, log 97). -/
def Ptr.size (p : Ptr) : Nat := (elemSize (Ptr.efmt p)).getD 1

/-- The byte address of element `i`, exactly (R28). -/
def Ptr.elemAddr (p : Ptr) (i : Int) : Int :=
  if Ptr.efmt p = efNq4 then
    let r := i % 16384
    Ptr.base p + 8704 * (i / 16384) + 512 + 32 * (r / 64) + (r % 64) / 2
  else Ptr.base p + i * Ptr.size p

/-- The issuer's own anchor for a scope (R30); zero for pod, pod-multicast and reserved scopes. -/
def State.anchorFor (s : State) (g : Group) (scope : Nat) : Nat :=
  let p7 := s.package % 128 * 2048 + g.place.die * 128
  match scope with
  | 0 => p7 + g.place.site
  | 1 => p7 + g.place.clusterNo
  | 2 => p7
  | 3 => s.package % 2 ^ 18
  | _ => 0

/-- The extent in bytes of a space for a group (R193, R218). -/
def State.extent (s : State) (g : Group) (space : Nat) : Nat :=
  match space with
  | 0 => g.id.laneBytes
  | 1 => g.id.coreBytes
  | 2 => g.id.clusterBytes * g.id.width * g.id.height
  | 3 => 65536 * s.regField (partBlock g.id.part + 0xC0 + 8 * g.place.die) 16 10
  | 7 => 4096
  | _ => 2 ^ 52

/-! Checks at use. -/

/-- Kinds of access (R35): 1 load, 2 store, 3 atomic, 4 engine start. -/
abbrev AccessKind := Nat

/-- Space, class and scope outside the table of R29, for an access of a kind; pod-multicast serves stores of plain or
synchronising class in peer space. -/
def badCombination (space cls scope : Nat) (kind : AccessKind) : Bool :=
  match space with
  | 0 => !(cls = 0 && scope = 0)
  | 1 => scope ≠ 0
  | 2 => 1 < scope
  | 3 => 2 < scope
  | 4 => 4 < scope
  | 5 => !(scope = 4 || (scope = 5 && kind = 2 && (cls = 0 || cls = 2)))
  | 6 => !(cls = 2 && scope = 4)
  | _ => !(cls = 2 && scope = 0)

/-- How an element format meets a register type (R222). -/
inductive Pairing where
  | raw | packed | convert | nq4
  deriving DecidableEq, Repr

/-- The number format of an element format that converts (R222). -/
def efNum : Nat → Option NumFmt
  | 0x08 => some (.int true 8) | 0x09 => some (.int true 16) | 0x0A => some (.int true 32) | 0x0B => some (.int true 64)
  | 0x0C => some (.int false 8) | 0x0D => some (.int false 16) | 0x0E => some (.int false 32) | 0x0F => some (.int false 64)
  | 0x10 => some (.flt .f64) | 0x11 => some (.flt .f32) | 0x12 => some (.flt .f16) | 0x13 => some (.flt .bf16)
  | 0x14 => some (.flt .e4m3) | 0x15 => some (.flt .e5m2)
  | _ => none

/-- The packed type whose own element format this is (R222). -/
def efPacked : Nat → Option Ty
  | 0x12 => some .f16x2 | 0x13 => some .bf16x2 | 0x09 => some .i16x2 | 0x0D => some .n16x2 | 0x08 => some .i8x4
  | 0x0C => some .n8x4
  | _ => none

/-- The row of R222 for an element format and a type; none: bad-pointer bit 11. A floating-point format with its own type moves its bits
unchanged (R132, log 105). -/
def pairing (efmt : Nat) (t : Ty) : Option Pairing :=
  if efmt = efNq4 then (if t = .f32 then some .nq4 else none)
  else match elemSize efmt with
    | none => none
    | some sz =>
      if efmt = 0x04 || efmt = 0x20 then (if t = .b64 then some .raw else none)
      else if efmt ≤ 0x03 then
        if t.packed then
          if efmt = 0x02 then some .raw
          else if 8 * sz = (Ty.elems t).1 then some .packed else none
        else if 8 * sz ≤ t.width then some .raw else none
      else if t = .b32 || t = .b64 then (if 8 * sz ≤ t.width then some .raw else none)
      else if t.packed then (if efPacked efmt = some t then some .packed else none)
      else if (efmt = 0x11 && t = .f32) || (efmt = 0x10 && t = .f64) then some .raw
      else some .convert

/-- Elements in one register of a packed pairing (R220). -/
def perRegister (efmt : Nat) (t : Ty) : Nat := if pairing efmt t = some .packed then (Ty.elems t).2 else 1
/-- The register step between elements (R220). -/
def regStep (efmt : Nat) (t : Ty) : Nat := if t = .b64 ∧ (efmt = 0x04 ∨ efmt = 0x20) then 4 else if t.wide then 2 else 1

/-- The format is refused for the access (R219 bit 11): R222 for loads and stores, R226 for regs, R227 for engines, R228 for
atomics. -/
def badFormat (p : Ptr) (kind : AccessKind) (t : Ty) : Bool :=
  if Ptr.space p = 6 then !(t = .i32 || t = .n32 || t = .f32 || t = .b32)
  else if Ptr.space p = 7 then !(Ptr.efmt p = 0x03 && (t = .i64 || t = .n64 || t = .b64))
  else if kind = 3 then
    !(elemSize (Ptr.efmt p) = some (t.width / 8)
      && (if t = .f32 || t = .f64 then Ptr.efmt p = 0x10 || Ptr.efmt p = 0x11 else Ptr.efmt p < 0x10))
  else match pairing (Ptr.efmt p) t with
    | none => true
    | some .nq4 => kind ≠ 1
    | some _ => false

/-- The bad-pointer bits of R32 (0 to 9), R219 bits 10 and 11, and the caller's own bits. -/
def badPointerBits (p : Ptr) (kind : AccessKind) (t : Option Ty) (own : Nat) : Nat :=
  let bit (n : Nat) (c : Bool) : Nat := if c then 2 ^ n else 0
  (bit 0 (!Ptr.valid p) + bit 1 (p.getLsbD 126) + bit 2 (efReserved (Ptr.efmt p)) + bit 3 (Ptr.cls p = 3)
    + bit 4 (6 ≤ Ptr.scope p) + bit 5 (badCombination (Ptr.space p) (Ptr.cls p) (Ptr.scope p) kind)
    + bit 6 (Ptr.cls p ≠ 2 && 8 ≤ Ptr.colour p)
    + bit 7 (Ptr.scope p = 4 && Ptr.space p ≠ 5 && Ptr.space p ≠ 6 && Ptr.anchor p ≠ 0)
    + bit 8 (Ptr.efmt p = efNq4 && Ptr.base p % 128 ≠ 0)
    + bit 9 (Ptr.space p = 6 && (Ptr.base p % 65536 ≠ 0 || Ptr.efmt p ≠ 0x02 || Ptr.length p ≠ 8192))
    + bit 10 (6 ≤ Ptr.space p && kind ≠ 2)
    + bit 11 (match t with | some t => badFormat p kind t | none => false)) ||| own

/-- A failed check: cause, extra data and byte address of the first failing element (R35, R36). -/
structure PtrFault where
  cause : Nat
  extra : BitVec 64
  addr : BitVec 64
  deriving DecidableEq, Repr

/-- Element `i` lies outside the length, the space's extent or the 52-bit space (R32, R218). -/
def State.elemOut (s : State) (g : Group) (p : Ptr) (i : Int) : Bool :=
  let e := Ptr.elemAddr p i + Ptr.size p
  i < 0 || (Ptr.length p : Int) ≤ i || 2 ^ 52 < e || (Ptr.space p ≠ 6 && (s.extent g (Ptr.space p) : Int) < e)

/-- The checks of R32, R218 and R219 on an access of `n` elements from element `i`, in R34's order. -/
def State.checkPtr (s : State) (g : Group) (p : Ptr) (i : Int) (n : Nat) (kind : AccessKind) (t : Option Ty) (own : Nat) :
    Option PtrFault :=
  let at_ (j : Int) : BitVec 64 := BitVec.ofInt 64 (Ptr.elemAddr p j)
  let bad := badPointerBits p kind t own
  let elems := (List.range n).map (fun (j : Nat) => i + (j : Int))
  if bad ≠ 0 then some ⟨6, BitVec.ofNat 64 bad, at_ i⟩
  else if Ptr.scope p ≤ 3 ∧ Ptr.anchor p ≠ s.anchorFor g (Ptr.scope p) then
    some ⟨3, BitVec.ofNat 64 (s.anchorFor g (Ptr.scope p)), at_ i⟩
  else if Ptr.cls p = 1 ∧ (kind = 2 ∨ kind = 3) then some ⟨4, 0, at_ i⟩
  else match elems.find? (s.elemOut g p) with
    | some j => some ⟨5, BitVec.ofInt 64 i, at_ j⟩
    | none =>
      if Ptr.sync p ∨ kind = 3 then
        match elems.find? (fun j => Ptr.elemAddr p j % Ptr.size p ≠ 0) with
        | some j => some ⟨7, BitVec.ofNat 64 (Ptr.size p), at_ j⟩
        | none => none
      else none

/-! Pointer instructions. -/

/-- The uses of a pointer result: a p register or a quad. -/
def Group.useDestPtr (g : Group) (w : Fields) : List RegUse :=
  if w.n then []
  else if w.dfile = .v then [{ pos := 0, file := .v, num := g.dnum w, count := 4, align := 4, write := true }]
  else [{ pos := 0, file := w.dfile, num := g.dnum w, write := true }]

/-- A pointer result. -/
def ptrResult (i : Instr) (w : Fields) (uses : List RegUse) (f : State → Nat → Ptr) (s : State) : Result :=
  s.issue i w (s.g.useDestPtr w ++ uses) (fun s => (s.putPtr w (f s)).finish w false)

/-- R122. -/
def execPmake (w : Fields) (s : State) : Result :=
  ptrResult (.pmake w) w (s.g.useOf 1 w.a true ++ s.g.useOf 2 w.b true) (fun s l =>
    let len := encodeLen (s.readOp .n64 w.b true l).toNat
    Ptr.make (s.readOp .n64 w.a true l).toNat (s.anchorFor s.g (w.immBits 11 3)) len.1 len.2 (w.immBits 0 6) (w.immBits 6 3)
      (w.immBits 9 2) (w.immBits 11 3) (w.immBits 14 2 + 4 * w.modBits 0 6)) s

/-- Place and width of a pointer field by its code (R121); code 2 is the length. -/
def ptrField : Nat → Nat × Nat
  | 0 => (0, 52) | 1 => (52, 18) | 3 => (104, 6) | 4 => (110, 3) | 5 => (113, 2) | 6 => (115, 3) | 7 => (118, 8)
  | 8 => (127, 1) | 9 => (70, 32) | _ => (102, 2)

/-- The 64-bit value of B, or IMM when MOD bit 4 is set (R123, R124). -/
def State.ptrValue (s : State) (w : Fields) (imm : BitVec 64) (l : Nat) : BitVec 64 :=
  if w.modBit 4 then imm else s.readOp .n64 w.b true l

/-- The uses of pset and padd besides the destination. -/
def State.usesPtr2 (s : State) (w : Fields) : List RegUse :=
  s.g.usePtr 1 w.a ++ (if w.modBit 4 then [] else s.g.useOf 2 w.b true)

/-- R123. -/
def execPset (w : Fields) (s : State) : Result :=
  ptrResult (.pset w) w (s.usesPtr2 w) (fun s l =>
    let p := s.ptrOf w.a l
    let v := (s.ptrValue w (w.imm.setWidth 64) l).toNat
    if w.modBits 0 4 = 2 then Ptr.setLength p v
    else Ptr.set p (ptrField (w.modBits 0 4)).1 (ptrField (w.modBits 0 4)).2 v) s

/-- R124: a move by b elements, exactly, the pointer not valid where it leaves its range. -/
def ptrAdd (p : Ptr) (b : Int) : Ptr :=
  let ef := Ptr.efmt p
  if efReserved ef || (ef = efNq4 && b % 16384 ≠ 0) then Ptr.set p 127 1 0
  else
    let delta := if ef = efNq4 then b / 16384 * 8704 else b * Ptr.size p
    let nb : Int := Ptr.base p + delta
    let nl : Int := (Ptr.length p : Int) - b
    let r := Ptr.setLength (Ptr.set p 0 52 (nb % 2 ^ 52).toNat) nl.toNat
    if nb < 0 || 2 ^ 52 ≤ nb || nl < 0 then Ptr.set r 127 1 0 else r

def execPadd (w : Fields) (s : State) : Result :=
  ptrResult (.padd w) w (s.usesPtr2 w) (fun s l => ptrAdd (s.ptrOf w.a l) (s.ptrValue w (w.imm.signExtend 64) l).toInt) s

/-- R125: the element distance from B to A. -/
def ptrDistance (a b : Ptr) : Int :=
  let d : Int := (Ptr.base a : Int) - Ptr.base b
  if Ptr.efmt a = efNq4 then d.tdiv 8704 * 16384
  else match elemSize (Ptr.efmt a) with
    | some n => d.tdiv n
    | none => 0

/-- A 64-bit result from pointer operands. -/
def ptrScalar (i : Instr) (w : Fields) (uses : List RegUse) (f : State → Nat → BitVec 64) (s : State) : Result :=
  s.issue i w (s.g.useDest w true ++ uses) (fun s => (s.putResult w true (f s)).finish w false)

def execPsub (w : Fields) (s : State) : Result :=
  ptrScalar (.psub w) w (s.g.usePtr 1 w.a ++ s.g.usePtr 2 w.b)
    (fun s l => BitVec.ofInt 64 (ptrDistance (s.ptrOf w.a l) (s.ptrOf w.b l))) s
/-- R125: code 2 yields L. -/
def execPget (w : Fields) (s : State) : Result :=
  ptrScalar (.pget w) w (s.g.usePtr 1 w.a) (fun s l =>
    let p := s.ptrOf w.a l
    let f := ptrField (w.modBits 0 4)
    BitVec.ofNat 64 (if w.modBits 0 4 = 2 then Ptr.length p else bitsAt f.1 f.2 p.toNat)) s

/-- The element index of lane `l` of a memory operand (R131, R223): B when IX is set, plus the signed immediate. -/
def State.elemIndex (s : State) (w : Fields) (x64 : Bool) (l : Nat) : Int :=
  let ix : Int :=
    if !w.modBit 4 then 0
    else if !w.b.latch && w.b.file = .s then (s.readOp .i64 w.b true l).toInt
    else if x64 then (s.readOp .i64 w.b true l).toInt
    else toSigned 32 ((s.readOp .i32 w.b false l).toNat % 2 ^ 32)
  -- a signed 64-bit sum (R32)
  (BitVec.ofInt 64 (ix + w.imm.toInt)).toInt

/-- The use of the index operand B (R131). -/
def State.useIndex (s : State) (w : Fields) (x64 : Bool) : List RegUse :=
  if w.modBit 4 then s.g.useOf 2 w.b x64 else []

/-- R127. -/
def execPmov (w : Fields) (s : State) : Result :=
  ptrResult (.pmov w) w (s.g.usePtr 1 w.a) (fun s l => s.ptrOf w.a l) s

end Sys2Proof.Machine
end

