-- ==== Sys2Proof/Machine/InFlight.lean ====
section
/-! DEFINITION. Entries of the in-flight record: their elements and registers (spec 11 R220, R223), completion (10 R211) with the retire
notice (18 R331), and failures after issue (01 R34, R35), the loss of a target's package among them (20 R363). -/
namespace Sys2Proof.Machine
open Sys2Proof

/-- The register step of an access: the widest among the lanes' formats (R220). -/
def stepOf (t : Ty) (ps : List Ptr) : Nat := ps.foldl (fun m p => Nat.max m (regStep (Ptr.efmt p) t)) (if t.wide then 2 else 1)

/-- The operand type of an entry. -/
def Entry.type (e : Entry) : Ty := (Ty.ofCode e.ty).getD .b32

/-- An atomic returns its old value (R228). -/
def Entry.returns (e : Entry) : Bool := e.kind = .atomic && e.mod.getLsbD 5

/-- A synchronising access of the entry (R241). -/
def Entry.sync (e : Entry) : Bool := e.lanes.any (fun a => Ptr.sync a.ptr)

/-- The entry stores. -/
def Entry.writes (e : Entry) : Bool :=
  match e.kind with
  | .store | .atomic | .linclr => true
  | _ => false

/-- Registers that one lane of an entry writes, from the destination (R220). -/
def Entry.span (e : Entry) : Nat :=
  match e.kind with
  | .load => 2 ^ (e.mod.toNat % 4) * stepOf e.type (e.lanes.map (·.ptr))
  | .literal => 2 ^ (e.mod.toNat % 4) * (if e.type.wide then 2 else 1)
  | .atomic => if e.returns then (if e.type.wide then 2 else 1) else 0
  | _ => 0

/-- The vector registers of an entry's destination, each once (R220). -/
def Entry.destRegs (e : Entry) : List Nat := if e.dfile = .v then (List.range e.span).map (fun i => e.dest + i) else []

/-- Elements of one lane of an entry. -/
def Entry.elems (e : Entry) (a : LaneAcc) : Nat :=
  match e.kind with
  | .load | .store | .regsStore | .engineStart => 2 ^ (e.mod.toNat % 4) * perRegister (Ptr.efmt a.ptr) e.type
  | .literal => 2 ^ (e.mod.toNat % 4)
  | _ => 1

/-- Element number `k` of a lane's access. -/
def LaneAcc.elem (a : LaneAcc) (k : Nat) : Int := a.index.toInt + (k : Int)

/-- The virtual byte address of element `k`. -/
def LaneAcc.va (a : LaneAcc) (k : Nat) : Nat := (Ptr.elemAddr a.ptr (a.elem k)).toNat

/-- The translation of a virtual address among an entry's pages. -/
def Entry.page (e : Entry) (va : Nat) : Translation :=
  (e.pages.find? (fun t => t.vpn = va / 4096)).getD { vpn := 0, frame := 0, write := false, exec := false, tso := false, pchk := true }

/-- The physical address of a virtual one. -/
def Entry.phys (e : Entry) (va : Nat) : Nat := (e.page va).frame + va % 4096

/-- Every lane has been performed. -/
def Entry.performed (e : Entry) : Bool := e.done || (e.lanes.all (·.performed) && !e.lanes.isEmpty)

/-- An entry of a context. -/
def State.entry (s : State) (ctx id : Nat) : Option Entry := (s.group ctx).entries.find? (fun e => e.id = id)

/-- Replace an entry of a context; a frozen entry's responses are discarded (R328). -/
def State.putEntry (ctx : Nat) (e : Entry) (s : State) : State :=
  s.modGroup ctx (fun g => if g.status = .saved then g else { g with entries := modifyFirst (fun x => x.id = e.id) (fun _ => e) g.entries })

/-- Entries leave the record: those done with no older counted entry of their path still open (R211, R327). -/
def popDone : List Nat → List Entry → List Entry
  | _, [] => []
  | open_, e :: es =>
    if e.done && !(e.counted && open_.contains e.path) then popDone open_ es
    else e :: popDone (if e.counted && !e.done then e.path :: open_ else open_) es

/-- The lane's pointer is of pod-multicast scope, whose ANCHOR names a multicast group and no package (R364). -/
def LaneAcc.tree (a : LaneAcc) : Bool := Ptr.space a.ptr = 5 && Ptr.scope a.ptr = 5

/-- A request of the part to the package of its ANCHOR is outstanding. -/
def Entry.asks (e : Entry) : Bool :=
  !e.done && (e.path = 4 || e.path = 5) && e.sentAt.isSome && (e.lanes.isEmpty || e.lanes.any (fun a => !a.tree && !a.performed))

/-- An entry completes (R211), with its retire notice (R331). -/
def State.complete (ctx id : Nat) (s : State) : State :=
  (match s.entry ctx id with | some e => s.retireTag e | none => s).modGroup ctx (fun g => { g with entries := popDone [] (modifyFirst (fun x => x.id = id) (fun x => { x with done := true }) g.entries) })

/-- The access kind of an entry in a fault record (R35). -/
def Entry.accessKind (e : Entry) : AccessKind :=
  match e.kind with
  | .load | .literal | .nameInfo => 1
  | .atomic => 3
  | .engineStart => 4
  | .store | .regsStore | .linclr => 2
  | _ => 0

/-- The fault record of a failing part (R34, R35): its lowest lane, with the address of that lane's failing element and its pointer. -/
def Entry.failure (e : Entry) (cause : Nat) (extra : BitVec 64) : FaultRec :=
  let base : FaultRec := { cause := cause, kind := e.accessKind, mask := e.mask, pc := e.pc, extra := extra
                           lane := if e.g then e.lane0 else lowestLane e.mask }
  match e.lanes.head? with
  | none => base
  | some a => { base with addr := BitVec.ofInt 64 (Ptr.elemAddr a.ptr (a.elem e.failElem)), ptr := if e.kind = .literal then 0 else a.ptr
                          pos := if e.kind = .literal then 0xFF else 1 }

/-- The element that a part's fault record names when an element of lane `a` fails: the lowest lane's own, else its first (R34, R35). -/
def Entry.failing (e : Entry) (a : LaneAcc) : Nat := if (e.lanes.head?).any (fun b => b.lane = a.lane) then a.got.length else e.failElem

/-- Poison met at an element of lane `a`: the first names the element (R35). -/
def Entry.meets (e : Entry) (a : LaneAcc) (z : Option Bool) (p : Option Bool) : Entry :=
  { e with poison := p, failElem := if z.isSome && e.poison.isNone then e.failing a else e.failElem }

/-- The holds of an entry's destination are lowered (R20). -/
def Entry.unhold (e : Entry) (g : Group) : Group := e.destRegs.foldl Group.lowerHold g

/-- A part fails after issue: it writes nothing and completes, and the fault is reported against its instruction unless an
earlier part's failure was (R5, R34). A frozen entry's failure is discarded. -/
def State.failPartAs (ctx : Nat) (e : Entry) (f : FaultRec) (s : State) : State :=
  if (s.group ctx).status = .saved then s
  else
    let mute (x : Entry) : Entry := if x.instr = e.instr then { x with muted := true } else x
    let s := s.modGroup ctx (fun g => e.unhold { g with entries := g.entries.map mute })
    let s := s.complete ctx e.id
    if e.muted then s else s.faultAfter ctx f

/-- A part fails with a cause at its lowest lane's failing element. -/
def State.failPart (ctx : Nat) (e : Entry) (cause : Nat) (extra : BitVec 64) (s : State) : State := s.failPartAs ctx e (e.failure cause extra)

/-- The outstanding requests to a package: contexts and entries. -/
def State.requestsTo (s : State) (p : Nat) : List (Nat × Nat) :=
  ((s.groups.filter (fun g => g.status ≠ .saved)).map (fun g =>
    (g.entries.filter (fun e => e.asks && e.anchor = p)).map (fun e => (g.id.ctx, e.id)))).flatten

/-- Every outstanding request to a lost package completes with cause 18 (R363). -/
def State.failRequests (p : Nat) (s : State) : State :=
  (s.requestsTo p).foldl (fun s x => match s.entry x.1 x.2 with
    | some e => if e.done then s else s.failPart x.1 e 18 (BitVec.ofNat 64 p)
    | none => s) s

end Sys2Proof.Machine
end

