-- ==== Sys2Proof/Machine/Caches.lean ====
section
/-! DEFINITION. Caches: bias of a line (spec 21 R385, R387), the slices' reads and writes as R257 begins them, slice
replacement (14 R263), accesses at the home (10 R205, 12 R254), the L1 of a core (10 R204, R205), and the cache actions of
releases, acquires, drains and scope walks (12 R247 to R249, 11 R232); lost homes (20 R362, R363) and parked requests (R360). Where a
line must first be obtained, an operation starts that and answers that it is not done: it is tried again later (log 16). -/
namespace Sys2Proof.Machine
open Sys2Proof

/-! Bias. -/

/-- The HDM page of a line (R381); none in tier 2. -/
def hdmPage (line : Nat) : Option Nat :=
  let off := line % 2 ^ 45 * 128
  match line / 2 ^ 45 with
  | 0 => some (off / 4096)
  | 1 => some ((Config.hbmBytes + off) / 4096)
  | _ => none

/-- The line lies in a page of host bias (R385), or its flush toward host bias is complete (R396). -/
def State.inHostBias (s : State) (line : Nat) : Bool :=
  match hdmPage line with
  | some p => s.hostPages.contains p || s.flip.any (fun f => f.toHost && f.done.contains line)
  | none => false

/-- The line's page is being flipped to host bias (R387). -/
def State.flushing (s : State) (line : Nat) : Bool :=
  match s.flip, hdmPage line with
  | some f, some p => f.toHost && f.page = p
  | _, _ => false

/-- An access of core `c` to the line goes uncached to its home (R385, R387, R396): a core that has not yet flushed the page
may still use its L1. -/
def State.uncached (s : State) (c : CoreId) (line : Nat) : Bool :=
  s.inHostBias line
    || (s.flushing line && (match s.flip with | some f => !f.cores.contains c | none => false))

/-! Slices. -/

/-- A message is sent (R255). -/
def State.send (m : Msg) (s : State) : State := { s with msgs := s.msgs ++ [m] }

/-- States in which a read hits (R257). -/
def CState.hits : CState → Bool
  | .S | .E | .M | .O | .SM_AD | .SM_A | .OM_A | .MI_A | .OI_A => true
  | _ => false

/-- Stable states (R257). -/
def CState.stable : CState → Bool
  | .I | .S | .E | .M | .O => true
  | _ => false

/-- The array set of a line within its slice (R263). -/
def arraySet (line : Nat) : Nat := line % 4096

/-- A line of the home's own array leaves it: its dirty bytes go to memory with the poison mark (R263), which only `linclr` clears
there (R214). -/
def State.dropHome (h : HomeLine) (s : State) : State :=
  let s := { s with homeLines := s.homeLines.filter (fun x => x.line ≠ h.line) }
  if h.dirty then
    { s with mem := memPutLine s.mem h.line h.data allBytes
             poison := if h.poison && !s.poison.contains h.line then h.line :: s.poison else s.poison }
  else s

/-- A slice is being retired (R208). -/
def State.retiring (s : State) (sl : Nat × Nat) : Bool :=
  s.slices.any (fun x => x.die = sl.1 && x.slice = sl.2 && x.retire && !x.retired)

/-- Evict (R257): a stable line of a copy slice, of which no forward waits for its answer, is replaced; the flag says that its way is free
now. -/
def State.evictCopy (c : CLine) (s : State) : State × Bool :=
  let put (k : MsgKind) (st : CState) : State × Bool :=
    ((s.send { kind := k, line := c.line, src := c.agent, dst := .home, data := c.data, poison := c.poison }).setCline
      { c with st := st }, false)
  if !c.deferred.isEmpty then (s, false)
  else match c.st with
  | .S => (s.setCline { c with st := .I }, true)
  | .E => put .putE .MI_A
  | .M => put .putM .MI_A
  | .O => put .putO .OI_A
  | _ => (s, false)

/-- The number that stands in R206 for a peer line: its virtual line number and its target package. -/
def peerNumber (package vline : Nat) : Nat := vline ^^^ (package <<< 27)
/-- The number of a read-shared peer line that a slice holds. -/
def PeerCopy.number (x : PeerCopy) : Nat := peerNumber x.package x.vline
/-- The copy of a peer line. -/
def PeerCopy.is (x : PeerCopy) (die package part vline : Nat) : Bool :=
  x.die = die && x.package = package && x.part = part && x.vline = vline

/-- A way for line `line` in the array of slice `at_`: true when there is one, an eviction begun otherwise (R263); a slice that is being
retired gives none (R208). A read-shared peer line is numbered as R206 says. No rule says where the lines that the local agent H holds
stand: the model keeps them beside the array, in no way of it, and never replaces them (log 104). -/
def State.slotFor (at_ : Nat × Nat) (line : Nat) (s : State) : State × Bool :=
  let here (l : Nat) (d : Nat) : Bool := arraySet l = arraySet line && s.copySlice d l = at_
  let peers := s.peerCopies.filter (fun x => here x.number x.die)
  let homes := s.homeLines.filter (fun h => here h.line (homeDie h.line))
  let copies := s.clines.filter (fun c => match c.agent with | .copy d => c.st ≠ .I && here c.line d | .home => false)
  if s.retiring at_ then (s, false)
  else if homes.length + copies.length + peers.length < 16 then (s, true)
  else if copies.any (fun c => c.st = .MI_A || c.st = .OI_A || c.st = .II_A) then (s, false)
  else
    let lru := (homes.map (·.stamp) ++ copies.map (·.stamp) ++ peers.map (·.stamp)).foldl Nat.min s.time
    match homes.find? (fun h => h.stamp = lru), copies.find? (fun c => c.stamp = lru), peers.find? (fun x => x.stamp = lru) with
    | some h, _, _ => (s.dropHome h, true)
    | none, some c, _ => s.evictCopy c
    | none, none, some x => ({ s with peerCopies := s.peerCopies.filter (fun y => y ≠ x) }, true)
    | none, none, none => (s, false)

/-- A slice keeps bytes of a read-shared peer line: the flag says that they have a way (R205, R206, R263). -/
def State.peerFill (die package part vline : Nat) (d : LineData) (mask : ByteMask) (poison : Bool) (s : State) : State × Bool :=
  let mine (x : PeerCopy) : Bool := x.is die package part vline
  match s.peerCopies.find? mine with
  | some x =>
    ({ s with peerCopies := putFirst mine { x with data := mergeLine x.data d mask, valid := x.valid ||| mask
                                                   poison := x.poison || poison, stamp := s.time } s.peerCopies }, true)
  | none =>
    let a := peerNumber package vline
    let r := s.slotFor (s.copySlice die a) a
    if r.2 then
      ({ r.1 with peerCopies := { die := die, package := package, part := part, vline := vline, data := d, poison := poison
                                  stamp := s.time, valid := mask } :: r.1.peerCopies }, true)
    else r

/-- The home writes bytes into its memory-side copy (R254, R263): an array line when there is a way, else memory. -/
def State.homeStore (line : Nat) (d : LineData) (mask : ByteMask) (poison : Bool) (s : State) : State :=
  let old := s.homeData line
  let new : HomeLine := { line := line, data := mergeLine old.1 d mask, dirty := true, poison := old.2 || poison, stamp := s.time }
  if s.homeLines.any (fun h => h.line = line) then { s with homeLines := putFirst (fun h => h.line = line) new s.homeLines }
  else
    let r := s.slotFor (s.homeSlice line) line
    if r.2 then { r.1 with homeLines := new :: r.1.homeLines } else State.dropHome new r.1

/-- Read (R257) at a slice: the line when it hits; otherwise the request is begun, or waits. -/
def State.sliceRead (a : Agent) (line : Nat) (s : State) : State × Option (LineData × Bool) :=
  let c := s.cline a line
  if c.st.hits then (s.setCline { c with stamp := s.time }, some (c.data, c.poison))
  else if c.st ≠ .I || !c.deferred.isEmpty then (s, none)
  else
    let r := match a with
      | .home => (s, true)
      | .copy d => s.slotFor (s.copySlice d line) line
    if r.2 then ((r.1.send { kind := .getS, line := line, src := a, dst := .home }).setCline { c with st := .IS_D, stamp := s.time }, none)
    else (r.1, none)

/-- Write (R257) at a slice: true when the slice holds the line in M; otherwise the request is begun. -/
def State.sliceOwn (a : Agent) (line : Nat) (s : State) : State × Bool :=
  let c := s.cline a line
  let ask (s : State) (st : CState) : State × Bool :=
    ((s.send { kind := .getM, line := line, src := a, dst := .home }).setCline
      { c with st := st, acks := 0, need := none, counted := false, stamp := if c.st = .I then s.time else c.stamp }, false)
  match c.st with
  | .M => (s, true)
  | .E => (s.setCline { c with st := .M, stamp := s.time }, true)
  | .S => if c.deferred.isEmpty then ask s .SM_AD else (s, false)
  | .O => if c.deferred.isEmpty then ask s .OM_A else (s, false)
  | .I =>
    let r := match a with
      | .home => (s, c.deferred.isEmpty)
      | .copy d => if c.deferred.isEmpty then s.slotFor (s.copySlice d line) line else (s, false)
    if r.2 then ask r.1 .IM_AD else (r.1, false)
  | _ => (s, false)

/-- Merge bytes into a line that a slice holds in M; poison stays with the line (R214). -/
def State.sliceMerge (a : Agent) (line : Nat) (d : LineData) (mask : ByteMask) (poison : Bool) (s : State) : State :=
  let c := s.cline a line
  s.setCline { c with data := mergeLine c.data d mask, poison := c.poison || poison, stamp := s.time }

/-- A fill or a write-back that a slice could not serve waits there until the line is stable (R257). -/
def State.holdFill (a : Agent) (line : Nat) (f : HeldFill) (s : State) : State :=
  let c := s.cline a line
  if c.st.stable || c.fills.contains f then s else s.setCline { c with fills := c.fills ++ [f] }
def State.holdWrite (a : Agent) (line : Nat) (c : CoreId) (s : State) : State :=
  let l := s.cline a line
  if l.st.stable || l.writers.contains c then s else s.setCline { l with writers := l.writers ++ [c] }

/-! At the home. -/

/-- A back-invalidate snoop of a line that the filter lists goes to the host, once of each kind; BISnpData asks no more than a BISnpInv that is
out already (R385, R388). -/
def State.biSnoop (line : Nat) (data : Bool) (s : State) : State :=
  if !s.biFilter.contains line || s.biAsked.contains line || (data && s.biDataAsked.contains line) then s
  else if data then { s with biDataAsked := line :: s.biDataAsked, out := .biSnp line true :: s.out }
  else { s with biAsked := line :: s.biAsked, out := .biSnp line false :: s.out }

/-- A read performed at the home (R205, R254): through H; in a page of host bias from the home's own copy, once the host has
given up a line it caches, which BISnpData asks of it (R385). -/
def State.homeRead (line : Nat) (s : State) : State × Option (LineData × Bool) :=
  if s.inHostBias line then (s.biSnoop line true, if s.biFilter.contains line then none else some (s.homeData line))
  else s.sliceRead .home line

/-- The home may write the line: H holds it in M, or the page is in host bias and the host caches no copy of it, which BISnpInv asks of it. -/
def State.homeOwn (line : Nat) (s : State) : State × Bool :=
  if s.inHostBias line then (s.biSnoop line false, !s.biFilter.contains line) else s.sliceOwn .home line

/-- What the home reads of a line it may write. -/
def State.homeSees (s : State) (line : Nat) : LineData × Bool :=
  if s.inHostBias line then s.homeData line else ((s.cline .home line).data, (s.cline .home line).poison)

/-- A write to a line of a page of host bias, whose bytes go to memory: no slice keeps them (R385). -/
def State.biasStore (line : Nat) (d : LineData) (mask : ByteMask) (poison : Bool) (s : State) : State :=
  let old := s.homeData line
  s.dropHome { line := line, data := mergeLine old.1 d mask, dirty := true, poison := old.2 || poison }

/-- A write performed at the home, which may write the line. -/
def State.homeMerge (line : Nat) (d : LineData) (mask : ByteMask) (poison : Bool) (s : State) : State :=
  if s.inHostBias line then s.biasStore line d mask poison else s.sliceMerge .home line d mask poison

/-! Lost homes (R362, R363, R403). -/

/-- Package `p` is declared lost, or the table is full (R362). -/
def State.lostHome (s : State) (p : Nat) : Bool :=
  (s.reg 0x2010).getLsbD 0
    || (List.range 256).any (fun i => (s.reg (0x3000 + 8 * i)).getLsbD 63 && s.regField (0x3000 + 8 * i) 0 18 = p)

/-- A request to package `p` reaches it (R362, R363, R403): with REN = 0 none does. This module itself needs no port (log 17). -/
def State.reachable (s : State) (p : Nat) : Bool :=
  !s.lostHome p && (s.reg 0x2000).getLsbD 0 && (p = s.package || (s.route p 0).isSome)

/-- Offset of entry `i` of the lost-home table. -/
def lostEntry (i : Nat) : Nat := 0x3000 + 8 * i

/-- Valid entries. -/
def State.lostCount (s : State) : Nat := ((List.range 256).filter (fun i => (s.reg (lostEntry i)).getLsbD 63)).length

/-- An entry is set and the status register follows (R362, R403). -/
def State.setLost (i : Nat) (v : BitVec 64) (s : State) : State :=
  let s := s.setReg (lostEntry i) v
  let n := s.lostCount
  s.setReg 0x2010 (BitVec.ofNat 64 ((if n = 256 then 1 else 0) + n * 2 ^ 16))

/-- The collectives under way here whose tree leaves by a port that the route table gives for package `p` (log 57). -/
def State.collectivesWith (s : State) (p : Nat) : List (Nat × BitVec 64) :=
  let tree (g : Nat) : Nat :=
    let m := s.multicastEntry g
    m % 2 ^ 36 ||| (if m.testBit 43 then 0 else 2 ^ (m / 2 ^ 37 % 64))
  (s.redSlots.map (fun r => (r.group, r.sequence)) ++ s.redBuffer.map (fun c => (c.group, c.sequence))
    ++ (s.works.filter (fun x => x.kind = .collective)).map (fun x => (collGroup x.block, collSequence x.block))).eraseDups.filter
      (fun x => tree x.1 &&& (s.routeEntry p % 2 ^ 36) ≠ 0)

/-- A package is lost (R363): copies of its lines are dropped, their dirty bytes with them, a module-error event names it, the collectives
in which it takes part are to abort, and every outstanding request to it completes with cause 18. -/
def State.loseHome (p : Nat) (s : State) : State :=
  let t : State := { s with
    peerWrites := s.peerWrites.filter (fun x => x.2 ≠ p)
    cores := s.cores.map (fun (x : CoreId × Core) => (x.1, { x.2 with l1 := x.2.l1.filter (fun l => l.peer ≠ some p) }))
    peerCopies := s.peerCopies.filter (fun x => x.package ≠ p) }
  let t := (s.collectivesWith p).foldl State.abortCollective t
  (t.event { kind := 6, part := 0xFFFF, queue := 0xFFFFFFFF, launch := 0, info := BitVec.ofNat 64 p }).failRequests p

/-- The package stands in the lost-home table. -/
def State.inLostTable (s : State) (p : Nat) : Bool :=
  (List.range 256).any (fun i => (s.reg (lostEntry i)).getLsbD 63 && s.regField (lostEntry i) 0 18 = p)

/-- The module declares a package lost: it writes a free entry (R362). -/
def State.declareLost (p : Nat) (s : State) : State :=
  if s.inLostTable p then s
  else match findFrom (fun i => !(s.reg (lostEntry i)).getLsbD 63) 256 0 with
    | some i => (s.setLost i (BitVec.ofNat 64 (p % 2 ^ 18 + 2 ^ 63))).loseHome p
    | none => s.loseHome p

/-- A request to package `p` finds no usable port, with the route table in use: `p` is to be declared lost (R362, R403, log 57). -/
def State.losesHome (s : State) (p : Nat) : Bool :=
  (s.reg 0x2000).getLsbD 0 && p ≠ s.package && !s.lostHome p && (s.route p 0).isNone

/-! Parked requests (R360). -/

/-- The park table, or in host-assisted mode the fault-entry buffer, is full (R360, R390). -/
def State.parkFull (s : State) : Bool := 1024 ≤ s.parked.length || (s.hostMode 0 && s.faultsFull)

/-- A request whose page fails is parked; in the host-assisted mode an entry for the host names the context of the request's tag, or of its
own group; its other contents are open (log 33). `assisted`: the mode in which the request is handled (R406). -/
def State.parkAs (assisted : Bool) (r : PeerReq) (f : WalkFault) (va : Nat) (own : Option OwnRequest) (s : State) : State :=
  let ctx := (own.map (·.ctx)).getD (tagCtx r.tag)
  let p : Parked := { req := r, since := s.time, cause := f.cause, extra := f.extra, addr := va, assisted := assisted, own := own }
  let words : List (BitVec 64) := [Config.freeValue 64 s.free 5, BitVec.ofNat 64 ctx, BitVec.ofNat 64 va, Config.freeValue 64 s.free 6]
  let s := { s with parked := s.parked ++ [p] }
  if assisted then s.faultFor { part := r.part, ctx := ctx, source := .parked r.tag, addr := BitVec.ofNat 64 va, words := words } else s

/-- A request that begins now is parked in the mode of now. -/
def State.parkReq (r : PeerReq) (f : WalkFault) (va : Nat) (own : Option OwnRequest) (s : State) : State := s.parkAs (s.hostMode 0) r f va own

/-! Overlapping stores (R251). -/

/-- The places of the bytes of a line that a mask names. -/
def maskBytes (line : Nat) (m : ByteMask) : List Nat := ((List.range 128).filter (fun i => m.getLsbD i)).map (fun i => 128 * line + i)

/-- Plain stores reach bytes: they stand over older synchronising ones, and end what these left undefined (R251). -/
def State.notePlain (bytes : List Nat) (s : State) : State :=
  match bytes.filter (fun b => s.wrote.any (fun x => x.addr ≤ b && b < x.addr + x.size)) with
  | [] => s
  | b :: bs =>
    let covered := b :: bs
    { s with undef := s.undef.filter (fun x => !covered.contains x)
             wrote := covered.map (fun x => { line := x / 128, addr := x, size := 1, plain := true }) ++ s.wrote }

/-- A line as a private load reads it: free values where R251 leaves bytes undefined. -/
def State.blur (s : State) (line : Nat) (d : LineData) : LineData :=
  (s.undef.filter (fun b => b / 128 = line)).foldl (fun d b =>
    mergeLine d (placeBytes (b % 128) [Config.freeValue 8 s.free (2 ^ 41 + b)]) (byteRange (b % 128) 1)) d

/-! L1. -/

/-- What names a line of an L1: a global line by its physical line number, a peer line by package, partition and virtual line
(R204). -/
structure LineKey where
  peer : Option Nat
  part : Nat
  line : Nat
  deriving DecidableEq, Repr

/-- The set of an L1 line (R204). -/
def LineKey.set (k : LineKey) : Nat :=
  match k.peer with
  | none => k.line % 128
  | some p => (k.line % 128) ^^^ (p % 128)

/-- The name of an L1 line. -/
def L1Line.key (l : L1Line) : LineKey := { peer := l.peer, part := if l.peer.isSome then l.stamp else 0, line := l.line }

/-- A line of a core's L1. -/
def State.l1Find (s : State) (c : CoreId) (k : LineKey) : Option L1Line := (s.core c).l1.find? (fun l => l.key = k)

/-- Put a line first: the most recently used (R204). A line with no valid byte is dropped. -/
def State.l1Put (c : CoreId) (l : L1Line) (s : State) : State :=
  let k := s.core c
  let rest := k.l1.filter (fun x => x.key ≠ l.key)
  s.setCore c { k with l1 := if l.valid = 0 then rest else l :: rest }

/-- Replace a line in its place, or drop it when no byte of it is valid. -/
def State.l1Set (c : CoreId) (l : L1Line) (s : State) : State :=
  let k := s.core c
  s.setCore c { k with l1 := if l.valid = 0 then k.l1.filter (fun x => x.key ≠ l.key) else modifyFirst (fun x => x.key = l.key) (fun _ => l) k.l1 }

/-- The physical address of a peer line of this package's own memory. -/
def State.ownPeerLine (s : State) (part vline : Nat) (r : Right) : Option Nat :=
  (s.vaddr part (128 * vline) r).map (· / 128)

/-- A line of an L1 holds bytes of a line of this module's memory: of global space, or of this module's own peer space. -/
def State.l1Of (s : State) (line : Nat) (l : L1Line) : Bool :=
  match l.peer with
  | none => l.line = line
  | some p => p = s.package && s.ownPeerLine l.stamp l.line .read = some line

/-- No slice keeps a read-shared copy of a line of this module that was filled through its own peer space (R205). -/
def State.dropShared (line : Nat) (s : State) : State :=
  { s with peerCopies := s.peerCopies.filter (fun x => !(x.package = s.package && s.ownPeerLine x.part x.vline .read = some line)) }

/-- The request that carries the dirty bytes of a line of this module's own peer space (R205, R359). -/
def L1Line.request (s : State) (l : L1Line) : PeerReq :=
  { source := s.package, part := l.stamp, kind := 1, op := 0, ty := 0, sync := false, colour := l.colours, tag := 0, poison := l.poison
    lanes := ((List.range 128).filter (fun i => l.dirty.getLsbD i)).map (fun i =>
      { lane := 0, va := 128 * l.line + i, size := 1, data := (lineByte l.data i).setWidth 128, data2 := 0 }) }

/-- The dirty bytes of an L1 line are written toward the home, with the poison mark (R204, R205, R214, R254); the flag says
that they have been. A peer line whose target is lost, or refuses them, loses its bytes (R363); this module parks its own whose page
fails (R360). -/
def State.writeBack (c : CoreId) (l : L1Line) (s : State) : State × Bool :=
  if l.dirty = 0 then (s, true)
  else
    let clean (s : State) : State := s.l1Set c { l with dirty := 0, colours := 0 }
    match l.peer with
    | none =>
      if s.uncached c l.line then
        let r := s.homeOwn l.line
        if r.2 then (clean ((r.1.homeMerge l.line l.data l.dirty l.poison).notePlain (maskBytes l.line l.dirty)), true) else r
      else
        let a := agentOf c.die l.line
        let r := s.sliceOwn a l.line
        if r.2 then (clean ((r.1.sliceMerge a l.line l.data l.dirty l.poison).notePlain (maskBytes l.line l.dirty)), true)
        else (r.1.holdWrite a l.line c, false)
    | some p =>
      if p = s.package then
        if !s.reachable p || !(s.reg (partBlock l.stamp + 0xA0)).getLsbD 0 then (clean s, true)
        else match s.walk l.stamp (128 * l.line) .write with
        | .error f =>
          if s.parkFull then (clean s, true)
          else (clean ({ s with peerWrites := (c, p) :: s.peerWrites }.parkReq (l.request s) f (128 * l.line) none), true)
        | .ok (t, _) =>
          let line := t.frame / 128 + l.line % 32
          let r := s.homeOwn line
          if r.2 then (clean ((r.1.homeMerge line l.data l.dirty l.poison).notePlain (maskBytes line l.dirty)), true) else r
      else match (if s.reachable p then s.route p 0 else none) with
        | none => (clean (if s.losesHome p then s.declareLost p else s), true)
        | some port =>
          (clean { s with out := .writeback port p l.stamp l.line l.data l.dirty l.colours l.poison :: s.out
                          peerWrites := (c, p) :: s.peerWrites }, true)

/-- The acknowledgements of the peer write-backs of a core: whether those of other modules have come is open (log 22), and the flag says
that all have. -/
def State.peerAcks (c : CoreId) (s : State) : State × Bool :=
  let came : Bool := Config.freeChoice s.free 9 % 2 = 1
  let s := if s.peerWrites.any (fun x => x.1 = c && x.2 ≠ s.package) && came then
      { s with peerWrites := s.peerWrites.filter (fun x => !(x.1 = c && x.2 ≠ s.package)) }
    else s
  (s, !s.peerWrites.any (fun x => x.1 = c))

/-- Write back every line that satisfies `p`; the flag says that all of them have been. -/
def State.writeBackAll (c : CoreId) (p : L1Line → Bool) (s : State) : State × Bool :=
  ((s.core c).l1.filter (fun l => l.dirty ≠ 0 && p l)).foldl
    (fun r l => let x := r.1.writeBack c l; (x.1, r.2 && x.2)) (s, true)

/-- A way for a line: the least recently used line of a full set is written back and dropped (R204). -/
def State.l1Room (c : CoreId) (k : LineKey) (s : State) : State × Bool :=
  let set := (s.core c).l1.filter (fun l => l.key.set = k.set)
  if set.length < 16 then (s, true)
  else match set.getLast? with
    | none => (s, true)
    | some l =>
      let r := s.writeBack c l
      if r.2 then
        let x := r.1.core c
        (r.1.setCore c { x with l1 := x.l1.filter (fun y => y.key ≠ l.key) }, true)
      else r

/-- The issuing core's bytes of a line that is to be written or read at its home go home first; `drop` says that none of the line stays
(R230, R236, R238). -/
def State.l1Leave (c : CoreId) (line : Nat) (drop : Bool) (s : State) : State × Bool :=
  let r := s.writeBackAll c (s.l1Of line)
  if r.2 && drop then
    let k := r.1.core c
    (if k.l1.any (r.1.l1Of line) then r.1.setCore c { k with l1 := k.l1.filter (fun l => !r.1.l1Of line l) } else r.1, true)
  else r

/-- Data arrive for a line of an L1: bytes that are not valid there become valid (R204). Clean bytes that R245 keeps from a plain load,
of a read-shared line or of one filled at core scope, are replaced (log 18). -/
def State.l1Fill (c : CoreId) (k : LineKey) (d : LineData) (poison shared wide : Bool) (vline part : Nat) (s : State) :
    State × Bool :=
  match s.l1Find c k with
  | some l => (s.l1Put c { l with data := mergeLine d l.data (if l.shared || (wide && !l.wide) then l.dirty else l.valid), valid := allBytes, poison := l.poison || poison
                                  wide := l.wide || wide, vline := vline, shared := if l.dirty = 0 then shared else l.shared }, true)
  | none =>
    let r := s.l1Room c k
    if r.2 then
      (r.1.l1Put c { line := k.line, peer := k.peer, vline := vline, data := d, valid := allBytes, shared := shared
                     wide := wide, poison := poison, stamp := part }, true)
    else r

/-- A plain store's bytes go into the L1 (R204, R225): a miss allocates a line of only those bytes; of a read-shared line no clean byte
stays, which an acquire would not have dropped (R245). -/
def State.l1Store (c : CoreId) (k : LineKey) (d : LineData) (mask : ByteMask) (colour : Nat) (wide : Bool) (vline part : Nat)
    (s : State) : State × Bool :=
  let paint : BitVec 8 := BitVec.ofNat 8 (2 ^ colour)
  match s.l1Find c k with
  | some l => (s.l1Put c { l with data := mergeLine l.data d mask, valid := (if l.shared then l.dirty else l.valid) ||| mask, dirty := l.dirty ||| mask
                                  colours := l.colours ||| paint, shared := false }, true)
  | none =>
    let r := s.l1Room c k
    if r.2 then
      (r.1.l1Put c { line := k.line, peer := k.peer, vline := vline, data := d, valid := mask, dirty := mask, colours := paint
                     wide := wide, stamp := part }, true)
    else r

/-- The bytes an L1 gives a load: a plain load takes no clean byte of a read-shared line, nor through a pointer of cluster scope or wider
one of a line filled at core scope, so that R245 holds for it (log 18). -/
def State.l1Hit (s : State) (c : CoreId) (k : LineKey) (need : ByteMask) (shared wide : Bool) : Option L1Line :=
  (s.l1Find c k).filter (fun l => l.valid &&& need = need && (shared || !l.shared) && (shared || l.wide || !wide || l.dirty &&& need = need))

/-- Drop the clean bytes of a line (R232, R249). -/
def L1Line.dropClean (l : L1Line) : L1Line := { l with valid := l.dirty }

/-- Drop the clean bytes of the lines that satisfy `p`. -/
def State.dropCleanAll (c : CoreId) (p : L1Line → Bool) (s : State) : State :=
  let k := s.core c
  s.setCore c { k with l1 := (k.l1.map (fun l => if p l then l.dropClean else l)).filter (fun l => l.valid ≠ 0) }

/-! Releases and acquires. -/

/-- The cache action of a release on the issuing core (R247), its acknowledgements included; cluster and die scope make a record at the
home instead. -/
def State.releaseLines (c : CoreId) (scope : Nat) (mask : BitVec 8) (s : State) : State × Bool :=
  if scope < 3 then (s, true)
  else
    let r := s.writeBackAll c (fun l => l.colours &&& mask ≠ 0 && (l.peer.isNone || 4 ≤ scope))
    if 4 ≤ scope && r.2 then r.1.peerAcks c else r

/-- What an acquire drops in the acquirer's L1 (R249). -/
def State.acquireDrop (c : CoreId) (scope : Nat) (s : State) : State :=
  if scope = 0 then s
  else s.dropCleanAll c (fun l => !l.shared && (l.wide || (4 ≤ scope && l.peer.isSome)))

/-- The releaser records of a line. -/
def State.records (s : State) (line : Nat) : List Releaser := s.releasers.filter (fun r => r.line = line)

/-- A lazy release makes its record at the home (R248): done, or it must first wait for the oldest entry's drain, or act as a
package-scope release. -/
def State.lazyRelease (c : CoreId) (line : Nat) (mask : BitVec 8) (s : State) : State × Bool :=
  if s.releasers.any (fun r => r.line = line && r.core = c && !r.draining) then
    let add (r : Releaser) : Releaser := { r with mask := r.mask ||| mask }
    ({ s with releasers := modifyFirst (fun r => r.line = line && r.core = c && !r.draining) add s.releasers }, true)
  else if (s.records line).isEmpty
      && 1024 ≤ ((s.releasers.filter (fun r => s.homeSlice r.line = s.homeSlice line)).map (·.line)).eraseDups.length then
    s.releaseLines c 3 mask
  else if 8 ≤ (s.records line).length then
    if (s.records line).any (·.draining) then (s, false)
    else ({ s with releasers := modifyFirst (fun r => r.line = line) (fun r => { r with draining := true }) s.releasers }, false)
  else ({ s with releasers := s.releasers ++ [{ line := line, core := c, mask := mask }] }, true)

/-- The cache actions of a release at a place: lazy in the home of a global line, package scope for a cluster- or die-scope
release elsewhere, where no home keeps records (log 19). -/
def State.release (c : CoreId) (scope : Nat) (line : Option Nat) (mask : BitVec 8) (s : State) : State × Bool :=
  if scope = 0 then (s, true)
  else if scope < 3 then
    match line with
    | some l => s.lazyRelease c l mask
    | none => s.releaseLines c 3 mask
  else s.releaseLines c scope mask

/-- The drains of an acquire are sent: every record of the line drains (R249). -/
def State.startDrains (line : Nat) (s : State) : State :=
  { s with releasers := s.releasers.map (fun r => if r.line = line then { r with draining := true } else r) }

/-- The releaser records of a line are drained for an access of the host, or of the module itself, as for a package-scope synchronising one (R249,
R382); a record of a dead core is freed (R339). The flag says that none is left. -/
def State.hostDrains (line : Nat) (s : State) : State × Bool :=
  let s := { s with releasers := s.releasers.filter (fun r => !(r.line = line && (s.core r.core).dead)) }
  if (s.records line).isEmpty then (s, true) else (s.startDrains line, false)

/-- A drain of the line is under way. -/
def State.draining (s : State) (line : Nat) : Bool := (s.records line).any (·.draining)

/-! Walks (R232). -/

/-- The line belongs to the range of a walk: virtual lines `lo` to `hi`, of a package or of global space. -/
def L1Line.inWalk (l : L1Line) (peer : Option Nat) (part lo hi : Nat) : Bool :=
  l.peer = peer && lo ≤ l.vline && l.vline ≤ hi && l.stamp = part

/-- A request of the entry to module `p` for a line of the range is out. -/
def Entry.fetches (e : Entry) (p lo hi : Nat) : Bool :=
  e.kind = .load && e.asks && e.path = 4 && e.anchor = p
    && e.lanes.any (fun a => (List.range (e.elems a)).any (fun k => lo ≤ a.va k / 128 && a.va k / 128 ≤ hi))

/-- What the requests of a core's groups bring for lines that a `narrow` has passed is not kept (R233). -/
def State.unkeep (c : CoreId) (p lo hi : Nat) (s : State) : State :=
  let f (g : Group) : Group :=
    if g.core = c && g.status = .resident && g.entries.any (fun e => e.fetches p lo hi) then
      { g with entries := g.entries.map (fun e => if e.fetches p lo hi then { e with noKeep := true } else e) }
    else g
  { s with g := f s.g, gs := s.gs.map f }

/-- The walk of `narrow`. -/
def State.narrowWalk (c : CoreId) (peer : Option Nat) (part lo hi : Nat) (shared : Bool) (s : State) : State :=
  let s := s.dropCleanAll c (fun l => l.inWalk peer part lo hi)
  let s := match peer with
    | some p => if p = s.package then s else s.unkeep c p lo hi
    | none => s
  if shared then
    { s with peerCopies := s.peerCopies.filter (fun x => !(x.die = c.die && some x.package = peer && x.part = part && lo ≤ x.vline && x.vline ≤ hi)) }
  else s

/-- The walk of `widen` to a scope; the flag says that every write-back has been made and acknowledged. -/
def State.widenWalk (c : CoreId) (peer : Option Nat) (part lo hi scope : Nat) (s : State) : State × Bool :=
  if scope = 0 || (peer.isSome && scope < 4) then (s, true)
  else
    let r := s.writeBackAll c (fun l => l.inWalk peer part lo hi)
    if peer.isSome && r.2 then r.1.peerAcks c else r

end Sys2Proof.Machine
end

