-- ==== Sys2Proof/Machine/Shapes.lean ====
section
/-! DEFINITION. The shapes of matrix operations and the sizes of their fragments (spec 02 R57, 15 R269, 17 R310). -/
namespace Sys2Proof.Machine
open Sys2Proof

/-- M, N and K of a row of R57. -/
def matrixShape (mfa mfb macc : Nat) : Option (Nat × Nat × Nat) :=
  match mfa, mfb, macc with
  | 0, 0, 1 => some (16, 16, 8)
  | 1, 1, 0 => some (32, 32, 8)
  | 2, 2, 0 | 3, 3, 0 => some (64, 64, 16)
  | 4, 4, 0 | 4, 5, 0 | 5, 4, 0 | 5, 5, 0 | 7, 7, 2 => some (64, 64, 32)
  | 6, 2, 0 | 6, 4, 0 | 6, 5, 0 => some (64, 64, 64)
  | _, _, _ => none

/-- Bits of an element of a matrix format code (R16, R269). -/
def matrixBits (code : Nat) : Nat :=
  match code with
  | 0 => 64 | 1 => 32 | 2 => 16 | 3 => 16 | 6 => 4 | _ => 8

/-- The floating-point format of a matrix format code (R16). -/
def matrixFormat (code : Nat) : FFmt :=
  match code with
  | 0 => .f64 | 1 => .f32 | 2 => .bf16 | 3 => .f16 | 4 => .e4m3 | _ => .e5m2

/-- Bytes of a fragment of `rows` × `k` elements (R269, R310). -/
def fragBytes (code rows k : Nat) : Nat := rows * k * matrixBits code / 8

end Sys2Proof.Machine
end

