-- ==== Sys2Proof/Machine/EngineForm.lean ====
section
/-! DEFINITION. What an engine start names and checks (spec 15 R276 to R279, R283, 16 R307 to R309, 20 R366): copy templates,
their walk, gather and collective command blocks, and the checks that the start write makes as part of its issue. -/
namespace Sys2Proof.Machine
open Sys2Proof

/-! Templates (R308). -/


/-- A template. -/
structure Template where
  src : Ptr
  dst : Ptr
  ctl : Nat
  pad : Nat
  counts : List Nat
  sstr : List Int
  dstr : List Int
  tail : Nat
  deriving DecidableEq, Repr

/-- A template from its 128 bytes. -/
def templateOf (bs : List Byte) : Template :=
  { src := BitVec.ofNat 128 (blockField bs 0 16), dst := BitVec.ofNat 128 (blockField bs 0x10 16), ctl := blockField bs 0x20 8
    pad := blockField bs 0x28 8, counts := (List.range 5).map (fun d => blockField bs (0x30 + 4 * d) 4)
    sstr := (List.range 5).map (fun d => (BitVec.ofNat 32 (blockField bs (0x44 + 4 * d) 4)).toInt)
    dstr := (List.range 5).map (fun d => (BitVec.ofNat 32 (blockField bs (0x58 + 4 * d) 4)).toInt)
    tail := blockField bs 0x6C 20 }

/-- DIMS. -/
def Template.dims (t : Template) : Nat := bitsAt 0 3 t.ctl
/-- XFORM: 0 none, 1 transpose, 2 pad, 3 re-block. -/
def Template.xform (t : Template) : Nat := bitsAt 3 3 t.ctl
/-- The acquire's scope, when ACQ is set. -/
def Template.acquire (t : Template) : Option Nat := if t.ctl.testBit 6 then some (bitsAt 7 3 t.ctl) else none
/-- The release's scope and mask, when REL is set. -/
def Template.release (t : Template) : Option (Nat × BitVec 8) :=
  if t.ctl.testBit 10 then some (bitsAt 11 3 t.ctl, BitVec.ofNat 8 (bitsAt 14 8 t.ctl)) else none
/-- The barrier, when BARV is set. -/
def Template.barrier (t : Template) : Option Nat := if t.ctl.testBit 22 then some (bitsAt 23 6 t.ctl) else none
/-- RBFMT. -/
def Template.rbFmt (t : Template) : Nat := bitsAt 32 4 t.ctl
/-- RBOP: operand B. -/
def Template.rbB (t : Template) : Bool := t.ctl.testBit 36
/-- The roster size r of a re-block. -/
def Template.rbR (t : Template) : Nat := 2 ^ (bitsAt 37 2 t.ctl + 1)

/-- The walk's dimensions, innermost first: count, source stride, destination stride (R278); `covr` is COUNT OVERRIDE. -/
def Template.walk (t : Template) (covr : Nat) : List (Nat × Int × Int) :=
  (List.range t.dims).map (fun d =>
    (if d + 1 = t.dims ∧ covr ≠ 0 then covr else t.counts.getD d 0, t.sstr.getD d 0,
     t.dstr.getD (if t.xform = 1 then (if d = 0 then 1 else if d = 1 then 0 else d) else d) 0))

/-- Elements of a walk. -/
def walkTotal (l : List (Nat × Int × Int)) : Nat := l.foldl (fun n x => n * x.1) 1

/-- Source and destination index of element `n` of a walk, without the offsets. -/
def walkAt : List (Nat × Int × Int) → Nat → Int × Int
  | [], _ => (0, 0)
  | (c, a, b) :: rest, n =>
    let r := walkAt rest (n / c)
    (a * ((n % c : Nat) : Int) + r.1, b * ((n % c : Nat) : Int) + r.2)

/-- The least and the greatest index that a walk's strides reach from 0. -/
def walkSpan (l : List (Nat × Int)) : Int × Int :=
  l.foldl (fun r x => let e : Int := x.2 * ((x.1 : Int) - 1); (r.1 + min 0 e, r.2 + max 0 e)) (0, 0)

/-- A fragment of R57 in a matrix format for operand A or B, with K and rows as given (R278, R308). -/
def isFragment (fmt k rows : Nat) (opB : Bool) : Bool :=
  (List.range 8).any (fun a => (List.range 8).any (fun b => (List.range 3).any (fun c =>
    match matrixShape a b c with
    | some (m, n, kk) => kk = k && (if opB then b = fmt && n = rows else a = fmt && m = rows)
    | none => false)))

/-- Bytes of a re-block's destination: the fragment, and the scale block of a codebook-4 A operand (R278). -/
def Template.blockBytes (t : Template) (covr : Nat) : Nat :=
  fragBytes t.rbFmt (walkTotal (t.walk covr)) 1 + (if t.rbFmt = 6 then 512 else 0)

/-- Formats that convert into one another (R279). -/
def isFloatFmt (e : Nat) : Bool := 0x10 ≤ e && e ≤ 0x15

/-- Source and destination formats that a copy accepts (R279): nq4 moves to nq4 unchanged. -/
def formatsAgree (t : Template) : Bool :=
  let a := Ptr.efmt t.src
  let b := Ptr.efmt t.dst
  if b = efNq4 then a = efNq4 && t.xform ≠ 3
  else if a = efNq4 then t.xform = 3 && t.rbFmt = 6 && !t.rbB && Ptr.size t.dst = 1
  else if t.xform = 3 && t.rbFmt = 6 then false
  else a = b || (isFloatFmt a && isFloatFmt b)

/-- A template field outside its limits (R277 check 3, R308). -/
def Template.bad (t : Template) (covr barriers : Nat) : Bool :=
  let d := t.dims
  let rb : Bool := t.xform = 3
  d = 0 || 5 < d || 3 < t.xform || 4 < bitsAt 7 3 t.ctl || 4 < bitsAt 11 3 t.ctl || bitsAt 29 3 t.ctl ≠ 0 || bitsAt 39 25 t.ctl ≠ 0
    || t.tail ≠ 0
    || (List.range 5).any (fun i => d ≤ i && (t.counts.getD i 0 ≠ 0 || t.sstr.getD i 0 ≠ 0 || t.dstr.getD i 0 ≠ 0))
    || (!rb && bitsAt 32 7 t.ctl ≠ 0)
    || (t.xform = 1 && d < 2)
    || t.barrier.any (fun b => barriers ≤ b)
    || !formatsAgree t
    || (rb && (d ≠ 2 || bitsAt 37 2 t.ctl = 3 || t.dstr.any (· ≠ 0)
          || !isFragment t.rbFmt ((t.walk covr).getD 0 (0, 0, 0)).1 ((t.walk covr).getD 1 (0, 0, 0)).1 t.rbB
          || (t.rbFmt ≠ 6 && 8 * Ptr.size t.dst ≠ matrixBits t.rbFmt)))

/-! Checks. -/

/-- A failed check of an engine start (R277): what its fault record holds, and whether the check is one of SRC and DST, which come after
those of the start register and of the template or block. -/
structure StartFault where
  cause : Nat
  pointers : Bool := false
  extra : BitVec 64 := 0
  addr : BitVec 64 := 0
  ptr : Ptr := 0
  deriving DecidableEq, Repr

/-- The copy-bounds fault of a channel (R277, R283, R366). -/
def copyBounds (channel : Nat) : StartFault := { cause := 15, extra := BitVec.ofNat 64 channel }

/-- A use of a pointer by an engine: read or written, whether a bound failed gives cause 15, and the elements it touches, the
first one first. -/
structure PtrUse where
  ptr : Ptr
  write : Bool
  dest : Bool := false
  elems : List Int
  deriving DecidableEq, Repr

/-- Checks 1 and 2 of R277 on one pointer: R32 and the spaces an engine reaches, over the named elements, and the translation of
the page of the first element. Every failure is listed; an element of a destination beyond its length or its space gives cause 15. -/
def State.checkUse (s : State) (channel : Nat) (u : PtrUse) : List StartFault :=
  let p := u.ptr
  let kind : AccessKind := if u.write then 2 else 1
  let own := if Ptr.space p = 0 ∨ Ptr.space p = 6 ∨ Ptr.space p = 7 then 2 ^ 10 else 0
  let of (f : PtrFault) : StartFault := { cause := f.cause, pointers := true, extra := f.extra, addr := f.addr, ptr := p }
  let at_ (i : Int) : BitVec 64 := BitVec.ofInt 64 (Ptr.elemAddr p i)
  let head : Int := u.elems.headD 0
  match s.checkPtr s.g p head 0 kind none own with
  | some f => [of f]
  | none =>
    let wild (i : Int) : Bool := i < 0 || 2 ^ 52 < Ptr.elemAddr p i + Ptr.size p
    let outside (i : Int) : List StartFault := [of ⟨5, BitVec.ofInt 64 i, at_ i⟩]
    let bounds : List StartFault :=
      if u.dest then
        (match u.elems.find? wild with | some i => outside i | none => [])
          ++ (match u.elems.find? (fun i => s.elemOut s.g p i && !wild i) with
              | some i => [{ copyBounds channel with pointers := true, addr := at_ i, ptr := p }]
              | none => [])
      else (match u.elems.find? (s.elemOut s.g p) with | some i => outside i | none => [])
    let unaligned : List StartFault :=
      if Ptr.sync p then
        (match u.elems.find? (fun i => Ptr.elemAddr p i % Ptr.size p ≠ 0) with
         | some i => [of ⟨7, BitVec.ofNat 64 (Ptr.size p), at_ i⟩]
         | none => [])
      else []
    let page : List StartFault :=
      if Ptr.space p = 4 && !u.elems.isEmpty && !wild head then
        let va := (Ptr.elemAddr p head).toNat
        match (s.translate s.g.core s.g.id.part va (if u.write then .write else .read)).2 with
        | .error f => [of ⟨f.cause, BitVec.ofNat 64 f.extra, BitVec.ofNat 64 va⟩]
        | .ok _ => []
      else []
    bounds ++ unaligned ++ page

/-- Place of a failure in the order of R277: the template's or block's own reading, its fields, then SRC and DST in R34's order with the
length checks of cause 15 last. -/
def StartFault.rank (f : StartFault) : Nat :=
  if !f.pointers then (if f.cause = 15 then 1 else 0)
  else match f.cause with
    | 6 => 2 | 3 => 3 | 4 => 4 | 5 => 5 | 7 => 6 | 8 => 7 | 9 => 8 | _ => 9

/-- The first failure in that order; of equal ones the first in the list, with what it is listed for. -/
def firstStart {α : Type} (l : List (α × StartFault)) : Option (α × StartFault) :=
  l.foldl (fun best x => match best with
    | none => some x
    | some b => if x.2.rank < b.2.rank then some x else some b) none

/-- The failure reported among several pointers. -/
def State.checkUses (s : State) (channel : Nat) (us : List PtrUse) : Option StartFault :=
  (firstStart ((us.map (s.checkUse channel)).flatten.map (fun f => ((), f)))).map (·.2)

/-- The elements at which a walk's range is checked: its ends, the first touched one first. -/
def rangeEnds (total : Nat) (first lo hi : Int) : List Int := if total = 0 then [] else [first, lo, hi]

/-- Elements of SRC that the pad transform does not cover (R278), among those a walk touches. -/
def padTouched (p : Ptr) (off : Int) (l : List (Nat × Int × Int)) : List Int :=
  ((List.range (walkTotal l)).map (fun n => off + (walkAt l n).1)).filter (fun i => 0 ≤ i && i < (Ptr.length p : Int))

/-- The pointer uses of a copy (R277). -/
def Template.uses (t : Template) (srcOff dstOff : Int) (covr : Nat) : List PtrUse :=
  let l := t.walk covr
  let total := walkTotal l
  let a := walkSpan (l.map (fun x => (x.1, x.2.1)))
  let b := walkSpan (l.map (fun x => (x.1, x.2.2)))
  let src : PtrUse := { ptr := t.src, write := false
                        elems := if t.xform = 2 then padTouched t.src srcOff l else rangeEnds total srcOff (srcOff + a.1) (srcOff + a.2) }
  let dst : PtrUse := { ptr := t.dst, write := true, dest := true
                        elems := if t.xform = 3 then rangeEnds total dstOff dstOff (dstOff + (t.blockBytes covr : Int) / Ptr.size t.dst - 1)
                          else rangeEnds total dstOff (dstOff + b.1) (dstOff + b.2) }
  [src, dst]

/-- A codebook-4 re-block reads whole blocks: SSTR[0] is 1 and the index of each row a multiple of 64 (R278). -/
def Template.badBlock (t : Template) (srcOff : Int) : Bool :=
  t.xform = 3 && t.rbFmt = 6 && !t.rbB && (t.sstr.getD 0 0 ≠ 1 || srcOff % 64 ≠ 0 || t.sstr.getD 1 0 % 64 ≠ 0)

/-- The barriers of the issuing group's team. -/
def State.teamBarriers (s : State) : Nat := (s.teamOf s.g).barriers.length

/-- What an accepted start captures: its words, as store data beyond the written elements. -/
abbrev Captured := List (BitVec 128)

/-- Bytes as 16-byte words. -/
def packWords (bs : List Byte) : Captured := (List.range (bs.length / 16)).map (fun i => BitVec.ofNat 128 (blockField bs (16 * i) 16))

/-- 16-byte words as bytes. -/
def unpackWords (l : Captured) : List Byte := (l.map (fun x => leBytes 16 x.toNat)).flatten

/-- The checks of a copy start on channel `c`, and what it captures: the template, the two offsets and the count (R276 to R280,
R307, R308). -/
def State.copyStart (s : State) (c : Nat) (k : Channel) (value : BitVec 64) : Except StartFault Captured :=
  let va := s.g.id.templates + 128 * bitsAt 0 8 value.toNat
  if value.toNat / 256 ≠ 0 ∨ s.g.id.templates = 0 then .error (copyBounds c)
  else match (s.translate s.g.core s.g.id.part va .read).2 with
    | .error f => .error { cause := f.cause, extra := BitVec.ofNat 64 f.extra, addr := BitVec.ofNat 64 va }
    | .ok tr =>
      let pa := tr.frame + va % 4096
      if s.physPoison pa 128 then .error { cause := 10, addr := BitVec.ofNat 64 va }
      else
        let bs := s.physRead pa 128
        let t := templateOf bs
        let so := k.src.toInt
        let dO := k.dst.toInt
        let covr := k.count.toNat % 2 ^ 32
        if t.bad covr s.teamBarriers ∨ t.badBlock so ∨ k.count.toNat / 2 ^ 32 ≠ 0 then .error (copyBounds c)
        else match s.checkUses c (t.uses so dO covr) with
          | some f => .error f
          | none => .ok (packWords bs ++ [k.src.setWidth 128, k.dst.setWidth 128, k.count.setWidth 128])

/-! Gather commands (R283, R309). -/

/-- A command block of the core space of a group's team. -/
def State.commandBlock (s : State) (g : Group) (off : Nat) : List Byte := scratchRead ((s.teamOf g).alloc + 1) (s.teamOf g).core_ off 64

/-- The offset of a start write names no whole block of the team's core space (R283, R307). -/
def State.badBlockOffset (s : State) (value : BitVec 64) : Bool :=
  value.toNat / 2 ^ 22 ≠ 0 || value.toNat % 64 ≠ 0 || s.g.id.coreBytes < value.toNat + 64

/-- Fields of a gather block: table, index, dense, count, bag size, operation, row length. -/
def gatherTable (b : List Byte) : Ptr := BitVec.ofNat 128 (blockField b 0 16)
def gatherIndex (b : List Byte) : Ptr := BitVec.ofNat 128 (blockField b 0x10 16)
def gatherDense (b : List Byte) : Ptr := BitVec.ofNat 128 (blockField b 0x20 16)
def gatherCount (b : List Byte) : Nat := blockField b 0x30 4
def gatherBag (b : List Byte) : Nat := blockField b 0x34 2
def gatherOp (b : List Byte) : Nat := bitsAt 0 3 (blockField b 0x36 1)
def gatherRow (b : List Byte) : Nat := blockField b 0x38 4

/-- The operation adds into the table (R283). -/
def gatherScatters (b : List Byte) : Bool := gatherOp b = 3 || gatherOp b = 4

/-- A breach of R309. -/
def gatherBad (b : List Byte) : Bool :=
  let e := Ptr.efmt (gatherTable b)
  let d := Ptr.efmt (gatherDense b)
  let i := Ptr.efmt (gatherIndex b)
  gatherBag b = 0 || gatherCount b % gatherBag b ≠ 0 || gatherRow b = 0 || (e = efNq4 && gatherRow b % 64 ≠ 0) || 4 < gatherOp b
    || (gatherBag b ≠ 1 && (gatherOp b = 0 || gatherScatters b))
    || !(if gatherScatters b then e = 0x11 else e = 0x14 || e = 0x13 || e = 0x11 || e = efNq4)
    || !(i = 0x0E || i = 0x0F) || !(d = 0x11 || d = 0x13 || d = 0x14)
    || blockField b 0x36 1 / 8 ≠ 0 || blockField b 0x37 1 ≠ 0

/-- Rows of the dense array (R284). -/
def gatherRows (b : List Byte) : Nat := gatherCount b / (if gatherScatters b then 1 else gatherBag b)

/-- The pointer uses of a gather command, over the whole extents (R283). -/
def gatherUses (b : List Byte) : List PtrUse :=
  let whole (n : Nat) : List Int := if n = 0 then [] else [0, (n : Int) - 1]
  [{ ptr := gatherTable b, write := gatherScatters b, elems := whole (Ptr.length (gatherTable b)) },
   { ptr := gatherIndex b, write := false, elems := whole (gatherCount b) },
   { ptr := gatherDense b, write := !gatherScatters b, dest := !gatherScatters b, elems := whole (gatherRows b * gatherRow b) }]

/-- The checks of a gather start on channel `c`, and what it captures: the command block (R283, R309). -/
def State.gatherStart (s : State) (c : Nat) (value : BitVec 64) : Except StartFault Captured :=
  if s.badBlockOffset value then .error (copyBounds (8 + c))
  else
    let b := s.commandBlock s.g value.toNat
    if gatherBad b then .error (copyBounds (8 + c))
    else match s.checkUses (8 + c) (gatherUses b) with
      | some f => .error f
      | none => .ok (packWords b)

/-! Collectives (R366). -/

/-- Fields of a collective's block. -/
def collSource (b : List Byte) : Ptr := BitVec.ofNat 128 (blockField b 0 16)
def collDest (b : List Byte) : Ptr := BitVec.ofNat 128 (blockField b 0x10 16)
def collCount (b : List Byte) : Nat := blockField b 0x20 4
def collOp (b : List Byte) : Nat := blockField b 0x28 1
def collIndex (b : List Byte) : Nat := blockField b 0x2A 2
def collDouble (b : List Byte) : Bool := Ptr.efmt (collSource b) = 0x10

/-- NLOC of a group. -/
def State.localContributors (s : State) (group : Nat) : Nat := bitsAt 64 5 (s.multicastEntry group)

/-- A breach of R366 in a collective's block. -/
def State.collBad (s : State) (b : List Byte) : Bool :=
  let e := Ptr.efmt (collSource b)
  let n := s.localContributors (collGroup b)
  !(e = 0x11 || e = 0x10) || Ptr.efmt (collDest b) ≠ e || collCount b = 0 || 2 ^ 24 < collCount b
    || blockField b 0x24 4 / 2 ^ 18 ≠ 0 || 2 < collOp b || blockField b 0x29 1 ≠ 0 || blockField b 0x2C 4 ≠ 0 || blockField b 0x3C 4 ≠ 0
    || !s.multicastValid (collGroup b) || !(s.multicastEntry (collGroup b)).testBit 36 || n = 0 || 16 < n || n ≤ collIndex b

/-- The checks of a collective start, and what it captures (R364, R366). -/
def State.collectiveStart (s : State) (value : BitVec 64) : Except StartFault Captured :=
  if s.badBlockOffset value then .error (copyBounds 12)
  else
    let b := s.commandBlock s.g value.toNat
    if s.collBad b then .error (copyBounds 12)
    else
      let ends : List Int := [0, (collCount b : Int) - 1]
      match s.checkUses 12 [{ ptr := collSource b, write := false, elems := ends }, { ptr := collDest b, write := true, dest := true, elems := ends }] with
      | some f => .error f
      | none => .ok (packWords b ++ [value.setWidth 128])

/-! The start write. -/

/-- What a write of an aperture register is (R266, R366). -/
inductive Aperture where
  | offset (channel word : Nat)
  | copy (channel : Nat)
  | gather (channel : Nat)
  | collective
  | none
  deriving DecidableEq, Repr

/-- The register at an aperture offset. -/
def apertureAt (off : Nat) : Aperture :=
  if off < 0x200 ∧ off % 8 = 0 ∧ off % 64 < 32 then (if off % 64 = 0 then .copy (off / 64) else .offset (off / 64) (off % 64 / 8))
  else if 0x400 ≤ off ∧ off < 0x500 ∧ off % 64 = 0 then .gather ((off - 0x400) / 64)
  else if off = 0x800 then .collective
  else .none

/-- A channel after a write of one of its offset registers (R307). -/
def Channel.put (k : Channel) (word : Nat) (v : BitVec 64) : Channel :=
  match word with
  | 1 => { k with src := v }
  | 2 => { k with dst := v }
  | _ => { k with count := v }

/-- The copy channels of a core. -/
def State.channels (s : State) (c : CoreId) : List Channel := (List.range 8).map (fun i => (s.core c).channels.getD i {})

/-- One register write of a start instruction, in lane order: the channels after it, and what a start captures or fails. -/
def State.startOne (s : State) (off : Nat) (value : BitVec 64) (ks : List Channel) : List Channel × Except StartFault Captured :=
  match apertureAt off with
  | .offset c word => (ks.set c ((ks.getD c {}).put word value), .ok [])
  | .copy c => (ks, s.copyStart c (ks.getD c {}) value)
  | .gather c => (ks, s.gatherStart c value)
  | .collective => (ks, s.collectiveStart value)
  | .none => (ks, .ok [])

/-- The writes of several lanes, in ascending lane order: the words captured by each start, and the failures, with their lanes. -/
def State.startLanes (s : State) : List (Nat × Nat × BitVec 64) → List Channel → List (Nat × Captured) × List (Nat × StartFault)
  | [], _ => ([], [])
  | (lane, off, v) :: rest, ks =>
    let x := s.startOne off v ks
    let y := s.startLanes rest x.1
    match x.2 with
    | .ok [] => y
    | .ok w => ((lane, w) :: y.1, y.2)
    | .error f => (y.1, (lane, f) :: y.2)

end Sys2Proof.Machine
end

