-- ==== Sys2Proof/Machine/Access.lean ====
section
/-! DEFINITION. The issue of memory accesses: shape (spec 11 R220), data (R222), checks over the lanes (01 R34, 10 R201, 11
R218, R219), parts (R224) and in-flight entries (10 R212, 18 R326, R329), and the instructions ld, st, atom, literal ld,
narrow, widen, linclr and waitp. -/
namespace Sys2Proof.Machine
open Sys2Proof

/-- The lanes of a mask, rising. -/
def maskLanes (m : Mask) : List Nat := (List.range 32).filter (fun l => m.getLsbD l)

/-- A mask from lanes. -/
def lanesMask (l : List Nat) : Mask := l.foldl (fun m i => m ||| BitVec.ofNat 32 (2 ^ i)) 0

/-! Checks over the lanes. -/

/-- One lane's access at issue: `count` elements from `index`. -/
structure LaneUse where
  lane : Nat
  ptr : Ptr
  index : Int
  count : Nat
  deriving DecidableEq, Repr

/-- Place of a cause in R34's order, from bad pointer on. -/
def causeRank (c : Nat) : Nat :=
  match c with
  | 6 => 0 | 3 => 1 | 4 => 2 | 5 => 3 | 7 => 4 | 8 => 5 | _ => 6

/-- The failure that R34 reports among lanes in rising order: the first cause, and its lowest lane. -/
def firstFailure (l : List (LaneUse × PtrFault)) : Option (LaneUse × PtrFault) :=
  l.foldl (fun best x => match best with
    | none => some x
    | some b => if causeRank x.2.cause < causeRank b.2.cause then some x else some b) none

/-- The byte ranges that element `i` takes (R28): for nq4 its byte, its superblock's scale and its block's code. -/
def elemRanges (p : Ptr) (i : Int) : List (Nat × Nat) :=
  let a := (Ptr.elemAddr p i).toNat
  if Ptr.efmt p = efNq4 then
    let sb := Ptr.base p + 8704 * (i / 16384).toNat
    [(a, 1), (sb, 4), (sb + 256 + (i % 16384).toNat / 64, 1)]
  else [(a, Ptr.size p)]

/-- The first bytes of the pages that a range touches. -/
def pageStarts (r : Nat × Nat) : List Nat :=
  if r.1 / 4096 = (r.1 + r.2 - 1) / 4096 then [r.1] else [r.1, (r.1 + r.2 - 1) / 4096 * 4096]

/-- Two failing walks of one access: a translation failure comes before a lack of rights, then the lower place (R34). -/
def firstWalk (a b : WalkFault × Nat) : WalkFault × Nat := if causeRank b.1.cause < causeRank a.1.cause then b else a

/-- Translate virtual addresses in order: their translations, or the failure that R34 reports, with its address. -/
def State.translateList (c : CoreId) (part : Nat) (r : Right) : List Nat → State → State × Except (WalkFault × Nat) (List Translation)
  | [], s => (s, .ok [])
  | va :: vas, s =>
    let x := s.translate c part va r
    let y := State.translateList c part r vas x.1
    (y.1, match x.2, y.2 with
      | .ok t, .ok ts => .ok (t :: ts)
      | .ok _, .error f => .error f
      | .error f, .ok _ => .error (f, va)
      | .error f, .error f' => .error (firstWalk (f, va) f'))

/-- Translate the elements of one lane: the pages, and the failing elements with their causes. -/
def State.translateLane (c : CoreId) (part : Nat) (r : Right) (u : LaneUse) (s : State) :
    State × List Translation × List (LaneUse × PtrFault) :=
  (List.range u.count).foldl (fun acc (k : Nat) =>
    let i : Int := u.index + (k : Int)
    match State.translateList c part r ((elemRanges u.ptr i).map pageStarts).flatten acc.1 with
    | (s, .ok ts) => (s, acc.2.1 ++ ts.filter (fun t => !acc.2.1.contains t), acc.2.2)
    | (s, .error f) => (s, acc.2.1, acc.2.2 ++ [(u, ⟨f.1.cause, BitVec.ofNat 64 f.1.extra, BitVec.ofInt 64 (Ptr.elemAddr u.ptr i)⟩)])) (s, [], [])

/-- Translate every lane of an access to global space before any effect (R201). -/
def State.translateLanes (c : CoreId) (part : Nat) (r : Right) (us : List LaneUse) (s : State) :
    State × Except (LaneUse × PtrFault) (List Translation) :=
  let x := us.foldl (fun acc u =>
    if Ptr.space u.ptr = 4 then
      let y := State.translateLane c part r u acc.1
      (y.1, acc.2.1 ++ y.2.1.filter (fun t => !acc.2.1.contains t), acc.2.2 ++ y.2.2)
    else acc) (s, [], [])
  match firstFailure x.2.2 with
  | some f => (x.1, .error f)
  | none => (x.1, .ok x.2.1)

/-- A failed pointer check of an instruction, as a precise fault (R34, R35). -/
def State.ptrFaultAt (w : Fields) (kind : AccessKind) (x : LaneUse × PtrFault) (s : State) : State :=
  s.faultAt w { cause := x.2.cause, kind := kind, pos := 1, addr := x.2.addr, extra := x.2.extra, ptr := x.1.ptr
                lane := if w.g then 0xFF else x.1.lane }

/-- A store through a multicast group that is not valid: bad-pointer bit 10 (R364). -/
def State.badMulticast (s : State) (p : Ptr) (kind : AccessKind) : Nat :=
  if Ptr.space p = 5 ∧ Ptr.scope p = 5 ∧ kind = 2 ∧ !s.multicastValid (Ptr.anchor p) then 2 ^ 10 else 0

/-- An aperture offset names a register (R266, R366). -/
def apertureRegister (off : Nat) : Bool := apertureAt off ≠ .none

/-- The checks of one lane in R34's order: R32, R218, R219, and the aperture's assigned offsets, which are pointer bounds. -/
def State.checkLane (s : State) (kind : AccessKind) (t : Option Ty) (own : Ptr → Nat) (u : LaneUse) : Option PtrFault :=
  let r := s.checkPtr s.g u.ptr u.index u.count kind t (own u.ptr ||| s.badMulticast u.ptr kind)
  if Ptr.space u.ptr = 7 ∧ r.all (fun f => f.cause = 7) then
    match ((List.range u.count).map (fun (k : Nat) => u.index + (k : Int))).find?
        (fun i => !apertureRegister (Ptr.elemAddr u.ptr i).toNat) with
    | some i => some ⟨5, BitVec.ofInt 64 u.index, BitVec.ofInt 64 (Ptr.elemAddr u.ptr i)⟩
    | none => r
  else r

/-- R126: the cause the access would raise, never taken. It names no type, so no pairing is checked. -/
def execPchk (w : Fields) (s : State) : Result :=
  s.issue (.pchk w) w (s.g.useDest w false ++ s.g.usePtr 1 w.a ++ s.useIndex w (w.modBit 2)) (fun s =>
    let kind := if w.modBit 3 then 2 else if w.modBit 5 then 3 else 1
    (s.putResult w false (fun l =>
      match s.checkLane kind none (fun _ => 0) { lane := l, ptr := s.ptrOf w.a l, index := s.elemIndex w (w.modBit 2) l, count := 2 ^ w.modBits 0 2 } with
      | some f => BitVec.ofNat 64 f.cause
      | none => 0)).finish w false)

/-! Parts and entries. -/

/-- The in-flight path of a space (R211, R218). -/
def pathOf (space : Nat) : Nat := if space = 0 then 0 else space - 1

/-- What keeps two lanes in one part (R224): the path, and the anchor of a peer or regs access. -/
def partKey (p : Ptr) : Nat × Nat :=
  (pathOf (Ptr.space p), if Ptr.space p = 5 ∨ Ptr.space p = 6 then Ptr.anchor p else 0)

/-- Insert a key in rising order, once. -/
def insertKey (k : Nat × Nat) : List (Nat × Nat) → List (Nat × Nat)
  | [] => [k]
  | x :: xs => if k = x then x :: xs else if k.1 < x.1 ∨ (k.1 = x.1 ∧ k.2 < x.2) then k :: x :: xs else x :: insertKey k xs

/-- The parts' keys, rising (R224). -/
def partKeys (ps : List Ptr) : List (Nat × Nat) := ps.foldl (fun l p => insertKey (partKey p) l) []

/-- Payload slots in use (R326). -/
def Group.slotUsed (g : Group) (n : Nat) : Bool := g.entries.any (fun e => e.slot ≤ n && n < e.slot + e.slots)

/-- The first of `k` consecutive payload slots that hold no payload (R326). -/
def Group.emptySlots (g : Group) (k : Nat) : Option Nat :=
  findFrom (fun i => i + k ≤ Config.payloadSlots && (List.range k).all (fun j => !g.slotUsed (i + j))) Config.payloadSlots 0

/-- Starts of an engine store that the engine has not accepted yet: each will need an entry of its own (R265). -/
def Entry.owedStarts (e : Entry) : Nat :=
  if e.kind = .engineStart && !e.done then (e.lanes.filter (fun a => !a.performed && e.elems a < a.data.length)).length else 0

/-- The entries, with a payload slot each, that the group's open starts will need. -/
def Group.owed (g : Group) : Nat := (g.entries.map Entry.owedStarts).foldl (· + ·) 0

/-- The payload slots in use, those reserved for starts among them (R265, R326). -/
def Group.slotsUsed (g : Group) : Nat := g.entries.foldl (fun n e => n + e.slots) 0 + g.owed

/-- The first of `k` consecutive payload slots that an access may take: one stays for each start that the engine has yet to accept (R265,
R326). -/
def Group.freeSlots (g : Group) (k : Nat) : Option Nat := if Config.payloadSlots < g.slotsUsed + k then none else g.emptySlots k

/-- The record's entries in use, those reserved for starts among them: 24 in all (R212, R265). -/
def Group.recordUsed (g : Group) : Nat :=
  (g.entries.filter (fun e => e.kind ≠ .gridgrow)).length + g.owed

/-- The tag of the group's next class-D operation (R329). -/
def State.nextTag (s : State) : BitVec 64 :=
  BitVec.ofNat 64 (s.package % 2 ^ 18 * 2 ^ 46 + s.g.id.ctx % 2 ^ 24 * 2 ^ 22 + s.g.seqD.toNat)

/-- An entry can be taken now: a record entry, payload slots, and for class D a sequence number of no live tag (R212, R329). -/
def State.canTake (s : State) (e : Entry) : Bool :=
  s.g.recordUsed < Config.inflightEntries && (s.g.freeSlots e.slots).isSome
    && !(e.cls = IdemClass.d && s.g.liveTags.contains s.nextTag)

/-- Take an entry: its slots, tag and holds (R20, R212, R326, R329). -/
def State.take (e : Entry) (s : State) : State :=
  let id := s.g.nextId
  let e := { e with id := id, slot := (s.g.freeSlots e.slots).getD 0, tag := if e.cls = IdemClass.d then s.nextTag else e.tag }
  let g := e.destRegs.foldl Group.raiseHold s.g
  let g := { g with entries := g.entries ++ [e], nextId := id + 1 }
  let g := if e.cls = IdemClass.d then { g with liveTags := e.tag :: g.liveTags, seqD := g.seqD + 1 } else g
  { s with g := g }

/-! Shape and data. -/

/-- Elements one lane touches for a count `n` of registers (R220). -/
def elemCount (n : Nat) (t : Ty) (p : Ptr) : Nat := n * perRegister (Ptr.efmt p) t

/-- Uses of `n` registers with a step, in a file (R11, R15, R131). -/
def spanUse (pos : Nat) (file : File) (num n step : Nat) (write : Bool) : RegUse :=
  match file with
  | .v => { pos := pos, file := .v, num := num, count := n * step, align := step, write := write }
  | .s => { pos := pos, file := .s, num := num, count := (n - 1) * Nat.min step 2 + 1, write := write }
  | .p => { pos := pos, file := .p, num := num, write := write }
  | .k => { pos := pos, file := .k, num := num, count := n, write := write }

/-- Register `j` of the data operand C in lane `l` (R131, R220); the bytes that a 16-byte element has above an s register or
a latch are free values, and so is what stands for a register that follows a latch (log 21). -/
def State.dataReg (s : State) (w : Fields) (step j l : Nat) : BitVec 128 :=
  if w.c.latch ∧ 0 < j then Config.freeValue 128 s.free (6144 + 32 * j + l) else
  let o := { w.c with num := w.c.num + BitVec.ofNat 8 (j * (if w.c.file = .s then Nat.min step 2 else step)) }
  if step = 4 then
    if w.c.latch || w.c.file = .s then Config.freeValue 64 s.free (2048 + 32 * j + l) ++ s.readOp .b64 o true l
    else if w.c.file = .p then s.g.readP (s.g.num o)
    else s.readOp .b64 { o with num := o.num + 2 } true l ++ s.readOp .b64 o true l
  else (s.readOp w.type o w.type.wide l).setWidth 128

/-- The number format of a register type that converts (R222). -/
def tyNum : Ty → NumFmt
  | .i32 => .int true 32 | .n32 => .int false 32 | .i64 => .int true 64 | .n64 => .int false 64
  | .f64 => .flt .f64 | _ => .flt .f32

/-- Store conversion of a register value to element `k` of its span (R222): the element and its flags. -/
def storeElem (p : Ptr) (t : Ty) (c : FCtx) (x : BitVec 128) (k : Nat) : BitVec 128 × FlagBits :=
  let n := 8 * Ptr.size p
  if 6 ≤ Ptr.space p then (BitVec.ofNat 128 (x.toNat % 2 ^ n), 0)
  else match pairing (Ptr.efmt p) t, efNum (Ptr.efmt p) with
    | some .convert, some d =>
      let r := convert (tyNum t) d c x.toNat
      (BitVec.ofNat 128 r.1, r.2)
    | some .packed, _ => (BitVec.ofNat 128 (bitsAt (n * k) n x.toNat), 0)
    | _, _ => (BitVec.ofNat 128 (x.toNat % 2 ^ n), 0)

/-- Load conversion of an element to a register value (R222). For nq4 the element carries nibble, code and scale. -/
def loadElem (p : Ptr) (t : Ty) (c : FCtx) (x : BitVec 128) : BitVec 128 × FlagBits :=
  match pairing (Ptr.efmt p) t, efNum (Ptr.efmt p) with
  | some .convert, some d =>
    let r := convert d (tyNum t) c x.toNat
    (BitVec.ofNat 128 r.1, r.2)
  | some .nq4, _ =>
    let r := nqDecode (bitsAt 0 4 x.toNat) (bitsAt 8 8 x.toNat) (bitsAt 16 32 x.toNat)
    (BitVec.ofNat 128 r.1, r.2)
  | _, _ => (x, 0)

/-- The data of one lane of a store: its elements and flags. -/
def State.storeLane (s : State) (w : Fields) (n : Nat) (u : LaneUse) : List (BitVec 128) × FlagBits :=
  let per := perRegister (Ptr.efmt u.ptr) w.type
  let step := regStep (Ptr.efmt u.ptr) w.type
  let c := FCtx.ofFmt s.g.fmt
  (List.range (n * per)).foldl (fun acc k =>
    let r := storeElem u.ptr w.type c (s.dataReg w step (k / per) u.lane) (k % per)
    (acc.1 ++ [r.1], acc.2 ||| r.2)) ([], 0)

/-! The shared issue of ld, st and atom. -/

/-- The lanes that make an access: lane 0 with G = 1, else the active, enabled ones (R132, R223). -/
def State.accessLanes (s : State) (w : Fields) : List Nat := if w.g then [0] else maskLanes (s.g.lanes w)

/-- The lanes' accesses. -/
def State.laneUses (s : State) (w : Fields) (x64 : Bool) (count : Ptr → Nat) : List LaneUse :=
  (s.accessLanes w).map (fun l =>
    let p := s.ptrOf w.a l
    { lane := l, ptr := p, index := s.elemIndex w x64 l, count := count p })

/-- The pointers of the lanes that make the access. -/
def State.lanePtrs (s : State) (w : Fields) : List Ptr := (s.accessLanes w).map (s.ptrOf w.a)

/-- The entries of an access: one for each part (R224). -/
def formParts (w : Fields) (proto : Entry) (us : List (LaneUse × List (BitVec 128))) (ts : List Translation)
    (m : Mask) : List Entry :=
  (partKeys (us.map (·.1.ptr))).map (fun k =>
    let mine := us.filter (fun u => partKey u.1.ptr = k)
    let lanes : List LaneAcc := mine.map (fun u => { lane := u.1.lane, ptr := u.1.ptr, index := BitVec.ofInt 64 u.1.index, data := u.2 })
    let kind := match (mine.head?).map (fun u => Ptr.space u.1.ptr) with
      | some 6 => EntryKind.regsStore
      | some 7 => .engineStart
      | _ => proto.kind
    { proto with
        kind := kind, path := k.1, anchor := if k.1 = 4 ∨ k.1 = 5 then k.2 else 0
        mask := if w.g then m else lanesMask (lanes.map (·.lane))
        lanes := lanes, pages := if k.1 = 3 then ts else [] })

/-- Send as many waiting parts as find room; the instruction is done when none is left (R212, R224). `whole`: parts other than
peer and regs parts wait until all of them have room. -/
def State.sendParts (s : State) : Nat → State
  | 0 => s
  | n + 1 =>
    match s.g.unsent with
    | [] => s
    | e :: rest =>
      if s.canTake e then State.sendParts ({ s with g := { s.g with unsent := rest } }.take e) n
      else s

/-- After the parts that have room are sent: the run stalls, or the instruction is done. -/
def State.partsSent (w : Fields) (s : State) : State :=
  let first := s.g.nextId
  let closes := (s.g.unsent.head?).any (·.closes)
  let s := s.sendParts s.g.unsent.length
  match s.g.unsent with
  | _ :: _ => s.stalls .record
  | [] =>
    match s.g.entries.getLast? with
    | some e => if e.id ≥ first && e.dfile ≠ .v && (e.kind = .load || e.kind = .literal || (e.kind = .atomic && e.mod.getLsbD 5))
        then s.finishBlocked w closes e.id else s.finish w closes
    | none => s.finish w closes

/-- Room for every part at once: as many record entries and payload slots, unless more parts than can ever fit (R212). -/
def State.roomFor (s : State) (es : List Entry) : Bool :=
  let slots := es.foldl (fun n e => n + e.slots) 0
  match es with
  | [] => true
  | e :: _ =>
    if es.length ≤ Config.inflightEntries ∧ slots ≤ Config.payloadSlots ∧ es.all (fun x => x.path ≠ 4 && x.path ≠ 5) then
      s.g.recordUsed + es.length ≤ Config.inflightEntries && s.g.slotsUsed + slots ≤ Config.payloadSlots && s.canTake e
    else s.canTake e

/-- Payload slots of an access (R326): indices, pointer or quad, and data; 6 at most (log 98). -/
def payloadSlots (quad : Bool) (dataBytes : Nat) : Nat := Nat.min 6 ((256 + (if quad then 512 else 16) + dataBytes + 511) / 512)

/-- The checks of an access whose registers are readable, over every lane; then `k` with its translations. `right` is what
translation must grant, `own` the caller's bad-pointer bits. -/
def State.checkAccess (w : Fields) (kind : AccessKind) (t : Option Ty) (right : Right) (us : List LaneUse) (own : Ptr → Nat)
    (k : List Translation → State → State) (s : State) : State :=
  match firstFailure (us.filterMap (fun u => (s.checkLane kind t own u).map (fun f => (u, f)))) with
  | some f => s.ptrFaultAt w kind f
  | none =>
    match State.translateLanes s.g.core s.g.id.part right us s with
    | (s, .error f) => s.ptrFaultAt w kind f
    | (s, .ok ts) => k ts s

/-- A checked access is cut into parts, which are sent; `data` are the lanes' store data and flags. -/
def State.sendAccess (w : Fields) (closes : Bool) (proto : Entry) (us : List LaneUse)
    (data : State → LaneUse → List (BitVec 128) × FlagBits) (ts : List Translation) (s : State) : State :=
  let m := s.g.lanes w
  let proto := { proto with fmt := s.g.fmt, pc := s.g.pc, instr := s.g.nextId, lane0 := lowestLane m, handler := 0 < s.g.depth
                            mod := w.mod, ty := w.ty, g := w.g, quad := w.a.file = .v, closes := closes }
  let parts := formParts w proto (us.map (fun u => (u, (data s u).1))) ts m
  if !s.roomFor parts then s.stalls .record
  else
    let flags (l : Nat) : FlagBits :=
      match us.find? (fun u => u.lane = l || w.g) with
      | some u => (data s u).2
      | none => 0
    let g := s.g.raiseFlags m flags
    let ops := if parts.any (fun e => e.path = 3 || e.path = 4) then g.memOps + 1 else g.memOps
    { s with g := { g with unsent := parts, memOps := ops } }.partsSent w

/-- The issue of an access: its checks, then its parts. -/
def State.access (w : Fields) (kind : AccessKind) (t : Option Ty) (right : Right) (closes : Bool) (proto : Entry)
    (us : List LaneUse) (own : Ptr → Nat) (data : State → LaneUse → List (BitVec 128) × FlagBits) (s : State) : State :=
  s.checkAccess w kind t right us own (fun ts s => s.sendAccess w closes proto us data ts)

/-- The register writes of an engine-space lane: offset and value of each. -/
def engineWrites (u : LaneUse) (data : List (BitVec 128)) : List (Nat × BitVec 64) :=
  (List.range u.count).map (fun (k : Nat) => ((Ptr.elemAddr u.ptr (u.index + (k : Int))).toNat, (data.getD k 0).setWidth 64))

/-- The register write starts work. -/
def startsWork (x : Nat × BitVec 64) : Bool :=
  match apertureAt x.1 with
  | .copy _ | .gather _ | .collective => true
  | _ => false

/-- The start reads a command block of core space (R309, R366). -/
def readsBlock (x : Nat × BitVec 64) : Bool :=
  match apertureAt x.1 with
  | .gather _ | .collective => true
  | _ => false

/-- Store data with what an accepted start captures beside it, lane by lane. -/
abbrev Extra := Nat → List (BitVec 128)

/-- A store whose engine-space lanes start work makes the checks of R277, R283 and R366 as part of its issue, while no earlier
engine store of a group of the core is open, so that the registers stand as its own performance finds them (R266), and for a command
block no earlier core-space store or atomic of its own group (R309). `k` sends the
store with the captured words and the command's number beside each starting lane's data; the commands join the open copy batch
(R282). Where the record has no room for a command's own entry, beside the store's own of `slots` payload slots, the run stalls (R265). -/
def State.withStarts (w : Fields) (slots : Nat) (us : List LaneUse) (data : State → LaneUse → List (BitVec 128) × FlagBits)
    (k : Extra → State → State) (s : State) : State :=
  let lanes := (us.filter (fun u => Ptr.space u.ptr = 7)).map (fun u => (u.lane, engineWrites u (data s u).1))
  if !lanes.any (fun x => x.2.any startsWork) then k (fun _ => []) s
  else if s.groups.any (fun g => g.core = s.g.core && g.entries.any (fun e => e.kind = .engineStart && !e.done)) then s.stalls .other
  else if lanes.any (fun x => x.2.any readsBlock) && s.g.entries.any (fun e => e.writes && e.path = 0 && !e.done) then s.stalls .other
  else
    let l := s.startLanes ((lanes.map (fun x => x.2.map (fun y => (x.1, y.1, y.2)))).flatten) (s.channels s.g.core)
    match firstStart l.2 with
    | some (lane, f) =>
      s.faultAt w { cause := f.cause, kind := 4, addr := f.addr, extra := f.extra, ptr := f.ptr, lane := if w.g then 0xFF else lane }
    | none =>
      let starts := l.1
      if Config.inflightEntries < s.g.recordUsed + 1 + starts.length || Config.payloadSlots < s.g.slotsUsed + slots + starts.length then s.stalls .record
      else
        let number (lane : Nat) : Nat := s.nextWork + (starts.takeWhile (fun x => x.1 ≠ lane)).length
        let t := k (fun lane => match starts.find? (fun x => x.1 = lane) with
          | some x => x.2 ++ [BitVec.ofNat 128 (number lane)]
          | none => []) s
        if t.g.nextId = s.g.nextId || t.g.id.ctx ≠ s.g.id.ctx then t
        else { t with nextWork := s.nextWork + starts.length
                      g := { t.g with openCopy := t.g.openCopy ++ starts.map (fun x => number x.1) } }

/-- A lane of the access is synchronising, so that the instruction closes its region (R317). -/
def closesRegion (us : List LaneUse) : Bool := us.any (fun u => Ptr.sync u.ptr)

/-! Instructions. -/

/-- An instruction whose parts wait for entries goes on sending them; else it issues. -/
def continueOr (w : Fields) (first : State → Result) (s : State) : Result :=
  match s.g.unsent with
  | [] => first s
  | _ => .next (s.partsSent w)

/-- The register step of an `ld` or `st` at issue: of its p register, or of the lanes' quads. While a pointer quad is held it is not known: the least step stands for it, whose
uses break R11 and R15 only where the true ones do, and the instruction stalls on the hold (R21, R220). -/
def State.issueStep (s : State) (w : Fields) : Nat :=
  if (heldRegs s.g (s.g.usePtr 1 w.a)).isEmpty then stepOf w.type (if w.a.file = .v then s.lanePtrs w else [s.ptrOf w.a 0])
  else if w.type.wide then 2 else 1

/-- The count n of ld and st (R131). -/
def countOf (w : Fields) : Nat := 2 ^ w.modBits 0 2

/-- A p register is the destination of a load, or the data of a store, of an element other than ptr or b128 (R221). -/
def wrongForP (isP : Bool) (p : Ptr) : Nat := if isP && Ptr.efmt p ≠ 0x04 && Ptr.efmt p ≠ 0x20 then 2 ^ 11 else 0

/-- R131, R132, R220 to R223. -/
def execLd (w : Fields) (s : State) : Result :=
  let step := s.issueStep w
  continueOr w (fun s =>
    s.issue (.ld w) w ([spanUse 0 w.dfile (s.g.dnum w) (countOf w) step true] ++ s.g.usePtr 1 w.a ++ s.useIndex w (w.modBit 2)) (fun s =>
      let us := s.laneUses w (w.modBit 2) (elemCount (countOf w) w.type)
      let proto : Entry := { id := 0, kind := .load, cls := .i, path := 0, dfile := w.dfile, dest := s.g.dnum w
                             slots := payloadSlots (w.a.file = .v) 0 }
      s.access w 1 (some w.type) .read false proto us (wrongForP (w.dfile = .p)) (fun _ _ => ([], 0)))) s

/-- R131, R132, R220 to R223, R226, R227. -/
def execSt (w : Fields) (s : State) : Result :=
  let step := s.issueStep w
  continueOr w (fun s =>
    s.issue (.st w) w (s.g.usePtr 1 w.a ++ s.useIndex w (w.modBit 2)
        ++ (if w.c.latch then [] else [spanUse 3 w.c.file (s.g.num w.c) (countOf w) step false])) (fun s =>
      let us := s.laneUses w (w.modBit 2) (elemCount (countOf w) w.type)
      let proto : Entry := { id := 0, kind := .store, cls := .d, path := 0
                             slots := payloadSlots (w.a.file = .v) (128 * step * (countOf w)) }
      let data (s : State) (u : LaneUse) : List (BitVec 128) × FlagBits := s.storeLane w (countOf w) u
      s.checkAccess w 2 (some w.type) .write us (wrongForP (!w.c.latch && w.c.file = .p)) (fun ts s =>
        s.withStarts w proto.slots us data (fun extra s =>
          s.sendAccess w (closesRegion us) proto us (fun s u => ((data s u).1 ++ extra u.lane, (data s u).2)) ts)))) s

/-- The types an atomic operation takes (R229). -/
def atomTypes (op : Nat) (t : Ty) : Bool :=
  let int : Bool := t = .i32 || t = .n32 || t = .i64 || t = .n64
  let flt : Bool := t = .f32 || t = .f64
  if op ≤ 3 then int
  else if op ≤ 6 || op = 8 then int || t = .b32 || t = .b64
  else if op = 7 then true
  else if op ≤ 11 then flt
  else t = .n32 || t = .n64

/-- R228 to R230. -/
def execAtom (w : Fields) (s : State) : Result :=
  let step := if w.type.wide then 2 else 1
  let op := w.modBits 0 4
  let ret := w.modBit 5
  let n := if op = 8 then 2 else 1
  continueOr w (fun s =>
    s.issue (.atom w) w ((if ret then [spanUse 0 w.dfile (s.g.dnum w) 1 step true] else []) ++ s.g.usePtr 1 w.a ++ s.useIndex w false
        ++ (if w.c.latch then [] else [spanUse 3 w.c.file (s.g.num w.c) n step false])) (fun s =>
      let us := s.laneUses w false (fun _ => 1)
      let proto : Entry := { id := 0, kind := .atomic, cls := .d, path := 0, dfile := if ret then w.dfile else .v
                             dest := if ret then s.g.dnum w else 0
                             slots := payloadSlots (w.a.file = .v) (32 * (if op = 8 then 16 else if w.type.wide then 8 else 4)) }
      s.access w 3 (some w.type) .write (closesRegion us) proto us
        (fun _ => if atomTypes op w.type then 0 else 2 ^ 11)
        (fun s u => ((List.range n).map (fun j => s.dataReg w step j u.lane), 0)))) s

/-- The implicit pointer of a literal load (R86): global, read-shared, package scope, raw format of the type's width. -/
def State.literalPtr (s : State) (wide : Bool) : Ptr :=
  Ptr.make 0 s.package (2 ^ 32 - 1) 3 (if wide then 0x03 else 0x02) 4 1 3 0

/-- R86: `n` values of the type's width from pc + 4 × IMM, read with execute permission. -/
def execLdLiteral (w : Fields) (s : State) : Result :=
  let wide := w.type.wide
  let step := if wide then 2 else 1
  let size := 4 * step
  continueOr w (fun s =>
    s.issue (.ldLiteral w) w [spanUse 0 w.dfile (s.g.dnum w) (if w.dfile = .p then 1 else (countOf w)) step true] (fun s =>
      let m := s.g.lanes w
      let a := (((s.g.pc : Int) + 4 * w.imm.toInt) % 2 ^ 52).toNat
      let fault (cause : Nat) (extra : BitVec 64) (va : Nat) (s : State) : State :=
        s.faultAt w { cause := cause, kind := 1, pos := 0xFF, addr := BitVec.ofNat 64 va, extra := extra, lane := lowestLane m }
      if a % size ≠ 0 then fault 7 (BitVec.ofNat 64 size) a s
      else
        match State.translateList s.g.core s.g.id.part .exec ((List.range (countOf w)).map (fun j => (a + j * size) % 2 ^ 52)) s with
        | (s, .error f) => fault f.1.cause (BitVec.ofNat 64 f.1.extra) f.2 s
        | (s, .ok ts) =>
          let lanes : List LaneAcc := [{ lane := 0, ptr := s.literalPtr wide, index := BitVec.ofNat 64 (a / size) }]
          let e : Entry := { id := 0, kind := .literal, cls := .i, path := 7, mod := w.mod, ty := w.ty, g := w.g, dfile := w.dfile
                             dest := s.g.dnum w, mask := m, fmt := s.g.fmt, lanes := lanes, pages := ts, pc := s.g.pc
                             instr := s.g.nextId, lane0 := lowestLane m, handler := 0 < s.g.depth }
          if !s.canTake e then s.stalls .record
          else { s with g := { s.g with unsent := [e] } }.partsSent w)) s

/-- The lowest element of a pointer whose bytes reach past the address `lim`, for a pointer whose element 0 does not (R28, R35). -/
def firstPast (p : Ptr) (lim : Nat) : Nat :=
  let x := lim - Ptr.base p
  if Ptr.efmt p = efNq4 then x / 8704 * 16384 + 2 * (x % 8704 - 512) else x / Ptr.size p

/-- `narrow` and `widen` check their pointer as a load of elements 0 to L - 1 (R231, R32), with R34's order and R35's element: the
bounds of the last element come before the alignment, which is element 0's. -/
def State.checkRange (s : State) (p : Ptr) (own : Nat) : Option PtrFault :=
  let len := Ptr.length p
  if len = 0 then (if own = 0 then none else some ⟨6, BitVec.ofNat 64 own, BitVec.ofNat 64 (Ptr.base p)⟩)
  else
    let past : Option PtrFault := (s.checkPtr s.g p ((len : Int) - 1) 1 1 none own).bind (fun f =>
      if f.cause = 5 then
        some ⟨5, 0, BitVec.ofInt 64 (Ptr.elemAddr p (firstPast p (Nat.min (2 ^ 52) (s.extent s.g (Ptr.space p))) : Nat))⟩
      else none)
    match s.checkPtr s.g p 0 1 1 none own with
    | none => past
    | some f => if f.cause = 7 then some (past.getD f) else some f

/-- The checks and the new pointer of `narrow` and `widen` (R231), then the walk's entry for global and peer space (R233). -/
def State.changeScope (w : Fields) (narrow : Bool) (s : State) : State :=
  let p := s.g.readP (s.g.num w.a)
  let sc := w.immBits 0 3
  let own := (if 6 ≤ Ptr.space p then 2 ^ 10 else 0)
    ||| (if (if narrow then Ptr.scope p < sc else sc < Ptr.scope p) then 2 ^ 12 else 0)
  let u : LaneUse := { lane := 0, ptr := p, index := 0, count := 1 }
  match s.checkRange p own with
  | some f => s.ptrFaultAt w 1 (u, f)
  | none =>
    let pages := if Ptr.space p = 4 ∧ Ptr.length p ≠ 0 then
        State.translateList s.g.core s.g.id.part (if narrow then .read else .write) [Ptr.base p] s
      else (s, .ok [])
    match pages with
    | (s, .error f) => s.ptrFaultAt w 1 (u, ⟨f.1.cause, BitVec.ofNat 64 f.1.extra, BitVec.ofInt 64 (Ptr.elemAddr p 0)⟩)
    | (s, .ok ts) =>
      let new := if sc = Ptr.scope p then p else Ptr.set (Ptr.set p 115 3 sc) 52 18 (s.anchorFor s.g sc)
      let cached : Bool := (Ptr.space p = 4 ∨ Ptr.space p = 5) ∧ Ptr.length p ≠ 0
      let e : Entry := { id := 0, kind := .scopeWalk, cls := .i, path := pathOf (Ptr.space p), mod := w.mod, ty := w.ty, g := true
                         dfile := .p, dest := s.g.dnum w, anchor := if Ptr.space p = 5 then Ptr.anchor p else 0, mask := s.g.lanes w
                         fmt := s.g.fmt, lanes := [{ lane := 0, ptr := p, index := 0 }], pages := ts, pc := s.g.pc
                         imm := if narrow then 8 else sc, instr := s.g.nextId, lane0 := lowestLane (s.g.lanes w) }
      if cached && !s.canTake e then s.stalls .record
      else
        let s := s.putPtr w (fun _ => new)
        (if cached then s.take e else s).finish w false

def execNarrow (w : Fields) (s : State) : Result :=
  s.issue (.narrow w) w (s.g.useDestPtr w ++ s.g.usePtr 1 w.a) (fun s => s.changeScope w true)
def execWiden (w : Fields) (s : State) : Result :=
  s.issue (.widen w) w (s.g.useDestPtr w ++ s.g.usePtr 1 w.a) (fun s => s.changeScope w false)

/-- R234: one 128-byte line, written at its home with the words of every lane of C. -/
def execLinclr (w : Fields) (s : State) : Result :=
  s.issue (.linclr w) w (s.g.usePtr 1 w.a ++ s.useIndex w true ++ s.g.useOf 3 w.c false) (fun s =>
    let p := s.ptrOf w.a 0
    let u : LaneUse := { lane := 0, ptr := p, index := s.elemIndex w true 0, count := 1 }
    let a := Ptr.elemAddr p u.index
    let checked := match s.checkPtr s.g p u.index 1 2 none (if Ptr.space p = 4 then 0 else 2 ^ 10) with
      | some f => if f.cause = 7 then some { f with extra := 128 } else some f
      | none => if a % 128 ≠ 0 then some ⟨7, 128, BitVec.ofInt 64 a⟩ else none
    match checked with
    | some f => s.ptrFaultAt w 2 (u, f)
    | none =>
      match State.translateLanes s.g.core s.g.id.part .write [u] s with
      | (s, .error f) => s.ptrFaultAt w 2 f
      | (s, .ok ts) =>
        let data := (List.range 32).map (fun l => (s.readOp .b32 w.c false l).setWidth 128)
        let e : Entry := { id := 0, kind := .linclr, cls := .d, path := 3, slots := payloadSlots (w.a.file = .v) 128, mod := w.mod
                           ty := w.ty, g := true, quad := w.a.file = .v, mask := s.g.lanes w, fmt := s.g.fmt
                           lanes := [{ lane := 0, ptr := p, index := BitVec.ofInt 64 u.index, data := data }], pages := ts
                           pc := s.g.pc, instr := s.g.nextId, lane0 := lowestLane (s.g.lanes w) }
        if !s.canTake e then s.stalls .record else (s.take e).finish w false)

/-- The in-flight counter of a path (R211). -/
def Group.counter (g : Group) (path : Nat) : Nat := (g.entries.filter (fun e => e.counted && e.path = path)).length

/-- The limit of `waitp` (R235). -/
def State.waitLimit (s : State) (w : Fields) : Nat := if w.modBit 5 then w.immBits 8 8 else (s.readOp .n64 w.a true 0).toNat

/-- R235: a satisfied wait ends; an unsatisfied one leaves the group waiting at its pc, not eligible (R78). -/
def execWaitp (w : Fields) (s : State) : Result :=
  s.issue (.waitp w) w (if w.modBit 5 then [] else s.g.useOf 1 w.a true) (fun s =>
    if s.g.counter (w.immBits 0 3) ≤ s.waitLimit w then s.finish w false else { s with g := s.g.stopRun })

end Sys2Proof.Machine
end

