-- ==== Sys2Proof/Machine/Shadow.lean ====
section
/-! DEFINITION. Shadowed groups (spec 18 R334 to R336): the two sides' registers, the load-value queue and the compare buffer. The shadow
works out each instruction as its leader issues it; when its quarter lets what it produces get to the comparison is open (log 15). -/
namespace Sys2Proof.Machine
open Sys2Proof

/-! The load-value queue (R334). -/

/-- The queue entries of a result: a pair takes two, in a vector register of every lane; a uniform value takes one. -/
def Fields.queued (w : Fields) (wide : Bool) : Nat := if w.dfile = .v && wide then 2 else 1

/-- The queue entries that an instruction's own result takes (R334, R349, R353); those of what it sends are `Entry.queued`. -/
def queuedBy : Instr → Nat
  | .rdclk w | .rdsr w | .rdsrMgmt w | .myname w => Fields.queued w true
  | .rdid w | .pollpre w | .barTry w | .acalloc w => Fields.queued w false
  | .acrd w => Fields.queued w false * 2 ^ (w.mod.toNat % 4)
  | .ifread _ => 1
  | _ => 0

/-- The queue entries of what a load, an atomic, a `gridgrow` or a name question returns. -/
def Entry.queued (e : Entry) : Nat :=
  let each := if e.dfile = .v && e.type.wide then 2 else 1
  match e.kind with
  | .load | .literal => 2 ^ (e.mod.toNat % 4) * each
  | .atomic => if e.mod.getLsbD 5 then each else 0
  | .nameInfo | .gridgrow => 1
  | _ => 0

/-- Capacity of the load-value queue (R335). -/
def queueSize : Nat := 256

/-- The entries of a part of the queue, one for each register. -/
def queueLength (q : List QueueEntry) : Nat := (q.map (·.size)).foldl (· + ·) 0

/-- Entries that the shadow has not consumed. -/
def Shadow.unread (x : Shadow) : Nat := queueLength (x.queue.filter (fun q => !q.taken))

/-- The oldest consumed entries go when there are more than 256. -/
def trimQueue : List QueueEntry → List QueueEntry
  | [] => []
  | q :: rest => if queueSize < queueLength (q :: rest) && q.taken then trimQueue rest else q :: rest

/-- The leader has filled it: an instruction's own result at once, the others when a part of the access has come. -/
def QueueEntry.filled (q : QueueEntry) : Bool := q.instr % 2 = 0 || !q.parts.isEmpty

/-- The shadow consumes the queue's entries of instructions before one: they are kept until the region's closing operation is released; the
oldest go when there are more than 256, and mark the region (R335). -/
def Shadow.consume (before : Nat) (x : Shadow) : Shadow :=
  let queue := x.queue.map (fun q => if q.instr < before && q.filled then { q with taken := true } else q)
  let kept := trimQueue queue
  { x with queue := kept, overflow := x.overflow || decide (kept.length < queue.length) }

/-- The region's closing operation is released. -/
def Shadow.closeRegion (x : Shadow) : Shadow := { x with queue := x.queue.filter (fun q => !q.taken), overflow := false, stale := false }

/-- The order of an instruction's own result among the in-flight entries, and of an access (R334). -/
def resultOrder (nextId : Nat) : Nat := 2 * nextId
def accessOrder (id : Nat) : Nat := 2 * id + 1

/-- What the leader's instruction `w` has written, for the shadow: `n` registers, and the latch. -/
def Group.queueResult (w : Fields) (n : Nat) (g : Group) : QueueEntry :=
  { instr := resultOrder g.nextId, region := g.regionCount, size := n
    lanes := if w.dfile = .v then (List.range n).map (fun j => rd (VReg.splat 0) g.v (g.dnum w + j)) else []
    uniform := match w.dfile with
      | .s => (g.readS (g.dnum w)).setWidth 128
      | .k => (g.readK (g.dnum w)).setWidth 128
      | .p => g.readP (g.dnum w)
      | .v => 0
    latch := rd (Vector.replicate 32 none) g.lat w.cap.toNat }

/-- A side takes such a result in the place of its own. -/
def Group.takeResult (w : Fields) (q : QueueEntry) (g : Group) : Group :=
  let d := g.dnum w
  let m := g.lanes w
  let g' := if w.n then g
    else match w.dfile with
      | .v => (List.range q.lanes.length).foldl (fun g j => g.writeVMask (d + j) m (fun l => rd 0 (q.lanes.getD j (VReg.splat 0)) l)) g
      | .s => g.writeS d (q.uniform.setWidth 64)
      | .k => g.writeK d (q.uniform.setWidth 32)
      | .p => g.writeP d q.uniform
  { g' with lat := wr g'.lat w.cap.toNat q.latch }

/-! The compare buffer (R335). -/

/-- The operations that wait in it: class D, private stores among them. -/
def Entry.compared (e : Entry) : Bool := e.cls = .d

/-- What two operations must agree on, bit for bit: kind, pointers and indices, lane mask, data, captured fmt and tag. -/
def Entry.sameAs (a b : Entry) : Bool :=
  let lane (l : LaneAcc) : Nat × Ptr × BitVec 64 × List (BitVec 128) := (l.lane, l.ptr, l.index, l.data)
  a.kind = b.kind && a.mod = b.mod && a.ty = b.ty && a.mask = b.mask && a.fmt = b.fmt && a.tag = b.tag && a.imm = b.imm && a.anchor = b.anchor
    && a.lanes.map lane = b.lanes.map lane

/-- Two operations are the same, part by part. -/
def sameOperation : List Entry → List Entry → Bool
  | [], [] => true
  | a :: as, b :: bs => a.sameAs b && sameOperation as bs
  | _, _ => false

/-- The leader is held (R335); it is between two runs (R80). -/
def Group.shadowFull (g : Group) : Bool := g.shadow.any (fun x => 64 ≤ x.compare.length || queueSize ≤ x.unread)

/-- Both sides have stopped at a disagreement (R336). -/
def Group.stoppedApart (g : Group) : Bool := g.shadow.any (·.stopped)

/-- A decider run is under way. -/
def Group.deciding (g : Group) : Bool := g.shadow.any (·.decider.isSome)

/-- The entry stands in the compare buffer, or its instruction is still being sent (R335). -/
def Group.compares (g : Group) (e : Entry) : Bool :=
  g.shadow.any (fun x => e.compared && (x.seen ≤ e.id || x.compare.any (fun c => c.instr = e.instr)))

/-- The shadow's region, as a side stands in it. -/
def RegionStart.at_ (r : SideRegs) (x : RegionStart) : RegionStart :=
  if x.count = r.regionCount && x.pc = r.regionPc then x
  else { pc := r.regionPc, count := r.regionCount, seqD := r.seqD, gridgrows := r.gridgrows, ops := 0 }

/-- An instruction that the leader has issued and what the shadow has made of it (R334, R335): the queue's entries, the shadow's own parts that
wait for values, and the operations of both in the compare buffer with what each side holds after it. `own`: the result that the leader's
instruction brought itself. `start`: the region in which the shadow issued it. -/
def Group.observed (own : Option QueueEntry) (closes : Bool) (after : SideRegs) (start : RegionStart) (made : List Entry) (g : Group)
    (x : Shadow) : Shadow :=
  let new := g.entries.filter (fun e => x.seen ≤ e.id)
  let returns := new.filter (fun e => 0 < e.queued)
  let sent : List QueueEntry := match returns with
    | e :: _ => [{ instr := accessOrder e.instr, region := start.count, size := e.queued }]
    | [] => []
  let ours := new.filter Entry.compared
  let theirs := made.filter Entry.compared
  let x := { x with seen := g.nextId, now := some after, queue := x.queue ++ (own.map (fun (q : QueueEntry) => { q with region := start.count })).toList ++ sent
                    wants := x.wants ++ (returns.map (·.id)).zip (made.filter (fun e => 0 < e.queued))
                    start := if theirs.isEmpty then start else { start with ops := start.ops + 1 } }
  if !ours.isEmpty || !theirs.isEmpty then
    { x with compare := x.compare ++ [{ instr := ((ours.head?).map (·.instr)).getD g.nextId, closes := closes, ours := ours, theirs := theirs,
                                        leader := g.side, shadow := after, start := start }] }
  else if !closes then x
  else if x.compare.isEmpty then (x.consume (accessOrder g.nextId)).closeRegion
  else { x with compare := x.compare.dropLast ++ (x.compare.getLast?.map (fun (c : Compared) => { c with closes := true })).toList }

/-- The shadow gets on by at most `n` operations: each is released when both sides' are the same, and stops both sides when they differ; past
the last one the shadow consumes what the queue holds (R335, R336). -/
def Shadow.advance : Nat → Shadow → Shadow
  | 0, x => x
  | n + 1, x =>
    match x.compare with
    | [] => x.consume (accessOrder x.seen)
    | c :: cs =>
      let x := x.consume (accessOrder c.instr)
      if !sameOperation c.ours c.theirs then { x with stopped := true }
      else
        let y := { x with compare := cs }
        Shadow.advance n (if c.closes then y.closeRegion else y)

/-- The shadows on a quarter get a run: how far it takes them is open (log 15). -/
def State.shadowRuns (c : CoreId) (q : Nat) (s : State) : State :=
  let step (g : Group) : Group :=
    match g.shadow with
    | some x =>
      if g.core = c && x.quarter = q && g.status ≠ .saved && !x.stopped then { g with shadow := some (x.advance (Config.freeChoice s.free 14 % 65)) } else g
    | none => g
  { s with g := step s.g, gs := s.gs.map step }

/-! What comes to a group. -/

/-- A change that comes to both sides alike: what they hold after the operations of the compare buffer has it too. -/
def Group.mirror (f : Group → Group) (g : Group) : Group :=
  match g.shadow with
  | none => f g
  | some x =>
    let on (r : SideRegs) : SideRegs := (f (g.withSide r)).side
    { f g with shadow := some { x with now := x.now.map on
                                       compare := x.compare.map (fun c => { c with leader := on c.leader, shadow := on c.shadow }) } }

/-- What a part of the leader returns comes to its registers, and by the load-value queue to those of the shadow's own part (R334). -/
def Group.deliver (e : Entry) (f : Entry → Group → Group) (g : Group) : Group :=
  match g.shadow with
  | none => f e g
  | some x =>
    let on (r : SideRegs) : SideRegs := (f e (g.withSide r)).side
    let other (r : SideRegs) : SideRegs := match x.wants.find? (fun w => w.1 = e.id) with
      | some w => (f { w.2 with lanes := e.lanes } (g.withSide r)).side
      | none => r
    let later (c : Compared) : Compared := if e.instr < c.instr then { c with leader := on c.leader, shadow := other c.shadow } else c
    { f e g with shadow := some { x with
        now := x.now.map other, compare := x.compare.map later, wants := x.wants.filter (fun w => w.1 ≠ e.id)
        queue := modifyFirst (fun q => q.instr = accessOrder e.instr) (fun q => { q with parts := q.parts ++ [e] }) x.queue } }

/-! The decider's outcome (R336). -/

/-- A group goes on behind an operation with what a side holds there: what it sent later is given up with its holds. -/
def Group.rollTo (instr : Nat) (r : SideRegs) (g : Group) : Group :=
  let later := g.entries.filter (fun e => instr < e.instr && e.cls ≠ .c)
  let tags := (later.filter Entry.compared).map (·.tag)
  let g := later.foldl (fun g e => e.unhold g) (g.withSide r).stopRun
  { g with entries := g.entries.filter (fun e => !(later.any (fun x => x.id = e.id))), pending := .none
           liveTags := g.liveTags.filter (fun t => !tags.contains t) }

/-- The shadow's operation stands in the record in the place of the leader's. -/
def Group.replaceOperation (c : Compared) (g : Group) : Group :=
  let n := g.nextId
  let put (k : Nat) (e : Entry) : Entry := match c.ours[k]? with
    | some o => { e with id := o.id, instr := c.instr, slot := o.slot, slots := o.slots }
    | none => { e with id := n + k, instr := c.instr }
  { g with entries := g.entries.filter (fun e => !(c.ours.any (fun o => o.id = e.id))) ++ c.theirs.zipIdx.map (fun x => put x.2 x.1)
           nextId := n + c.theirs.length, liveTags := g.liveTags ++ (c.theirs.map (·.tag)).filter (fun t => !g.liveTags.contains t) }

/-- The oldest operation is released as one side has it, and both sides resume together at the instruction after it. -/
def Group.settle (c : Compared) (leader : Bool) (x : Shadow) (g : Group) : Group :=
  let r := if leader then c.leader else c.shadow
  let g := (if leader then g else g.replaceOperation c).rollTo c.instr r
  let y := { x with now := some g.side, compare := [], stopped := false, decider := none, seen := g.nextId
                    wants := x.wants.filter (fun w => w.1 < c.instr), queue := x.queue.filter (fun q => q.instr ≤ accessOrder c.instr) }
  { g with shadow := some (if c.closes then y.closeRegion else y) }

/-- The extra data of cause 20 when the decider cannot settle a disagreement: bit 0 neither side's operation, bit 1 the region overflowed; of a
region that began before the group's last restore which bit is open (R36, R336, log 31). -/
def Shadow.unsettled (x : Shadow) (neither : Bool) (free : Nat) : Option Nat :=
  if neither || x.overflow then some (neither.toNat + 2 * x.overflow.toNat)
  else if x.stale then some (1 + Config.freeChoice free 4 % 2)
  else none

end Sys2Proof.Machine
end

