-- ==== Sys2Proof/Machine/Perform.lean ====
section
/-! DEFINITION. How accesses are performed: the order rules within a group (spec 11 R233, R236, 12 R246, R253), elements
read and written in each space (10 R193 to R195, R204, R205), synchronising accesses (12 R241, R247 to R252), atomics (11
R229, R230), suppression (18 R330), loads that land, completion and retirement (10 R211, 18 R328 to R331), and failures
after issue (01 R34). An event that cannot yet take effect starts what it needs and leaves the entry pending (log 16). -/
namespace Sys2Proof.Machine
open Sys2Proof

/-! Entries. -/

/-- The entry brings data to registers. -/
def Entry.loads (e : Entry) : Bool := e.kind = .load || e.kind = .literal || e.kind = .atomic

/-- Releases: synchronising stores and atomics, regs and engine stores, arrivals (R226, R227, R241, R302). -/
def Entry.isRelease (e : Entry) : Bool :=
  match e.kind with
  | .store | .atomic | .linclr => e.sync
  | .regsStore | .engineStart | .localArrival | .remoteArrival => true
  | _ => false

/-- Acquires: synchronising loads and atomics (R241). -/
def Entry.isAcquire (e : Entry) : Bool := e.sync && (e.kind = .load || e.kind = .atomic)

/-- The union of an entry's drain masks; every colour for an arrival (R302). -/
def Entry.drainMask (e : Entry) : BitVec 8 :=
  if e.lanes.isEmpty then 0xFF
  else e.lanes.foldl (fun m a => if Ptr.sync a.ptr then m ||| BitVec.ofNat 8 (Ptr.colour a.ptr) else m) 0

/-- The home line of a peer access of this module's own memory, with PCHK and TSO of its leaf, or why it cannot be reached yet or at all. -/
inductive PeerHome where
  | line (n : Nat) (pchk tso : Bool)
  | refused
  | parked (cause extra : Nat)
  deriving DecidableEq, Repr

/-- Where an access to this package's own memory through peer space goes (R259, R359): refused without PEER, parked while its
page fails (log 20). -/
def State.ownPeer (s : State) (part va : Nat) (r : Right) : PeerHome :=
  if !(s.reg (partBlock part + 0xA0)).getLsbD 0 then .refused
  else match s.walk part va r with
    | .ok (t, _) => .line ((t.frame + va % 4096) / 128) t.pchk t.tso
    | .error f => .parked f.cause f.extra

/-- The byte at a virtual address of a lane lies on a total-store-order page, of global space or of this module's own peer space (R253). -/
def State.tsoAt (s : State) (part : Nat) (e : Entry) (p : Ptr) (va : Nat) : Bool :=
  if Ptr.space p = 4 then (e.page va).tso
  else if Ptr.space p = 5 ∧ Ptr.anchor p = s.package then
    match s.ownPeer part va .read with
    | .line _ _ tso => tso
    | _ => false
  else false

/-- Some element of a plain lane of a context's entry lies on a total-store-order page (R253). -/
def State.tso (s : State) (part : Nat) (e : Entry) : Bool :=
  e.lanes.any (fun a => !Ptr.sync a.ptr && (Ptr.space a.ptr = 4 || Ptr.space a.ptr = 5)
    && (List.range (e.elems a)).any (fun k => s.tsoAt part e a.ptr (a.va k) || s.tsoAt part e a.ptr (a.va k + Ptr.size a.ptr - 1)))

/-- The pieces of a virtual byte range that lie in one page each: address and length. -/
def pagePieces (a n : Nat) : List (Nat × Nat) :=
  if n = 0 then [] else if a / 4096 = (a + n - 1) / 4096 then [(a, n)] else [(a, 4096 - a % 4096), (a / 4096 * 4096 + 4096, n - (4096 - a % 4096))]

/-- The bytes an entry touches, as (space, first, length); global bytes by physical address. -/
def Entry.touches (e : Entry) : List (Nat × Nat × Nat) :=
  match e.kind with
  | .load | .store | .atomic =>
    (e.lanes.map (fun a => ((List.range (e.elems a)).map (fun k =>
      let va := a.va k
      let sp := Ptr.space a.ptr
      if sp = 4 then (pagePieces va (Ptr.size a.ptr)).map (fun x => (sp, e.phys x.1, x.2))
      else [(sp, (if sp = 5 then Ptr.anchor a.ptr * 2 ^ 53 + va else if sp = 0 then a.lane * 2 ^ 53 + va else va), Ptr.size a.ptr)])).flatten)).flatten
  | .linclr => e.lanes.map (fun a => (4, e.phys (a.va 0), 128))
  | _ => []

/-- Two byte ranges meet. -/
def meets (a b : Nat × Nat × Nat) : Bool := a.1 = b.1 && a.2.1 < b.2.1 + b.2.2 && b.2.1 < a.2.1 + a.2.2

/-- A store or atomic that a release with mask `m` covers (R244): a synchronising one, one whose colour is in the mask, or one
to a total-store-order page. -/
def Entry.coveredBy (e : Entry) (tso : Bool) (m : BitVec 8) : Bool :=
  e.writes && (e.sync || tso || e.kind = .linclr || e.lanes.any (fun a => m.getLsbD (Ptr.colour a.ptr % 8)))

/-- The later entry `e` must wait for the earlier entry `x` (R133, R233, R236, R246, R253). `tso` says which entries go to a total-store-order
page. -/
def mustWait (tso : Entry → Bool) (x e : Entry) : Bool :=
  let open_ := !x.performed
  (open_ && x.isAcquire)
    || (open_ && (x.sync || x.isRelease) && (e.sync || e.isRelease))
    || (e.isRelease && !x.done && x.loads)
    || (e.isRelease && open_ && x.coveredBy (tso x) e.drainMask)
    || (open_ && (x.writes || e.writes) && x.touches.any (fun a => e.touches.any (meets a)))
    || (open_ && x.path = 0 && e.path = 0)
    || (open_ && tso x && tso e && !(x.writes && !x.loads && !e.writes))
    || (open_ && x.kind = .scopeWalk && (e.loads || e.kind = .scopeWalk) && x.path = e.path)
    || (open_ && e.kind = .scopeWalk && x.path = e.path && (x.writes || x.kind = .load))

/-- The entries before an entry. -/
def entriesBefore (id : Nat) : List Entry → List Entry
  | [] => []
  | e :: es => if e.id = id then [] else e :: entriesBefore id es

/-- No earlier entry of the group, and no compare buffer, holds the entry back. -/
def State.mayPerform (s : State) (g : Group) (e : Entry) : Bool :=
  !g.compares e && (entriesBefore e.id g.entries).all (fun x => !mustWait (s.tso g.id.part) x e)

/-- The uniform result of an entry has been written: the run goes on, or ends when its last instruction waited (R80); past the deadline of
a pre-emption request it stays stalled and is rolled back (R319). -/
def State.resumeRun (ctx id : Nat) (s : State) : State :=
  s.onCtx ctx (fun s =>
    if s.g.stall = .uniform id && !s.g.overdue s.time then
      let g := { s.g with stall := .none }
      if g.running && g.ibuf.isEmpty then State.boundary { s with g := g.completeRun } else { s with g := g }
    else s)

/-! Failures after issue. -/

/-- A target without a usable port is declared lost, and the requests to it fail (R362, R363). -/
def State.noteLost (p : Nat) (s : State) : State := if s.losesHome p then s.declareLost p else s

/-- A part fails; for want of a port with the loss of its target (R362). -/
def State.failEntry (ctx : Nat) (e : Entry) (cause : Nat) (extra : BitVec 64) (s : State) : State :=
  if (s.group ctx).status ≠ .saved ∧ cause = 18 then (s.failPart ctx e cause extra).noteLost e.anchor
  else s.failPart ctx e cause extra

/-- Poison was consumed (R215): cause 10, or a kill with reason 3 when the leaf has PCHK = 0. -/
def State.poisoned (ctx : Nat) (e : Entry) (pchk : Bool) (s : State) : State :=
  if pchk then s.failEntry ctx e 10 0
  else if (s.group ctx).status = .saved then s else s.killCtx ctx 3

/-! Scratchpad spaces. -/

/-- The cluster of a group. -/
def State.clusterOf (s : State) (g : Group) : Cluster :=
  (s.clusters.find? (fun c => c.launch = g.id.launch && c.cluster = g.id.cluster)).getD { launch := g.id.launch, cluster := g.id.cluster }

/-- The address of lane-space byte `a` of a lane within its team's lane slices (R193). -/
def laneSpot (g : Group) (lane a : Nat) : Nat := (g.id.member * 32 + lane) * g.id.laneBytes + a

/-- The core that holds cluster-space byte `a` (R194). -/
def State.clusterCore (s : State) (g : Group) (a : Nat) : CoreId :=
  let c := (a / 4096) % (g.id.width * g.id.height)
  ⟨g.place.die, (s.clusterOf g).site + c / g.id.width * 10 + c % g.id.width⟩

/-- The chip-scratchpad byte of chip-space byte `a` on a group's die (R195); dies follow one another in the model. -/
def State.chipSpot (s : State) (g : Group) (a : Nat) : Nat :=
  g.place.die * 2 ^ 26 + 65536 * s.regField (partBlock g.id.part + 0xC0 + 8 * g.place.die) 0 10 + a

/-- Read bytes of a scratchpad space, with poison for chip space (R193 to R195, R215). -/
def State.readLocal (s : State) (g : Group) (space lane a n : Nat) : List Byte × Bool :=
  match space with
  | 0 => (scratchRead (s.teamOf g).alloc (s.teamOf g).lane (laneSpot g lane a) n, false)
  | 1 => (scratchRead ((s.teamOf g).alloc + 1) (s.teamOf g).core_ a n, false)
  | 2 => (scratchRead (s.clusterOf g).alloc (s.clusterOf g).mem a n, false)
  | _ =>
    let x := s.chipSpot g a
    (memRead s.chip x n, (List.range n).any (fun i => s.chipPoison.contains ((x + i) / 8)))

/-- Write bytes of a scratchpad space. -/
def State.writeLocal (g : Group) (space lane a : Nat) (bs : List Byte) (s : State) : State :=
  match space with
  | 0 => s.modTeam g (fun t => { t with lane := scratchWrite t.lane (laneSpot g lane a) bs })
  | 1 => s.modTeam g (fun t => { t with core_ := scratchWrite t.core_ a bs })
  | 2 =>
    let put (c : Cluster) : Cluster := { c with mem := scratchWrite c.mem a bs }
    { s with clusters := modifyFirst (fun c => c.launch = g.id.launch && c.cluster = g.id.cluster) put s.clusters }
  | _ => { s with chip := memWrite s.chip (s.chipSpot g a) bs }

/-! Global and peer bytes. -/

/-- The pieces of a virtual byte range that lie in one line each: address and length. -/
def linePieces (a n : Nat) : List (Nat × Nat) :=
  if n = 0 then [] else if a / 128 = (a + n - 1) / 128 then [(a, n)] else [(a, 128 - a % 128), (a / 128 * 128 + 128, n - (128 - a % 128))]

/-- The bytes `n` from byte `off` of a line. -/
def lineSlice (d : LineData) (off n : Nat) : List Byte := (List.range n).map (fun i => lineByte d (off + i))

/-- The L1 name of a plain or read-shared global line. -/
def globalKey (line : Nat) : LineKey := { peer := none, part := 0, line := line }

/-- The L1 name of a peer line. -/
def peerKey (g : Group) (p : Ptr) (va : Nat) : LineKey := { peer := some (Ptr.anchor p), part := g.id.part, line := va / 128 }

/-- A piece read, with the PCHK of poison met; none when it cannot be read yet. -/
abbrev Piece := Option (List Byte × Option Bool)

/-- Read a piece of a plain or read-shared global line (R204, R205, R253, R385). -/
def State.readGlobal (g : Group) (e : Entry) (p : Ptr) (va n : Nat) (s : State) : State × Piece :=
  let t := e.page va
  let line := e.phys va / 128
  let give (d : LineData) (poison : Bool) : Piece := some (lineSlice d (va % 128) n, if poison then some t.pchk else none)
  match s.l1Hit g.core (globalKey line) (byteRange (va % 128) n) (Ptr.cls p = 1) (1 ≤ Ptr.scope p), t.tso || s.uncached g.core line with
  | some l, false => (s.l1Put g.core l, give l.data l.poison)
  | _, true =>
    let r := s.homeRead line
    (r.1, match r.2 with | some d => give (s.blur line d.1) d.2 | none => none)
  | none, false =>
    let own := s.l1Find g.core (globalKey line)
    if s.flushing line then
      let r := s.homeRead line
      (r.1, match r.2, own with
        | some d, some l => give (mergeLine (s.blur line d.1) l.data l.valid) (d.2 || l.poison)
        | some d, none => give (s.blur line d.1) d.2
        | none, _ => none)
    else
      let r := s.sliceRead (agentOf g.core.die line) line
      match r.2 with
      | none =>
        (r.1.holdFill (agentOf g.core.die line) line { core := g.core, shared := Ptr.cls p = 1, wide := decide (1 ≤ Ptr.scope p), vline := va / 128, part := g.id.part }, none)
      | some d =>
        let f := r.1.l1Fill g.core (globalKey line) (s.blur line d.1) d.2 (Ptr.cls p = 1) (1 ≤ Ptr.scope p) (va / 128) g.id.part
        if f.2 then
          match f.1.l1Find g.core (globalKey line) with
          | some l => (f.1, give l.data l.poison)
          | none => (f.1, give d.1 d.2)
        else (f.1, none)

/-- What an attempt at an element comes to. -/
inductive Attempt where
  /-- Performed: the element, with the PCHK of poison met. -/
  | got (x : BitVec 128) (poison : Option Bool)
  /-- Not yet; the entry may have been changed (drains sent, request sent). -/
  | wait
  | failed (cause : Nat) (extra : BitVec 64)
  deriving DecidableEq, Repr

/-- Bytes as a value, lowest first. -/
def bytesValue (bs : List Byte) : BitVec 128 := BitVec.ofNat 128 (leNat bs)
/-- The low `n` bytes of a value. -/
def valueBytes (x : BitVec 128) (n : Nat) : List Byte := leBytes n x.toNat

/-- The PCHK of poison met at either of two places: poison of a page with PCHK = 0 kills (R215). -/
def worsePoison (x y : Option Bool) : Option Bool :=
  match x, y with
  | some false, _ => some false
  | _, some false => some false
  | some true, _ => some true
  | none, z => z

/-- Read pieces in order, all of which must be readable. -/
def readPieces (rd_ : Nat → Nat → State → State × Piece) : List (Nat × Nat) → State → State × Piece
  | [], s => (s, some ([], none))
  | (a, n) :: rest, s =>
    match rd_ a n s with
    | (s, none) => (s, none)
    | (s, some x) =>
      match readPieces rd_ rest s with
      | (s, none) => (s, none)
      | (s, some y) => (s, some (x.1 ++ y.1, worsePoison x.2 y.2))

/-- The request that lanes of a part make of another module (R359). -/
def Entry.requestOf (s : State) (g : Group) (e : Entry) (lanes : List LaneAcc) : PeerReq :=
  { source := s.package, part := g.id.part
    kind := match e.kind with | .load => 0 | .atomic => 2 | .regsStore => 3 | .nameInfo => 4 | _ => 1
    op := e.mod, ty := e.ty, sync := lanes.any (fun a => Ptr.sync a.ptr)
    colour := BitVec.ofNat 8 (((lanes.head?).map (fun a => Ptr.colour a.ptr)).getD 0)
    tag := e.tag, debug := g.id.overlapDebug
    lanes := (lanes.map (fun a => ((List.range (e.elems a)).map (fun k => (elemRanges a.ptr (a.elem k)).map (fun x =>
      ({ lane := a.lane, va := x.1, size := x.2, data := a.data.getD k 0, data2 := a.data.getD 1 0 } : PeerLane)))).flatten)).flatten }

/-- The request of a part to the module of its ANCHOR. -/
def Entry.request (s : State) (g : Group) (e : Entry) : PeerReq := e.requestOf s g (e.lanes.filter (fun a => !a.tree))

/-- The request of a part is sent once (R356, R360). -/
def State.sendRequest (g : Group) (e : Entry) (s : State) : State × Entry :=
  if e.sentAt.isSome then (s, e)
  else
    let port := (s.route e.anchor 0).getD 0
    ({ s with out := .request port e.anchor (e.request s g) :: s.out }, { e with sentAt := some s.time, heardAt := s.time })

/-- The words of a response for one element: one, or of nq4 its byte, scale and code (R28). -/
def wordsOf (p : Ptr) : Nat := if Ptr.efmt p = efNq4 then 3 else 1

/-- Position of element `k` of a lane among the words of a part's response, in which only the lanes without a tree count. -/
def Entry.wordIndex (e : Entry) (lane k : Nat) : Nat :=
  (((e.lanes.filter (fun a => !a.tree)).takeWhile (fun a => a.lane ≠ lane)).map (fun a => e.elems a * wordsOf a.ptr)).foldl (· + ·) 0
    + k * (((e.lanes.find? (fun a => a.lane = lane)).map (fun a => wordsOf a.ptr)).getD 1)

/-- The bytes of an element in a response. -/
def Entry.respBytes (e : Entry) (lane k : Nat) (ws : List (BitVec 128)) : List Byte :=
  match e.lanes.find? (fun a => a.lane = lane) with
  | none => []
  | some a => (((elemRanges a.ptr (a.elem k)).zipIdx).map (fun x => valueBytes (ws.getD (e.wordIndex lane k + x.2) 0) x.1.2)).flatten

/-- An element of a part for another module: its request is sent, and the response gives the element or a refusal
(R357, R360, R363). Poison of a page with PCHK = 0 there comes back as a refusal with extra data 1 (R215, log 106). -/
def State.remoteElement (g : Group) (e : Entry) (lane k : Nat) (resp : Resp) (s : State) : State × Entry × Attempt :=
  if !s.reachable e.anchor then (s, e, .failed 18 (BitVec.ofNat 64 e.anchor))
  else match resp with
    | .none =>
      let r := s.sendRequest g e
      (r.1, r.2, .wait)
    | .refused c x =>
      if e.sentAt.isNone then (s, e, .wait)
      else if c = 10 then (s, e, .got 0 (some (decide (x ≠ 1))))
      else (s, e, .failed c x)
    | .data ws => if e.sentAt.isSome then (s, e, .got (bytesValue (e.respBytes lane k ws)) none) else (s, e, .wait)

/-- A part's request stands in this module's own park table; a replayed class-D one is attached to its original (R361). -/
def State.isParked (s : State) (g : Group) (e : Entry) : Bool :=
  s.parked.any (fun p => p.own = some ⟨g.id.ctx, e.id, e.round⟩ || (e.cls = .d && p.own.isSome && p.req.tag = e.tag))

/-- A part whose page fails in this module's own peer space is parked there, or fails as a refusal when the table is full (R360). -/
def State.parkOwn (g : Group) (e : Entry) (cause extra va : Nat) (s : State) : State × Entry × Attempt :=
  if s.parkFull then (s, e, .failed cause (BitVec.ofNat 64 extra))
  else (s.parkReq (e.request s g) ⟨cause, extra⟩ va (some ⟨g.id.ctx, e.id, e.round⟩), { e with sentAt := some s.time, heardAt := s.time }, .wait)

/-- What stands before an access to this package's own memory through peer space: its loss, a refusal, or a wait in the park table
(R359, R360, R363); none when the access may go on. -/
def State.ownGate (g : Group) (e : Entry) (p : Ptr) (vas : List Nat) (r : Right) (s : State) : Option (State × Entry × Attempt) :=
  if Ptr.space p ≠ 5 then none
  else if !s.reachable s.package then some (s, e, .failed 18 (BitVec.ofNat 64 s.package))
  else if s.isParked g e then some (s, { e with sentAt := some (e.sentAt.getD s.time) }, .wait)
  else vas.findSome? (fun va => match s.ownPeer g.id.part va r with
    | .line _ _ _ => none
    | .refused => some (s, e, .failed 9 0)
    | .parked cause extra => some (s.parkOwn g e cause extra va))

/-- Read a piece of a plain or read-shared line of this package's memory through peer space (R205, R253, R385). -/
def State.readOwnPeer (g : Group) (p : Ptr) (line : Nat) (pchk tso : Bool) (va n : Nat) (s : State) : State × Piece :=
  let k := peerKey g p va
  let shared : Bool := Ptr.cls p = 1
  let give (d : LineData) (poison : Bool) : Piece := some (lineSlice d (va % 128) n, if poison then some pchk else none)
  if tso || s.uncached g.core line then
    let r := s.homeRead line
    (r.1, match r.2 with | some d => give (s.blur line d.1) d.2 | none => none)
  else match s.l1Hit g.core k (byteRange (va % 128) n) shared true with
  | some l => (s.l1Put g.core l, give l.data l.poison)
  | none =>
    if s.flushing line then
      let r := s.homeRead line
      (r.1, match r.2, s.l1Find g.core k with
        | some d, some l => give (mergeLine (s.blur line d.1) l.data l.valid) (d.2 || l.poison)
        | some d, none => give (s.blur line d.1) d.2
        | none, _ => none)
    else
    let r := match s.peerCopies.find? (fun x => shared && x.is g.core.die (Ptr.anchor p) g.id.part (va / 128) && x.valid = allBytes) with
      | some x => (s, some (x.data, x.poison))
      | none => let h := s.homeRead line; (h.1, h.2.map (fun (d : LineData × Bool) => (s.blur line d.1, d.2)))
    match r.2 with
    | none => (r.1, none)
    | some d =>
      let kept := if shared then r.1.peerFill g.core.die (Ptr.anchor p) g.id.part (va / 128) d.1 allBytes d.2 else (r.1, true)
      let f := if kept.2 then kept.1.l1Fill g.core k d.1 d.2 shared true (va / 128) g.id.part else kept
      if f.2 then
        match f.1.l1Find g.core k with
        | some l => (f.1, give l.data l.poison)
        | none => (f.1, give d.1 d.2)
      else (f.1, none)

/-- The value that an nq4 element carries to its decoding: nibble, block code, scale (R28, R52). -/
def nqElement (index : Int) (bs : List Byte) : BitVec 128 :=
  let byte := (bs.getD 0 0).toNat
  let nib := if index % 2 = 0 then byte % 16 else byte / 16
  BitVec.ofNat 128 (nib + (bs.getD 5 0).toNat * 256 + leNat ((bs.drop 1).take 4) * 65536)

/-- The value of an element from the bytes of its ranges (R28). -/
def elemValueOf (p : Ptr) (index : Int) (bs : List Byte) : BitVec 128 := if Ptr.efmt p = efNq4 then nqElement index bs else bytesValue bs

/-- The line at whose home a synchronising access or an atomic is performed; none for a scratchpad space. -/
def State.syncLine (s : State) (g : Group) (e : Entry) (p : Ptr) (va : Nat) : Option Nat :=
  if Ptr.space p = 4 then some (e.phys va / 128)
  else if Ptr.space p = 5 ∧ Ptr.anchor p = s.package then
    match s.ownPeer g.id.part va .read with
    | .line l _ _ => some l
    | _ => none
  else none

/-- PCHK of the page of a lane's byte; scratchpad and chip-space reads act as PCHK = 1 (R215). -/
def State.pchkAt (s : State) (g : Group) (e : Entry) (p : Ptr) (va : Nat) : Bool :=
  if Ptr.space p = 4 then (e.page va).pchk
  else if Ptr.space p = 5 then
    match s.ownPeer g.id.part va .read with
    | .line _ pchk _ => pchk
    | _ => true
  else true

/-- One number for the place of a byte in any space, for the overlap rules of R251 and R252. -/
def State.syncPlace (s : State) (g : Group) (e : Entry) (p : Ptr) (va : Nat) : Nat :=
  match Ptr.space p with
  | 4 => e.phys va
  | 5 => (s.syncLine g e p va).getD 0 * 128 + va % 128
  | 3 => 2 ^ 100 + s.chipSpot g va
  | 2 => 2 ^ 200 + g.id.launch * 2 ^ 110 + g.id.cluster * 2 ^ 60 + va
  | _ => 2 ^ 201 + g.id.launch * 2 ^ 110 + g.id.team * 2 ^ 60 + va

/-- Bytes of a scratchpad as a plain load reads them: free values where R251 leaves them undefined. -/
def State.blurBytes (s : State) (place : Nat) (bs : List Byte) : List Byte :=
  if s.undef.isEmpty then bs
  else (List.range bs.length).map (fun i => if s.undef.contains (place + i) then Config.freeValue 8 s.free (2 ^ 41 + place + i) else bs.getD i 0)

/-- Read a byte range of a plain or read-shared lane that stays in this module. -/
def State.readRange (g : Group) (e : Entry) (a : LaneAcc) (va n : Nat) (s : State) : State × Piece :=
  let p := a.ptr
  if Ptr.space p ≤ 3 then
    let r := s.readLocal g (Ptr.space p) a.lane va n
    (s, some (s.blurBytes (s.syncPlace g e p va) r.1, if r.2 then some true else none))
  else readPieces (fun x m s =>
    if Ptr.space p = 4 then s.readGlobal g e p x m
    else match s.ownPeer g.id.part x .read with
      | .line l pchk tso => s.readOwnPeer g p l pchk tso x m
      | _ => (s, none)) (linePieces va n) s

/-- Element `k` of a plain access is not aligned: it goes byte by byte (R133, R250). -/
def LaneAcc.split (a : LaneAcc) (k : Nat) : Bool := Ptr.efmt a.ptr ≠ efNq4 && a.va k % Ptr.size a.ptr ≠ 0

/-- The byte that such an access performs next: an open choice among those left (R250). -/
def State.nextByte (s : State) (a : LaneAcc) : Nat :=
  let left := (List.range (Ptr.size a.ptr)).filter (fun i => !a.bytes.any (fun b => b.1 = i))
  left.getD (Config.freeChoice s.free 11 % left.length) 0

/-- The bytes of a lane's next element that have been performed. -/
def Entry.setBytes (e : Entry) (lane : Nat) (bs : List (Nat × Byte)) : Entry :=
  { e with lanes := modifyFirst (fun a => a.lane = lane) (fun a => { a with bytes := bs }) e.lanes }

/-- One byte of a misaligned load; the last brings the element. -/
def State.loadByte (g : Group) (e : Entry) (a : LaneAcc) (k : Nat) (s : State) : State × Entry × Attempt :=
  let i := s.nextByte a
  match s.readRange g e a (a.va k + i) 1 with
  | (s, none) => (s, e, .wait)
  | (s, some x) =>
    let got := (i, x.1.getD 0 0) :: a.bytes
    let byte (j : Nat) : Byte := ((got.find? (fun b => b.1 = j)).map (·.2)).getD 0
    let e := e.meets a x.2 (worsePoison e.poison x.2)
    if Ptr.size a.ptr ≤ got.length then
      (s, e.setBytes a.lane [], .got (bytesValue ((List.range (Ptr.size a.ptr)).map byte)) none)
    else (s, e.setBytes a.lane got, .wait)

/-- An element of a literal load, from the instruction cache (R86, R87). -/
def State.loadCode (g : Group) (e : Entry) (a : LaneAcc) (k : Nat) (s : State) : State × Entry × Attempt :=
  let va := a.va k
  let n := Ptr.size a.ptr
  let r := s.codeLine g.core (e.phys va / 128)
  (r.1, e, .got (bytesValue (lineSlice r.2.1 (va % 128) n)) (if r.2.2 &&& byteRange (va % 128) n = 0 then none else some (e.page va).pchk))

/-- Bytes of a peer line of another module that have come: what the L1 keeps of its own stands over them (R204, R205). `keep`: they
stay in the L1 and, of a read-shared line, in the die's slice. -/
def State.remoteFill (g : Group) (p : Ptr) (va : Nat) (d : LineData) (mask : ByteMask) (keep : Bool) (s : State) : State × Option LineData :=
  let key := peerKey g p va
  let shared : Bool := Ptr.cls p = 1
  let room := if !keep || (s.l1Find g.core key).isSome then (s, true) else s.l1Room g.core key
  let old := (room.1.l1Find g.core key).getD
    { line := key.line, peer := key.peer, vline := va / 128, shared := shared, wide := true, stamp := key.part }
  let own := if old.shared && !shared then old.dirty else old.valid
  let new := { old with data := mergeLine (mergeLine old.data d mask) old.data (own &&& mask), valid := old.valid ||| mask
                        shared := if old.dirty = 0 then shared else old.shared }
  if !room.2 then (room.1, none)
  else if !keep then (room.1, some new.data)
  else
    let s := room.1.l1Put g.core new
    let f := if shared then s.peerFill g.core.die (Ptr.anchor p) g.id.part (va / 128) d mask false else (s, true)
    (f.1, if f.2 then some new.data else none)

/-- The pieces of bytes that have come from another module, one line each; none when they find no place yet. -/
def State.remoteFills (g : Group) (p : Ptr) (keep : Bool) : List (Nat × Nat) → List Byte → State → State × Option (List Byte)
  | [], _, s => (s, some [])
  | (va, n) :: rest, bs, s =>
    match s.remoteFill g p va (placeBytes (va % 128) (bs.take n)) (byteRange (va % 128) n) keep with
    | (s, none) => (s, none)
    | (s, some d) =>
      match State.remoteFills g p keep rest (bs.drop n) s with
      | (s, none) => (s, none)
      | (s, some x) => (s, some (lineSlice d (va % 128) n ++ x))

/-- A plain or read-shared load of one element of another module's memory: from the L1, from the die's slice when read-shared, else by a
request (R205, R233). -/
def State.loadRemote (g : Group) (e : Entry) (a : LaneAcc) (k : Nat) (resp : Resp) (s : State) : State × Entry × Attempt :=
  let p := a.ptr
  let shared : Bool := Ptr.cls p = 1
  let pieces := ((elemRanges p (a.elem k)).map (fun x => linePieces x.1 x.2)).flatten
  let need (x : Nat × Nat) : ByteMask := byteRange (x.1 % 128) x.2
  let hits := pieces.map (fun x => s.l1Hit g.core (peerKey g p x.1) (need x) shared true)
  let copies := pieces.map (fun x => s.peerCopies.find? (fun y =>
    shared && y.is g.core.die (Ptr.anchor p) g.id.part (x.1 / 128) && y.valid &&& need x = need x))
  if hits.all (·.isSome) then
    let bs := (pieces.zip hits).map (fun x => lineSlice ((x.2.map (·.data)).getD 0) (x.1.1 % 128) x.1.2)
    (hits.foldl (fun s h => match h with | some l => s.l1Put g.core l | none => s) s, e,
      .got (elemValueOf p (a.elem k) bs.flatten) (if hits.any (fun h => h.any (·.poison)) then some true else none))
  else if copies.all (·.isSome) then
    let bs := (pieces.zip copies).map (fun x => lineSlice ((x.2.map (·.data)).getD 0) (x.1.1 % 128) x.1.2)
    match s.remoteFills g p true pieces bs.flatten with
    | (s, some x) => (s, e, .got (elemValueOf p (a.elem k) x) none)
    | (s, none) => (s, e, .wait)
  else
    let r := s.remoteElement g e a.lane k resp
    match r.2.2 with
    | .got x z =>
      if z.isSome then r
      else match r.1.remoteFills g p (!e.noKeep) pieces (valueBytes x ((pieces.map (·.2)).foldl (· + ·) 0)) with
        | (s, some bs) => (s, r.2.1, .got (elemValueOf p (a.elem k) bs) z)
        | (s, none) => (s, r.2.1, .wait)
    | _ => r

/-- A plain or read-shared load of one element. -/
def State.loadPrivate (g : Group) (e : Entry) (a : LaneAcc) (k : Nat) (resp : Resp) (s : State) : State × Entry × Attempt :=
  let p := a.ptr
  let ranges := elemRanges p (a.elem k)
  if Ptr.space p = 5 ∧ Ptr.anchor p ≠ s.package then
    if !s.reachable (Ptr.anchor p) then (s, e, .failed 18 (BitVec.ofNat 64 (Ptr.anchor p))) else s.loadRemote g e a k resp
  else match s.ownGate g e p ((ranges.map (fun x => linePieces x.1 x.2)).flatten.map (·.1)) .read with
  | some r => r
  | none =>
    if a.split k then s.loadByte g e a k
    else match readPieces (fun va n s => s.readRange g e a va n) ranges s with
      | (s, some x) => (s, e, .got (elemValueOf p (a.elem k) x.1) x.2)
      | (s, none) => (s, e, .wait)

/-! Synchronising accesses. -/

/-- The overlap check of R252 for an access of `n` bytes. -/
def State.overlaps (s : State) (g : Group) (line place n : Nat) : Bool :=
  match s.lastSync.find? (fun x => x.line = line) with
  | some x => (g.id.overlapDebug || x.debug) && !(x.addr = place && x.size = n) && x.addr < place + n && place < x.addr + x.size
  | none => false

/-- The access becomes the last synchronising one of its line (R252). -/
def State.lastAccess (g : Group) (line place n : Nat) (s : State) : State :=
  { s with lastSync := putFirst (fun x => x.line = line) { line := line, addr := place, size := n, debug := g.id.overlapDebug } s.lastSync }

/-- A byte whose value overlapping synchronising accesses leave undefined to an access of `n` bytes from `place` (R251). -/
def State.overlapped (s : State) (place n b : Nat) : Bool :=
  s.undef.contains b
    || (match s.wrote.find? (fun x => x.addr ≤ b && b < x.addr + x.size) with
        | some x => !x.plain && !(x.addr = place && x.size = n)
        | none => false)

/-- A synchronising store of `n` bytes from `place` is noted (R251). -/
def State.noteStore (place n : Nat) (s : State) : State :=
  let bytes := (List.range n).map (fun i => place + i)
  let clash := bytes.filter (fun b => match s.wrote.find? (fun x => x.addr ≤ b && b < x.addr + x.size) with
    | some x => !x.plain && !(x.addr = place && x.size = n)
    | none => false)
  { s with undef := clash ++ s.undef.filter (fun b => !bytes.contains b)
           wrote := { line := place / 128, addr := place, size := n } :: s.wrote.filter (fun x => !(place ≤ x.addr && x.addr + x.size ≤ place + n)) }

/-- Bytes read by a synchronising access: free values where R251 makes them undefined. -/
def State.syncBytes (s : State) (place : Nat) (bs : List Byte) : List Byte :=
  (List.range bs.length).map (fun i => if s.overlapped place bs.length (place + i) then Config.freeValue 8 s.free (2 ^ 40 + place + i) else bs.getD i 0)

/-- A receiver of class-D accesses (R330): table kind, number, capacity. -/
def State.receiver (s : State) (g : Group) (p : Ptr) (va : Nat) (line : Option Nat) : Option (Nat × Nat × Nat) :=
  match line, Ptr.space p with
  | some l, _ => some (0, (s.homeSlice l).1 * 16 + (s.homeSlice l).2, 8192)
  | none, 3 => some (4, g.place.die * 2 + (s.chipSpot g va / 65536 * 16 + s.chipSpot g va / 4096 % 16) % 2, 1024)
  | none, 2 => let c := s.clusterCore g va; some (5, c.die * 100 + c.site, 1024)
  | none, _ => none

/-- A kept answer for a tag, lane and element (R330). -/
def State.kept (s : State) (tag : BitVec 64) (lane ord : Nat) : Option Suppress :=
  s.suppress.find? (fun x => x.tag = tag && x.lane = lane && x.ord = ord && x.table ≠ 1)

/-- The receiver's table is full (R330). -/
def State.tableFull (s : State) (r : Nat × Nat × Nat) : Bool :=
  r.2.2 ≤ (s.suppress.filter (fun x => x.table = r.1 && x.site = r.2.1)).length

/-- The receiver keeps the tag, lane and answer. -/
def State.keep (r : Option (Nat × Nat × Nat)) (tag : BitVec 64) (lane ord : Nat) (old : BitVec 128) (s : State) : State :=
  match r with
  | none => s
  | some r => { s with suppress := { table := r.1, site := r.2.1, tag := tag, lane := lane, ord := ord, old := old } :: s.suppress }

/-- 64 mesh cycles, in core cycles (R2, R330). -/
def retryDelay : Nat := 32

/-- The drains of an acquire at a line (R249): what it must wait for, or the fault of a dead core's record (R339). It drains until no record
is left, but for one that an atomic's own release has made there since. -/
def State.acquireDrains (c : CoreId) (e : Entry) (line : Nat) (s : State) : State × Entry × Option Attempt :=
  match (s.records line).find? (fun r => (s.core r.core).dead) with
  | some r => ({ s with releasers := dropFirst (fun x => x = r) s.releasers }, e, some (.failed 18 (BitVec.ofNat 64 s.package)))
  | none =>
    let left := (s.records line).filter (fun r => !(e.drained.contains line && e.isRelease && r.core = c))
    if left.isEmpty then (s, { e with drained := if e.drained.contains line then e.drained else line :: e.drained }, none)
    else if left.all (·.draining) then (s, e, some .wait)
    else (s.startDrains line, e, some .wait)

/-- An acquire of a group is performed: its core's L1 drops what R249 says, and its releases cover from now on what other groups of the core
stored before, with which it has synchronised at whatever scope (R244 case 3). -/
def State.acquired (g : Group) (scope : Nat) (s : State) : State :=
  (s.acquireDrop g.core scope).modGroup g.id.ctx (fun h => { h with taken := true })

/-- The colours that a release of a group covers (R244). -/
def Group.cover (g : Group) (mask : BitVec 8) : BitVec 8 := if g.taken then 0xFF else mask

/-- The issuing core's bytes of the lines that a part for another module names go there first, and none of them stays (R230, R236,
R238); then the release of a synchronising part at pod scope (R247). -/
def State.leaveCore (g : Group) (e : Entry) (s : State) : State × Bool :=
  let mine (l : L1Line) : Bool := l.peer = some e.anchor && l.stamp = g.id.part
    && e.lanes.any (fun a => !a.tree && (List.range (e.elems a)).any (fun k => a.va k / 128 = l.line))
  let r := s.writeBackAll g.core mine
  if !r.2 then r
  else
    let k := r.1.core g.core
    let s := if k.l1.any mine then r.1.setCore g.core { k with l1 := k.l1.filter (fun l => !mine l) } else r.1
    if e.sync then s.releaseLines g.core 4 (g.cover e.drainMask) else (s, true)

/-- An element of a part that another module performs at its home. -/
def State.remoteHome (g : Group) (e : Entry) (lane k : Nat) (resp : Resp) (s : State) : State × Entry × Attempt :=
  if e.sentAt.isSome || !s.reachable e.anchor then s.remoteElement g e lane k resp
  else
    let r := s.leaveCore g e
    if r.2 then r.1.remoteElement g e lane k resp else (r.1, e, .wait)

/-- A synchronising load of one element (R241, R249, R251, R252). -/
def State.loadSync (g : Group) (e : Entry) (a : LaneAcc) (k : Nat) (resp : Resp) (s : State) : State × Entry × Attempt :=
  let p := a.ptr
  let va := a.va k
  let n := Ptr.size p
  let done (s : State) (e : Entry) (bs : List Byte) (z : Option Bool) : State × Entry × Attempt :=
    let bs := s.syncBytes (s.syncPlace g e p va) bs
    (s.acquired g (Ptr.scope p), { e with drained := [] }, .got (bytesValue bs) z)
  if Ptr.space p ≤ 3 then
    let r := s.readLocal g (Ptr.space p) a.lane va n
    done s e r.1 (if r.2 then some true else none)
  else if Ptr.space p = 5 ∧ Ptr.anchor p ≠ s.package then
    let r := s.remoteHome g e a.lane k resp
    match r.2.2 with
    | .got x z => (r.1.acquired g (Ptr.scope p), r.2.1, .got x z)
    | _ => r
  else match s.ownGate g e p [va] .read with
  | some r => r
  | none =>
    let line := (s.syncLine g e p va).getD 0
    match s.acquireDrains g.core e line with
    | (s, e, some x) => (s, e, x)
    | (s, e, none) =>
      let own := s.l1Leave g.core line false
      let r := own.1.homeRead line
      match own.2, r.2 with
      | true, some d =>
        let place := r.1.syncPlace g e p va
        if r.1.overlaps g line place n then (r.1, e, .failed 7 (BitVec.ofNat 64 (n + 256)))
        else
          done (r.1.lastAccess g line place n) e (lineSlice d.1 (va % 128) n) (if d.2 then some (s.pchkAt g e p va) else none)
      | _, _ => (r.1, e, .wait)

/-- A synchronising store of one element: the release's cache actions, the suppression table, and the write at its home
(R241, R247, R248, R252, R330). -/
def State.storeSync (g : Group) (e : Entry) (a : LaneAcc) (k : Nat) (resp : Resp) (s : State) : State × Entry × Attempt :=
  let p := a.ptr
  let va := a.va k
  let n := Ptr.size p
  let mask := g.cover (BitVec.ofNat 8 (Ptr.colour p))
  let bs := valueBytes (a.data.getD k 0) n
  if Ptr.space p = 5 ∧ Ptr.anchor p ≠ s.package then s.remoteHome g e a.lane k resp
  else match s.ownGate g e p [va] .write with
  | some r => r
  | none =>
    let line := s.syncLine g e p va
    let rcv := s.receiver g p va line
    match s.kept e.tag a.lane k with
    | some _ => (s, e, .got 0 none)
    | none =>
      if rcv.any s.tableFull then (s, { e with retryAt := some (s.time + retryDelay) }, .wait)
      else
        let left := match line with
          | some l => s.l1Leave g.core l true
          | none => (s, true)
        let own := match line with
          | some l => left.1.homeOwn l
          | none => left
        if !(left.2 && own.2) then (own.1, e, .wait)
        else
          let place := own.1.syncPlace g e p va
          if line.any (fun l => own.1.overlaps g l place n) then (own.1, e, .failed 7 (BitVec.ofNat 64 (n + 256)))
          else
            let rel := own.1.release g.core (Ptr.scope p) line mask
            if !rel.2 then (rel.1, e, .wait)
            else match line with
              | none => (((rel.1.writeLocal g (Ptr.space p) a.lane va bs).noteStore place n).keep rcv e.tag a.lane k 0, e, .got 0 none)
              | some l =>
                let again := rel.1.homeOwn l
                if !again.2 then (again.1, e, .wait)
                else
                  let s := again.1.homeMerge l (placeBytes (va % 128) bs) (byteRange (va % 128) n) false
                  (((s.lastAccess g l place n).noteStore place n).keep rcv e.tag a.lane k 0, e, .got 0 none)

/-! Plain stores (R133, R204, R205, R225, R250, R253, R330). -/

/-- The home line at which bytes of a plain store are performed: of a total-store-order page, or of a line that no L1 may hold; none where
they go into the L1, or into a scratchpad. -/
def State.storeHome (s : State) (g : Group) (e : Entry) (p : Ptr) (va : Nat) : Option Nat :=
  let at_ (line : Nat) (tso : Bool) : Option Nat := if tso || s.uncached g.core line then some line else none
  if Ptr.space p = 4 then at_ (e.phys va / 128) (e.page va).tso
  else if Ptr.space p = 5 ∧ Ptr.anchor p = s.package then
    match s.ownPeer g.id.part va .write with
    | .line l _ tso => at_ l tso
    | _ => none
  else none

/-- Bytes of a plain store: the flag says that they are written. -/
def State.storeRange (g : Group) (e : Entry) (a : LaneAcc) (va : Nat) (bs : List Byte) (s : State) : State × Bool :=
  let p := a.ptr
  let places (s : State) : List Nat := (List.range bs.length).map (fun i => s.syncPlace g e p va + i)
  if Ptr.space p ≤ 3 then ((s.writeLocal g (Ptr.space p) a.lane va bs).notePlain (places s), true)
  else
    let pieces := linePieces va bs.length
    let ready := pieces.foldl (fun acc x =>
      if !acc.2 then acc else match acc.1.storeHome g e p x.1 with | some l => acc.1.homeOwn l | none => acc) (s, true)
    if !ready.2 then ready
    else pieces.foldl (fun acc x =>
      let d := placeBytes (x.1 % 128) ((bs.drop (x.1 - va)).take x.2)
      let m := byteRange (x.1 % 128) x.2
      if !acc.2 then acc
      else match acc.1.storeHome g e p x.1 with
        | some l => ((acc.1.homeMerge l d m false).notePlain (maskBytes l m), true)
        | none =>
          let key := if Ptr.space p = 5 then peerKey g p x.1 else globalKey (e.phys x.1 / 128)
          acc.1.l1Store g.core key d m (Ptr.colour p % 8) (Ptr.space p = 5 || 1 ≤ Ptr.scope p) (x.1 / 128) g.id.part) ready

/-- The receiver that keeps the tag of a plain store: none in the issuing core's own scratchpad or L1 (R330), and none for an engine's. -/
def State.plainReceiver (s : State) (g : Group) (e : Entry) (p : Ptr) (va : Nat) : Option (Nat × Nat × Nat) :=
  if e.cls = .d then s.receiver g p va (s.storeHome g e p va) else none

/-- A plain store of one element; a misaligned one goes byte by byte. -/
def State.storePrivate (g : Group) (e : Entry) (a : LaneAcc) (k : Nat) (s : State) : State × Entry × Attempt :=
  let p := a.ptr
  let n := Ptr.size p
  let bs := valueBytes (a.data.getD k 0) n
  let i := s.nextByte a
  let va := if a.split k then a.va k + i else a.va k
  let ord := if a.split k then 2 ^ 20 + 16 * k + i else k
  let rcv := s.plainReceiver g e p va
  let done (s : State) : State × Entry × Attempt :=
    if a.split k && a.bytes.length + 1 < n then (s, e.setBytes a.lane ((i, 0) :: a.bytes), .wait)
    else (s, if a.split k then e.setBytes a.lane [] else e, .got 0 none)
  if Ptr.space p = 5 ∧ !s.reachable (Ptr.anchor p) then (s, e, .failed 18 (BitVec.ofNat 64 (Ptr.anchor p)))
  else if rcv.isSome && (s.kept e.tag a.lane ord).isSome then done s
  else if rcv.any s.tableFull then (s, { e with retryAt := some (s.time + retryDelay) }, .wait)
  else
    let r := s.storeRange g e a va (if a.split k then (bs.drop i).take 1 else bs)
    if r.2 then done (r.1.keep rcv e.tag a.lane ord 0) else (r.1, e, .wait)

/-! Atomics. -/

/-- The new value of an atomic (R229) on `n`-bit elements: operation, type, old value, operand, and the new value of cas. -/
def atomicNew (op : Nat) (t : Ty) (n old c new : Nat) : Nat :=
  let wrap (x : Int) : Nat := (x % 2 ^ n).toNat
  let v (x : Nat) : Int := if t.signed then toSigned n x else x
  let f : FFmt := if n = 64 then .f64 else .f32
  match op with
  | 0 => wrap ((old : Int) + c)
  | 1 => wrap ((old : Int) - c)
  | 2 => if v c < v old then c else old
  | 3 => if v old < v c then c else old
  | 4 => old &&& c
  | 5 => old ||| c
  | 6 => old ^^^ c
  | 7 => c
  | 8 => if old = c then new else old
  | 9 => (fAdd f FCtx.plain false old c).1
  | 10 => (fMinMax f FCtx.plain false old c).1
  | 11 => (fMinMax f FCtx.plain true old c).1
  | 12 => if c ≤ old then 0 else old + 1
  | _ => if old = 0 ∨ c < old then c else old - 1

/-- An atomic on one lane's element, at the place of R218 (R230); a synchronising one is an acquire and a release. -/
def State.atomicElement (g : Group) (e : Entry) (a : LaneAcc) (resp : Resp) (s : State) : State × Entry × Attempt :=
  let p := a.ptr
  let va := a.va 0
  let n := Ptr.size p
  let op := e.mod.toNat % 16
  let c := (a.data.getD 0 0).toNat % 2 ^ (8 * n)
  let c2 := (a.data.getD 1 0).toNat % 2 ^ (8 * n)
  let sync := Ptr.sync p
  let scope := Ptr.scope p
  let mask := g.cover (BitVec.ofNat 8 (Ptr.colour p))
  let after (s : State) : State := if sync then s.acquired g scope else s
  let rmw (s : State) (place : Nat) (bs : List Byte) : Nat × List Byte :=
    let old := leNat (if sync then s.syncBytes place bs else s.blurBytes place bs)
    (old, leBytes n (atomicNew op e.type (8 * n) old c c2))
  if Ptr.space p = 5 ∧ Ptr.anchor p ≠ s.package then
    let r := s.remoteHome g e a.lane 0 resp
    match r.2.2 with
    | .got x z => (after r.1, r.2.1, .got x z)
    | _ => r
  else match s.ownGate g e p [va] .write with
  | some r => r
  | none =>
    let line := s.syncLine g e p va
    let rcv := s.receiver g p va line
    match s.kept e.tag a.lane 0 with
    | some x => (after s, e, .got x.old none)
    | none =>
      if rcv.any s.tableFull then (s, { e with retryAt := some (s.time + retryDelay) }, .wait)
      else match line with
        | none =>
          let rel := if sync then s.release g.core scope none mask else (s, true)
          if !rel.2 then (rel.1, e, .wait)
          else
            let place := rel.1.syncPlace g e p va
            let r := rel.1.readLocal g (Ptr.space p) a.lane va n
            let x := rmw rel.1 place r.1
            let kept : Bool := decide (op = 8) && decide (x.1 ≠ c)
            let s := if kept then rel.1 else rel.1.writeLocal g (Ptr.space p) a.lane va x.2
            let s := if kept then s else if sync then s.noteStore place n else s.notePlain ((List.range n).map (place + ·))
            (after (s.keep rcv e.tag a.lane 0 (BitVec.ofNat 128 x.1)), e, .got (BitVec.ofNat 128 x.1) (if r.2 then some true else none))
        | some l =>
          let drains := if sync then s.acquireDrains g.core e l else (s, e, none)
          match drains with
          | (s, e, some x) => (s, e, x)
          | (s, e, none) =>
            let clean := s.l1Leave g.core l true
            let rel := if sync && clean.2 then clean.1.release g.core scope (some l) mask else clean
            let own := if rel.2 then rel.1.homeOwn l else rel
            if !own.2 then (own.1, e, .wait)
            else
              let s := own.1
              let place := s.syncPlace g e p va
              if sync ∧ s.overlaps g l place n then (s, e, .failed 7 (BitVec.ofNat 64 (n + 256)))
              else
                let d := s.homeSees l
                let x := rmw s place (lineSlice d.1 (va % 128) n)
                let s := if op = 8 ∧ x.1 ≠ c then s else s.homeMerge l (placeBytes (va % 128) x.2) (byteRange (va % 128) n) false
                let s := if sync then s.lastAccess g l place n else s
                let s := if op = 8 ∧ x.1 ≠ c then s else if sync then s.noteStore place n else s.notePlain ((List.range n).map (place + ·))
                let s := s.keep rcv e.tag a.lane 0 (BitVec.ofNat 128 x.1)
                (after s, e, .got (BitVec.ofNat 128 x.1) (if d.2 then some (s.pchkAt g e p va) else none))

/-! Performing an entry. -/

/-- One element of a lane: its number is how many the lane has. -/
def State.element (g : Group) (e : Entry) (a : LaneAcc) (resp : Resp) (s : State) : State × Entry × Attempt :=
  let k := a.got.length
  match e.kind with
  | .literal => s.loadCode g e a k
  | .load => if Ptr.sync a.ptr then s.loadSync g e a k resp else s.loadPrivate g e a k resp
  | .atomic => s.atomicElement g e a resp
  | _ => if Ptr.sync a.ptr then s.storeSync g e a k resp else s.storePrivate g e a k

/-- A performed element is noted in its lane, with the first poison. -/
def Entry.note (e : Entry) (a : LaneAcc) (x : BitVec 128) (z : Option Bool) : Entry :=
  let add (a : LaneAcc) : LaneAcc :=
    let got := a.got ++ [x]
    { a with got := got, performed := e.elems a ≤ got.length }
  { e.meets a z (worsePoison e.poison z) with lanes := modifyFirst (fun b => b.lane = a.lane) add e.lanes }

/-- Perform elements of an entry in order, lanes rising, while `ok` holds of the entry and its next lane: at most `fuel` of
them. A failure ends the entry. -/
def State.performWhile (ctx : Nat) (resp : Resp) (ok : Entry → LaneAcc → Bool) : Nat → Entry → State → State
  | 0, e, s => s.putEntry ctx e
  | fuel + 1, e, s =>
    match e.lanes.find? (fun a => !a.performed && !a.tree) with
    | none => s.putEntry ctx e
    | some a =>
      if !ok e a then s.putEntry ctx e
      else match s.element (s.group ctx) e a resp with
        | (s, e, .got x z) => State.performWhile ctx resp ok fuel (e.note a x z) s
        | (s, e, .wait) => s.putEntry ctx e
        | (s, e, .failed c x) => s.failEntry ctx { e with failElem := e.failing a } c x

/-- The number of elements of an entry. -/
def Entry.total (e : Entry) : Nat := (e.lanes.map e.elems).foldl (· + ·) 0

/-- An entry's event acts only when the entry is there, not done, not waiting for a retry or the host, and nothing earlier
holds it; otherwise nothing changes (log 1). The first one of a replayed entry sends it (R332). -/
def State.whenReady (ctx id : Nat) (s : State) (k : Entry → State → State) : State :=
  match s.entry ctx id with
  | none => s
  | some e =>
    if e.done || e.retryAt.isSome || e.hostWait || !s.mayPerform (s.group ctx) e then s
    else if e.replay then k { e with replay := false } (s.putEntry ctx { e with replay := false })
    else k e s

/-! Landing. -/

/-- Register value `j` of a lane of a load or returning atomic, with its flags (R220, R222). -/
def Entry.regValue (e : Entry) (a : LaneAcc) (j : Nat) : BitVec 128 × FlagBits :=
  if e.kind ≠ .load then (a.got.getD j 0, 0)
  else
    let per := perRegister (Ptr.efmt a.ptr) e.type
    if per = 1 then loadElem a.ptr e.type (FCtx.ofFmt e.fmt) (a.got.getD j 0)
    else
      let n := 8 * Ptr.size a.ptr
      ((List.range per).foldl (fun x k => x ||| (a.got.getD (j * per + k) 0 <<< (n * k))) 0, 0)

/-- Registers of one lane: how many values. -/
def Entry.values (e : Entry) : Nat := if e.kind = .atomic then 1 else 2 ^ (e.mod.toNat % 4)

/-- The register step of a lane. -/
def Entry.laneStep (e : Entry) (a : LaneAcc) : Nat :=
  if e.kind = .load then regStep (Ptr.efmt a.ptr) e.type else if e.type.wide then 2 else 1

/-- Write a lane's values into vector registers. -/
def Entry.writeLane (e : Entry) (a : LaneAcc) (lane : Nat) (g : Group) : Group :=
  (List.range e.values).foldl (fun g j =>
    let x := (e.regValue a j).1
    (List.range (e.laneStep a)).foldl (fun g i => g.writeV (e.dest + j * e.laneStep a + i) lane ((x >>> (32 * i)).setWidth 32)) g) g

/-- The flags of a lane's values. -/
def Entry.laneFlags (e : Entry) (a : LaneAcc) : FlagBits := (List.range e.values).foldl (fun f j => f ||| (e.regValue a j).2) 0

/-- Write s registers as the issuing mode names them (R24). -/
def Entry.writeUniform (e : Entry) (n : Nat) (x : Word64) (g : Group) : Group :=
  if e.handler ∧ n < 8 then { g with hs := wr g.hs n x } else { g with s := wr g.s n x }

/-- The value an s register receives: 32-bit types are zero-extended; of a 16-byte element it receives a free value (log 21). -/
def Entry.uniformValue (e : Entry) (free : Nat) (a : LaneAcc) (j : Nat) : Word64 :=
  let x := (e.regValue a j).1
  if e.laneStep a = 4 then Config.freeValue 64 free (8192 + j) else if e.type.wide then x.setWidth 64 else (x.setWidth 32).setWidth 64

/-- A load's data is written to its registers (R132, R220, R223): holds lowered and flags merged. -/
def Entry.land (e : Entry) (free : Nat) (g : Group) : Group :=
  match e.dfile, e.lanes with
  | .v, _ =>
    let src (l : Nat) : Option LaneAcc := if e.g ∨ e.kind = .literal then e.lanes.head? else e.lanes.find? (fun a => a.lane = l)
    let g := (maskLanes e.mask).foldl (fun g l => match src l with
      | some a => e.writeLane a l g
      | none => g) g
    e.unhold (g.raiseFlags e.mask (fun l => match src l with | some a => e.laneFlags a | none => 0))
  | .s, a :: _ =>
    ((List.range e.values).foldl (fun g j => e.writeUniform (e.dest + j * Nat.min (e.laneStep a) 2) (e.uniformValue free a j) g) g).raiseFlags e.mask
      (fun _ => e.laneFlags a)
  | .k, a :: _ =>
    ((List.range e.values).foldl (fun g j => g.writeK (e.dest + j) ((e.regValue a j).1.setWidth 32)) g).raiseFlags e.mask (fun _ => e.laneFlags a)
  | .p, a :: _ => g.writeP e.dest (if e.kind = .literal then (a.got.getD 1 0) <<< 64 ||| a.got.getD 0 0 else a.got.getD 0 0)
  | _, [] => g

/-- A load or returning atomic, all of whose elements are there, lands and completes; an ended group's data is discarded
(R166, R211). -/
def State.landEntry (ctx : Nat) (e : Entry) (s : State) : State :=
  if (s.group ctx).status = .saved then s
  else match e.poison with
    | some pchk => s.poisoned ctx e pchk
    | none =>
      let s := s.modGroup ctx (fun g => if g.status = .resident then g.deliver e (fun (e : Entry) => e.land s.free) else g)
      (s.complete ctx e.id).resumeRun ctx e.id

/-! Events. -/

/-- Every event but a stalled run's own progress lets a stalled run try again (R21, R80), but for one that is to be rolled back (R319). -/
def Group.unstall (time : Nat) (g : Group) : Group :=
  match g.stall with
  | .uniform _ | .none => g
  | _ => if g.overdue time then g else { g with stall := .none }

/-- R134, R211: a load takes its data and lands. -/
def execLoadDataLands (ctx id : Nat) (resp : Resp) (s : State) : Result :=
  .next (s.whenReady ctx id (fun e s =>
    match e.kind with
    | .load | .literal | .atomic =>
      let s := if e.kind = .atomic then s
        else s.performWhile ctx resp (fun _ a => !Ptr.sync a.ptr) e.total e
      match s.entry ctx id with
      | some e => if e.performed && !e.done && (e.kind ≠ .atomic || e.returns) then s.landEntry ctx e else s
      | none => s
    | _ => s))

/-- The lines of a walk's range (R232). -/
def walkLines (p : Ptr) : Nat × Nat := (Ptr.base p / 128, (Ptr.elemAddr p ((Ptr.length p : Int) - 1) + Ptr.size p - 1).toNat / 128)

/-- The walk of a `narrow` or `widen` entry (R232, R233). -/
def State.walkEntry (ctx : Nat) (e : Entry) (s : State) : State :=
  match e.lanes.head? with
  | none => s.complete ctx e.id
  | some a =>
    let g := s.group ctx
    let peer := if Ptr.space a.ptr = 5 then some (Ptr.anchor a.ptr) else none
    let r := walkLines a.ptr
    if e.imm = 8 then (s.narrowWalk g.core peer g.id.part r.1 r.2 (Ptr.cls a.ptr = 1)).complete ctx e.id
    else
      let x := s.widenWalk g.core peer g.id.part r.1 r.2 e.imm
      if x.2 then x.1.complete ctx e.id else x.1

/-- Every cached copy of a line in the module is invalidated (R234): the L1s and the read-shared copies, through the module's own peer
space too, the slices, the messages and the directory. -/
def State.dropLine (line : Nat) (s : State) : State :=
  { s.dropShared line with
    cores := s.cores.map (fun x => (x.1, { x.2 with l1 := x.2.l1.filter (fun l => !s.l1Of line l) }))
    clines := s.clines.filter (fun c => c.line ≠ line)
    msgs := s.msgs.filter (fun m => m.line ≠ line)
    dirs := s.dirs.filter (fun d => d.line ≠ line)
    snoops := s.snoops.filter (fun x => x.line ≠ line)
    homeLines := s.homeLines.filter (fun h => h.line ≠ line) }

/-- `linclr` at its home (R234): a line that the host caches is recalled (R385), copies invalidated, 128 bytes written to memory, poison
cleared. A synchronising pointer makes it a release first. -/
def State.clearLine (ctx : Nat) (e : Entry) (s : State) : State :=
  match e.lanes.head? with
  | none => s.complete ctx e.id
  | some a =>
    let line := e.phys (a.va 0) / 128
    let rcv := s.receiver (s.group ctx) a.ptr (a.va 0) (some line)
    if (s.kept e.tag 0 0).isSome then (if (s.group ctx).status = .saved then s else s.complete ctx e.id)
    else if s.biFilter.contains line then s.biSnoop line false
    else if rcv.any s.tableFull then s.putEntry ctx { e with retryAt := some (s.time + retryDelay) }
    else
      let rel := if Ptr.sync a.ptr then
          s.release (s.group ctx).core (Ptr.scope a.ptr) (some line) ((s.group ctx).cover (BitVec.ofNat 8 (Ptr.colour a.ptr)))
        else (s, true)
      if !rel.2 then rel.1
      else
        let bs := (a.data.map (fun x => valueBytes x 4)).flatten
        let s := rel.1.dropLine line
        let s := { s with mem := memWrite s.mem (128 * line) bs, poison := s.poison.filter (· ≠ line) }
        let s := s.notePlain (maskBytes line allBytes)
        let s := s.keep rcv e.tag 0 0 0
        if (s.group ctx).status = .saved then s else s.complete ctx e.id

/-- A multicast store at this module's block: its branches and its own part are still to be taken, and its tag's notice will go down its tree
(R331, R365). -/
def State.addPacket (req : PeerReq) (group : Nat) (s : State) : State :=
  let m := s.multicastEntry group
  { s with packets := s.packets ++ [{ req := req, group := group, branches := BitVec.ofNat 36 m, local_ := m.testBit 36 }]
           treeTags := if s.treeTags.contains (req.tag, group) then s.treeTags else (req.tag, group) :: s.treeTags }

/-- The store of a part's multicast lanes leaves by the port toward the tree's parent; at the root it is forked here (R364, R365). -/
def State.sendMulticast (ctx : Nat) (e : Entry) (s : State) : State :=
  let m := s.multicastEntry e.anchor
  let req := e.requestOf s (s.group ctx) (e.lanes.filter LaneAcc.tree)
  let s := if m.testBit 43 then s.addPacket req e.anchor else { s with out := .multicast (m / 2 ^ 37 % 64) e.anchor req :: s.out }
  s.putEntry ctx { e with treeSent := true }

/-- The multicast lanes of a part are sent once, after a synchronising pointer's release (R247, R365). -/
def State.leaveByTree (ctx : Nat) (e : Entry) (s : State) : State :=
  if e.treeSent || !e.lanes.any LaneAcc.tree then s
  else
    let rel := if e.lanes.any (fun a => a.tree && Ptr.sync a.ptr) then
        s.releaseLines (s.group ctx).core 4 ((s.group ctx).cover e.drainMask)
      else (s, true)
    if rel.2 then rel.1.sendMulticast ctx e else rel.1

/-- A regs store, after its release at pod scope, or a name question leaves for the directory of its anchor (R226, R372, R380); a
lost home gives cause 18 (R363, R403). What is addressed to this module's directory needs no port. -/
def State.sendToDirectory (ctx : Nat) (e : Entry) (s : State) : State :=
  if !s.reachable e.anchor then s.failEntry ctx e 18 (BitVec.ofNat 64 e.anchor)
  else if e.sentAt.isSome then s
  else
    let r := if e.kind = .regsStore then s.releaseLines (s.group ctx).core 4 ((s.group ctx).cover e.drainMask) else (s, true)
    if !r.2 then r.1
    else if e.anchor = s.package then r.1.putEntry ctx { e with sentAt := some s.time, heardAt := s.time }
    else
      let x := r.1.sendRequest (s.group ctx) e
      x.1.putEntry ctx x.2

/-- R211: a store performs its plain lanes; an operation whose lanes are all performed completes. -/
def execInFlightCompletion (ctx id : Nat) (resp : Resp) (s : State) : Result :=
  .next (s.whenReady ctx id (fun e s =>
    let frozen : Bool := (s.group ctx).status = .saved
    match e.kind with
    | .store =>
      if frozen then s
      else
        let s := s.leaveByTree ctx e
        let s := match s.entry ctx id with
          | some e => s.performWhile ctx resp (fun _ a => !Ptr.sync a.ptr) e.total e
          | none => s
        match s.entry ctx id with
        | some e => if e.performed && !e.done then s.complete ctx id else s
        | none => s
    | .atomic => if e.performed && !e.returns && !frozen then
        (match e.poison with
         | some z => s.poisoned ctx e z
         | none => s.complete ctx id)
      else s
    | .scopeWalk => if frozen then s else s.walkEntry ctx e
    | .linclr => s.clearLine ctx e
    | .regsStore | .nameInfo => if frozen then s else s.sendToDirectory ctx e
    | _ => s))

/-- R241: one element of a synchronising load or store is performed. -/
def execSyncAccessPerform (ctx id : Nat) (resp : Resp) (s : State) : Result :=
  .next (s.whenReady ctx id (fun e s =>
    match e.kind with
    | .load => if (s.group ctx).status = .saved then s else s.performWhile ctx resp (fun _ a => Ptr.sync a.ptr) 1 e
    | .store => s.performWhile ctx resp (fun _ a => Ptr.sync a.ptr) 1 e
    | _ => s))

/-- What an atomic on a lane's element needs before it can be performed at its home (R230, R241, R247, R249): the issuing core's
bytes of the line written home and dropped, or the release and the acquire's drains; and the line held in M. A lane of a scratchpad space
makes its release, and one of the module's own peer space leaves the park table. -/
def State.prepareAtomic (g : Group) (e : Entry) (a : LaneAcc) (s : State) : State × Entry × Bool :=
  match s.ownGate g e a.ptr [a.va 0] .write with
  | some (s, e, .wait) => (s, e, Ptr.anchor a.ptr ≠ s.package)
  | some _ => (s, e, true)
  | none =>
  match s.syncLine g e a.ptr (a.va 0) with
  | none =>
    if Ptr.sync a.ptr && Ptr.space a.ptr ≤ 3 then
      let x := s.release g.core (Ptr.scope a.ptr) none (g.cover (BitVec.ofNat 8 (Ptr.colour a.ptr)))
      (x.1, e, x.2)
    else (s, e, true)
  | some l =>
    let r : State × Entry × Bool :=
      if Ptr.sync a.ptr then
        match s.acquireDrains g.core e l with
        | (s, e, some .wait) => (s, e, false)
        | (_, _, some _) => (s, e, true)
        | (s, e, none) =>
          let x := s.release g.core (Ptr.scope a.ptr) (some l) (g.cover (BitVec.ofNat 8 (Ptr.colour a.ptr)))
          (x.1, e, x.2)
      else (s, e, true)
    if r.2.2 then
      let left := r.1.l1Leave g.core l true
      let x := left.1.homeOwn l
      (x.1, r.2.1, left.2 && x.2)
    else r

/-- Every lane of an atomic is prepared. -/
def State.prepareAll (g : Group) : List LaneAcc → Entry → State → State × Entry × Bool
  | [], e, s => (s, e, true)
  | a :: as, e, s =>
    let r := s.prepareAtomic g e a
    let x := State.prepareAll g as r.2.1 r.1
    (x.1, x.2.1, r.2.2 && x.2.2)

/-- The tables of the receivers have room for every lane of an atomic that they do not keep yet (R230, R330). -/
def State.tablesHold (s : State) (g : Group) (e : Entry) : Bool :=
  let need := (e.lanes.filter (fun a => !a.performed && (s.kept e.tag a.lane 0).isNone)).filterMap (fun a =>
    s.receiver g a.ptr (a.va 0) (s.syncLine g e a.ptr (a.va 0)))
  need.all (fun r => (s.suppress.filter (fun x => x.table = r.1 && x.site = r.2.1)).length + (need.filter (fun q => q = r)).length ≤ r.2.2)

/-- R230: the lanes of a part are performed in ascending order, one after another, once every line they name is held (log 9) and the tables
have room for them all. -/
def execAtomicPerform (ctx id : Nat) (resp : Resp) (s : State) : Result :=
  .next (s.whenReady ctx id (fun e s =>
    match e.kind with
    | .atomic =>
      if !s.tablesHold (s.group ctx) e then s.putEntry ctx { e with retryAt := some (s.time + retryDelay) }
      else
      let r := s.prepareAll (s.group ctx) (e.lanes.filter (fun a => !a.performed)) e
      if r.2.2 then r.1.performWhile ctx resp (fun _ _ => true) 32 r.2.1 else r.1.putEntry ctx r.2.1
    | _ => s))

/-- R330: the issuer sends an access again after the delay of a retry answer. -/
def execSuppressionRetry (ctx id : Nat) (s : State) : Result :=
  .next (match s.entry ctx id with
    | none => s
    | some e =>
      match e.retryAt with
      | none => s
      | some t => if t ≤ s.time then s.putEntry ctx { e with retryAt := none } else s)

/-- A tag is still needed: an entry of a group has it and is not done, or a command marks its adds with it (R286). -/
def State.tagInUse (s : State) (tag : BitVec 64) : Bool :=
  s.groups.any (fun g => g.entries.any (fun e => e.cls = .d && e.tag = tag && !e.done)) || s.works.any (fun x => x.tag = tag || x.sends.any (fun y => y.2 = tag))

/-- The notice of a multicast store that was forked here goes on to the members below (R331, R365). -/
def State.noticeDown (tag : BitVec 64) (s : State) : State :=
  let mine := s.treeTags.filter (fun x => x.1 = tag)
  { s with treeTags := s.treeTags.filter (fun x => x.1 ≠ tag)
           out := ((mine.map (fun x => (s.treeChildren x.2).map (fun j => Out.retire (some j) x.2 tag))).flatten) ++ s.out }

/-- R331: the receivers delete their entries for a completed tag, and the tag may be used again. -/
def execRetireNotice (tag : BitVec 64) (s : State) : Result :=
  .next (if s.tagInUse tag then s
    else
      let s := s.noticeDown tag
      let s := { s with suppress := s.suppress.filter (fun x => x.tag ≠ tag) }
      if tagPackage tag = s.package % 2 ^ 18 then
        s.modGroup (tagCtx tag) (fun g => { g with liveTags := g.liveTags.filter (· ≠ tag) })
      else s)

end Sys2Proof.Machine
end

