-- ==== Sys2Proof/Machine/Barriers.lean ====
section
/-! DEFINITION. Transaction barriers (spec 15 R287 to R289) and their instructions (16 R302 to R306). -/
namespace Sys2Proof.Machine
open Sys2Proof

/-- A phase completes when R288's condition holds. -/
def Barrier.settle (b : Barrier) : Barrier :=
  if b.init && b.arr = b.expArr && b.tx = 0 then { b with phase := !b.phase, arr := 0 } else b

/-- A signed 32-bit sum (R287, R303). -/
def wrap32 (x : Int) : Int := toSigned 32 (ofSigned 32 x)

/-- The event of `bar.init` (R303). -/
def Barrier.setUp (n : Nat) (scope : Bool) (bytes : Int) (b : Barrier) : Barrier :=
  ({ b with expArr := n, scope := scope, init := true, arr := Nat.min b.arr n, tx := wrap32 (b.tx + bytes) } : Barrier).settle
/-- The event of an arrival (R304). -/
def Barrier.arrive (b : Barrier) : Barrier := ({ b with arr := (b.arr + 1) % 1024 } : Barrier).settle
/-- The event of `bar.expect`, and of a chunk with a negative count (R288, R305). -/
def Barrier.addTx (bytes : Int) (b : Barrier) : Barrier := ({ b with tx := wrap32 (b.tx + bytes) } : Barrier).settle

/-- A barrier's state word (R287). -/
def Barrier.word (b : Barrier) : Nat :=
  (if b.phase then 1 else 0) + (if b.init then 2 else 0) + (if b.scope then 4 else 0) + b.expArr * 2 ^ 8 + b.arr * 2 ^ 18
    + ofSigned 32 b.tx * 2 ^ 32

/-- A barrier from its state word. -/
def Barrier.ofWord (x : Nat) : Barrier :=
  { phase := x.testBit 0, init := x.testBit 1, scope := x.testBit 2, expArr := bitsAt 8 10 x, arr := bitsAt 18 10 x
    tx := toSigned 32 (bitsAt 32 32 x) }

/-- Change a barrier of the team with an index in a launch. -/
def State.modBarrier (launch team b : Nat) (f : Barrier → Barrier) (s : State) : State :=
  let put (t : Team) : Team := { t with barriers := (List.range t.barriers.length).map (fun i =>
    let x := t.barriers.getD i {}
    if i = b then f x else x) }
  { s with teams := modifyFirst (fun t => t.launch = launch && t.team = team) put s.teams }

/-- The global-space address of a team's image (R322). -/
def State.teamImageAddr (s : State) (part image : Nat) : Nat := s.regField (partBlock part + 0x118) 16 36 * 65536 + 528384 * image

/-- The cluster is saved whole, so that its teams' images hold their barriers (R324). -/
def State.barriersSaved (s : State) (t : Team) : Bool :=
  !t.resident && s.clusters.any (fun c => c.launch = t.launch && c.cluster = t.cluster && c.state = .saved)

/-- An event at a barrier of the team with an index in a launch: one that comes from outside the team, or late, reaches the image of a saved
team too, from which its restore takes the barriers (R166, R192, R290). An image that cannot be written kills the cluster (R321). -/
def State.eventAt (launch team b : Nat) (f : Barrier → Barrier) (s : State) : State :=
  let s := s.modBarrier launch team b f
  match s.teams.find? (fun t => t.launch = launch && t.team = team) with
  | none => s
  | some t =>
    if s.barriersSaved t then
      match s.virtWrite none t.part (s.teamImageAddr t.part t.image + 0x210 + 8 * b) (leBytes 8 (t.barriers.getD b {}).word) with
      | some s' => s'
      | none => s.killCluster launch t.cluster 10 (fun _ => none)
    else s

/-- The barrier a word of the issuing group names. -/
def State.barrierOf (s : State) (w : Fields) : Barrier := ((s.teamOf s.g).barriers).getD (w.immBits 0 6) {}

/-- A barrier number that is not below the team's count: cause 5 (R302). -/
def State.withBarrier (w : Fields) (k : State → State) (s : State) : State :=
  let b := w.immBits 0 6
  if (s.teamOf s.g).barriers.length ≤ b then s.faultAt w { cause := 5, extra := BitVec.ofNat 64 b } else k s

/-- An arrival of the group at a barrier of its own team is not yet applied (R287, R302). -/
def Group.arriving (g : Group) (t : Nat) : Bool :=
  g.entries.any (fun e => !e.done && (e.kind = .localArrival || (e.kind = .remoteArrival && e.work = t)))

/-- The group's team number within its cluster (R139). -/
def Group.teamInCluster (g : Group) : Nat := g.id.team % (g.id.width * g.id.height * g.id.perCore)

/-- A barrier event that waits for the group's earlier arrivals (R302). -/
def State.afterArrivals (k : State → State) (s : State) : State :=
  if s.g.arriving s.g.teamInCluster then s.stalls .other else k s

/-- R303. -/
def execBarInit (w : Fields) (s : State) : Result :=
  s.issue (.barInit w) w ((if w.modBit 5 then [] else s.g.useOf 1 w.a true) ++ (if w.b = {} then [] else s.g.useOf 2 w.b true)) (fun s =>
    s.withBarrier w (fun s =>
      let n := s.uniform w.a (w.modBit 5) (w.immBits 6 10)
      let bytes := toSigned 32 (bitsAt 0 32 (s.uniform w.b (w.b = {}) 0).toNat)
      if n = 0 ∨ 768 < n.toNat then s.faultAt w { cause := 5, extra := n }
      else s.afterArrivals (fun s =>
        (s.modBarrier s.g.id.launch s.g.id.team (w.immBits 0 6) (Barrier.setUp n.toNat (w.modBit 0) bytes)).finish w true)))

/-- R305. -/
def execBarExpect (w : Fields) (s : State) : Result :=
  s.issue (.barExpect w) w (if w.modBit 5 then [] else s.g.useOf 2 w.b true) (fun s =>
    s.withBarrier w (fun s =>
      let bytes : Int := if w.modBit 5 then ((w.immBits 6 10 * 64 : Nat) : Int) else toSigned 32 (bitsAt 0 32 (s.readOp .n64 w.b true 0).toNat)
      s.afterArrivals (fun s =>
        (s.modBarrier s.g.id.launch s.g.id.team (w.immBits 0 6) (Barrier.addTx bytes)).finish w true)))

/-- An arrival takes an in-flight entry and the run goes on (R302, R304, R326); `t` is the target team in the cluster. -/
def State.sendArrival (w : Fields) (kind : EntryKind) (path t : Nat) (s : State) : State :=
  let e : Entry := { id := 0, kind := kind, cls := .d, path := path, mod := w.mod, ty := w.ty, g := true, mask := s.g.lanes w
                     fmt := s.g.fmt, pc := s.g.pc, imm := w.immBits 0 6, work := t, instr := s.g.nextId, lane0 := lowestLane (s.g.lanes w) }
  if s.canTake e then (s.take e).finish w true else s.stalls .record

/-- R289, R302, R304: the local form. -/
def execBarArrive (w : Fields) (s : State) : Result :=
  s.issue (.barArrive w) w [] (fun s => s.withBarrier w (fun s => s.sendArrival w .localArrival 0 s.g.teamInCluster))

/-- R304: the form that names a team of the cluster. -/
def execBarArriveRemote (w : Fields) (s : State) : Result :=
  s.issue (.barArriveRemote w) w (s.g.useOf 1 w.a true) (fun s =>
    s.withBarrier w (fun s =>
      let t := bitsAt 0 8 (s.readOp .n64 w.a true 0).toNat
      if s.g.id.width * s.g.id.height * s.g.id.perCore ≤ t then s.faultAt w { cause := 5, extra := BitVec.ofNat 64 t }
      else s.sendArrival w .remoteArrival 1 t))

/-- The parity that `bar.wait` and `bar.try` name (R306). -/
def State.barParity (s : State) (w : Fields) : Bool :=
  if w.a = {} then w.imm.getLsbD 6 else (s.readOp .n64 w.a true 0).getLsbD 0

/-- The acquire of a completed phase at its barrier's scope (R249, R289). -/
def State.barAcquire (b : Barrier) (s : State) : State := s.acquireDrop s.g.core (if b.scope then 1 else 0)

/-- The wait is satisfied: the phase is not the one named, and every earlier arrival of the group is applied (R288, R302). -/
def State.barSatisfied (s : State) (w : Fields) : Bool :=
  !s.g.arriving s.g.teamInCluster && (s.barrierOf w).phase ≠ s.barParity w

/-- R306. -/
def execBarWait (w : Fields) (s : State) : Result :=
  s.issue (.barWait w) w (if w.a = {} then [] else s.g.useOf 1 w.a true) (fun s =>
    s.withBarrier w (fun s =>
      if s.barSatisfied w then (s.barAcquire (s.barrierOf w)).finish w false else { s with g := s.g.stopRun }))

/-- R306: all ones or zero into a k register; success acquires. -/
def execBarTry (w : Fields) (s : State) : Result :=
  s.issue (.barTry w) w (s.g.useDest w false ++ (if w.a = {} then [] else s.g.useOf 1 w.a true)) (fun s =>
    s.withBarrier w (fun s =>
      s.afterArrivals (fun s =>
        let ok := s.barSatisfied w
        let s := if ok then s.barAcquire (s.barrierOf w) else s
        (s.putResult w false (fun _ => if ok then 0xFFFFFFFF else 0)).finish w false)))

/-! Events. -/

/-- An arrival is applied: the release's cache action with every colour, then the count at the barrier (R289, R304). -/
def State.applyArrival (ctx : Nat) (e : Entry) (s : State) : State :=
  let g := s.group ctx
  let rcv : Option (Nat × Nat × Nat) := if e.kind = .remoteArrival then
      let t := g.id.team / (g.id.width * g.id.height * g.id.perCore) * (g.id.width * g.id.height * g.id.perCore) + e.work
      match s.teams.find? (fun x => x.launch = g.id.launch && x.team = t) with
      | some x => some (3, x.core.die * 100 + x.core.site, 256)
      | none => none
    else none
  if (s.kept e.tag 0 0).isSome then s.complete ctx e.id
  else if rcv.any s.tableFull then s.putEntry ctx { e with retryAt := some (s.time + retryDelay) }
  else
    let r := s.releaseLines g.core 3 0xFF
    if !r.2 then r.1
    else
      let base := g.id.team / (g.id.width * g.id.height * g.id.perCore) * (g.id.width * g.id.height * g.id.perCore)
      ((r.1.complete ctx e.id).keep rcv e.tag 0 0 0).eventAt g.id.launch (base + e.work) e.imm Barrier.arrive

/-- R302: a local arrival is applied once the group's earlier stores and atomics are performed. -/
def execBarrierArrivalApply (ctx id : Nat) (s : State) : Result :=
  .next (s.whenReady ctx id (fun e s =>
    if e.kind = .localArrival && (s.group ctx).status ≠ .saved then s.applyArrival ctx e else s))

/-- R304: a remote arrival is applied at the barrier it names. -/
def execBarrierRemoteArrival (ctx id : Nat) (s : State) : Result :=
  .next (s.whenReady ctx id (fun e s =>
    if e.kind = .remoteArrival && (s.group ctx).status ≠ .saved then s.applyArrival ctx e else s))

end Sys2Proof.Machine
end

