-- ==== Sys2Proof/Machine/Coherence.lean ====
section
/-! DEFINITION. The directory protocol between dies as events (spec 12 R254 to R258, 14 R263), drains (12 R249), walks as
events (10 R200), and slice retirement (10 R208). A message is served in the order R210 and R256 give it; an event that
finds no such message changes nothing. -/
namespace Sys2Proof.Machine
open Sys2Proof

/-! Messages. -/

/-- The virtual network of a message (R255). -/
def MsgKind.network : MsgKind → Nat
  | .getS | .getM | .putM | .putO | .putE => 0
  | .fwdGetS | .fwdGetM | .inv | .cnt | .backInv => 1
  | _ => 2

/-- The stop at which an agent of a line stands. -/
def State.stop (s : State) (a : Agent) (line : Nat) : Nat × Nat :=
  match a with
  | .home => s.homeSlice line
  | .copy d => s.copySlice d line

/-- Two messages run on one network between the same two stops (R210). -/
def State.sameRoute (s : State) (m n : Msg) : Bool :=
  m.kind.network = n.kind.network && s.stop m.src m.line = s.stop n.src n.line && s.stop m.dst m.line = s.stop n.dst n.line

/-- The messages that stand before the first that satisfies `p`, and that message. -/
def splitMsg (p : Msg → Bool) : List Msg → List Msg → Option (List Msg × Msg × List Msg)
  | _, [] => none
  | acc, m :: rest => if p m then some (acc, m, rest) else splitMsg p (acc ++ [m]) rest

/-- A message that can be served now: no earlier one on its route is still under way (R210), or is to be sent again (R208). -/
def State.arriving (s : State) (p : Msg → Bool) : Option (Msg × List Msg) :=
  match splitMsg (fun m => m.retryAt.isNone && p m) [] s.msgs with
  | none => none
  | some (before, m, after) =>
    if m.arrived.isNone && before.any (fun n => n.arrived.isNone && s.sameRoute n m) then none
    else some (m, before ++ after)

/-! The home (R256, R258). -/

/-- The directory entry of a line. -/
def State.dir (s : State) (line : Nat) : Dir := (s.dirs.find? (fun d => d.line = line)).getD { line := line }

/-- Replace a directory entry; one in I is unlisted, and its filter entry is freed (R258). -/
def State.setDir (d : Dir) (s : State) : State :=
  let rest := s.dirs.filter (fun x => x.line ≠ d.line)
  if d.st = .I then { s with dirs := rest, snoops := s.snoops.filter (fun x => x.line ≠ d.line || x.freeing) } else { s with dirs := d :: rest }

/-- The holders that a directory entry lists. -/
def Dir.holders (d : Dir) : List Agent :=
  match d.st with
  | .I => []
  | .S => d.sharers
  | .E | .M => [d.owner]
  | .O => d.owner :: d.sharers.filter (fun a => a ≠ d.owner)

/-- Two lines share a filter set of one home slice (R263). -/
def State.sameFilterSet (s : State) (a b : Nat) : Bool := a % 2048 = b % 2048 && s.homeSlice a = s.homeSlice b

/-- The home evicts a filter entry, or gives a line back: BackInv to every holder (R258). -/
def State.freeEntry (line : Nat) (s : State) : State :=
  let h := (s.dir line).holders
  let s := h.foldl (fun s a => s.send { kind := .backInv, line := line, src := .home, dst := a }) s
  let old := (s.snoops.find? (fun x => x.line = line)).getD { line := line, stamp := s.time }
  if h.isEmpty then (s.setDir { line := line }) 
  else { s with snoops := { old with freeing := true, awaiting := h } :: s.snoops.filter (fun x => x.line ≠ line) }

/-- The filter entries of a line's set. -/
def State.filterSet (s : State) (line : Nat) : List Snoop := s.snoops.filter (fun x => s.sameFilterSet x.line line)

/-- The request needs a filter entry that does not exist yet (R258): a first request from another die. -/
def State.needsEntry (s : State) (m : Msg) : Bool :=
  (m.kind = .getS || m.kind = .getM) && m.src ≠ .home && !s.snoops.any (fun x => x.line = m.line)

/-- The filter entry of a line is used, and allocated at the first GetS or GetM of another die's slice (R258, R263). -/
def State.useEntry (m : Msg) (s : State) : State :=
  if s.snoops.any (fun x => x.line = m.line) then
    { s with snoops := modifyFirst (fun x => x.line = m.line) (fun x => { x with stamp := s.time }) s.snoops }
  else if s.needsEntry m then { s with snoops := { line := m.line, stamp := s.time } :: s.snoops }
  else s

/-- The home serves a request at its directory, by its kind; `rest` are the other messages. It waits where its line's entry
is being freed, where an earlier request of its filter set waits, or where the set is full (R258, R263). A retiring slice
answers with retry (R208). -/
def State.atHome (k : MsgKind) (line : Nat) (a : Agent) (serve : Msg → State → State) (s : State) : State :=
  match s.arriving (fun m => m.kind = k && m.line = line && m.src = a && m.dst = .home) with
  | none => s
  | some (m, rest) =>
    let waits (s : State) : State :=
      if m.arrived.isSome then s
      else { s with nextArrival := s.nextArrival + 1
                    msgs := modifyFirst (fun n => n = m) (fun n => { n with arrived := some s.nextArrival }) s.msgs }
    let ahead (n : Msg) : Bool := match n.arrived, m.arrived with
      | some x, some y => x < y
      | some _, none => true
      | none, _ => false
    if s.retiring (s.homeSlice line) then
      { s with msgs := modifyFirst (fun n => n = m) (fun n => { n with retryAt := some (s.time + retryDelay), arrived := none }) s.msgs }
    else
      if s.snoops.any (fun x => x.line = line && x.freeing) || s.msgs.any (fun n => ahead n && s.sameFilterSet n.line line) then
        waits s
      else if s.needsEntry m && 16 ≤ (s.filterSet line).length then
        let s' := waits s
        if (s.filterSet line).any (·.freeing) then s'
        else
          let lru := (s.filterSet line).foldl (fun n x => Nat.min n x.stamp) s.time
          match (s.filterSet line).find? (fun x => x.stamp = lru) with
          | some x => s'.freeEntry x.line
          | none => s'
      else serve m (State.useEntry m { s with msgs := rest })

/-- The home's array line is used; data read from memory take one, where there is a way (R263). -/
def State.homeTouch (line : Nat) (s : State) : State :=
  if s.homeLines.any (fun h => h.line = line) then
    { s with homeLines := modifyFirst (fun h => h.line = line) (fun h => { h with stamp := s.time }) s.homeLines }
  else
    let r := s.slotFor (s.homeSlice line) line
    if r.2 then
      { r.1 with homeLines := { line := line, data := memLine s.mem line, dirty := false, poison := s.poison.contains line, stamp := s.time }
                              :: r.1.homeLines }
    else r.1

/-- Data from the home's memory-side copy. -/
def State.homeSend (k : MsgKind) (m : Msg) (n : Nat) (s : State) : State :=
  let d := s.homeData m.line
  (s.homeTouch m.line).send
    { kind := k, line := m.line, src := .home, dst := m.src, n := n, data := d.1, poison := d.2 }

/-- GetS at the directory (R256). Of a page that is being flipped to host bias no slice is given a copy: it gets the data alone (R387, R396). -/
def serveGetS (m : Msg) (s : State) : State :=
  let d := s.dir m.line
  if m.src ≠ .home && s.flushing m.line then
    match d.st with
    | .I => (s.homeSend .data m 0).setDir d
    | .S => s.homeSend .data m 0
    | .E | .M => (s.send { kind := .fwdGetS, line := m.line, src := .home, dst := d.owner, req := m.src }).setDir { d with st := .O, sharers := [] }
    | .O => s.send { kind := .fwdGetS, line := m.line, src := .home, dst := d.owner, req := m.src }
  else match d.st with
  | .I => (s.homeSend .dataE m 0).setDir { d with st := .E, owner := m.src, sharers := [] }
  | .S => (s.homeSend .data m 0).setDir { d with sharers := if d.sharers.contains m.src then d.sharers else d.sharers ++ [m.src] }
  | .E | .M => (s.send { kind := .fwdGetS, line := m.line, src := .home, dst := d.owner, req := m.src }).setDir { d with st := .O, sharers := [m.src] }
  | .O => (s.send { kind := .fwdGetS, line := m.line, src := .home, dst := d.owner, req := m.src }).setDir
      { d with sharers := if d.sharers.contains m.src then d.sharers else d.sharers ++ [m.src] }

/-- Inv to each of a list of sharers, for a requester (R256). -/
def State.sendInvs (line : Nat) (req : Agent) (dests : List Agent) (s : State) : State :=
  dests.foldl (fun s a => s.send { kind := .inv, line := line, src := .home, dst := a, req := req }) s

/-- GetM at the directory (R256). -/
def serveGetM (m : Msg) (s : State) : State :=
  let d := s.dir m.line
  let others := d.sharers.filter (fun a => a ≠ m.src)
  let mine : Dir := { line := m.line, st := .M, owner := m.src }
  match d.st with
  | .I => (s.homeSend .data m 0).setDir mine
  | .S => ((s.homeSend .data m others.length).sendInvs m.line m.src others).setDir mine
  | .E | .M => (s.send { kind := .fwdGetM, line := m.line, src := .home, dst := d.owner, req := m.src, n := 0 }).setDir mine
  | .O =>
    if m.src = d.owner then ((s.send { kind := .cnt, line := m.line, src := .home, dst := m.src, n := others.length }).sendInvs m.line m.src others).setDir mine
    else ((s.send { kind := .fwdGetM, line := m.line, src := .home, dst := d.owner, req := m.src, n := others.length }).sendInvs m.line m.src others).setDir mine

/-- A Put at the directory (R256): its data are written when it comes from the owner and carries any. -/
def servePut (m : Msg) (s : State) : State :=
  let d := s.dir m.line
  let fromOwner : Bool := d.owner = m.src && (d.st = .E || d.st = .M || d.st = .O)
  let s := if fromOwner && m.kind ≠ .putE then s.homeStore m.line m.data allBytes m.poison else s
  -- what a slice that is being retired gives up goes on to memory (R208 step 4)
  let s := if s.retiring (s.stop m.src m.line) then (s.homeLines.filter (fun h => h.line = m.line)).foldl (fun s h => s.dropHome h) s else s
  let s := s.send { kind := .putAck, line := m.line, src := .home, dst := m.src }
  if fromOwner then
    if d.st = .O ∧ !d.sharers.isEmpty then s.setDir { d with st := .S, owner := .home } else s.setDir { line := m.line }
  else
    let sh := d.sharers.filter (fun a => a ≠ m.src)
    match d.st with
    | .S => if sh.isEmpty then s.setDir { line := m.line } else s.setDir { d with sharers := sh }
    | .O => s.setDir { d with sharers := sh }
    | _ => s

def execGets (line : Nat) (from_ : Agent) (s : State) : Result := .next (s.atHome .getS line from_ serveGetS)
def execGetm (line : Nat) (from_ : Agent) (s : State) : Result := .next (s.atHome .getM line from_ serveGetM)
def execPutm (line : Nat) (from_ : Agent) (s : State) : Result := .next (s.atHome .putM line from_ servePut)
def execPuto (line : Nat) (from_ : Agent) (s : State) : Result := .next (s.atHome .putO line from_ servePut)
def execPute (line : Nat) (from_ : Agent) (s : State) : Result := .next (s.atHome .putE line from_ servePut)

/-- R258: returned data are merged; after the last answer the entry is freed. -/
def execBackack (line : Nat) (from_ : Agent) (s : State) : Result :=
  .next (match s.arriving (fun m => m.kind = .backAck && m.line = line && m.src = from_) with
    | none => s
    | some (m, rest) =>
      let s := { s with msgs := rest }
      let s := if m.withData then s.homeStore line m.data allBytes m.poison else s
      match s.snoops.find? (fun x => x.line = line && x.freeing) with
      | none => s
      | some x =>
        let left := x.awaiting.erase from_
        if left.isEmpty then { s with snoops := s.snoops.filter (fun y => y.line ≠ line) }.setDir { line := line }
        else { s with snoops := putFirst (fun y => y.line = line) { x with awaiting := left } s.snoops })

/-- The copies of a line come back to its home, and what the home holds of it goes to memory; the flag says that this is done. -/
def State.recallLine (line : Nat) (s : State) : State × Bool :=
  if s.snoops.any (fun x => x.line = line && x.freeing) then (s, false)
  else if !(s.dir line).holders.isEmpty then (s.freeEntry line, false)
  else if s.msgs.any (fun m => m.line = line) then (s, false)
  else match s.homeLines.find? (fun h => h.line = line) with
    | some h => (s.dropHome h, true)
    | none => (s, true)

/-! A cache of the protocol (R257). -/

/-- Keep a forward until the line is stable. -/
def State.deferMsg (c : CLine) (m : Msg) (s : State) : State := s.setCline { c with deferred := c.deferred ++ [m] }

/-- Data of a line to a requester. -/
def State.sendData (c : CLine) (m : Msg) (n : Nat) (s : State) : State :=
  s.send { kind := .data, line := c.line, src := c.agent, dst := m.req, n := n, data := c.data, poison := c.poison }

/-- A forward at a cache. -/
def State.takeForward (c : CLine) (m : Msg) (s : State) : State :=
  let ack : Msg := { kind := .invAck, line := c.line, src := c.agent, dst := m.req }
  let back (withData : Bool) : Msg := { kind := .backAck, line := c.line, src := c.agent, dst := .home, data := c.data, poison := c.poison, withData := withData }
  let go (x : Msg) (st : CState) : State := (s.send x).setCline { c with st := st }
  match m.kind, c.st with
  | .fwdGetS, .E | .fwdGetS, .M | .fwdGetS, .O => (s.sendData c m 0).setCline { c with st := .O, stamp := s.time }
  | .fwdGetS, .MI_A | .fwdGetS, .OI_A => (s.sendData c m 0).setCline { c with st := .OI_A, stamp := s.time }
  | .fwdGetS, .OM_A => if c.counted then s.deferMsg c m else (s.sendData c m 0).setCline { c with stamp := s.time }
  | .fwdGetM, .E | .fwdGetM, .M | .fwdGetM, .O => (s.sendData c m m.n).setCline { c with st := .I }
  | .fwdGetM, .MI_A | .fwdGetM, .OI_A => (s.sendData c m m.n).setCline { c with st := .II_A }
  | .fwdGetM, .OM_A => if c.counted then s.deferMsg c m else (s.sendData c m m.n).setCline { c with st := .IM_AD }
  | .inv, .I | .inv, .S => go ack .I
  | .inv, .IM_AD | .inv, .SM_AD => go ack .IM_AD
  | .inv, .IS_D => s.deferMsg c m
  | .inv, _ => s
  | .backInv, .I => go (back false) .I
  | .backInv, .S | .backInv, .E => go (back false) .I
  | .backInv, .M | .backInv, .O => go (back true) .I
  | .backInv, .MI_A | .backInv, .OI_A => go (back true) .II_A
  | .backInv, .II_A => go (back false) .II_A
  | _, .I | _, .S | _, .II_A => s
  | _, _ => s.deferMsg c m

/-- The forwards that a cache kept are answered in order of arrival, now that its line is stable. -/
def State.answerDeferred (a : Agent) (line : Nat) (s : State) : State :=
  let c := s.cline a line
  c.deferred.foldl (fun s m => s.takeForward (s.cline a line) m) (s.setCline { c with deferred := [] })

/-- What a copy slice held for its line, which has become stable, is served (R257): the write-backs merge into a line that it may write, the
reads are served once, and then the forwards are answered. Nothing of a page that is being flipped is filled (R387). -/
def State.serveHeld (a : Agent) (line : Nat) (s : State) : State :=
  let c := s.cline a line
  let merge (s : State) (k : CoreId) : State :=
    match s.l1Find k { peer := none, part := 0, line := line } with
    | some l =>
      if l.dirty = 0 then s
      else ((s.setCline { s.cline a line with st := .M }).sliceMerge a line l.data l.dirty l.poison).notePlain (maskBytes line l.dirty)
        |>.l1Set k { l with dirty := 0, colours := 0 }
    | none => s
  let fill (s : State) (f : HeldFill) : State :=
    let d := s.cline a line
    (s.l1Fill f.core { peer := none, part := 0, line := line } (s.blur line d.data) d.poison f.shared f.wide f.vline f.part).1
  let s := s.setCline { c with fills := [], writers := [] }
  let s := if c.st = .M || c.st = .E then c.writers.foldl merge s else s
  let s := if s.flushing line || !c.st.hits then s else c.fills.foldl fill s
  s.answerDeferred a line

/-- A forward's event: the oldest deferred one of a stable line when it is of this kind, else one that arrives; behind
deferred ones it is deferred too. -/
def State.forward (k : MsgKind) (line : Nat) (a : Agent) (s : State) : State :=
  let c := s.cline a line
  let arrive : State :=
    match s.arriving (fun m => m.kind = k && m.line = line && m.dst = a) with
    | none => s
    | some (m, rest) =>
      if c.deferred.isEmpty then { s with msgs := rest }.takeForward c m else { s with msgs := rest }.deferMsg c m
  match c.deferred with
  | m :: more => if c.st.stable && m.kind = k then s.takeForward { c with deferred := more } m else arrive
  | [] => arrive

def execFwdgets (line : Nat) (at_ : Agent) (s : State) : Result := .next (s.forward .fwdGetS line at_)
def execFwdgetm (line : Nat) (at_ : Agent) (s : State) : Result := .next (s.forward .fwdGetM line at_)
def execInv (line : Nat) (at_ : Agent) (s : State) : Result := .next (s.forward .inv line at_)
def execBackinv (line : Nat) (at_ : Agent) (s : State) : Result := .next (s.forward .backInv line at_)

/-- A response at a cache: data, counts and acknowledgements. -/
def CLine.respond (c : CLine) (m : Msg) : CLine :=
  let withData := { c with data := m.data, poison := m.poison }
  let after (c : CLine) (full partial_ : CState) : CLine := if c.need = some c.acks then { c with st := full } else { c with st := partial_ }
  match m.kind, c.st with
  | .data, .IS_D => { withData with st := .S }
  | .dataE, .IS_D => { withData with st := .E }
  | .data, .IM_AD => after { withData with need := some m.n } .M .IM_A
  | .data, .SM_AD => after { withData with need := some m.n } .M .SM_A
  | .cnt, .OM_A => after { c with need := some m.n, counted := true } .M .OM_A
  | .invAck, .IM_AD => { c with acks := c.acks + 1 }
  | .invAck, .SM_AD => { c with acks := c.acks + 1 }
  | .invAck, .IM_A => after { c with acks := c.acks + 1 } .M .IM_A
  | .invAck, .SM_A => after { c with acks := c.acks + 1 } .M .SM_A
  | .invAck, .OM_A => after { c with acks := c.acks + 1 } .M .OM_A
  | .putAck, .MI_A | .putAck, .OI_A | .putAck, .II_A => { c with st := .I }
  | _, _ => c

/-- A response's event. -/
def State.response (k : MsgKind) (line : Nat) (a : Agent) (s : State) : State :=
  match s.arriving (fun m => m.kind = k && m.line = line && m.dst = a) with
  | none => s
  | some (m, rest) =>
    let c := (s.cline a line).respond m
    let c := if k = .data || k = .dataE then { c with stamp := s.time } else c
    let was := (s.cline a line).st
    let s := { s with msgs := rest }.setCline c
    match a with
    | .home => s
    | .copy _ =>
      if !c.st.stable then s
      else
        let s := s.serveHeld a line
        if was = .IS_D && s.flushing line then s.setCline { s.cline a line with st := .I } else s

def execCnt (line : Nat) (at_ : Agent) (s : State) : Result := .next (s.response .cnt line at_)
def execData (line : Nat) (at_ : Agent) (s : State) : Result := .next (s.response .data line at_)
def execDatae (line : Nat) (at_ : Agent) (s : State) : Result := .next (s.response .dataE line at_)
def execInvack (line : Nat) (at_ : Agent) (s : State) : Result := .next (s.response .invAck line at_)
def execPutack (line : Nat) (at_ : Agent) (s : State) : Result := .next (s.response .putAck line at_)

/-! Drains (R249). -/

/-- R249: the core writes home its dirty global lines of the record's colours, and is done when all are written. -/
def execDrain (line : Nat) (core : CoreId) (s : State) : Result :=
  .next (match s.releasers.find? (fun r => r.line = line && r.core = core && r.draining && !r.drained) with
    | none => s
    | some r =>
      let x := s.writeBackAll core (fun l => l.peer.isNone && l.colours &&& r.mask ≠ 0)
      if x.2 then { x.1 with releasers := modifyFirst (fun y => y = r) (fun y => { y with drained := true }) x.1.releasers } else x.1)

/-- R249: the home frees the drained entry. -/
def execDrainack (line : Nat) (core : CoreId) (s : State) : Result :=
  .next { s with releasers := dropFirst (fun r => r.line = line && r.core = core && r.draining && r.drained) s.releasers }

/-! Walks (R200, R202). -/

/-- R200: a die's walker walks the tables for a page; the translation enters the core's and the die's TLB, a fault nothing. -/
def execTranslationWalk (core : CoreId) (part : Nat) (va : Nat) (s : State) : Result :=
  .next (if Config.dies ≤ core.die ∨ Config.sites ≤ core.site ∨ Config.partitions ≤ part ∨ 2 ^ 52 ≤ va then s
    else if (tlbFind (s.core core).tlb part va).isSome then s
    else (s.translate core part va .read).1)

/-! Slice retirement (R208). -/

/-- The slices of an edge column (R209): 0 to 7 or 8 to 15. -/
def columnSlices (slice : Nat) : List Nat := (List.range 8).map (fun i => slice / 8 * 8 + i)

/-- A slice's status record. -/
def State.slice (s : State) (d n : Nat) : Slice := (s.slices.find? (fun x => x.die = d && x.slice = n)).getD { die := d, slice := n }
/-- Replace a slice's status record. -/
def State.setSlice (x : Slice) (s : State) : State := { s with slices := putFirst (fun y => y.die = x.die && y.slice = x.slice) x s.slices }

/-- The retired slices of an edge column. -/
def State.retiredOf (s : State) (d n : Nat) : List Nat := (columnSlices n).filter (fun i => (s.slice d i).retired)

/-- The buckets of a slice dealt in turn to the non-retired slices of its column (R208 step 5). -/
def State.dealBuckets (d n : Nat) (s : State) : State :=
  let heirs := (columnSlices n).filter (fun i => i ≠ n && !(s.slice d i).retired)
  let mine := (List.range 1024).filter (fun j => s.sliceOf d j = n)
  if heirs.isEmpty then s
  else
    let dealt : List (Nat × Nat × Nat) := (mine.zip (List.range mine.length)).map (fun x => (d, x.1, heirs.getD (x.2 % heirs.length) n))
    { s with sliceMap := dealt ++ s.sliceMap.filter (fun e => !(e.1 = d && mine.contains e.2.1)) }

/-- A request for retirement: RETIRE is set, unless six slices of the column are retired, which is logged (R208). -/
def State.requestRetire (d n : Nat) (s : State) : State :=
  if (s.slice d n).retired || (s.slice d n).retire then s
  else if 6 ≤ ((columnSlices n).filter (fun i => (s.slice d i).retired || (s.slice d i).retire)).length then
    s.moduleError
  else s.setSlice { s.slice d n with retire := true }

/-- A line that a slice holds as the copy of its die. -/
def State.copyIn (s : State) (die slice : Nat) (c : CLine) : Bool := c.agent = .copy die && s.copySlice die c.line = (die, slice)

/-- R208: retirement goes on: records are drained, holders are invalidated, what the slice holds of lines homed elsewhere leaves it, dirty
lines go to memory, the buckets are dealt. A drain may itself need the slice, so that the later steps do not wait for it (log 41). -/
def execSliceRetire (die slice : Nat) (s : State) : Result :=
  .next (if !s.retiring (die, slice) then s
    else
      let here (line : Nat) : Bool := s.homeSlice line = (die, slice)
      if s.releasers.any (fun r => here r.line && !r.draining) then
        { s with releasers := s.releasers.map (fun r => if here r.line then { r with draining := true } else r) }
      else if s.snoops.any (fun x => here x.line && x.freeing) then s
      else match s.dirs.find? (fun d => here d.line && !d.holders.isEmpty) with
        | some d => s.freeEntry d.line
        | none =>
          if s.msgs.any (fun m => here m.line && m.retryAt.isNone && m.kind.network ≠ 0) then s
          else match s.clines.find? (s.copyIn die slice) with
          | some c => (s.evictCopy c).1
          | none =>
            let s := (s.homeLines.filter (fun h => here h.line)).foldl (fun s h => s.dropHome h) s
            let s := { s with peerCopies := s.peerCopies.filter (fun x => !(x.die = die && s.copySlice die x.number = (die, slice))) }
            ((s.dealBuckets die slice).setSlice { s.slice die slice with retired := true }).moduleError)

/-- R208: a request answered with retry is sent again after its delay; it keeps its place among the requests of its path. -/
def execRetirementRetry (line : Nat) (from_ : Agent) (s : State) : Result :=
  let again (m : Msg) : Msg := { m with retryAt := none, arrived := none }
  .next { s with msgs := modifyFirst (fun m => m.line = line && m.src = from_ && m.retryAt.any (· ≤ s.time)) again s.msgs }

end Sys2Proof.Machine
end

