-- ==== Sys2Proof/Machine/Engines.lean ====
section
/-! DEFINITION. The copy and gather engines at work (spec 15 R266, R276 to R286, R290, 16 R307 to R309): accepted starts,
chunks, bags, and what a failure after the start does. -/
namespace Sys2Proof.Machine
open Sys2Proof

/-! Starts. -/

/-- The commands of a channel in start order: the first runs, a second one is queued (R276, R283, R366). -/
def State.channelWorks (s : State) (kind : WorkKind) (core : CoreId) (channel : Nat) : List Work :=
  s.works.filter (fun x => x.kind = kind && x.core = core && x.channel = channel)

/-- The next register write of a start entry: its lane, its element, what it writes. -/
def Entry.nextWrite (e : Entry) : Option (LaneAcc × Nat × BitVec 64) :=
  (e.lanes.find? (fun a => !a.performed)).map (fun a => (a, a.va a.got.length, (a.data.getD a.got.length 0).setWidth 64))

/-- What the start of a lane captured, without the command's number, and the number. -/
def Entry.captured (e : Entry) (a : LaneAcc) : Captured × Nat :=
  let l := a.data.drop (e.elems a)
  (l.dropLast, (l.getLastD 0).toNat)

/-- The core's table of start tags (R330). -/
def startTable (c : CoreId) : Nat × Nat × Nat := (2, c.die * 100 + c.site, 64)

/-- A register write is performed: the core keeps the tag, and after the last one the entry completes. -/
def State.wroteStart (ctx : Nat) (e : Entry) (a : LaneAcc) (s : State) : State :=
  let c := (s.group ctx).core
  let s := if (s.kept e.tag 0 0).isSome then s else s.keep (some (startTable c)) e.tag 0 0 0
  let e := e.note a 0 none
  if e.performed then s.complete ctx e.id else s.putEntry ctx e

/-- An engine start entry's event: its next register write, when nothing holds it and the core's table has room (R330). -/
def State.whenWriting (ctx id : Nat) (s : State) (k : Entry → LaneAcc → Nat → BitVec 64 → State → State) : State :=
  s.whenReady ctx id (fun e s =>
    match e.kind, e.nextWrite with
    | .engineStart, some (a, off, v) =>
      if (s.group ctx).status = .saved then s
      else if (s.kept e.tag 0 0).isNone && s.tableFull (startTable (s.group ctx).core) then
        s.putEntry ctx { e with retryAt := some (s.time + retryDelay) }
      else k e a off v s
    | _, _ => s)

/-- Another group has a start on a copy channel that is not yet performed: an offset write waits, so that the start uses the
registers that its checks saw (R266). -/
def State.startPending (s : State) (ctx : Nat) (core : CoreId) (channel : Nat) : Bool :=
  s.groups.any (fun g => g.core = core && g.id.ctx ≠ ctx && g.entries.any (fun e => e.kind = .engineStart && !e.done
    && e.lanes.any (fun a => a.got.isEmpty && apertureAt (a.va 0) = .copy channel)))

/-- R266: an offset or count register of a copy channel is written. -/
def execApertureRegisterWrite (ctx id : Nat) (s : State) : Result :=
  .next (s.whenWriting ctx id (fun e a off v s =>
    let core := (s.group ctx).core
    match apertureAt off with
    | .offset c word =>
      if s.startPending ctx core c then s
      else
        let k := s.core core
        let put (x : Channel) : Channel := x.put word v
        (s.setCore core { k with channels := (s.channels core).modify c put }).wroteStart ctx e a
    | _ => s))

/-- A start is accepted when its channel holds fewer than two commands: the command's entry has been reserved since the start's issue
(R265, R276, R283). -/
def State.canAccept (s : State) (ctx : Nat) (kind : WorkKind) (core : CoreId) (channel : Nat) : Bool :=
  (s.channelWorks kind core channel).length < 2 && ((s.group ctx).emptySlots 1).isSome

/-- An accepted command holds a class-C entry that no counter counts, until it completes (R265). -/
def State.acceptWork (ctx : Nat) (e : Entry) (x : Work) (s : State) : State :=
  let g := s.group ctx
  let c : Entry := { id := g.nextId, kind := if x.kind = .copy then .copy else .gather, cls := .c, path := 6, counted := false
                     slot := (g.emptySlots 1).getD 0, g := e.g, mask := e.mask, pc := e.pc, instr := g.nextId, lane0 := e.lane0
                     work := x.id, handler := e.handler }
  { s with works := s.works ++ [{ x with entry := g.nextId }] }.modGroup ctx
    (fun g => { g with entries := g.entries ++ [c], nextId := g.nextId + 1 })

/-- A start whose block is found wrong at its acceptance fails against its `st` (R309, R366). -/
def State.failStart (ctx : Nat) (e : Entry) (f : StartFault) (s : State) : State :=
  let r : FaultRec := { cause := f.cause, kind := 4, pc := e.pc, mask := e.mask, lane := if e.g then e.lane0 else lowestLane e.mask
                        addr := f.addr, extra := f.extra, ptr := f.ptr }
  let mute (x : Entry) : Entry := if x.instr = e.instr then { x with muted := true } else x
  let s := (s.modGroup ctx (fun g => { g with entries := g.entries.map mute })).complete ctx e.id
  if e.muted then s else s.faultAfter ctx r

/-- R276, R277, R280: a copy start is performed once its channel accepts it. -/
def execCopyStart (ctx id : Nat) (s : State) : Result :=
  .next (s.whenWriting ctx id (fun e a off _ s =>
    let core := (s.group ctx).core
    match apertureAt off with
    | .copy c =>
      if s.canAccept ctx .copy core c then
        let x := e.captured a
        let word (i : Nat) : BitVec 64 := (x.1.getD i 0).setWidth 64
        let work : Work := { id := x.2, kind := .copy, core := core, channel := c, ctx := ctx, block := unpackWords (x.1.take 8)
                             srcOff := word 8, dstOff := word 9, count := word 10, tag := e.tag, lane := a.lane }
        (s.acceptWork ctx e work).wroteStart ctx e a
      else s
    | _ => s))

/-- R283, R309: a gather start is performed once its channel accepts it; the block is read again then. -/
def execGatherStart (ctx id : Nat) (s : State) : Result :=
  .next (s.whenWriting ctx id (fun e a off v s =>
    let core := (s.group ctx).core
    match apertureAt off with
    | .gather c =>
      if s.canAccept ctx .gather core c then
        match (s.focus ctx).gatherStart c v with
        | .error f => s.failStart ctx e f
        | .ok b =>
          let work : Work := { id := (e.captured a).2, kind := .gather, core := core, channel := c, ctx := ctx, block := unpackWords b
                               off := v.toNat, tag := e.tag, lane := a.lane }
          (s.acceptWork ctx e work).wroteStart ctx e a
      else s
    | _ => s))

/-! Completion and failure. -/

/-- A command leaves a group's copy batches; a closed batch with none left is complete (R282). -/
def Group.workDone (x : Nat) (g : Group) : Group :=
  { g with openCopy := g.openCopy.filter (· ≠ x)
           copyBatches := (g.copyBatches.map (fun b => (b.1, b.2.filter (· ≠ x)))).filter (fun b => !b.2.isEmpty) }

/-- Tags of a group's sends may be used again (R331). -/
def State.freeTags (ctx : Nat) (tags : List (BitVec 64)) (s : State) : State :=
  s.modGroup ctx (fun g => { g with liveTags := g.liveTags.filter (fun t => !tags.contains t) })

/-- The command's channel and its class-C entry are freed, and the tags of its sends. -/
def State.freeWork (x : Work) (s : State) : State :=
  ({ s with works := s.works.filter (fun y => y.id ≠ x.id) }.complete x.ctx x.entry).freeTags x.ctx (x.sends.map Prod.snd)

/-- A command completes (R282). -/
def State.finishWork (x : Work) (s : State) : State := (s.freeWork x).modGroup x.ctx (Group.workDone x.id)

/-- A command keeps its state. -/
def State.putWork (x : Work) (s : State) : State := { s with works := modifyFirst (fun y => y.id = x.id) (fun _ => x) s.works }
/-- A command's state is changed. -/
def State.modWork (id : Nat) (f : Work → Work) (s : State) : State := { s with works := modifyFirst (fun y => y.id = id) f s.works }
/-- A command as it stands now. -/
def State.workNow (s : State) (x : Work) : Work := (s.works.find? (fun y => y.id = x.id)).getD x

/-- Why an engine stops: a fault, or poison read at an element, with the PCHK of its page. -/
inductive Halt where
  | fault (f : StartFault)
  | poison (pchk : Bool) (f : StartFault)
  deriving DecidableEq, Repr

/-- The fault record of a command's failure, against its starting `st` (R281). -/
def Work.faultRec (x : Work) (s : State) (f : StartFault) : FaultRec :=
  let e := (s.entry x.ctx x.entry).getD { id := 0, kind := .copy, cls := .c, path := 6 }
  { cause := f.cause, kind := 4, pc := e.pc, mask := e.mask, lane := if e.g then e.lane0 else lowestLane e.mask, addr := f.addr
    extra := f.extra, ptr := f.ptr }

/-- A command that waits for host service (R203, R281): the record is written and an entry goes to the fault ring. What fails is translated
anew when it goes on. -/
def State.holdWork (x : Work) (r : FaultRec) (s : State) : State :=
  let g := s.group x.ctx
  let w := (s.keepRecord g).imageWrite g 0x40 (g.stamp r).bytes
  if !w.2 then s.killCtx x.ctx 10
  else match w.1.entry x.ctx x.entry with
    | none => s
    | some e =>
      ((w.1.putEntry x.ctx { e with hostWait := true }).modWork x.id (fun y => { y with held := some r, pages := [], wpages := [] })).faultFor
        { part := g.id.part, ctx := x.ctx, source := .entry e.id, addr := r.addr
          words := [BitVec.ofNat 64 (s.imageAddr g + 0x40), BitVec.ofNat 64 x.ctx, r.addr, 0] }

/-- A command is given up: its channel and entry are freed, and its group takes the fault at its next run boundary, after its restore when it is
saved; of a group that has ended the fault is recorded (R5, R281, log 43). -/
def State.abandonWork (x : Work) (r : FaultRec) (s : State) : State :=
  let s := s.freeWork x
  match (s.group x.ctx).status with
  | .resident | .saved => s.modGroup x.ctx (Group.atBoundary r)
  | _ => s.faultAfter x.ctx r

/-- A command that cannot go on (R281): it waits for the host, or it is abandoned; poison with PCHK = 0 kills the cluster (R215). -/
def State.haltWork (x : Work) (h : Halt) (s : State) : State :=
  let abandon (f : StartFault) : State :=
    let r := x.faultRec s f
    (if f.cause = 18 then s.noteLost (Ptr.anchor f.ptr) else s).abandonWork x r
  match h with
  | .poison false _ => s.killCtx x.ctx 3
  | .poison true f => abandon f
  | .fault f =>
    if (f.cause = 8 || f.cause = 9) && Ptr.space f.ptr = 4 && s.pfmode (s.group x.ctx).id.part && !s.faultsFull then
      s.holdWork x (x.faultRec s f)
    else abandon f

/-! Elements through the L1 (R280). -/

/-- What a sequence of element accesses comes to: values, a wait, or a halt. -/
abbrev Elems := Except (Option Halt) (List (BitVec 128))

/-- An entry that stands for an engine's access at one element: the command's class-C entry, with the pages and the target. What another
module holds is open: its answer is a free value (log 32). -/
def engineEntry (s : State) (id : Nat) (write : Bool) (pages : List Translation) (p : Ptr) (i : Int) (data : List (BitVec 128)) : Entry :=
  { id := id, kind := if write then .store else .load, cls := .i, path := 6, pages := pages, anchor := Ptr.anchor p, sentAt := some s.time
    lanes := [{ lane := 0, ptr := p, index := BitVec.ofInt 64 i, data := data }] }

/-- A failed attempt of an engine at an element. -/
def engineHalt (p : Ptr) (i : Int) (cause : Nat) (extra : BitVec 64) : Option Halt :=
  some (.fault { cause := cause, extra := extra, addr := BitVec.ofInt 64 (Ptr.elemAddr p i), ptr := p })

/-- Poison that an engine meets at an element: the record names the element (R35, R281). -/
def enginePoison (p : Ptr) (i : Int) (pchk : Bool) : Option Halt :=
  some (.poison pchk { cause := 10, addr := BitVec.ofInt 64 (Ptr.elemAddr p i), ptr := p })

/-- An element that goes byte by byte is tried until it is performed or cannot go on (R250); poison met at a byte of it is poison of the
element. -/
def engineTry (f : Entry → LaneAcc → State → State × Entry × Attempt) : Nat → Entry → State → State × Attempt
  | 0, _, s => (s, .wait)
  | n + 1, e, s =>
    match e.lanes.head? with
    | none => (s, .wait)
    | some a =>
      match f e a s with
      | (s, e', .wait) => if e'.lanes = e.lanes then (s, .wait) else engineTry f n e' s
      | (s, e', .got v z) => (s, .got v (worsePoison e'.poison z))
      | (s, _, .failed c x) => (s, .failed c x)

/-- An element read as the starting group's load (R280). -/
def State.engineLoad (g : Group) (id : Nat) (pages : List Translation) (p : Ptr) (i : Int) (s : State) : State × Except (Option Halt) (BitVec 128) :=
  let r := engineTry (fun e a s => s.loadPrivate g e a 0 (.data [Config.freeValue 128 s.free 16384])) 17 (engineEntry s id false pages p i []) s
  let s := if Ptr.space p = 5 then { r.1 with free := r.1.free + 1 } else r.1
  (s, match r.2 with
    | .wait => .error none
    | .failed c x => .error (engineHalt p i c x)
    | .got _ (some pchk) => .error (enginePoison p i pchk)
    | .got v none => .ok v)

/-- Elements of a pointer read one after another. -/
def State.engineLoads (g : Group) (id : Nat) (pages : List Translation) (p : Ptr) : List Int → State → State × Elems
  | [], s => (s, .ok [])
  | i :: rest, s =>
    match s.engineLoad g id pages p i with
    | (s, .error h) => (s, .error h)
    | (s, .ok v) =>
      match State.engineLoads g id pages p rest s with
      | (s, .ok vs) => (s, .ok (v :: vs))
      | r => r

/-- An element of a sized format written as the starting group's store (R280). -/
def State.enginePut (g : Group) (id : Nat) (pages : List Translation) (p : Ptr) (x : Int × BitVec 128) (s : State) : State × Except (Option Halt) Unit :=
  let r := engineTry (fun e a s => s.storePrivate g e a 0) 17 (engineEntry s id true pages p x.1 [x.2]) s
  (r.1, match r.2 with
    | .wait => .error none
    | .failed c y => .error (engineHalt p x.1 c y)
    | .got _ _ => .ok ())

/-- Writes one after another. -/
def State.enginePuts (g : Group) (id : Nat) (pages : List Translation) (p : Ptr) : List (Int × BitVec 128) → State → State × Except (Option Halt) Unit
  | [], s => (s, .ok ())
  | x :: rest, s =>
    match s.enginePut g id pages p x with
    | (s, .error h) => (s, .error h)
    | (s, .ok ()) => State.enginePuts g id pages p rest s

/-- An nq4 element is written: its nibble beside the other of its byte, its block's code and its superblock's scale (R52, R279, log 63). -/
def State.engineNq4 (g : Group) (id : Nat) (pages : List Translation) (p : Ptr) (x : Int × BitVec 128) (s : State) : State × Except (Option Halt) Unit :=
  let bytes := Ptr.set p 104 6 0x00
  let at_ (k : Nat) : Int := ((((elemRanges p x.1).map (·.1)).getD k 0 : Nat) : Int) - Ptr.base p
  match s.engineLoad g id pages bytes (at_ 0) with
  | (s, .error h) => (s, .error h)
  | (s, .ok old) =>
    let nib := x.2.toNat % 16
    let new := if x.1 % 2 = 0 then old.toNat / 16 % 16 * 16 + nib else old.toNat % 16 + 16 * nib
    s.enginePuts g id pages bytes ([(at_ 0, BitVec.ofNat 128 new), (at_ 2, BitVec.ofNat 128 (bitsAt 8 8 x.2.toNat))]
      ++ (List.range 4).map (fun (j : Nat) => (at_ 1 + (j : Int), BitVec.ofNat 128 (bitsAt (16 + 8 * j) 8 x.2.toNat))))

/-- Elements of a pointer written as the starting group's stores (R280): those left, and what stopped them. -/
def State.engineStores (g : Group) (id : Nat) (pages : List Translation) (p : Ptr) :
    List (Int × BitVec 128) → State → State × List (Int × BitVec 128) × Except (Option Halt) Unit
  | [], s => (s, [], .ok ())
  | x :: rest, s =>
    match (if Ptr.efmt p = efNq4 then s.engineNq4 g id pages p x else s.enginePut g id pages p x) with
    | (s, .error h) => (s, x :: rest, .error h)
    | (s, .ok ()) => State.engineStores g id pages p rest s

/-- What a command has read, and converted, is written; what is left stays with it (R281). -/
def State.writeRead (g : Group) (x : Work) (pages : List Translation) (p : Ptr) (s : State) : State × Except (Option Halt) Unit :=
  match s.engineStores g x.entry pages p (s.workNow x).data with
  | (s, left, r) => (s.modWork x.id (fun y => { y with data := left }), r)

/-- A command's chunk or bag has read all that it writes (R281). -/
def State.haveRead (x : Work) (vals : List (Int × BitVec 128)) (s : State) : State :=
  s.modWork x.id (fun y => { y with read := true, data := vals })

/-- The pages of elements of a pointer, for global space. -/
def State.enginePages (core : CoreId) (part : Nat) (r : Right) (p : Ptr) (is : List Int) (s : State) :
    State × Except (Option Halt) (List Translation) :=
  match State.translateLanes core part r (is.map (fun i => { lane := 0, ptr := p, index := i, count := 1 })) s with
  | (s, .ok ts) => (s, .ok ts)
  | (s, .error f) => (s, .error (some (.fault { cause := f.2.cause, extra := f.2.extra, addr := f.2.addr, ptr := p })))

/-- The pages of elements for a command: those of its chunk or bag under way keep their translations, which `tlbinv` does not change (R351); the
others are translated now, and kept. -/
def State.workPages (g : Group) (x : Work) (r : Right) (p : Ptr) (is : List Int) (s : State) :
    State × Except (Option Halt) (List Translation) :=
  let y := s.workNow x
  let held := if r = .read then y.pages else y.wpages
  let has (vpn : Nat) : Bool := held.any (fun t => t.vpn = vpn)
  let lacks (i : Int) : Bool := ((elemRanges p i).map pageStarts).flatten.any (fun va => !has (va / 4096))
  match s.enginePages x.core g.id.part r p (is.filter lacks) with
  | (s, .error h) => (s, .error h)
  | (s, .ok ts) =>
    let pages := ts.filter (fun t => !has t.vpn) ++ held
    (s.modWork x.id (fun y => if r = .read then { y with pages := pages } else { y with wpages := pages }), .ok pages)

/-- The L1 names of the lines where elements of a pointer lie. -/
def engineKeys (g : Group) (pages : List Translation) (p : Ptr) (is : List Int) : List LineKey :=
  (is.map (fun i =>
    let va := (Ptr.elemAddr p i).toNat
    let e : Entry := { id := 0, kind := .store, cls := .i, path := 6, pages := pages }
    if Ptr.space p = 5 then peerKey g p va else globalKey (e.phys va / 128))).eraseDups

/-- A value of one element format as a value of another (R279, R284). -/
def engineConvert (from_ to_ : Nat) (x : BitVec 128) : BitVec 128 :=
  if from_ = to_ then x
  else match efNum from_, efNum to_ with
    | some a, some b => if isFloatFmt from_ && isFloatFmt to_ then BitVec.ofNat 128 (convert a b FCtx.engine x.toNat).1 else x
    | _, _ => x

/-! Copies. -/

/-- Where the value of a destination element comes from: an element, the pad value, or for a codebook-4 fragment two nibbles, a
block code, or a byte of a scale (R278). -/
inductive CopySrc where
  | elem (i : Int)
  | pad
  | pair (i : Int)
  | code (i : Int)
  | scale (i : Int) (byte : Nat)
  | zero
  deriving DecidableEq, Repr

/-- The source elements it reads. -/
def CopySrc.reads : CopySrc → List Int
  | .elem i | .code i | .scale i _ => [i]
  | .pair i => [i, i + 1]
  | .pad | .zero => []

/-- Its value from what was read. -/
def CopySrc.value (t : Template) (vs : List (BitVec 128)) : CopySrc → BitVec 128
  | .elem _ => engineConvert (Ptr.efmt t.src) (Ptr.efmt t.dst) (vs.getD 0 0)
  | .pad => BitVec.ofNat 128 (t.pad % 2 ^ (8 * Ptr.size t.dst))
  | .pair _ => BitVec.ofNat 128 ((vs.getD 0 0).toNat % 16 + 16 * ((vs.getD 1 0).toNat % 16))
  | .code _ => BitVec.ofNat 128 (bitsAt 8 8 (vs.getD 0 0).toNat)
  | .scale _ b => BitVec.ofNat 128 (bitsAt (16 + 8 * b) 8 (vs.getD 0 0).toNat)
  | .zero => 0

/-- A codebook-4 A fragment (R278, R269): bytes of the shares and of the scale block, with the destination bytes from `dO`. -/
def Template.blockPlan (t : Template) (srcOff dO : Int) (covr : Nat) : List (Int × CopySrc) :=
  let l := t.walk covr
  let rows := (l.getD 1 (0, 0, 0)).1
  let k := (l.getD 0 (0, 0, 0)).1
  let size := rows * k / 2
  let start (m : Nat) : Int := srcOff + (m : Int) * (l.getD 1 (0, 0, 0)).2.1
  let body := ((List.range rows).map (fun m => (List.range (k / 2)).map (fun b =>
    (dO + ((m % t.rbR * (size / t.rbR) + m / t.rbR * (k / 2) + b : Nat) : Int), CopySrc.pair (start m + (2 * b : Nat)))))).flatten
  let scale := (List.range 512).map (fun b =>
    (dO + ((size + b : Nat) : Int), if b < rows then CopySrc.code (start b)
      else if 128 ≤ b && b < 128 + 4 * rows then CopySrc.scale (start ((b - 128) / 4)) ((b - 128) % 4) else CopySrc.zero))
  body ++ scale

/-- Destination and source of the `n`-th element of a walk (R278). -/
def Template.step (t : Template) (srcOff dO : Int) (covr n : Nat) : Int × CopySrc :=
  let l := t.walk covr
  let a := walkAt l n
  let i := srcOff + a.1
  if t.xform = 3 then
    let k := (l.getD 0 (0, 0, 0)).1
    let m := n / k
    let share := fragBytes t.rbFmt (walkTotal l) 1 / t.rbR / Ptr.size t.dst
    (dO + ((m % t.rbR * share + m / t.rbR * k + n % k : Nat) : Int), .elem i)
  else (dO + a.2, if t.xform = 2 && (i < 0 || (Ptr.length t.src : Int) ≤ i) then .pad else .elem i)

/-- A copy writes a codebook-4 A fragment, in one chunk. -/
def Template.packs (t : Template) : Bool := t.xform = 3 && t.rbFmt = 6 && !t.rbB

/-- Elements that a chunk holds (R281). -/
def Template.perChunk (t : Template) : Nat := 4096 / Ptr.size t.dst

/-- Chunks of a copy. -/
def Template.chunks (t : Template) (covr : Nat) : Nat :=
  if t.packs then (if walkTotal (t.walk covr) = 0 then 0 else 1) else (walkTotal (t.walk covr) + t.perChunk - 1) / t.perChunk

/-- The elements of chunk `k`, in walk order. -/
def Template.chunk (t : Template) (srcOff dO : Int) (covr k : Nat) : List (Int × CopySrc) :=
  if t.packs then t.blockPlan srcOff dO covr
  else
    let first := k * t.perChunk
    (List.range (Nat.min t.perChunk (walkTotal (t.walk covr) - first))).map (fun n => t.step srcOff dO covr (first + n))

/-- The values of a chunk's elements. -/
def State.chunkValues (g : Group) (id : Nat) (pages : List Translation) (t : Template) : List (Int × CopySrc) → State → State × Except (Option Halt) (List (Int × BitVec 128))
  | [], s => (s, .ok [])
  | (i, c) :: rest, s =>
    match s.engineLoads g id pages t.src c.reads with
    | (s, .error h) => (s, .error h)
    | (s, .ok vs) =>
      match State.chunkValues g id pages t rest s with
      | (s, .ok l) => (s, .ok ((i, c.value t vs) :: l))
      | r => r

/-- Lines are written from an L1 to their slices or homes. -/
def State.flushKeys (core : CoreId) (keys : List LineKey) (s : State) : State × Bool := s.writeBackAll core (fun l => keys.contains l.key)

/-- The translations of a chunk, made when it begins; the flag of the command says that they stand (R281, R351). -/
def State.chunkPages (g : Group) (x : Work) (t : Template) (reads writes : List Int) (s : State) : State × Except (Option Halt) Work :=
  if x.begun then (s, .ok x)
  else match s.enginePages x.core g.id.part .read t.src reads with
    | (s, .error h) => (s, .error h)
    | (s, .ok rs) =>
      match s.enginePages x.core g.id.part .write t.dst writes with
      | (s, .error h) => (s, .error h)
      | (s, .ok ws) => let y := { x with begun := true, pages := rs, wpages := ws }; (s.putWork y, .ok y)

/-- The elements of a chunk are read, all of them once, then written, and where the copy names a barrier also written back from the L1 (R280,
R281); none: done. -/
def State.moveChunk (g : Group) (x : Work) (t : Template) (plan : List (Int × CopySrc)) (s : State) : State × Option (Option Halt) :=
  let writes := plan.map (fun x => x.1)
  match s.chunkPages g x t (plan.map (fun x => x.2.reads)).flatten writes with
  | (s, .error h) => (s, some h)
  | (s, .ok x) =>
    let r : State × Except (Option Halt) Unit :=
      if x.read then (s, .ok ())
      else match s.chunkValues g x.entry x.pages t plan with
        | (s, .error h) => (s, .error h)
        | (s, .ok vs) => (s.haveRead x vs, .ok ())
    match r with
    | (s, .error h) => (s, some h)
    | (s, .ok ()) =>
      match s.writeRead g x x.wpages t.dst with
      | (s, .error h) => (s, some h)
      | (s, .ok ()) =>
        if t.barrier.isSome && 4 ≤ Ptr.space t.dst then
          let r := s.flushKeys x.core (engineKeys g x.wpages t.dst writes)
          let a := if r.2 && Ptr.space t.dst = 5 then r.1.peerAcks x.core else r
          (a.1, if a.2 then none else some none)
        else (s, none)

/-- The release of a copy that has written its last chunk, and its completion (R244, R280, R282). -/
def State.endCopy (x : Work) (t : Template) (s : State) : State :=
  let r := match t.release with
    | none => (s, true)
    | some (sc, m) => if sc = 0 then (s, true) else s.releaseLines x.core (Nat.max 3 sc) ((s.group x.ctx).cover m)
  if r.2 then r.1.finishWork x else r.1

/-- The acquire of a copy, before its first read (R280). -/
def State.copyAcquire (x : Work) (t : Template) (s : State) : State :=
  match t.acquire with
  | some sc => if x.next = 0 && !x.begun then s.acquireDrop x.core sc else s
  | none => s

/-- One chunk of a copy, its bytes counted at the barrier (R281, R288). -/
def State.copyChunk (x : Work) (s : State) : State :=
  let g := s.group x.ctx
  let t := templateOf x.block
  let covr := x.count.toNat
  if t.chunks covr ≤ x.next then (if t.chunks covr = 0 then s.copyAcquire x t else s).endCopy x t
  else
    let plan := t.chunk x.srcOff.toInt x.dstOff.toInt covr x.next
    match (s.copyAcquire x t).moveChunk g x t plan with
    | (s, some none) => s
    | (s, some (some h)) => s.haltWork x h
    | (s, none) =>
      let bytes : Int := ((plan.length * Ptr.size t.dst : Nat) : Int)
      let s := match t.barrier with
        | some b => s.eventAt g.id.launch g.id.team b (Barrier.addTx (-bytes))
        | none => s
      let y := { x with next := x.next + 1, begun := false, pages := [], wpages := [], read := false, data := [] }
      let s := s.putWork y
      if t.chunks covr ≤ y.next then s.endCopy y t else s

/-- The command that runs on a channel, when it can go on: not frozen, not waiting for host service. -/
def State.runningWork (s : State) (kind : WorkKind) (core : CoreId) (channel : Nat) : Option Work :=
  match s.channelWorks kind core channel with
  | [] => none
  | x :: _ => if x.frozen || ((s.entry x.ctx x.entry).any (·.hostWait)) then none else some x

/-- R281: the copy engine moves one chunk of a channel's running copy. -/
def execCopyChunk (core : CoreId) (channel : Nat) (s : State) : Result :=
  .next (match s.runningWork .copy core channel with
    | none => s
    | some x => s.copyChunk x)

/-! Gather commands (R284 to R286). -/

/-- What stands before an engine's access at the home of an element of peer space: its loss, a refusal, or a wait (R259, R360, R363). -/
def State.homeGate (g : Group) (e : Entry) (p : Ptr) (i : Int) (r : Right) (s : State) : Option (State × Option Halt) :=
  if Ptr.space p ≠ 5 then none
  else if !s.reachable (Ptr.anchor p) then some (s, engineHalt p i 18 (BitVec.ofNat 64 (Ptr.anchor p)))
  else if Ptr.anchor p ≠ s.package then none
  else (s.ownGate g e p (((elemRanges p i).map (fun x => linePieces x.1 x.2)).flatten.map (·.1)) r).map (fun x =>
    (x.1, match x.2.2 with | .failed c y => engineHalt p i c y | _ => none))

/-- The line of a byte at its home, with PCHK, for an access that no gate stops. -/
def State.homeOf (s : State) (g : Group) (e : Entry) (p : Ptr) (va : Nat) (r : Right) : Option (Nat × Bool) :=
  if Ptr.space p = 4 then some (e.phys va / 128, (e.page va).pchk)
  else match s.ownPeer g.id.part va r with
    | .line l pchk _ => some (l, pchk)
    | _ => none

/-- One element read at its home, never through an L1 (R285). -/
def State.homeElement (g : Group) (id : Nat) (pages : List Translation) (p : Ptr) (i : Int) (s : State) : State × Except (Option Halt) (BitVec 128) :=
  let ranges := elemRanges p i
  let e := engineEntry s id false pages p i []
  if Ptr.space p ≤ 3 then
    let r := ranges.map (fun x => (s.blurBytes (s.syncPlace g e p x.1) (s.readLocal g (Ptr.space p) 0 x.1 x.2).1, (s.readLocal g (Ptr.space p) 0 x.1 x.2).2))
    (s, if r.any (·.2) then .error (enginePoison p i true) else .ok (elemValueOf p i (r.map (·.1)).flatten))
  else match s.homeGate g e p i .read with
  | some (s, h) => (s, .error h)
  | none =>
    if Ptr.space p = 5 && Ptr.anchor p ≠ s.package then
      ({ s with free := s.free + 1 }, .ok (elemValueOf p i (valueBytes (Config.freeValue 128 s.free 20480) 8)))
    else
      let r := readPieces (fun va n s => match s.homeOf g e p va .read with
        | some (l, pchk) => let r := s.homeRead l; (r.1, r.2.map (fun d => (lineSlice (s.blur l d.1) (va % 128) n, if d.2 then some pchk else none)))
        | none => (s, none)) (ranges.map (fun x => linePieces x.1 x.2)).flatten s
      (r.1, match r.2 with
        | none => .error none
        | some (_, some pchk) => .error (enginePoison p i pchk)
        | some (bs, none) => .ok (elemValueOf p i bs))

/-- Elements read at their homes, in order. -/
def State.homeElements (g : Group) (id : Nat) (pages : List Translation) (p : Ptr) : List Int → State → State × Elems
  | [], s => (s, .ok [])
  | i :: rest, s =>
    match s.homeElement g id pages p i with
    | (s, .error h) => (s, .error h)
    | (s, .ok v) =>
      match State.homeElements g id pages p rest s with
      | (s, .ok vs) => (s, .ok (v :: vs))
      | r => r

/-- An addition at the home of another module's element leaves as an atomic `fadd` of f32 (R229, R359), with the tag of the command and the index position
(R286, log 32). -/
def State.sendAdd (g : Group) (x : Work) (p : Ptr) (va v : Nat) (s : State) : State :=
  let req : PeerReq := { source := s.package, part := g.id.part, kind := 2, op := 9, ty := 4, sync := false, colour := 0, tag := x.tag
                         lanes := [{ lane := x.lane + 32 * (1 + x.cur * gatherRow x.block + x.part), va := va, size := 4, data := BitVec.ofNat 128 v, data2 := 0 }] }
  { s with out := .request ((s.route (Ptr.anchor p) 0).getD 0) (Ptr.anchor p) req :: s.out }

/-- The adds of an index position that are performed: their tag is made from the command's and the position, and the receiver's entry keeps how
many elements of the row, which are added in order, it has passed (R286, R330). -/
def State.added (s : State) (x : Work) : Bool :=
  s.suppress.any (fun y => y.table ≠ 1 && y.tag = x.tag && y.lane = x.lane && y.ord = 1 + x.cur && x.part < y.old.toNat)

/-- The receiver's entry for the index position. -/
def Work.addEntry (x : Work) (r : Nat × Nat × Nat) (y : Suppress) : Bool :=
  y.table = r.1 && y.site = r.2.1 && y.tag = x.tag && y.lane = x.lane && y.ord = 1 + x.cur

/-- The receiver keeps that the element under way of the index position is added. -/
def State.keepAdd (rcv : Option (Nat × Nat × Nat)) (x : Work) (s : State) : State :=
  match rcv with
  | none => s
  | some r => { s with suppress :=
      { table := r.1, site := r.2.1, tag := x.tag, lane := x.lane, ord := 1 + x.cur, old := BitVec.ofNat 128 (x.part + 1) }
        :: s.suppress.filter (fun y => !x.addEntry r y) }

/-- The adds of an index position that is done are forgotten: nothing repeats them any more (R331). -/
def State.forgetAdds (x : Work) (s : State) : State :=
  { s with suppress := s.suppress.filter (fun y => !(y.tag = x.tag && y.lane = x.lane && y.ord = 1 + x.cur)) }

/-- One FP32 addition at the home of an element (R60, R284), which the receiver performs once for the command's tag, the index position and the
element (R286, R330). -/
def State.homeAdd (g : Group) (x : Work) (pages : List Translation) (i : Int) (v : Nat) (s : State) : State × Except (Option Halt) Unit :=
  let p := gatherTable x.block
  let va := (Ptr.elemAddr p i).toNat
  let e := engineEntry s x.entry true pages p i []
  let sum (old : List Byte) : List Byte := leBytes 4 (fAdd .f32 FCtx.plain false (leNat old) v).1
  match s.homeGate g e p i .write with
  | some (s, h) => (s, .error h)
  | none =>
    if Ptr.space p = 5 && Ptr.anchor p ≠ s.package then (s.sendAdd g x p va v, .ok ())
    else
      let home := if Ptr.space p ≤ 3 then none else s.homeOf g e p va .write
      let rcv := s.receiver g p va (home.map (·.1))
      let bytes (s : State) : List Nat := (List.range 4).map (s.syncPlace g e p va + ·)
      if s.added x then (s, .ok ())
      else if rcv.any (fun r => s.tableFull r && !s.suppress.any (x.addEntry r)) then (s, .error none)
      else match home with
        | some (l, pchk) =>
          let r := s.homeOwn l
          if !r.2 then (r.1, .error none)
          else
            let d := r.1.homeSees l
            if d.2 then (r.1, .error (enginePoison p i pchk))
            else
              let s := r.1.homeMerge l (placeBytes (va % 128) (sum (lineSlice (r.1.blur l d.1) (va % 128) 4))) (byteRange (va % 128) 4) false
              ((s.notePlain (bytes s)).keepAdd rcv x, .ok ())
        | none =>
          if Ptr.space p ≤ 3 then
            let old := s.readLocal g (Ptr.space p) 0 va 4
            if old.2 then (s, .error (enginePoison p i true))
            else (((s.writeLocal g (Ptr.space p) 0 va (sum (s.blurBytes (s.syncPlace g e p va) old.1))).notePlain (bytes s)).keepAdd rcv x, .ok ())
          else (s, .error none)

/-- The elements of a row. -/
def rowElems (r t : Nat) : List Int := (List.range r).map (fun i => ((t * r + i : Nat) : Int))

/-- A table element as FP32 (R46, R52, R60). -/
def tableF32 (b : List Byte) (x : BitVec 128) : Nat :=
  if Ptr.efmt (gatherTable b) = efNq4 then (nqDecode (bitsAt 0 4 x.toNat) (bitsAt 8 8 x.toNat) (bitsAt 16 32 x.toNat)).1
  else (engineConvert (Ptr.efmt (gatherTable b)) 0x11 x).toNat

/-- A gathered element in the dense format (R284). -/
def denseOf (b : List Byte) (x : BitVec 128) : BitVec 128 :=
  if Ptr.efmt (gatherTable b) = efNq4 then engineConvert 0x11 (Ptr.efmt (gatherDense b)) (BitVec.ofNat 128 (tableF32 b x))
  else engineConvert (Ptr.efmt (gatherTable b)) (Ptr.efmt (gatherDense b)) x

/-- The dense row of a bag from the rows it names; a missing row is none (R284). -/
def bagRow (b : List Byte) (rows : List (Option (List (BitVec 128)))) : List (BitVec 128) :=
  let r := gatherRow b
  if gatherOp b = 0 then
    match rows.head?.join with
    | some l => l.map (denseOf b)
    | none => List.replicate r 0
  else
    let zero := List.replicate r 0
    let sums := rows.foldl (fun acc row => match row with
      | some l => (acc.zip l).map (fun x => (fAdd .f32 FCtx.plain false x.1 (tableF32 b x.2)).1)
      | none => acc) zero
    let n := (FFmt.f32.round FCtx.plain false false (gatherBag b) 0).1
    let out := if gatherOp b = 2 then sums.map (fun x => (fDiv .f32 FCtx.plain x n).1) else sums
    out.map (fun x => engineConvert 0x11 (Ptr.efmt (gatherDense b)) (BitVec.ofNat 128 x))

/-- The row lies beyond the table's length (R284). -/
def rowMissing (b : List Byte) (t : Nat) : Bool := Ptr.length (gatherTable b) < (t + 1) * gatherRow b

/-- Elements of a pointer, whole ranges of them, read at their homes. -/
def State.homeRange (g : Group) (x : Work) (p : Ptr) (is : List Int) (s : State) : State × Elems :=
  match s.workPages g x .read p is with
  | (s, .error h) => (s, .error h)
  | (s, .ok ts) => s.homeElements g x.entry ts p is

/-- The rows of the table that indices name, read at their homes. -/
def State.tableRows (g : Group) (x : Work) : List Nat → State → State × Except (Option Halt) (List (Option (List (BitVec 128))))
  | [], s => (s, .ok [])
  | t :: rest, s =>
    let one : State × Except (Option Halt) (Option (List (BitVec 128))) :=
      if rowMissing x.block t then (s, .ok none)
      else match s.homeRange g x (gatherTable x.block) (rowElems (gatherRow x.block) t) with
        | (s, .ok vs) => (s, .ok (some vs))
        | (s, .error h) => (s, .error h)
    match one with
    | (s, .error h) => (s, .error h)
    | (s, .ok r) =>
      match State.tableRows g x rest s with
      | (s, .ok l) => (s, .ok (r :: l))
      | r => r

/-- The indices of the bag under way, read at their homes. -/
def State.bagIndices (g : Group) (x : Work) (s : State) : State × Elems :=
  s.homeRange g x (gatherIndex x.block) ((List.range (gatherBag x.block)).map (fun i => ((x.cur * gatherBag x.block + i : Nat) : Int)))

/-- Elements of a dense row added one after another from element `x.part` on; each add is made once (R286, log 71). -/
def State.addRow (g : Group) (ws : List Translation) (t : Nat) : List Nat → Work → State → State × Work × Option (Option Halt)
  | [], x, s => (s, x, none)
  | v :: rest, x, s =>
    match s.homeAdd g x ws ((t * gatherRow x.block + x.part : Nat) : Int) v with
    | (s, .error h) => (s, x, some h)
    | (s, .ok ()) => State.addRow g ws t rest { x with part := x.part + 1 } s

/-- One index of a scatter-add: the dense row is read through the L1 and added at the homes (R284, R285). -/
def State.scatterRow (g : Group) (x : Work) (t : Nat) (s : State) : State × Work × Option (Option Halt) :=
  let b := x.block
  let d := gatherDense b
  let row := rowElems (gatherRow b) x.cur
  match s.workPages g x .read d row with
  | (s, .error h) => (s, x, some h)
  | (s, .ok rs) =>
    match s.engineLoads g x.entry rs d row with
    | (s, .error h) => (s, x, some h)
    | (s, .ok vs) =>
      match s.workPages g x .write (gatherTable b) (rowElems (gatherRow b) t) with
      | (s, .error h) => (s, x, some h)
      | (s, .ok ws) => s.addRow g ws t ((vs.map (fun v => (engineConvert (Ptr.efmt d) 0x11 v).toNat)).drop x.part) x

/-- The dense row that a bag has gathered is written through the L1 (R285). -/
def State.writeDense (g : Group) (x : Work) (s : State) : State × Except (Option Halt) Unit :=
  let d := gatherDense x.block
  match s.workPages g x .write d (rowElems (gatherRow x.block) x.cur) with
  | (s, .error h) => (s, .error h)
  | (s, .ok ws) => s.writeRead g x ws d

/-- Bags of a command. -/
def gatherBags (b : List Byte) : Nat := gatherCount b / gatherBag b

/-- A command's status word (R309, R366): a core-space store. -/
def State.writeStatus (x : Work) (off : Nat) (value : Nat) (s : State) : State :=
  s.writeLocal (s.group x.ctx) 1 0 (x.off + off) (leBytes 4 value)

/-- A gather command ends: its status is written, and it completes (R282, R309). -/
def State.endGather (x : Work) (s : State) : State :=
  (s.writeStatus x 0x3C (2 ^ 31 + Nat.min x.missed (2 ^ 31 - 1))).finishWork x

/-- The bags of an unordered scatter-add that are not yet performed. -/
def Work.bagsLeft (x : Work) : List Nat :=
  ((List.range (gatherBags x.block - x.next)).map (x.next + ·)).filter (fun k => !x.landed.contains k)

/-- A bag begins: the next one; of a scatter-add outside ordered mode any of those left, for the order of its adds is open (R285, R60,
log 71). -/
def Work.beginBag (x : Work) (free : Nat) : Work :=
  if x.begun then x
  else { x with begun := true, part := 0
                cur := if gatherOp x.block = 3 then x.bagsLeft.getD (Config.freeChoice free 12 % x.bagsLeft.length) x.next else x.next }

/-- The first bag not performed, after bag `x.cur` (R286). -/
def Work.endBag (x : Work) (missed : Nat) : Work :=
  let l := x.cur :: x.landed
  let next := (x.bagsLeft.filter (fun k => k ≠ x.cur)).headD (gatherBags x.block)
  { x with next := next, landed := if gatherOp x.block = 3 then l.filter (fun k => next < k) else [], part := 0, begun := false
           pages := [], wpages := [], read := false, data := []
           missed := x.missed + missed }

/-- After a bag: the next one, or the end. -/
def State.nextBag (x : Work) (missed : Nat) (s : State) : State :=
  let y := x.endBag missed
  let s := (s.forgetAdds x).putWork y
  if gatherBags x.block ≤ y.next then s.endGather y else s

/-- A bag of a gather whose row has been read is written. -/
def State.gatherWrite (g : Group) (x : Work) (s : State) : State :=
  match s.writeDense g x with
  | (s, .error none) => s
  | (s, .error (some h)) => s.haltWork (s.workNow x) h
  | (s, .ok ()) => s.nextBag (s.workNow x) 0

/-- The dense row of the bag under way, gathered from the rows that its indices name; `missed` of them lie outside the table. -/
def State.gatherRead (g : Group) (x : Work) (is : List Nat) (missed : Nat) (s : State) : State :=
  match s.tableRows g x is with
  | (s, .error none) => s
  | (s, .error (some h)) => s.haltWork (s.workNow x) h
  | (s, .ok rows) =>
    let s := s.haveRead x ((rowElems (gatherRow x.block) x.cur).zip (bagRow x.block rows))
    (s.modWork x.id (fun y => { y with missed := y.missed + missed })).gatherWrite g x

/-- One index of a scatter-add, which ends its bag. -/
def State.scatterStep (g : Group) (x : Work) (t : Nat) (missed : Nat) (s : State) : State :=
  if rowMissing x.block t then s.nextBag x missed
  else
    let r := s.scatterRow g x t
    let s := r.1.modWork x.id (fun y => { y with part := r.2.1.part })
    match r.2.2 with
    | some none => s
    | some (some h) => s.haltWork (s.workNow x) h
    | none => s.nextBag (s.workNow x) missed

/-- One bag of a command. -/
def State.gatherBagStep (x : Work) (s : State) : State :=
  let g := s.group x.ctx
  let b := x.block
  if gatherBags b ≤ x.next then s.endGather x
  else
    let x := x.beginBag s.free
    let s := s.putWork x
    if x.read then s.gatherWrite g x
    else match s.bagIndices g x with
      | (s, .error none) => s
      | (s, .error (some h)) => s.haltWork (s.workNow x) h
      | (s, .ok vs) =>
        let is := vs.map (fun v => v.toNat)
        let missed := (is.filter (rowMissing b)).length
        if gatherScatters b then s.scatterStep g x (is.getD 0 0) missed else s.gatherRead g x is missed

/-- R284 to R286: the gather engine performs one bag of a channel's running command. -/
def execGatherBag (core : CoreId) (channel : Nat) (s : State) : Result :=
  .next (match s.runningWork .gather core channel with
    | none => s
    | some x => s.gatherBagStep x)

end Sys2Proof.Machine
end

