-- ==== Sys2Proof/Machine/Fabric.lean ====
section
/-! DEFINITION. The fabric (spec 20): ports (R356), lost homes (R362, R363), requests from other modules and their parking (R359
to R361), multicast stores (R364, R365), and collectives (R366 to R369). -/
namespace Sys2Proof.Machine
open Sys2Proof

/-! Ports (R356). -/

/-- A port's record. -/
def State.port (s : State) (j : Nat) : Port := (s.ports.find? (fun x => x.port = j)).getD { port := j }
/-- Replace a port's record. -/
def State.setPort (x : Port) (s : State) : State := { s with ports := putFirst (fun y => y.port = x.port) x s.ports }

/-- The port status register. -/
def Port.word (x : Port) : BitVec 64 := BitVec.ofNat 64 ((if x.up then 1 else 0) + (if x.en then 2 else 0) + x.resends * 2 ^ 16)

/-- A write of the port status register: EN, and ones clear bits of RESENDS. -/
def State.writePort (j : Nat) (v : BitVec 64) (s : State) : State :=
  let x := s.port j
  s.setPort { x with en := v.getLsbD 1, up := x.up && v.getLsbD 1, resends := x.resends - (x.resends &&& bitsAt 16 16 v.toNat) }

/-- A packet that left by a port and is not acknowledged is sent again by the port that its network and target now have; a request that
finds none has a lost home (R357, R362). What a tree's neighbour is sent has no other port. -/
def Out.again (s : State) : Out → State
  | .request _ p r => match s.route p 0 with | some j => { s with out := .request j p r :: s.out } | none => s.noteLost p
  | .writeback _ p a b c d e f => match s.route p 0 with | some j => { s with out := .writeback j p a b c d e f :: s.out } | none => s.noteLost p
  | .answer _ p a b c => { s with out := .answer (s.route p 2) p a b c :: s.out }
  | .notice _ p a => { s with out := .notice (s.route p 2) p a :: s.out }
  | .cancel _ p a => { s with out := .cancel (s.route p 0) p a :: s.out }
  | .retire _ p a => { s with out := .retire (s.route p 0) p a :: s.out }
  | .regsForward _ p a => { s with out := .regsForward (s.route p 1) p a :: s.out }
  | .nameForward _ p a b => { s with out := .nameForward (s.route p 1) p a b :: s.out }
  | .nameEnded _ p a b => { s with out := .nameEnded (s.route p 1) p a b :: s.out }
  | _ => s

/-- The packet left by the port. -/
def Out.leftBy (port : Nat) : Out → Bool
  | .request j _ _ | .writeback j _ _ _ _ _ _ _ => j = port
  | .answer j _ _ _ _ | .notice j _ _ | .cancel j _ _ | .retire j _ _ | .regsForward j _ _ | .nameForward j _ _ _ | .nameEnded j _ _ _ => j = some port
  | _ => false

/-- A port has gone down: its unacknowledged packets are sent again, oldest first, before any later one (R357). How many of its last packets
are not acknowledged is open (log 57). -/
def State.resend (port : Nat) (s : State) : State :=
  let mine := s.out.filter (Out.leftBy port)
  ((mine.take (Config.freeChoice s.free 13 % (mine.length + 1))).reverse).foldl Out.again s

/-- R356: a flit fails its CRC and is resent; after 16 failures in a row the port goes down. -/
def execFlitResend (port : Nat) (failures : Nat) (s : State) : Result :=
  .next (let x := s.port port
    if Config.ports ≤ port ∨ !(x.up && x.en) then s
    else
      let s := s.setPort { x with resends := Nat.min 65535 (x.resends + Nat.min failures 15), up := decide (failures < 16) }
      if failures < 16 then s else s.resend port)

/-- A write of a port's status register: EN = 0 takes the port down, and what it had not passed leaves by another (R356, R357). -/
def State.portWrite (port : Nat) (value : BitVec 64) (s : State) : State :=
  let t := s.writePort port value
  if (s.port port).up && !(t.port port).up then t.resend port else t

/-- R356. -/
def execPortStatusWrite (port : Nat) (value : BitVec 64) (s : State) : Result :=
  .next (if s.ready ∧ port < Config.ports then s.portWrite port value else s)

/-- R356, R411: after READY an enabled port finishes its training. -/
def execLinkTrained (port : Nat) (s : State) : Result :=
  .next (let x := s.port port
    if s.ready ∧ port < Config.ports ∧ x.en then s.setPort { x with up := true } else s)

/-! Lost homes (R362, R363). -/

/-- A host write of an entry (R362). -/
def State.writeLost (i : Nat) (v : BitVec 64) (s : State) : State :=
  let p := bitsAt 0 18 v.toNat
  let was := s.inLostTable p
  let s := s.setLost i (BitVec.ofNat 64 (if v.getLsbD 63 then p + 2 ^ 63 else p))
  if v.getLsbD 63 && !was then s.loseHome p else s

/-- R362. -/
def execLostHomeTableWrite (index : Nat) (value : BitVec 64) (s : State) : Result :=
  .next (if s.ready ∧ index < 256 then s.writeLost index value else s)

/-- One second in core cycles. -/
def second : Nat := 1000000 * Config.cyclesPerUs

/-- R362: a request to a package that has had neither an answer nor a notice for 2 s declares it lost. -/
def execLostHomeTimeout (package : Nat) (s : State) : Result :=
  .next (if package ≠ s.package ∧ s.groups.any (fun g => g.status ≠ .saved && g.entries.any (fun e =>
        e.asks && e.anchor = package && decide (e.heardAt + 2 * second ≤ s.time))) then
      s.declareLost package
    else s)

/-! Waiting for a peer (R360). -/

/-- A part whose request waits at another module, or in its own module's park table. -/
def Entry.peerWait (e : Entry) : Bool := e.asks && e.path = 4

/-- A notice has come for an entry: its limit starts again (R360); a frozen entry's notice is discarded (R361). -/
def State.heard (ctx id : Nat) (s : State) : State :=
  match s.entry ctx id with
  | some e => if e.peerWait then s.putEntry ctx { e with sentAt := some s.time, heardAt := s.time } else s
  | none => s

/-- R360: another module's notice. -/
def execKeepWaitingNotice (ctx id : Nat) (s : State) : Result :=
  .next (match s.entry ctx id with
    | some e => if e.anchor = s.package then s else s.heard ctx id
    | none => s)

/-- A request is given up: a cancel goes to its module; this module drops its own parked one. -/
def State.giveUp (ctx : Nat) (e : Entry) (s : State) : State :=
  if e.anchor = s.package then { s with parked := s.parked.filter (fun p => !(p.own.any (fun x => x.ctx = ctx && x.entry = e.id))) }
  else { s with out := .cancel (s.route e.anchor 0) e.anchor e.tag :: s.out }

/-- R360: the limit expires: cause 19 with the target package, and a cancel. -/
def execRemoteFaultTimeout (ctx id : Nat) (s : State) : Result :=
  .next (match s.entry ctx id with
    | some e =>
      if e.peerWait ∧ (s.group ctx).status ≠ .saved ∧ e.sentAt.any (fun t => t + second ≤ s.time) then
        (s.giveUp ctx e).failEntry ctx e 19 (BitVec.ofNat 64 e.anchor)
      else s
    | none => s)

/-! Requests from other modules (R359, R360). -/

/-- A piece of an element at its home, in one line: its physical address and length, and the PCHK of its page. -/
structure PeerPiece where
  addr : Nat
  len : Nat
  pchk : Bool
  deriving DecidableEq, Repr

/-- A lane of a request with the pieces of its element. -/
structure PeerSpot where
  lane : PeerLane
  pieces : List PeerPiece
  deriving DecidableEq, Repr

/-- The physical address of a lane's element. -/
def PeerSpot.addr (x : PeerSpot) : Nat := ((x.pieces.head?).map (·.addr)).getD 0

/-- The physical addresses of the bytes of a lane's element, with the PCHK of each. -/
def PeerSpot.bytes (x : PeerSpot) : List (Nat × Bool) :=
  (x.pieces.map (fun y => (List.range y.len).map (fun i => (y.addr + i, y.pchk)))).flatten

/-- The right that a request needs. -/
def peerRight (r : PeerReq) : Right := if r.kind = 0 then .read else .write

/-- Pieces of an element walked under a partition's tables: the first failure, with its address. -/
def State.walkPieces (s : State) (part : Nat) (r : Right) : List (Nat × Nat) → Except (WalkFault × Nat) (List PeerPiece)
  | [] => .ok []
  | (va, n) :: rest =>
    match s.walk part va r with
    | .error f => .error (f, va)
    | .ok (t, _) => (s.walkPieces part r rest).map (fun l => ⟨t.frame + va % 4096, n, t.pchk⟩ :: l)

/-- The lanes of a request walked under the tables of the partition of its number. -/
def State.walkLanes (s : State) (r : PeerReq) : List PeerLane → Except (WalkFault × Nat) (List PeerSpot)
  | [] => .ok []
  | l :: ls =>
    match s.walkPieces r.part (peerRight r) (linePieces l.va l.size) with
    | .error f => .error f
    | .ok ps => (s.walkLanes r ls).map (fun xs => ⟨l, ps⟩ :: xs)

/-- A request's walk. -/
def State.walkPeer (s : State) (r : PeerReq) : Except (WalkFault × Nat) (List PeerSpot) := s.walkLanes r r.lanes

/-- The lines of a request. -/
def peerLines (l : List PeerSpot) : List Nat := ((l.map (fun x => x.pieces.map (fun y => y.addr / 128))).flatten).eraseDups

/-- The drains that a request's synchronising read awaits at a line, or the fault of a dead core's record (R249, R339). -/
def State.peerDrains (r : PeerReq) (l : Nat) (s : State) : State × Except Nat Bool :=
  if r.sync && r.kind ≠ 1 then
    match s.acquireDrains ⟨0, 0⟩ { id := 0, kind := .load, cls := .i, path := 4 } l with
    | (s, _, none) => (s, .ok true)
    | (s, _, some (.failed c _)) => (s, .error c)
    | (s, _, some _) => (s, .ok false)
  else (s, .ok true)

/-- The lines of a request are obtained by H: in M for a write or a synchronising access, else to read (R249, R259). The flag says that all
are; a dead core's record refuses the request (R339). -/
def State.obtain (r : PeerReq) : List Nat → State → State × Except Nat Bool
  | [], s => (s, .ok true)
  | l :: ls, s =>
    match s.peerDrains r l with
    | (s, .error c) => (s, .error c)
    | (s, .ok a) =>
      let b := if r.kind = 0 && !r.sync then (let x := s.homeRead l; (x.1, x.2.isSome)) else s.homeOwn l
      match State.obtain r ls b.1 with
      | (s, .error c) => (s, .error c)
      | (s, .ok c) => (s, .ok (a && b.2 && c))

/-- The home slice of a line as a receiver of tags (R330). -/
def State.lineReceiver (s : State) (l : Nat) : Nat × Nat × Nat := (0, (s.homeSlice l).1 * 16 + (s.homeSlice l).2, 8192)

/-- The bytes of a request's element at the homes, with the PCHK of poison met. -/
def State.peerBytes (s : State) (ps : List PeerPiece) : List Byte × Option Bool :=
  ((ps.map (fun x => lineSlice (s.homeSees (x.addr / 128)).1 (x.addr % 128) x.len)).flatten,
    ps.foldl (fun z x => worsePoison z (if (s.homeSees (x.addr / 128)).2 then some x.pchk else none)) none)

/-- Bytes merged at the homes, piece by piece, with the poison mark that they carry (R214). -/
def State.peerMerge (poison : Bool) : List PeerPiece → List Byte → State → State
  | [], _, s => s
  | x :: rest, bs, s =>
    State.peerMerge poison rest (bs.drop x.len)
      (s.homeMerge (x.addr / 128) (placeBytes (x.addr % 128) (bs.take x.len)) (byteRange (x.addr % 128) x.len) poison)

/-- What one lane's element is answered with: a value, with the PCHK of poison met (R215), or a refusal. -/
inductive PeerGot where
  | value (x : BitVec 128) (poison : Option Bool)
  | refused (cause : Nat) (extra : Nat)
  deriving DecidableEq, Repr

/-- One element of a request whose lines H holds, performed as a local access at the home would be (R241, R251, R252, R259, R330).
A lane's elements are kept apart by their addresses. -/
def State.peerElement (r : PeerReq) (x : PeerSpot) (s : State) : State × PeerGot :=
  let a := x.addr
  let line := a / 128
  let n := x.lane.size
  let tag := r.tag
  let clash : Bool := match s.lastSync.find? (fun y => y.line = line) with
    | some y => (y.debug || r.debug) && !(y.addr = a && y.size = n) && y.addr < a + n && a < y.addr + y.size
    | none => false
  let last (s : State) : State :=
    if r.sync then { s with lastSync := putFirst (fun y => y.line = line) { line := line, addr := a, size := n, debug := r.debug } s.lastSync }
    else s
  let wrote (s : State) : State := if r.sync then s.noteStore a n else s.notePlain (x.bytes.map (·.1))
  let old := s.peerBytes x.pieces
  let seen := if r.sync then s.syncBytes a old.1 else s.blurBytes a old.1
  if r.sync && clash then (s, .refused 7 (n + 256))
  else match r.kind with
    | 0 => (last s, .value (bytesValue seen) old.2)
    | 1 =>
      match s.kept tag x.lane.lane x.lane.va with
      | some _ => (s, .value 0 none)
      | none =>
        let t := wrote (last (s.peerMerge r.poison x.pieces (valueBytes x.lane.data n)))
        (if r.sync then t.keep (some (s.lineReceiver line)) tag x.lane.lane x.lane.va 0 else t, .value 0 none)
    | _ =>
      match s.kept tag x.lane.lane x.lane.va with
      | some k => (s, .value k.old none)
      | none =>
        if old.2.isSome then (s, .value 0 old.2)
        else
          let o := leNat seen
          let c := x.lane.data.toNat % 2 ^ (8 * n)
          let same : Bool := r.op.toNat % 16 = 8 && o ≠ c
          let new := atomicNew (r.op.toNat % 16) ((Ty.ofCode r.ty).getD .b32) (8 * n) o c (x.lane.data2.toNat % 2 ^ (8 * n))
          let t := last (if same then s else wrote (s.peerMerge false x.pieces (leBytes n new)))
          (t.keep (some (s.lineReceiver line)) tag x.lane.lane x.lane.va (BitVec.ofNat 128 o), .value (BitVec.ofNat 128 o) none)

/-- The elements of a request in lane order: answers with the PCHK of poison met, or the first refusal. -/
def State.peerElements (r : PeerReq) : List PeerSpot → State → State × Except (Nat × Nat) (List (BitVec 128) × Option Bool)
  | [], s => (s, .ok ([], none))
  | x :: xs, s =>
    match s.peerElement r x with
    | (s, .refused c e) => (s, .error (c, e))
    | (s, .value v z) =>
      match State.peerElements r xs s with
      | (s, .ok vs) => (s, .ok (v :: vs.1, worsePoison z vs.2))
      | y => y

/-- The packet of a request that came by a tree, at this module's block (R365). -/
def McPacket.of (r : PeerReq) (p : McPacket) : Bool := p.local_ && p.req = r

/-- A member's refusal is noted in the packet, the first one with its extra data. -/
def McPacket.refused (status : Nat) (extra : BitVec 64) (p : McPacket) : McPacket :=
  if p.status = 0 && status ≠ 0 then { p with status := status, extra := extra } else p

/-- What becomes of an answer: status 0 with its data, else a cause, or 256 for retry (R330). A multicast store's member notes it in the
packet (R365); a write-back of this module to itself is acknowledged (R247); what came from another module is answered there. -/
def State.answer (r : PeerReq) (status : Nat) (data : List (BitVec 128)) (s : State) : State :=
  if s.packets.any (McPacket.of r) then
    if status = 256 then s
    else
      let note (p : McPacket) : McPacket := { p.refused status ((data.headD 0).setWidth 64) with local_ := false }
      { s with packets := modifyFirst (McPacket.of r) note s.packets }
  else if r.source = s.package then { s with peerWrites := dropFirst (fun x => x.2 = s.package) s.peerWrites }
  else { s with out := .answer (s.route r.source 2) r.source r.tag status data :: s.out }

/-- A request that carries a tag, and finds a tag table full of which an element needs an entry (R330): written back bytes carry none. -/
def State.tagsFull (s : State) (r : PeerReq) (l : List PeerSpot) : Bool :=
  (r.kind = 2 || r.sync || s.packets.any (McPacket.of r))
    && l.any (fun x => (s.kept r.tag x.lane.lane x.lane.va).isNone && s.tableFull (s.lineReceiver (x.addr / 128)))

/-- The tags of a member's plain store are kept as those of a synchronising one are (R330, R365). -/
def State.keepTags (r : PeerReq) (l : List PeerSpot) (s : State) : State :=
  if r.sync || !s.packets.any (McPacket.of r) then s
  else l.foldl (fun s x => match s.kept r.tag x.lane.lane x.lane.va with
    | some _ => s
    | none => s.keep (some (s.lineReceiver (x.addr / 128))) r.tag x.lane.lane x.lane.va 0) s

/-- A served request is answered with what its elements came to: poison is a refusal, with extra data 1 where PCHK = 0 (R215, log 106). -/
def State.peerDone (r : PeerReq) (l : List PeerSpot) (vs : List (BitVec 128)) (z : Option Bool) (s : State) : State :=
  match z with
  | some pchk => s.answer r 10 [if pchk then 0 else 1]
  | none => (s.keepTags r l).answer r 0 vs

/-- An element that is not aligned. -/
def laneSplit (l : PeerLane) : Bool := l.size ≠ 0 && l.va % l.size ≠ 0

/-- A plain load, or multicast store, of which some element is not aligned goes byte by byte (R133, R250). -/
def State.splits (s : State) (r : PeerReq) : Bool :=
  !r.sync && (r.kind = 0 || s.packets.any (McPacket.of r)) && r.lanes.any laneSplit

/-- The bytes of element `k` that a request under way has performed, in order. -/
def PeerJob.element (j : PeerJob) (k n : Nat) : List Byte :=
  (List.range n).filterMap (fun i => (j.got.find? (fun b => b.1 = k && b.2.1 = i)).map (fun b => b.2.2))

/-- Bytes `i` to `i + n - 1` of a lane's element as an element of their own. -/
def PeerSpot.part (x : PeerSpot) (i n : Nat) : PeerSpot :=
  { lane := { x.lane with va := x.lane.va + i, size := n, data := x.lane.data >>> (8 * i) }
    pieces := ((x.bytes.drop i).take n).map (fun y => ⟨y.1, 1, y.2⟩) }

/-- A step of a request that goes byte by byte: the elements in order, an aligned one whole, of another one byte, an open choice among those left
(R250). The flag says that the request is answered. -/
def State.peerStep (r : PeerReq) (l : List PeerSpot) (s : State) : State × Bool :=
  let j := (s.peerJobs.find? (fun x => x.req = r)).getD { req := r }
  let put (j : PeerJob) (s : State) : State := { s with peerJobs := putFirst (fun x => x.req = r) j s.peerJobs }
  let drop (s : State) : State := { s with peerJobs := dropFirst (fun x => x.req = r) s.peerJobs }
  let open_ := l.zipIdx.filter (fun x => (j.element x.2 x.1.lane.size).length < x.1.lane.size)
  match open_ with
  | [] => ((drop s).peerDone r l (l.zipIdx.map (fun x => bytesValue (j.element x.2 x.1.lane.size))) j.poison, true)
  | (x, k) :: _ =>
    let n := x.lane.size
    let known : Bool := r.kind ≠ 0 && (s.kept r.tag x.lane.lane x.lane.va).isSome
    let left := (List.range n).filter (fun i => !j.got.any (fun b => b.1 = k && b.2.1 = i))
    let at_ := if laneSplit x.lane then left.getD (Config.freeChoice s.free 15 % left.length) 0 else 0
    let len := if laneSplit x.lane then 1 else n
    if known then (put { j with got := (List.range n).map (fun i => (k, i, 0)) ++ j.got } s, false)
    else match s.peerElement r (x.part at_ len) with
      | (s, .refused c e) => ((drop s).answer r c [BitVec.ofNat 128 e], true)
      | (s, .value v z) =>
        let bs := (List.range len).map (fun i => (k, at_ + i, (valueBytes v len).getD i 0))
        (put { j with got := bs ++ j.got, poison := worsePoison j.poison z } s, false)

/-- A translated request is served, or begins to obtain its lines; the flag says that it has been answered. -/
def State.servePeer (r : PeerReq) (l : List PeerSpot) (s : State) : State × Bool :=
  if s.tagsFull r l then (s.answer r 256 [], !s.packets.any (McPacket.of r))
  else match s.obtain r (peerLines l) with
    | (s, .error c) => (s.answer r c [BitVec.ofNat 128 s.package], true)
    | (s, .ok false) => (s, false)
    | (s, .ok true) =>
      if s.splits r then s.peerStep r l
      else match s.peerElements r l with
        | (s, .ok vs) => (s.peerDone r l vs.1 vs.2, true)
        | (s, .error f) => (s.answer r f.1 [BitVec.ofNat 128 f.2], true)

/-- A request whose page fails is parked, or refused when the park table, or in host-assisted mode the fault-entry buffer, is full
(R360, R390). A replayed class-D request is attached to its parked original (R361). -/
def State.park (r : PeerReq) (f : WalkFault) (va : Nat) (s : State) : State :=
  if r.kind ≠ 0 && s.parked.any (fun p => p.req.tag = r.tag && p.req.kind ≠ 0) then s
  else if s.parkFull then s.answer r f.cause [BitVec.ofNat 128 f.extra]
  else s.parkReq r f va none

/-- R359: a request is refused, parked or served. -/
def State.peerRequest (r : PeerReq) (s : State) : State :=
  if Config.partitions ≤ r.part ∨ !(s.reg (partBlock r.part + 0xA0)).getLsbD 0 then s.answer r 9 [0]
  else match s.walkPeer r with
    | .error (f, va) => s.park r f va
    | .ok l => (s.servePeer r l).1

/-- 64 µs in core cycles (R360). -/
def parkPeriod : Nat := 64 * Config.cyclesPerUs

/-- A parked request walks its tables again: it proceeds once they let it; this module's own goes back to its entry. -/
def State.rewalk (index : Nat) (p : Parked) (s : State) : State :=
  match s.walkPeer p.req with
  | .error (f, va) => { s with parked := s.parked.set index { p with cause := f.cause, extra := f.extra, addr := va } }
  | .ok l =>
    if p.own.isSome then { s with parked := s.parked.eraseIdx index }
    else
      let r := s.servePeer p.req l
      if r.2 then { r.1 with parked := r.1.parked.eraseIdx index } else r.1

/-- The requester of a parked request hears of it (R360), but for an entry that was replayed and waits for another request (R361). -/
def State.noticeParked (p : Parked) (s : State) : State :=
  match p.own with
  | some x => if (s.entry x.ctx x.entry).any (fun e => e.round = x.round || e.cls = .d) then s.heard x.ctx x.entry else s
  | none => if p.req.source = s.package then s else { s with out := .notice (s.route p.req.source 2) p.req.source p.req.tag :: s.out }

/-- R360: every 64 µs a parked request's requester gets a notice, and in hardware mode the tables are walked again. -/
def execParkRewalk (index : Nat) (s : State) : Result :=
  .next (match s.parked[index]? with
    | none => s
    | some p =>
      if s.time < p.since + parkPeriod then s
      else
        let q := { p with since := s.time }
        let s := { s with parked := s.parked.set index q }.noticeParked q
        if p.assisted then s else s.rewalk index q)

/-- R360: the requester cancels; a parked request of that tag that is not yet performed is dropped. -/
def execCancel (tag : BitVec 64) (s : State) : Result :=
  .next { s with parked := s.parked.filter (fun p => !(p.req.tag = tag && p.req.source ≠ s.package)) }

/-! Multicast (R364, R365). -/

/-- The packet of a store at this module's block, and the packets before it. -/
def splitPacket (tag : BitVec 64) (group : Nat) : List McPacket → Option (List McPacket × McPacket)
  | [] => none
  | p :: ps => if p.req.tag = tag && p.group = group then some ([], p) else (splitPacket tag group ps).map (fun x => (p :: x.1, x.2))

/-- The ports of a mask. -/
def portsOf (m : BitVec 36) : List Nat := (List.range Config.ports).filter (fun j => m.getLsbD j)

/-- The multicast lanes of the store with a tag have been acknowledged by every member, or refused by one, with its extra data: the issuer's entry
completes once its other lanes are performed too (R36, R359, R365). -/
def State.treeDone (tag : BitVec 64) (status : Nat) (extra : BitVec 64) (s : State) : State :=
  match s.groups.findSome? (fun g => (g.entries.find? (fun e => e.tag = tag && e.treeSent && !e.done && g.status ≠ .saved)).map (fun e => (g.id.ctx, e))) with
  | none => s
  | some (ctx, e) =>
    if status ≠ 0 then s.failEntry ctx e status extra
    else
      let e := { e with lanes := e.lanes.map (fun (a : LaneAcc) => if a.tree then { a with performed := true } else a) }
      if e.performed then s.complete ctx e.id else s.putEntry ctx e

/-- A packet that every branch and the module itself have taken, and every child has acknowledged, leaves the block: its acknowledgement goes up
the tree, and from the root to the issuer (R365). -/
def State.closePacket (tag : BitVec 64) (group : Nat) (s : State) : State :=
  match splitPacket tag group s.packets with
  | none => s
  | some (before, p) =>
    if p.branches ≠ 0 || p.local_ || p.awaiting ≠ 0 then s
    else
      let m := s.multicastEntry group
      let s := { s with packets := s.packets.eraseIdx before.length }
      if !m.testBit 43 then { s with out := .multicastAck (m / 2 ^ 37 % 64) tag p.status p.extra :: s.out }
      else if p.req.source = s.package then s.treeDone tag p.status p.extra
      else { s with out := .answer (s.route p.req.source 2) p.req.source tag p.status (if p.status = 0 then [] else [p.extra.setWidth 128]) :: s.out }

/-- A packet's part here is a peer store of its own (R359, R365), once no earlier packet waits for the module. -/
def State.takeLocal (before : List McPacket) (p : McPacket) (s : State) : State :=
  if !p.local_ || before.any (·.local_) || s.parked.any (fun q => q.req = p.req) then s else s.peerRequest p.req

/-- R364, R365: a child's store goes up the tree; at the root, and coming down, a packet is taken by each free branch that no earlier packet
still waits for, and a member performs the store. -/
def execMulticastStore (req : PeerReq) (group : Nat) (offer : TreeOffer) (s : State) : Result :=
  .next (
    let m := s.multicastEntry group
    let here := (splitPacket req.tag group s.packets).isSome
    if !s.multicastValid group ∨ (!here ∧ !offer.up ∧ m.testBit 43) then s
    else if !here ∧ offer.up ∧ !m.testBit 43 then { s with out := .multicast (m / 2 ^ 37 % 64) group req :: s.out }
    else
      let s := if here then s else s.addPacket req group
      match splitPacket req.tag group s.packets with
      | none => s
      | some (before, p) =>
        let taken := before.foldl (fun b q => b &&& ~~~q.branches) (p.branches &&& offer.free)
        let q := { p with branches := p.branches &&& ~~~taken, awaiting := p.awaiting ||| taken }
        let s := { s with packets := s.packets.set before.length q, out := (portsOf taken).map (fun j => Out.multicast j group p.req) ++ s.out }
        (s.takeLocal before q).closePacket req.tag group)

/-- R365: a child's acknowledgement joins those of its packet; the root's combined one completes the issuer's entry. A cause other than 0 is
a member's refusal. -/
def execMulticastAck (tag : BitVec 64) (ack : TreeAck) (s : State) : Result :=
  .next (match ack.child with
    | none => if s.packets.any (fun p => p.req.tag = tag && p.group = ack.group) then s else s.treeDone tag ack.status ack.extra
    | some j =>
      let here (p : McPacket) : Bool := p.req.tag = tag && p.group = ack.group && p.awaiting.getLsbD j
      let note (p : McPacket) : McPacket :=
        { p.refused ack.status ack.extra with awaiting := p.awaiting &&& ~~~(BitVec.ofNat 36 (2 ^ j)) }
      { s with packets := modifyFirst here note s.packets }.closePacket tag ack.group)

/-! Collectives (R366 to R369). -/

/-- R366: a collective start is performed once the engine accepts it, as a gather start is; the block is read again then. -/
def execCollectiveStart (ctx id : Nat) (s : State) : Result :=
  .next (s.whenWriting ctx id (fun e a off v s =>
    let core := (s.group ctx).core
    match apertureAt off with
    | .collective =>
      if s.canAccept ctx .collective core 0 then
        match (s.focus ctx).collectiveStart v with
        | .error f => s.failStart ctx e f
        | .ok b =>
          let work : Work := { id := (e.captured a).2, kind := .collective, core := core, channel := 0, ctx := ctx
                               block := unpackWords (b.take 4), off := v.toNat, tag := e.tag, lane := a.lane }
          (s.acceptWork ctx e work).wroteStart ctx e a
      else s
    | _ => s))

/-- Chunks of a collective. -/
def collChunks (b : List Byte) : Nat := (collCount b + 63) / 64

/-- The elements of a chunk. -/
def collElems (b : List Byte) (chunk : Nat) : List Int :=
  (List.range (Nat.min 64 (collCount b - 64 * chunk))).map (fun i => ((64 * chunk + i : Nat) : Int))

/-- The sources of a slot in R367's order: local contributors, then children by port. -/
def State.redOrder (s : State) (group : Nat) : List (Bool × Nat) :=
  let m := s.multicastEntry group
  (if m.testBit 36 then (List.range (s.localContributors group)).map (fun i => (true, i)) else [])
    ++ (portsOf (BitVec.ofNat 36 m)).map (fun j => (false, j))

/-- One combination of R367: sum, min or max. -/
def redCombine (double : Bool) (op : Nat) (a b : BitVec 64) : BitVec 64 :=
  let f : FFmt := if double then .f64 else .f32
  BitVec.ofNat 64 (if op = 0 then fAdd f FCtx.plain false a.toNat b.toNat else fMinMax f FCtx.plain (decide (op = 2)) a.toNat b.toNat).1

/-- Waiting contributions that are next in the order are added. -/
def RedSlot.settle (order : List (Bool × Nat)) : Nat → RedSlot → RedSlot
  | 0, r => r
  | n + 1, r =>
    match order[r.added.length]? with
    | none => r
    | some src =>
      match r.waiting.find? (fun c => (c.localSource, c.source) = src) with
      | none => r
      | some c =>
        let sum := if r.added.isEmpty then c.values else (r.partial_.zip c.values).map (fun x => redCombine r.double r.op x.1 x.2)
        RedSlot.settle order n { r with added := r.added ++ [src], partial_ := sum
                                        waiting := r.waiting.filter (fun d => !(d.localSource = c.localSource && d.source = c.source)) }

/-- A slot of a group, sequence number and chunk. -/
def RedSlot.is (r : RedSlot) (group : Nat) (sequence : BitVec 64) (chunk : Nat) : Bool :=
  r.group = group && r.sequence = sequence && r.chunk = chunk

/-- A contribution finds its slot, takes one, or waits in the input buffer (R367, R368). A module other than the root sends a
complete partial up. -/
def State.contribute (c : Contribution) (s : State) : State :=
  if s.aborts.contains (c.group, c.sequence) then s else
  let order := s.redOrder c.group
  let here (r : RedSlot) : Bool := r.is c.group c.sequence c.chunk
  let m := s.multicastEntry c.group
  let put (r : RedSlot) (s : State) : State :=
    if (r.added ++ r.waiting.map (fun d => (d.localSource, d.source))).contains (c.localSource, c.source) then s
    else
      let r := RedSlot.settle order (order.length + 1) { r with waiting := r.waiting ++ [c] }
      let up := r.added.length = order.length && !m.testBit 43 && !r.sentUp
      { s with redSlots := putFirst here { r with sentUp := r.sentUp || up } s.redSlots
               out := if up then .partialUp (m / 2 ^ 37 % 64) c.group c.sequence c.chunk r.partial_ :: s.out else s.out }
  match s.redSlots.find? here with
  | some r => put r s
  | none =>
    if s.redSlots.length < 256 then put { group := c.group, sequence := c.sequence, chunk := c.chunk, double := c.double, op := c.op } s
    else if s.redBuffer.contains c then s
    else { s with redBuffer := s.redBuffer ++ [c] }

/-- Contributions in the buffer take slots that have become free, in arrival order (R368). -/
def State.drainBuffer (s : State) : State :=
  let l := s.redBuffer
  l.foldl (fun s c => s.contribute c) { s with redBuffer := [] }

/-- The chunk that a contributor may send next: at most four are outstanding (R368). -/
def Work.maySend (x : Work) (chunk : Nat) : Bool :=
  x.next = chunk && chunk < collChunks x.block && (chunk < 4 || x.landed.contains (chunk - 4))

/-- The running collective of a contributor. -/
def State.contributor (s : State) (group : Nat) (sequence : BitVec 64) (index : Nat) : Option Work :=
  s.works.find? (fun x => x.kind = .collective && collGroup x.block = group && collSequence x.block = sequence && collIndex x.block = index
    && (s.runningWork .collective x.core 0).any (fun y => y.id = x.id))

/-- The tag of a group's next class-D operation (R329); none while one of its operations still holds it. -/
def State.sendTag (s : State) (g : Group) : Option (BitVec 64) :=
  let t := (s.focus g.id.ctx).nextTag
  if g.liveTags.contains t then none else some t

/-- R367: a local contributor's chunk is read from its source as the group's loads are, and sent under a tag of its own, which its slot's
bitmap performs once; a child's partial comes by its port. -/
def execReductionContribution (part : Contribution) (s : State) : Result :=
  .next (if !s.multicastValid part.group then s
    else if !part.localSource then (if (s.redOrder part.group).contains (false, part.source) then s.contribute part else s)
    else match s.contributor part.group part.sequence part.source with
      | none => s
      | some x =>
        let g := s.group x.ctx
        match (if x.maySend part.chunk then s.sendTag g else none) with
        | none => s
        | some tag =>
          let p := collSource x.block
          match s.workPages g x .read p (collElems x.block part.chunk) with
          | (s, .error (some h)) => s.haltWork x h
          | (s, .error none) => s
          | (s, .ok rs) =>
            match s.engineLoads g x.entry rs p (collElems x.block part.chunk) with
            | (s, .error none) => s
            | (s, .error (some h)) => s.haltWork x h
            | (s, .ok vs) =>
              let sent (y : Work) : Work := { y with next := y.next + 1, sends := (part.chunk, tag) :: y.sends, pages := [] }
              let c : Contribution := { group := part.group, sequence := part.sequence, chunk := part.chunk, localSource := true
                                        source := part.source, double := collDouble x.block, op := collOp x.block, tag := tag
                                        values := vs.map (fun v => v.setWidth 64) }
              let s := s.modGroup x.ctx (fun g => { g with liveTags := tag :: g.liveTags, seqD := g.seqD + 1 })
              (s.modWork x.id sent).contribute c)

/-- Values are written to a chunk of a collective's destination as the group's stores are (R280, R367); none: done. -/
def State.landChunk (x : Work) (chunk : Nat) (vals : List (BitVec 64)) (s : State) : State × Option (Option Halt) :=
  let g := s.group x.ctx
  let p := collDest x.block
  let is := collElems x.block chunk
  match s.workPages g x .write p is with
  | (s, .error h) => (s, some h)
  | (s, .ok ws) =>
    match s.engineStores g x.entry ws p (is.map (fun i => (i, (vals.getD (i.toNat - 64 * chunk) 0).setWidth 128))) with
    | (s, _, .error h) => (s, some h)
    | (s, _, .ok _) => (s, none)

/-- A collective command's end: its status word, and its completion (R366, R367, R369). -/
def State.endCollective (x : Work) (aborted : Bool) (s : State) : State :=
  (s.writeStatus x 0x38 (2 ^ 31 + (if aborted then 2 ^ 30 else 0))).finishWork x

/-- The collectives of a group and sequence number at this module. -/
def State.collectives (s : State) (group : Nat) (sequence : BitVec 64) : List Work :=
  s.works.filter (fun x => x.kind = .collective && collGroup x.block = group && collSequence x.block = sequence)

/-- A chunk of a command is at its destination; its tag may be used again (R331). -/
def State.landed (chunk : Nat) (x : Work) (s : State) : State :=
  let done (y : Work) : Work := { y with landed := chunk :: y.landed, sends := y.sends.filter (fun z => z.1 ≠ chunk), wpages := [] }
  (s.modWork x.id done).freeTags x.ctx
    ((x.sends.filter (fun y => y.1 = chunk)).map (·.2))

/-- A total reaches one contributor's destination; the flag says that it is there, or that the command has ended. -/
def State.landTotal (chunk : Nat) (vals : List (BitVec 64)) (x : Work) (s : State) : State × Bool :=
  if x.landed.contains chunk then (s, true)
  else match s.landChunk x chunk vals with
    | (s, some none) => (s, false)
    | (s, some (some h)) => (s.haltWork x h, true)
    | (s, none) =>
      let s := s.landed chunk x
      (match s.works.find? (fun y => y.id = x.id) with
       | some y => if collChunks y.block ≤ y.landed.length then s.endCollective y false else s
       | none => s, true)

/-- R367, R368: a chunk's total reaches the contributors of this module, goes down the tree, and frees the slot. The root's total is
its own partial sum. -/
def execReductionTotal (group : Nat) (sequence : BitVec 64) (chunk : Nat) (total : List (BitVec 64)) (s : State) : Result :=
  .next (match s.redSlots.find? (fun r => r.is group sequence chunk) with
    | none => s
    | some r =>
      let m := s.multicastEntry group
      let whole : Bool := r.added.length = (s.redOrder group).length && (m.testBit 43 || r.sentUp)
      let vals := if m.testBit 43 then r.partial_ else total
      let mine := s.collectives group sequence
      if !whole ∨ mine.any (·.frozen) then s
      else
        let x := mine.foldl (fun acc w => let y := State.landTotal chunk vals w acc.1; (y.1, acc.2 && y.2)) (s, true)
        if !x.2 then x.1
        else
          let down := (portsOf (BitVec.ofNat 36 m)).map (fun j => Out.totalDown j group sequence chunk vals)
          { x.1 with redSlots := dropFirst (fun r => r.is group sequence chunk) x.1.redSlots, out := down ++ x.1.out }.drainBuffer)

/-- The chunks of a collective that did not finish hold free values; of a page that cannot be written they stay as they are, without a fault
(R3, R369). The flag says that no chunk waits. -/
def State.spoil : List Nat → Work → State → State × Bool
  | [], _, s => (s, true)
  | chunk :: rest, x, s =>
    let vals := (List.range 64).map (fun i => Config.freeValue 64 s.free (2 ^ 60 + 2 ^ 40 * x.id + 64 * chunk + i))
    match s.landChunk x chunk vals with
    | (s, some none) => (s, false)
    | (s, _) =>
      let s := s.landed chunk x
      State.spoil rest (s.workNow x) s

/-- A command of an aborted collective completes with done and aborted; a frozen one does after its restore (R369). -/
def State.abortWork (x : Work) (s : State) : State :=
  if x.frozen then s
  else
    let r := s.spoil ((List.range (collChunks x.block)).filter (fun k => !x.landed.contains k)) x
    if r.2 then r.1.endCollective (r.1.workNow x) true else r.1

/-- R369: a collective aborts, here or at another module: every command of it here completes with done and aborted, and the input buffer's
contributions take the slots that it leaves. -/
def execReductionAbort (group : Nat) (sequence : BitVec 64) (s : State) : Result :=
  .next (
    let s := if s.multicastValid group ∨ s.aborts.contains (group, sequence) then s.abortCollective (group, sequence) else s
    if !s.aborts.contains (group, sequence) then s
    else
      let s := (s.collectives group sequence).foldl (fun s x => s.abortWork x) s
      if (s.collectives group sequence).isEmpty then { s with aborts := s.aborts.filter (· ≠ (group, sequence)) }.drainBuffer else s)

end Sys2Proof.Machine
end

