-- ==== Sys2Proof/Machine/Matrix.lean ====
section
/-! DEFINITION. Rosters, matrix operations, accumulator memory and matrix batches (spec 02 R57 to R59, 15 R267 to R275, 16
R291 to R301, 17 R310). -/
namespace Sys2Proof.Machine
open Sys2Proof

/-! Shapes and fragments. -/

/-- Registers of a member's share (R293). -/
def shareRegs (code rows k r : Nat) : Nat := fragBytes code rows k / (128 * r)

/-- Units of a tile (R271). -/
def tileUnits (shape : Nat × Nat × Nat) : Nat := if shape.1 = 64 then 4 else 1

/-- Bytes of an accumulator element (R271). -/
def accSize (macc : Nat) : Nat := if macc = 1 then 8 else 4

/-- Two unit ranges meet. -/
def rangesMeet (a m b n : Nat) : Bool := a < b + n && b < a + m

/-- The tile of an operation or arrival, as its unit count. -/
def unitsOf (mfa mfb macc : Nat) : Nat := match matrixShape mfa mfb macc with | some sh => tileUnits sh | none => 0

/-- An operation, or a write that follows it, concerns units of the range (R272). -/
def MatrixOp.touches (o : MatrixOp) (first n : Nat) : Bool :=
  rangesMeet o.handle (unitsOf o.mfa o.mfb o.macc) first n || o.after.any (fun w => rangesMeet w.first w.units first n)

/-- The operations of a group's team that concern a range of units. -/
def State.opsOn (s : State) (g : Group) (first n : Nat) : List MatrixOp :=
  s.ops.filter (fun o => o.launch = g.id.launch && o.team = g.id.team && o.touches first n)

/-! Accumulator memory. -/

/-- A byte of a team's accumulator units: zero in a unit granted by `acalloc` or cleared (R295, R297), free in a unit held
since the team's creation and not written (log 6). -/
def Team.accByte (t : Team) (a : Nat) : Byte :=
  if t.zeroUnits.contains (a / 4096) then memGet t.acc a else scratchGet t.accAlloc t.acc a

/-- `n` bytes of accumulator memory. -/
def Team.accRead (t : Team) (a n : Nat) : Nat := leNat ((List.range n).map (fun i => t.accByte (a + i)))

/-- Units without contents: their listed bytes are dropped. -/
def Team.dropUnits (t : Team) (first n : Nat) : Team :=
  { t with acc := t.acc.filter (fun c => !(first ≤ c.1 / 4096 && c.1 / 4096 < first + n))
           zeroUnits := t.zeroUnits.filter (fun u => !(first ≤ u && u < first + n)) }

/-- Units all of whose bytes are zero (R295, R297). -/
def Team.clearUnits (t : Team) (first n : Nat) : Team :=
  let t := t.dropUnits first n
  { t with zeroUnits := (List.range n).map (first + ·) ++ t.zeroUnits }

/-- A write of R272. -/
def Team.writeTile (t : Team) (w : TileWrite) : Team :=
  if w.clear then t.clearUnits w.first w.units else { t with acc := w.puts.foldl (fun m p => scratchWrite m p.1 p.2) t.acc }

/-- The write is made now, or after the last operation on its units whose rendezvous has been (R272). -/
def State.writeAfter (w : TileWrite) (s : State) : State :=
  match (s.opsOn s.g w.first w.units).getLast? with
  | none => s.modTeam s.g (fun t => t.writeTile w)
  | some o => { s with ops := modifyFirst (fun x => x.id = o.id) (fun x => { x with after := x.after ++ [w] }) s.ops }

/-! Rendezvous and staging. -/

/-- The rostered members, in roster order (R292). -/
def Team.positions (t : Team) : List Nat := (List.range 8).filter (fun m => t.roster.getLsbD m)

/-- The bytes of `n` vector registers of a context; a context that has left gives free values (log 24). -/
def State.fragment (s : State) (ctx first n : Nat) : List Byte :=
  if s.has ctx then
    ((List.range n).map (fun i => ((List.range 32).map (fun l => leBytes 4 ((s.group ctx).readV (first + i) l).toNat)).flatten)).flatten
  else (List.range (128 * n)).map (fun i => Config.freeValue 8 s.free (2 ^ 60 * (ctx + 1) + 128 * first + i))

/-- Stage an operation: every member's fragment registers are copied in one step and their holds lowered (R268). -/
def State.stage (o : MatrixOp) (s : State) : State :=
  match matrixShape o.mfa o.mfb o.macc with
  | none => s
  | some (m, n, k) =>
    let na := shareRegs o.mfa m k o.r
    let nb := shareRegs o.mfb n k o.r
    let o' := { o with
      staged := true
      a := (o.arrivals.map (fun x => s.fragment x.ctx x.regA na)).flatten
      b := (o.arrivals.map (fun x => s.fragment x.ctx x.regB nb)).flatten
      scale := match o.arrivals.head? with
        | some x => if o.mfa = 6 then s.fragment x.ctx x.regS 4 else []
        | none => [] }
    let lower (s : State) (x : Arrival) : State := s.lowerHolds x.ctx x.held
    o.arrivals.foldl lower { s with ops := modifyFirst (fun x => x.id = o.id) (fun _ => o') s.ops }

/-- Operations take the free places of a core's staging, which has 4, in rendezvous order (R270). -/
def State.fillStaging (core : CoreId) : Nat → State → State
  | 0, s => s
  | n + 1, s =>
    let mine := s.ops.filter (fun o => o.core = core)
    match mine.find? (fun o => !o.staged) with
    | none => s
    | some o => if (mine.filter (·.staged)).length < 4 then (s.stage o).fillStaging core n else s

/-- The parameters that differ among arrivals (R268, R36): bit 0 shape, bit 1 handle, bit 2 formats. -/
def mismatchBits (l : List Arrival) : Nat :=
  match l with
  | [] => 0
  | a :: _ =>
    (if l.any (fun x => matrixShape x.mfa x.mfb x.macc ≠ matrixShape a.mfa a.mfb a.macc) then 1 else 0)
      + (if l.any (fun x => x.handle ≠ a.handle) then 2 else 0)
      + (if l.any (fun x => x.mfa ≠ a.mfa || x.mfb ≠ a.mfb || x.macc ≠ a.macc) then 4 else 0)

/-- When every rostered member has an arrival, the oldest of each form an operation, or all of them are refused (R268). -/
def State.rendezvous (s : State) : State :=
  let t := s.teamOf s.g
  let heads := t.positions.map (fun m => ((t.arrivals.getD m []).head?))
  if heads.isEmpty || heads.any Option.isNone then s
  else
    let arr := heads.filterMap id
    let pop (t : Team) : Team :=
      { t with arrivals := (List.range t.arrivals.length).map (fun m =>
          if t.positions.contains m then (t.arrivals.getD m []).drop 1 else t.arrivals.getD m []) }
    let s := s.modTeam s.g pop
    let bits := mismatchBits arr
    if bits ≠ 0 then arr.foldl (State.failArrival bits) s
    else match arr with
      | [] => s
      | a :: _ =>
        let o : MatrixOp := { id := s.nextOp, launch := s.g.id.launch, team := s.g.id.team, core := s.g.core, handle := a.handle
                              mfa := a.mfa, mfb := a.mfb, macc := a.macc, r := arr.length, arrivals := arr }
        State.fillStaging s.g.core 4 { s with ops := s.ops ++ [o], nextOp := s.nextOp + 1 }

/-! Batches. -/

/-- The batch of an operation in a group. -/
def Group.batchOf (g : Group) (op : Nat) : Nat :=
  match g.matrixBatches.find? (fun b => b.2.contains op) with
  | some b => b.1
  | none => g.nextMatrix

/-! One operation (R58, R59). -/

/-- Element (row, k) of an operand whose `rows` lie with members row mod r (R269). -/
def fragElement (code k r : Nat) (share : Nat) (bytes : List Byte) (row col : Nat) : Nat :=
  let o := (row / r) * k + col
  let base := (row % r) * share
  if code = 6 then
    let b := (bytes.getD (base + o / 2) 0).toNat
    if o % 2 = 0 then b % 16 else b / 16
  else
    let n := matrixBits code / 8
    leNat ((bytes.drop (base + o * n)).take n)

/-- Operand A's element. -/
def MatrixOp.elemA (o : MatrixOp) (sh : Nat × Nat × Nat) (m k : Nat) : Nat :=
  fragElement o.mfa sh.2.2 o.r (fragBytes o.mfa sh.1 sh.2.2 / o.r) o.a m k

/-- Operand B's element. -/
def MatrixOp.elemB (o : MatrixOp) (sh : Nat × Nat × Nat) (k n : Nat) : Nat :=
  fragElement o.mfb sh.2.2 o.r (fragBytes o.mfb sh.2.1 sh.2.2 / o.r) o.b n k

/-- The value of codebook index `i` (R51): a sign and 1,024 × the magnitude. -/
def nqValue (i : Nat) : FVal := .fin (i < 8) (nqAbs i) (-10)

/-- Operands and products of a group sum: (A, B) with their formats. -/
def groupSum (fa fb : FFmt) (l : List (FVal × FVal)) : List (FFmt × FVal) × List (Option FVal) :=
  ((l.map (fun p => [(fa, p.1), (fb, p.2)])).flatten, l.map (fun p => mulTerm p.1 p.2))

/-- An exact sum of products (R58, R59): the value, none for a NaN, with NV. Infinities of both signs are opposed even
beside a NaN. -/
def exactSum (l : List (FVal × FVal)) : Option FVal × FlagBits :=
  let terms := l.map (fun p => mulTerm p.1 p.2)
  let vals := terms.filterMap id
  let nan := l.any (fun p => p.1.isNan || p.2.isNan)
  let bad := terms.any Option.isNone
  let opposed := vals.any (fun v => v.isInf && v.sign) && vals.any (fun v => v.isInf && !v.sign)
  let nv : FlagBits := if bad || opposed || l.any (fun p => p.1.isSnan || p.2.isSnan) then flagNV else 0
  (if nan || bad || opposed then none else sumVals 0 vals, nv)

/-- A sum times c × S / 256, exact (R58). -/
def scaleSum (v : Option FVal × FlagBits) (c sc : Nat) : Option FVal × FlagBits :=
  let x := FFmt.f32.decode sc
  if x.isNan then (none, if x.isSnan then v.2 ||| flagNV else v.2)
  else match v.1 with
    | none => (none, v.2)
    | some y =>
      match y with
      | .fin s m e => (match FVal.mul (.fin s (m * c) (e - 8)) x with | some z => (some z, v.2) | none => (none, v.2 ||| flagNV))
      | y => (match FVal.mul y x with | some z => (some z, v.2) | none => (none, v.2 ||| flagNV))

/-- One rounding to FP32 (R58). -/
def roundSum (v : Option FVal × FlagBits) : FRes :=
  match v.1 with
  | some (.fin s m e) => let r := FFmt.f32.roundVal .plain false s m e; (r.1, r.2 ||| v.2)
  | some (.inf s) => (FFmt.f32.infBits s, v.2)
  | _ => (FFmt.f32.canonical, v.2)

/-- The new accumulator element (m, n), from the old one (R58). -/
def MatrixOp.update (o : MatrixOp) (sh : Nat × Nat × Nat) (m n old : Nat) : FRes :=
  let ks := List.range sh.2.2
  if o.macc = 1 then
    ks.foldl (fun acc k =>
      let r := fFma .f64 .plain (o.elemA sh m k) (o.elemB sh k n) acc.1
      (r.1, r.2 ||| acc.2)) (old, 0)
  else if o.mfa = 7 then
    (ofSigned 32 (ks.foldl (fun (a : Int) k => a + toSigned 8 (o.elemA sh m k) * toSigned 8 (o.elemB sh k n)) (toSigned 32 old)), 0)
  else
    let fb := matrixFormat o.mfb
    let add (g : FRes) : FRes := let r := fAdd .f32 .plain false old g.1; (r.1, r.2 ||| g.2)
    if o.mfa = 6 then
      let c := (o.scale.getD m 0).toNat
      if c = 0 then add (0, 0)
      else
        let sc := leNat ((o.scale.drop (128 + 4 * m)).take 4)
        add (roundSum (scaleSum (exactSum (ks.map (fun k => (nqValue (o.elemA sh m k), fb.decode (o.elemB sh k n))))) c sc))
    else
      let fa := matrixFormat o.mfa
      add (roundSum (exactSum (ks.map (fun k => (fa.decode (o.elemA sh m k), fb.decode (o.elemB sh k n))))))

/-- The accumulator byte offset of element (m, n) of a tile (R271). -/
def tileOffset (handle cols size m n : Nat) : Nat := handle * 4096 + (m * cols + n) * size

/-- The operation updates its tile, and the team's matrix flags take what it raised (R58, R59, R275). -/
def MatrixOp.perform (o : MatrixOp) (t : Team) : Team :=
  match matrixShape o.mfa o.mfb o.macc with
  | none => t
  | some sh =>
    let size := accSize o.macc
    let cells := ((List.range sh.1).map (fun m => (List.range sh.2.1).map (fun n => (m, n)))).flatten
    let done := cells.map (fun c =>
      let a := tileOffset o.handle sh.2.1 size c.1 c.2
      (a, o.update sh c.1 c.2 (t.accRead a size)))
    { t with acc := done.foldl (fun m x => scratchWrite m x.1 (leBytes size x.2.1)) t.acc
             flags := done.foldl (fun f x => f ||| x.2.2) t.flags }

/-- The first staged operation of a core is performed and leaves staging (R270, R274). -/
def State.performOp (o : MatrixOp) (s : State) : State :=
  let mine (t : Team) : Bool := t.launch = o.launch && t.team = o.team
  let s := { s with
    teams := modifyFirst mine (fun t => o.after.foldl Team.writeTile (o.perform t)) s.teams
    ops := s.ops.filter (fun x => x.id ≠ o.id) }
  (o.arrivals.foldl (fun s a => State.modGroup a.ctx (Group.opDone a.op) s) s).fillStaging o.core 4

/-- An `acrd` that waits for earlier operations must read before this one changes its tile (R272). -/
def State.awaitedBy (s : State) (o : MatrixOp) : Bool :=
  s.groups.any (fun g => g.id.launch = o.launch && g.id.team = o.team && (match g.tileWait with
    | some (ids, first, n) => !ids.contains o.id && o.touches first n
    | none => false))

/-- An operation whose checks failed twice kills its team's cluster: every group records cause 21 with its batch number (R273). -/
def State.killMatrix (o : MatrixOp) (s : State) : State :=
  let cluster := ((s.teams.find? (fun t => t.launch = o.launch && t.team = o.team)).map (·.cluster)).getD 0
  let batch (g : Group) : Nat :=
    match o.arrivals.find? (fun a => a.ctx = g.id.ctx) with
    | some a => g.batchOf a.op
    | none => match o.arrivals.head? with
      | some a => (s.group a.ctx).batchOf a.op
      | none => 0
  s.killCluster o.launch cluster 5 (fun g => some (g.killRec 21 (batch g)))

/-- R270, R273: the oldest staged operation of a core is performed; a first failed check executes it again and is counted as
correctable, a second kills the team's cluster. -/
def execMatrixOperation (core : CoreId) (failedChecks : Nat) (s : State) : Result :=
  .next (match s.ops.find? (fun o => o.core = core) with
    | none => s
    | some o =>
      if !o.staged || s.awaitedBy o then s
      else if failedChecks = 0 then s.performOp o
      else if failedChecks = 1 then
        (s.corrected core).performOp o
      else s.killMatrix o)

/-! Instructions. -/

/-- The formats of fmt: MFA, MFB, MACC. -/
def Group.formats (g : Group) : Nat × Nat × Nat := (fmtMFA g.fmt, fmtMFB g.fmt, fmtMACC g.fmt)

/-- The group's roster position (R292). -/
def State.rosterPlace (s : State) : Option Nat :=
  let ps := (s.teamOf s.g).positions
  if ps.contains s.g.id.member then some (ps.takeWhile (· ≠ s.g.id.member)).length else none

/-- Register counts of an `mma`: the A share, the B share, and the scale block when read (R293, R294). -/
def State.mmaSpans (s : State) : Nat × Nat × Nat :=
  let (mfa, mfb, macc) := s.g.formats
  match s.rosterPlace, matrixShape mfa mfb macc with
  | some place, some (m, n, k) =>
    let r := (s.teamOf s.g).positions.length
    (shareRegs mfa m k r, shareRegs mfb n k r, if mfa = 6 ∧ place = 0 then 4 else 0)
  | _, _ => (1, 1, 0)

/-- The registers that `mma` reads. -/
def State.usesMma (s : State) (w : Fields) : List RegUse :=
  let (na, nb, ns) := s.mmaSpans
  [{ pos := 1, file := .v, num := s.g.num w.a, count := na }, { pos := 2, file := .v, num := s.g.num w.b, count := nb }]
    ++ (if ns = 0 then [] else [{ pos := 3, file := .v, num := s.g.num w.c, count := ns }])

/-- R268, R293, R294. -/
def execMma (w : Fields) (s : State) : Result :=
  s.issue (.mma w) w (s.usesMma w) (fun s =>
    let (mfa, mfb, macc) := s.g.formats
    let t := s.teamOf s.g
    let (na, nb, ns) := s.mmaSpans
    let h := w.immBits 0 8
    let refuse (bit : Nat) : State := s.faultAt w { cause := 12, extra := BitVec.ofNat 64 bit }
    match s.rosterPlace, matrixShape mfa mfb macc with
    | none, _ => refuse 8
    | some _, none => refuse 4
    | some _, some sh =>
      if t.units < h + tileUnits sh then refuse 2
      else if 4 ≤ (t.arrivals.getD s.g.id.member []).length then s.stalls .other
      else
        let span (first n : Nat) : List Nat := (List.range n).map (first + ·)
        let regs := (span (s.g.num w.a) na ++ span (s.g.num w.b) nb ++ span (s.g.num w.c) ns).eraseDups
        let op := s.g.nextId
        let a : Arrival := { ctx := s.g.id.ctx, op := op, handle := h, mfa := mfa, mfb := mfb, macc := macc, regA := s.g.num w.a
                             regB := s.g.num w.b, regS := s.g.num w.c, held := regs, pc := s.g.pc, mask := s.g.lanes w }
        let g := regs.foldl Group.raiseHold s.g
        let put (t : Team) : Team :=
          { t with arrivals := (List.range 8).map (fun m => if m = s.g.id.member then t.arrivals.getD m [] ++ [a] else t.arrivals.getD m []) }
        let s := { s with g := { g with nextId := op + 1, openMatrix := g.openMatrix ++ [op] } }.modTeam s.g put
        s.rendezvous.finish w true)

/-- R292. -/
def execRoster (w : Fields) (s : State) : Result :=
  s.issue (.roster w) w [] (fun s =>
    let t := s.teamOf s.g
    let m := w.immBits 0 8
    if t.size < 8 ∧ m / 2 ^ t.size ≠ 0 ∨ t.arrivals.any (fun l => !l.isEmpty) then s.faultAt w { cause := 12, extra := 8 }
    else (s.modTeam s.g (fun t => { t with roster := BitVec.ofNat 8 m })).finish w true)

/-- ACC of a partition's quota (R180). -/
def State.quotaUnits (s : State) (p : Nat) : Nat := s.regField (partBlock p + 0x90) 27 8

/-- The core and the quota can give `u` more accumulator units to a team of the partition (R295). -/
def State.canGiveUnits (s : State) (core : CoreId) (part u : Nat) : Bool :=
  let here := s.teams.filter (fun t => t.core = core && t.resident)
  let used := here.foldl (fun n t => n + t.units) 0
  let mine := (here.filter (fun t => (s.grids.find? (fun x => x.launch = t.launch)).any (fun x => x.part = part))).foldl (fun n t => n + t.units) 0
  used + u ≤ Config.accUnits && mine + u ≤ s.quotaUnits part

/-- The waiting `acalloc` requests of a core, in the order of first failure (R295). -/
def State.coreQueue (s : State) (core : CoreId) : List Nat := s.acallocQueue.filter (fun c => (s.group c).core = core)

/-- The fault of R295: a count of accumulator units. -/
def unitsFault (n : Int) : FaultRec := { cause := 2, extra := BitVec.ofNat 64 ((n % 2 ^ 18).toNat + 2 ^ 26) }

/-- R295: units are granted at once, refused, or waited for. -/
def execAcalloc (w : Fields) (s : State) : Result :=
  s.issue (.acalloc w) w (s.g.useDest w true ++ (if w.a = {} then [] else s.g.useOf 1 w.a true)) (fun s =>
    let u := (s.uniform w.a (w.a = {}) (w.immBits 0 8)).toNat
    let t := s.teamOf s.g
    let n := t.units
    let q := s.coreQueue s.g.core
    if u = 0 ∨ 128 < n + u ∨ s.quotaUnits s.g.id.part < n + u then s.faultAt w (unitsFault ((n : Int) + u))
    else if (q.isEmpty ∨ q.head? = some s.g.id.ctx) ∧ s.canGiveUnits s.g.core s.g.id.part u then
      let s := { s with acallocQueue := s.acallocQueue.filter (· ≠ s.g.id.ctx) }
      let s := s.modTeam s.g (fun t => { t.clearUnits n u with units := n + u })
      (s.putResult w true (fun _ => BitVec.ofNat 64 n)).finish w true
    else
      let q := if s.acallocQueue.contains s.g.id.ctx then s.acallocQueue else s.acallocQueue ++ [s.g.id.ctx]
      { s with acallocQueue := q }.waitsAt (.acalloc u))

/-- R296: the units are released once no arrival and no operation names a tile that touches them. -/
def execAcfree (w : Fields) (s : State) : Result :=
  s.issue (.acfree w) w (if w.a = {} then [] else s.g.useOf 1 w.a true) (fun s =>
    let u := (s.uniform w.a (w.a = {}) (w.immBits 0 8)).toNat
    let t := s.teamOf s.g
    let n := t.units
    if u = 0 ∨ n < u then s.faultAt w (unitsFault ((n : Int) - u))
    else if t.arrivals.flatten.any (fun a => rangesMeet a.handle (unitsOf a.mfa a.mfb a.macc) (n - u) u) ∨ !(s.opsOn s.g (n - u) u).isEmpty then
      s.stalls .other
    else
      let s := s.modTeam s.g (fun t => { t.dropUnits (n - u) u with units := n - u })
      (s.takeCores (fun k => { k with accTeams := k.accTeams + 1 }) [s.g.core]).finish w true)

/-- R297. -/
def execAczero (w : Fields) (s : State) : Result :=
  s.issue (.aczero w) w [] (fun s =>
    let h := w.immBits 0 8
    let c := w.immBits 8 8 + 1
    if (s.teamOf s.g).units < h + c then s.faultAt w { cause := 12, extra := 2 }
    else (s.writeAfter { first := h, units := c, clear := true }).finish w false)

/-- Rows and columns of a tile kind (R298). -/
def tileDims (kind : Nat) : Nat × Nat := if kind = 0 then (64, 64) else if kind = 1 then (32, 32) else (16, 16)

/-- The number format of a tile's elements (R298). -/
def tileNum (code : Nat) : NumFmt := if code = 1 then .int true 32 else if code = 2 then .flt .f64 else .flt .f32

/-- Registers, or pairs, of a row (R298). -/
def tileRegs (kind : Nat) : Nat := if kind = 0 then 2 else 1

/-- The row and column of the element in register `j`, lane `l`, of row `m` (R298). -/
def tileCell (kind m j l : Nat) : Nat × Nat := if kind = 2 then (m + l / 16, l % 16) else (m, 32 * j + l)

/-- The row number of `acrd` and `acwr` (R298). -/
def State.tileRow (s : State) (w : Fields) : Nat := (s.uniform w.b (w.modBit 5) (w.immBits 8 8)).toNat

/-- The row or the tile is out of range (R298). -/
def State.tileBad (s : State) (w : Fields) : Bool :=
  let kind := w.modBits 0 2
  let m := s.tileRow w
  (tileDims kind).1 ≤ m || (kind = 2 && m % 2 = 1) || (s.teamOf s.g).units < w.immBits 0 8 + (if kind = 0 then 4 else 1)

/-- The byte offset of an element of the row. -/
def State.tileAt (s : State) (w : Fields) (j l : Nat) : Nat :=
  let kind := w.modBits 0 2
  let c := tileCell kind (s.tileRow w) j l
  tileOffset (w.immBits 0 8) (tileDims kind).2 (if kind = 2 then 8 else 4) c.1 c.2

/-- R298, R299: one row to registers; it waits for the operations whose rendezvous came first (R272). -/
def execAcrd (w : Fields) (s : State) : Result :=
  let kind := w.modBits 0 2
  let step := if w.type.wide then 2 else 1
  let dst : List RegUse := if w.n then []
    else [{ pos := 0, file := .v, num := s.g.dnum w, count := tileRegs kind * step, align := step, write := true }]
  s.issue (.acrd w) w (dst ++ (if w.modBit 5 then [] else s.g.useOf 2 w.b true)) (fun s =>
    if s.tileBad w then s.faultAt w { cause := 12, extra := 2 }
    else
      let h := w.immBits 0 8
      let n := if kind = 0 then 4 else 1
      let ids := match s.g.tileWait with
        | some x => x.1
        | none => (s.opsOn s.g h n).map (·.id)
      if s.ops.any (fun o => ids.contains o.id) then { s with g := { s.g with tileWait := some (ids, h, n) } }.stalls .tile
      else
        let m := s.g.lanes w
        let t := s.teamOf s.g
        let value (j l : Nat) : FRes :=
          convert (tileNum (w.modBits 2 2)) (tyNum w.type) (FCtx.ofFmt s.g.fmt) (t.accRead (s.tileAt w j l) (if kind = 2 then 8 else 4))
        let s' := s.captureLanes w w.type.wide m (fun l => BitVec.ofNat 64 (value 0 l).1)
        let g := if w.n then s'.g
          else (List.range (tileRegs kind)).foldl (fun g j => g.writeLanes (s.g.dnum w + j * step) w.type.wide m (fun l => BitVec.ofNat 64 (value j l).1)) s'.g
        let g := g.raiseFlags m (fun l => (List.range (tileRegs kind)).foldl (fun f j => f ||| (value j l).2) 0)
        { s' with g := { g with tileWait := none } }.finish w false)

/-- R298, R299: the active, enabled lanes' elements go into the tile, in the order of R272. -/
def execAcwr (w : Fields) (s : State) : Result :=
  let kind := w.modBits 0 2
  let step := if w.type.wide then 2 else 1
  s.issue (.acwr w) w ((if w.modBit 5 then [] else s.g.useOf 2 w.b true)
      ++ (if w.c.latch then [] else [spanUse 3 .v (s.g.num w.c) (tileRegs kind) step false])) (fun s =>
    if s.tileBad w then s.faultAt w { cause := 12, extra := 2 }
    else
      let m := s.g.lanes w
      let size := if kind = 2 then 8 else 4
      let value (j l : Nat) : FRes := convert (tyNum w.type) (tileNum (w.modBits 2 2)) (FCtx.ofFmt s.g.fmt) (s.dataReg w step j l).toNat
      let puts := ((maskLanes m).map (fun l => (List.range (tileRegs kind)).map (fun j => (s.tileAt w j l, leBytes size (value j l).1)))).flatten
      let g := s.g.raiseFlags m (fun l => (List.range (tileRegs kind)).foldl (fun f j => f ||| (value j l).2) 0)
      ({ s with g := g }.writeAfter { first := w.immBits 0 8, units := if kind = 0 then 4 else 1, puts := puts }).finish w false)

/-- R274, R300: the open batch closes; the 64th pending one stalls. -/
def execSealm (w : Fields) (s : State) : Result :=
  s.issue (.sealm w) w (if w.modBit 0 then s.g.useDest w true else []) (fun s =>
    if 63 ≤ s.g.matrixBatches.length then s.stalls .batch
    else
      let n := s.g.nextMatrix
      let batches := if s.g.openMatrix.isEmpty then s.g.matrixBatches else s.g.matrixBatches ++ [(n, s.g.openMatrix)]
      let s := { s with g := { s.g with matrixBatches := batches, openMatrix := [], nextMatrix := (n + 1) % 65536 } }
      (if w.modBit 0 then s.putResult w true (fun _ => BitVec.ofNat 64 n) else s).finish w true)

/-- R274, R275, R301. -/
def execWaitm (w : Fields) (s : State) : Result :=
  s.issue (.waitm w) w (if w.modBit 5 then [] else s.g.useOf 1 w.a true) (fun s =>
    if s.g.matrixBatches.length ≤ s.waitLimit w then
      { s with g := s.g.raiseFlags (s.g.lanes w) (fun _ => (s.teamOf s.g).flags) }.finish w false
    else { s with g := s.g.stopRun })

/-- R282, R300. -/
def execSealc (w : Fields) (s : State) : Result :=
  s.issue (.sealc w) w (if w.modBit 0 then s.g.useDest w true else []) (fun s =>
    if 63 ≤ s.g.copyBatches.length then s.stalls .batch
    else
      let n := s.g.nextCopy
      let batches := if s.g.openCopy.isEmpty then s.g.copyBatches else s.g.copyBatches ++ [(n, s.g.openCopy)]
      let s := { s with g := { s.g with copyBatches := batches, openCopy := [], nextCopy := (n + 1) % 65536 } }
      (if w.modBit 0 then s.putResult w true (fun _ => BitVec.ofNat 64 n) else s).finish w true)

/-- R282, R301. -/
def execWaitc (w : Fields) (s : State) : Result :=
  s.issue (.waitc w) w (if w.modBit 5 then [] else s.g.useOf 1 w.a true) (fun s =>
    if s.g.copyBatches.length ≤ s.waitLimit w then s.finish w false else { s with g := s.g.stopRun })

/-- R295: the head of a core's waiting requests may issue again once units and quota allow it. -/
def execAcallocGrant (core : CoreId) (s : State) : Result :=
  .next (match s.coreQueue core with
    | [] => s
    | c :: _ =>
      match (s.group c).pending with
      | .acalloc u =>
        if s.canGiveUnits core (s.group c).id.part u then s.modGroup c (fun g => { g with pending := .none }) else s
      | _ => s)

end Sys2Proof.Machine
end

