-- ==== Sys2Proof/Machine/Image.lean ====
section
/-! DEFINITION. Context and team images (spec 03 R97 to R99, 06 R147, 18 R321 to R327): what a save writes and what a restore
reads. -/
namespace Sys2Proof.Machine
open Sys2Proof

/-! Live registers (R97 to R99). -/

/-- A safe-point entry for an offset, among 8-byte entries (R98): the index of its live entry. -/
def findSafePoint (off : Nat) : Nat → List Byte → Option Nat
  | 0, _ => none
  | n + 1, bs => if leNat (bs.take 4) = off then some (leNat ((bs.drop 4).take 4)) else findSafePoint off n (bs.drop 8)

/-- The live entry at the group's pc, as a number of 512 bits; none where every register is to be written (R99). -/
def State.liveEntry (s : State) (g : Group) : Option Nat :=
  if g.id.sideTables = 0 then none
  else match s.virtRead g.id.part g.id.sideTables 32 with
    | none => none
    | some d =>
      let n := leNat ((d.drop 16).take 4)
      match s.virtRead g.id.part (leNat ((d.drop 8).take 8)) (8 * n) with
      | none => none
      | some es =>
        if g.pc < leNat (d.take 8) then none
        else match findSafePoint (g.pc - leNat (d.take 8)) n es with
          | none => none
          | some i => (s.virtRead g.id.part (leNat ((d.drop 24).take 8) + 64 * i) 64).map leNat

/-- A mask of `n` bits from a predicate. -/
def bitsOf (n : Nat) (p : Nat → Bool) : Nat := (List.range n).foldl (fun m i => if p i then m + 2 ^ i else m) 0

/-- The written masks of a save (R99, R323): v, s, p, k, x. -/
def State.writtenMasks (s : State) (g : Group) : Nat × Nat × Nat × Nat × Nat :=
  match s.liveEntry g with
  | none => (bitsOf g.alloc (fun _ => true), 2 ^ 64 - 1, 2 ^ 16 - 1, 2 ^ 16 - 1, 7)
  | some e =>
    (bitsOf g.alloc (fun n => e.testBit n || g.holdCount n ≠ 0), bitsAt 256 64 e, bitsAt 320 16 e, bitsAt 336 16 e, bitsAt 352 3 e)

/-! The in-flight record (R326, R327). -/

/-- The code of a kind (R327); a local barrier arrival and a name question use the codes of their like (log 25). -/
def EntryKind.code : EntryKind → Nat
  | .load => 1 | .store => 2 | .atomic => 3 | .regsStore => 4 | .engineStart => 5 | .remoteArrival | .localArrival => 6
  | .copy => 7 | .gather => 8 | .literal => 9 | .scopeWalk => 10 | .linclr => 11 | .nameInfo => 1 | .gridgrow => 0

/-- The kind of a code, with its path. -/
def EntryKind.ofCode (code path : Nat) : EntryKind :=
  match code with
  | 1 => if path = 5 then .nameInfo else .load
  | 2 => .store | 3 => .atomic | 4 => .regsStore | 5 => .engineStart
  | 6 => if path = 0 then .localArrival else .remoteArrival
  | 7 => .copy | 8 => .gather | 9 => .literal | 10 => .scopeWalk | _ => .linclr

/-- The 32 bytes of an entry (R327). -/
def Entry.recordBytes (e : Entry) : List Byte :=
  let cls := match e.cls with | .i => 0 | .d => 1 | .c => 2
  leBytes 1 e.kind.code ++ leBytes 1 (cls + (if e.done then 4 else 0)) ++ leBytes 1 e.path ++ leBytes 1 e.slot ++ leBytes 1 e.slots
    ++ leBytes 1 e.mod.toNat ++ leBytes 1 (e.ty.toNat + (if e.g then 16 else 0) + (if e.quad then 32 else 0))
    ++ leBytes 1 e.dfile.code.toNat ++ leBytes 2 e.dest ++ leBytes 2 (e.anchor % 65536) ++ leBytes 4 (e.anchor / 65536 % 4)
    ++ leBytes 8 (if e.cls = .i then 0 else e.tag.toNat) ++ leBytes 4 e.mask.toNat ++ leBytes 4 (e.fmt.toNat % 2 ^ 18)

/-- Bytes of one operand of an atomic in its payload: the two of a `cas` take 16 together (R326). -/
def Entry.operandBytes (e : Entry) : Nat := if e.mod.toNat % 16 = 8 || e.type.wide then 8 else 4

/-- One lane's store data or operands, as its payload holds them (R326): register values of 4 or 8 bytes, 16 for a 16-byte
element (log 98); the packed elements of one register lie together. -/
def Entry.laneData (e : Entry) (a : LaneAcc) : List Byte :=
  match e.kind with
  | .atomic => (a.data.map (fun x => valueBytes x e.operandBytes)).flatten
  | .linclr => (a.data.map (fun x => valueBytes x 4)).flatten
  | _ =>
    let per := perRegister (Ptr.efmt a.ptr) e.type
    let size := 4 * stepOf e.type (e.lanes.map (·.ptr))
    ((List.range (2 ^ (e.mod.toNat % 4))).map (fun j =>
      leBytes size ((List.range per).foldl (fun x k => x + (a.data.getD (j * per + k) 0).toNat * 2 ^ (8 * Ptr.size a.ptr * k)) 0))).flatten

/-- The bytes of a lane's data. -/
def Entry.laneBytes (e : Entry) : Nat :=
  match e.kind with
  | .atomic => (if e.mod.toNat % 16 = 8 then 2 else 1) * e.operandBytes
  | .store | .regsStore | .engineStart => 2 ^ (e.mod.toNat % 4) * 4 * stepOf e.type (e.lanes.map (·.ptr))
  | _ => 0

/-- The payload of a memory access (R326): indices, pointer or quad, data. -/
def Entry.payload (e : Entry) : List Byte :=
  let lane (l : Nat) : Option LaneAcc := e.lanes.find? (fun a => a.lane = l)
  let idx := ((List.range 32).map (fun l => leBytes 8 (((lane l).map (fun (a : LaneAcc) => a.index)).getD 0).toNat)).flatten
  let ptr := if e.quad then ((List.range 32).map (fun l => leBytes 16 (((lane l).map (fun (a : LaneAcc) => a.ptr)).getD 0).toNat)).flatten
    else leBytes 16 (((e.lanes.head?).map (fun (a : LaneAcc) => a.ptr)).getD 0).toNat
  let data := if e.kind = .linclr then ((e.lanes.head?).map e.laneData).getD []
    else ((List.range 32).map (fun l => ((lane l).map e.laneData).getD (List.replicate e.laneBytes 0))).flatten
  if e.lanes.isEmpty then [] else idx ++ ptr ++ data

/-- The payload of a copy or gather command (R326): the block, the offsets and count of a copy, the next chunk or bag, and the
batch number (log 25). -/
def Work.payload (x : Work) (batch : Nat) : List Byte :=
  match x.kind with
  | .copy => x.block.take 128 ++ leBytes 8 x.srcOff.toNat ++ leBytes 8 x.dstOff.toNat ++ leBytes 8 x.count.toNat ++ leBytes 4 x.next
      ++ leBytes 4 batch
  | _ => x.block.take 64 ++ leBytes 8 x.next ++ leBytes 8 batch

/-- The copy batch of a command: a closed one, or the open one's number to come. -/
def Group.copyBatchOf (g : Group) (work : Nat) : Nat :=
  match g.copyBatches.find? (fun b => b.2.contains work) with
  | some b => b.1
  | none => g.nextCopy

/-- A lane of a restored entry. -/
def laneOfPayload (e : Entry) (p : List Byte) (l : Nat) : LaneAcc :=
  let ptr := BitVec.ofNat 128 (leNat (if e.quad then (p.drop (256 + 16 * l)).take 16 else (p.drop 256).take 16))
  let a : LaneAcc := { lane := l, ptr := ptr, index := BitVec.ofNat 64 (leNat ((p.drop (8 * l)).take 8)) }
  let base := 256 + (if e.quad then 512 else 16)
  let e := { e with lanes := [a] }
  let bytes := (p.drop (base + e.laneBytes * l)).take e.laneBytes
  let num (n k : Nat) : BitVec 128 := BitVec.ofNat 128 (leNat ((bytes.drop (n * k)).take n))
  match e.kind with
  | .atomic => { a with data := (List.range (e.laneBytes / e.operandBytes)).map (num e.operandBytes) }
  | .linclr => { a with data := (List.range 32).map (fun k => BitVec.ofNat 128 (leNat ((p.drop (base + 4 * k)).take 4))) }
  | .store | .regsStore | .engineStart =>
    let per := perRegister (Ptr.efmt ptr) e.type
    let size := 4 * stepOf e.type [ptr]
    { a with data := ((List.range (2 ^ (e.mod.toNat % 4))).map (fun j => (List.range per).map (fun k =>
        BitVec.ofNat 128 (bitsAt (8 * Ptr.size ptr * k) (8 * Ptr.size ptr) (num size j).toNat)))).flatten }
  | _ => a

/-- An entry of a context that was saved at another module, from its record and payload bytes (R327, R375). -/
def entryOfBytes (id : Nat) (r : List Byte) (slots : List Byte) : Entry :=
  let n (o k : Nat) : Nat := leNat ((r.drop o).take k)
  let e : Entry := {
    id := id, instr := id, kind := EntryKind.ofCode (n 0 1) (n 2 1), cls := if n 1 1 % 4 = 0 then .i else if n 1 1 % 4 = 1 then .d else .c
    path := n 2 1 % 8, slot := n 3 1, slots := n 4 1, done := (n 1 1).testBit 2, mod := BitVec.ofNat 6 (n 5 1)
    ty := BitVec.ofNat 4 (n 6 1), g := (n 6 1).testBit 4, quad := (n 6 1).testBit 5, dfile := File.ofCode (BitVec.ofNat 2 (n 7 1))
    dest := n 8 2, anchor := n 0xA 2 + n 0xC 1 % 4 * 65536, tag := BitVec.ofNat 64 (n 0x10 8), mask := BitVec.ofNat 32 (n 0x18 4)
    fmt := BitVec.ofNat 32 (n 0x1C 4) }
  let p := (slots.drop (512 * e.slot)).take (512 * e.slots)
  let memory := match e.kind with | .localArrival | .remoteArrival | .copy | .gather => false | _ => true
  if memory then { e with lanes := (if e.g then [0] else maskLanes e.mask).map (laneOfPayload e p), lane0 := lowestLane e.mask } else e

/-- A record entry that R327 allows. -/
def recordOk (r : List Byte) : Bool :=
  let n (o k : Nat) : Nat := leNat ((r.drop o).take k)
  n 0 1 = 0 || (n 0 1 ≤ 11 && n 1 1 < 8 && n 1 1 % 4 ≤ 2 && n 2 1 < 8 && n 3 1 < 24 && 1 ≤ n 4 1 && n 4 1 ≤ 6 && n 6 1 < 64 && n 7 1 < 4
    && n 0xC 4 < 4 && n 0x1C 4 < 2 ^ 18)

/-! The group image. -/

/-- A stack entry's 16 bytes (R147). -/
def StackEntry.bytes (e : StackEntry) : List Byte :=
  leBytes 16 (e.addr / 16 % 2 ^ 48 + e.mask.toNat * 2 ^ 48 + e.fmt.toNat * 2 ^ 80 + (if e.path then 2 ^ 127 else 0))

/-- A stack entry from its 16 bytes. -/
def StackEntry.ofNat (x : Nat) : StackEntry :=
  { path := x.testBit 127, addr := bitsAt 0 48 x * 16, mask := BitVec.ofNat 32 (bitsAt 48 32 x), fmt := BitVec.ofNat 18 (bitsAt 80 18 x) }

/-- Bytes 0x00 to 0x3F of the header (R323). `shadow`: the image is a shadow's (R335). -/
def Group.headerLow (g : Group) (shadow : Bool) (state : Nat) : List Byte :=
  leBytes 4 1 ++ leBytes 1 state ++ leBytes 1 g.depth ++ leBytes 1 (g.alloc / 8) ++ leBytes 1 g.stack.length ++ leBytes 8 g.pc
    ++ leBytes 8 g.regionPc ++ leBytes 4 g.regionCount ++ leBytes 4 g.active.toNat ++ leBytes 4 g.fmt.toNat ++ leBytes 4 g.live.toNat
    ++ leBytes 4 g.id.ctx ++ leBytes 4 g.id.index ++ leBytes 8 (g.id.launch % 2 ^ 64) ++ leBytes 1 g.level
    ++ leBytes 1 (shadow.toNat + (if g.rolledBack then 2 else 0) + (match g.pending with | .pause _ => 4 | _ => 0))
    ++ leBytes 2 (g.place.site + g.place.quarter * 128 + g.place.slot * 512) ++ leBytes 4 g.place.die

/-- Bytes 0x80 to 0xFF of the header (R323). -/
def Group.headerHigh (g : Group) (w : Nat × Nat × Nat × Nat × Nat) : List Byte :=
  leBytes 8 (g.nameSlot + g.nameGen * 2 ^ 20 + (if g.id.nameable then 2 ^ 36 else 0)) ++ leBytes 4 g.seqD.toNat
    ++ leBytes 2 g.nextMatrix ++ leBytes 1 g.matrixBatches.length ++ leBytes 1 g.copyBatches.length ++ leBytes 2 g.nextCopy
    ++ List.replicate 14 0 ++ leBytes 32 w.1 ++ leBytes 8 w.2.1 ++ leBytes 2 w.2.2.1 ++ leBytes 2 w.2.2.2.1 ++ leBytes 1 w.2.2.2.2
    ++ List.replicate 51 0

/-- Writes at offsets of an image, while they succeed. -/
def State.imageWrites (g : Group) : List (Nat × List Byte) → State → State × Bool
  | [], s => (s, true)
  | (off, bs) :: rest, s =>
    let r := s.imageWrite g off bs
    if r.2 then State.imageWrites g rest r.1 else r

/-- The record's entries as the image lists them. -/
def Group.recordEntries (g : Group) : List Entry := g.entries.filter (fun e => e.kind ≠ .gridgrow)

/-- What a save writes (R99, R320, R322), of a group or of its shadow. -/
def State.imageParts (s : State) (shadow : Bool) (g : Group) : List (Nat × List Byte) :=
  let w := s.writtenMasks g
  let es := g.recordEntries
  let slot (e : Entry) : List Byte := match s.works.find? (fun x => x.ctx = g.id.ctx && x.entry = e.id) with
    | some x => x.payload (g.copyBatchOf x.id)
    | none => e.payload
  [(0, g.headerLow shadow 2), (0x80, g.headerHigh w), (0x446, List.replicate 58 0), (0xBC0, List.replicate 1088 0)]
    ++ ((List.range 64).filter (fun n => w.2.1.testBit n)).map (fun n => (0x100 + 8 * n, leBytes 8 (rd 0 g.s n).toNat))
    ++ ((List.range 16).filter (fun n => w.2.2.1.testBit n)).map (fun n => (0x300 + 16 * n, leBytes 16 (g.readP n).toNat))
    ++ ((List.range 16).filter (fun n => w.2.2.2.1.testBit n)).map (fun n => (0x400 + 4 * n, leBytes 4 (g.readK n).toNat))
    ++ ((List.range 3).filter (fun n => w.2.2.2.2.testBit n)).map (fun n => (0x440 + 2 * n, leBytes 2 (g.readX (n + 1))))
    ++ [(0x480, (g.stack.reverse.map StackEntry.bytes).flatten), (0x680, (g.hs.toList.map (fun x => leBytes 8 x.toNat)).flatten),
        (0x780, (g.holds.toList.map (fun x => leBytes 1 x.toNat)).flatten),
        (0x880, (g.flags.toList.map (fun x => leBytes 1 x.toNat)).flatten ++ List.replicate 32 0),
        (0x8C0, (es.map Entry.recordBytes).flatten ++ List.replicate (32 * (24 - es.length)) 0)]
    ++ es.map (fun e => (0x1000 + 512 * e.slot, (slot e).take (512 * e.slots)))
    ++ ((List.range g.alloc).filter (fun n => w.1.testBit n)).map (fun n =>
        (0x4000 + 128 * n, ((List.range 32).map (fun l => leBytes 4 (g.readV n l).toNat)).flatten))

/-- A group's shadow as a group of its own: its side, in its slot. -/
def Group.shadowSide (x : Shadow) (g : Group) : Group :=
  { g.withSide (x.now.getD g.side) with place := { g.place with quarter := x.quarter, slot := x.slot } }

/-- The image of a group's shadow is written (R323, R335). No rule places it: the model holds it beside the group (log 15). -/
def State.saveShadow (g : Group) (s : State) : State :=
  match g.shadow with
  | none => s
  | some x =>
    let image := (s.imageParts true (g.shadowSide x)).foldl (fun m p => memWrite m p.1 p.2) []
    s.modGroup g.id.ctx (fun h => { h with shadow := h.shadow.map (fun (y : Shadow) => { y with image := image }) })

/-- The image of a group is written, its header state saved, and its shadow's (R320 step 3). -/
def State.saveImage (g : Group) (s : State) : State × Bool := State.imageWrites g (s.imageParts false g) (s.saveShadow g)

/-- A restored image is well formed (R325). -/
def State.imageOk (s : State) (g : Group) : Bool :=
  let rd_ (off n : Nat) : Nat := leNat (s.imageRead g off n)
  let depth := rd_ 7 1
  rd_ 0 4 = 1 && rd_ 4 1 = 2 && rd_ 5 1 ≤ 2 && depth ≤ 32 && 1 ≤ rd_ 6 1 && rd_ 6 1 ≤ 32 && rd_ 8 8 < 2 ^ 52 && rd_ 8 8 % 16 = 0
    && rd_ 0x10 8 < 2 ^ 52 && rd_ 0x10 8 % 16 = 0 && fmtLegal (BitVec.ofNat 32 (rd_ 0x20 4)) && rd_ 0x28 4 = g.id.ctx
    && (List.range depth).all (fun i => let x := rd_ (0x480 + 16 * i) 16
        bitsAt 98 29 x = 0 && fmtLegal (BitVec.ofNat 32 (bitsAt 80 18 x)))
    && (List.range 24).all (fun i => recordOk (s.imageRead g (0x8C0 + 32 * i) 32))

/-- The group as the bytes of an image give it: registers that the last save did not write are free values (R99, R323). -/
def Group.ofImage (image : Nat → Nat → List Byte) (seed count : Nat) (g : Group) : Group :=
  let rd_ (off n : Nat) : Nat := leNat (image off n)
  let wv := rd_ 0xA0 32
  let free (place : Nat) : Nat := (Config.freeValue 128 count (2 ^ 20 * (g.id.ctx + 1) + seed + place)).toNat
  let alloc := 8 * rd_ 6 1
  { g with
    depth := rd_ 5 1, alloc := alloc, pc := rd_ 8 8, regionPc := rd_ 0x10 8, regionCount := rd_ 0x18 4
    active := BitVec.ofNat 32 (rd_ 0x1C 4) &&& BitVec.ofNat 32 (rd_ 0x24 4), fmt := BitVec.ofNat 32 (rd_ 0x20 4)
    live := BitVec.ofNat 32 (rd_ 0x24 4)
    s := Vector.ofFn fun n : Fin 64 => BitVec.ofNat 64 (if (rd_ 0xC0 8).testBit n.1 then rd_ (0x100 + 8 * n.1) 8 else free n.1)
    p := Vector.ofFn fun n : Fin 16 => BitVec.ofNat 128 (if (rd_ 0xC8 2).testBit n.1 then rd_ (0x300 + 16 * n.1) 16 else free (64 + n.1))
    k := Vector.ofFn fun n : Fin 16 => BitVec.ofNat 32 (if (rd_ 0xCA 2).testBit n.1 then rd_ (0x400 + 4 * n.1) 4 else free (80 + n.1))
    x := Vector.ofFn fun n : Fin 4 => BitVec.ofNat 16 (if n.1 = 0 then 0 else if (rd_ 0xCC 1).testBit (n.1 - 1) then rd_ (0x43E + 2 * n.1) 2 else free (96 + n.1))
    stack := ((List.range (rd_ 7 1)).map (fun i => StackEntry.ofNat (rd_ (0x480 + 16 * i) 16))).reverse
    hs := Vector.ofFn fun n : Fin 8 => BitVec.ofNat 64 (rd_ (0x680 + 8 * n.1) 8)
    holds := Vector.ofFn fun n : Fin 256 => BitVec.ofNat 8 (rd_ (0x780 + n.1) 1 % 128)
    flags := Vector.ofFn fun l : Fin 32 => BitVec.ofNat 5 (rd_ (0x880 + l.1) 1)
    v := Vector.ofFn fun n : Fin 256 => Vector.ofFn fun l : Fin 32 =>
      if alloc ≤ n.1 then 0
      else BitVec.ofNat 32 (if wv.testBit n.1 then rd_ (0x4000 + 128 * n.1 + 4 * l.1) 4 else free (128 + 32 * n.1 + l.1)) }

/-- The group as its image gives it. -/
def State.loadImage (s : State) (g : Group) : Group := g.ofImage (s.imageRead g) 0 s.free

/-- A shadow returns with its leader: its registers as its image gives them, or its leader's where none was written here; its region began
before the restore (R336). -/
def Shadow.restored (slot quarter free : Nat) (g : Group) (x : Shadow) : Shadow :=
  let now : Option SideRegs := if x.image.isEmpty then none
    else some ((g.withSide (x.now.getD g.side)).ofImage (memRead x.image) (2 ^ 14) free).side
  { x with slot := slot, quarter := quarter, now := now, compare := [], stale := true, stopped := false, decider := none, seen := g.nextId, image := [] }

/-- The entries, numbers and batches of a context that was saved at another module (R323, R375). The image gives how many
closed batches are open, not their operations: pending arrivals belong to the oldest of them (log 26). -/
def State.admitImage (s : State) (g : Group) (arrivals : List Arrival) : Group :=
  let rd_ (off n : Nat) : Nat := leNat (s.imageRead g off n)
  let slots := s.imageRead g 0x1000 12288
  let recs := ((List.range 24).map (fun i => s.imageRead g (0x8C0 + 32 * i) 32)).takeWhile (fun r => leNat (r.take 1) ≠ 0)
  let es := (List.range recs.length).map (fun i => entryOfBytes i (recs.getD i []) slots)
  let n := rd_ 0x8E 1
  let next := rd_ 0x8C 2
  let ops := arrivals.map (·.op)
  let closed : List (Nat × List Nat) := (List.range n).map (fun i =>
    ((next + 65536 - n + i) % 65536, if i + 1 = n then ops.drop i else (ops.drop i).take 1))
  { g with
    entries := es, nextId := 64, seqD := BitVec.ofNat 22 (rd_ 0x88 4), nextMatrix := next, nextCopy := rd_ 0x90 2
    matrixBatches := closed, openMatrix := if n = 0 then ops else [] }

/-! The team image (R324). -/

/-- A pending arrival's slot (R324). -/
def Arrival.word (a : Arrival) : Nat :=
  a.handle + a.mfa * 2 ^ 8 + a.mfb * 2 ^ 12 + a.macc * 2 ^ 16 + a.regA * 2 ^ 18 + a.regB * 2 ^ 26 + a.regS * 2 ^ 34 + 2 ^ 42

/-- A pending arrival from its slot, of a context; its pc and mask are not in the image. -/
def Arrival.ofWord (ctx op r : Nat) (first : Bool) (x : Nat) : Arrival :=
  let mfa := bitsAt 8 4 x
  let mfb := bitsAt 12 4 x
  let macc := bitsAt 16 2 x
  let span (f n : Nat) : List Nat := (List.range n).map (f + ·)
  let held := match matrixShape mfa mfb macc with
    | some (m, n, k) => span (bitsAt 18 8 x) (shareRegs mfa m k r) ++ span (bitsAt 26 8 x) (shareRegs mfb n k r)
        ++ (if first && mfa = 6 then span (bitsAt 34 8 x) 4 else [])
    | none => []
  { ctx := ctx, op := op, handle := bitsAt 0 8 x, mfa := mfa, mfb := mfb, macc := macc, regA := bitsAt 18 8 x, regB := bitsAt 26 8 x
    regS := bitsAt 34 8 x, held := held.eraseDups, pc := 0, mask := 0 }

/-- The barrier words of a team's image; zeros unless the whole cluster is saved (R324). -/
def Team.barrierBytes (t : Team) (barriers : Bool) : List Byte :=
  ((List.range 64).map (fun i => leBytes 8 (if barriers then ((t.barriers[i]?).map Barrier.word).getD 0 else 0))).flatten

/-- What a team's save writes; barriers only for a whole cluster's save (R324). -/
def Team.imageParts (t : Team) (barriers : Bool) : List (Nat × List Byte) :=
  let arr := ((List.range 8).map (fun m => ((List.range 4).map (fun a =>
    leBytes 16 (((t.arrivals.getD m [])[a]?).map Arrival.word |>.getD 0))).flatten)).flatten
  let bars := t.barrierBytes barriers
  [(0, leBytes 1 t.roster.toNat ++ leBytes 1 t.flags.toNat ++ leBytes 1 t.units ++ List.replicate 13 0 ++ arr ++ bars ++ List.replicate 3056 0)]
    ++ (List.range t.units).map (fun u => (0x1000 + 4096 * u, (List.range 4096).map (fun i => t.accByte (4096 * u + i))))

/-- Bytes at an offset of a team image, zeros where unreadable. -/
def State.teamRead (s : State) (part image off n : Nat) : List Byte :=
  (s.virtRead part (s.teamImageAddr part image + off) n).getD (List.replicate n 0)

/-- A team's image is written (R320, R324); of a team that was saved before, its barriers alone (R290). -/
def State.saveTeam (part : Nat) (t : Team) (barriers : Bool) (s : State) : State × Bool :=
  (if t.resident then t.imageParts barriers else [(0x210, t.barrierBytes barriers)]).foldl (fun r x =>
    if !r.2 then r
    else match r.1.virtWrite none part (s.teamImageAddr part t.image + x.1) x.2 with
      | some s' => (s', true)
      | none => (r.1, false)) (s, true)

/-- A team as its image gives it: roster, flags, units and their contents, and the barriers when they were saved (R290). -/
def State.loadTeam (s : State) (part : Nat) (t : Team) (barriers : Bool) : Team :=
  let units := Nat.min 128 (leNat (s.teamRead part t.image 2 1))
  let bytes := s.teamRead part t.image 0x1000 (4096 * units)
  { t with
    roster := BitVec.ofNat 8 (leNat (s.teamRead part t.image 0 1)), flags := BitVec.ofNat 5 (leNat (s.teamRead part t.image 1 1))
    units := units, acc := (List.range (4096 * units)).map (fun i => (i, bytes.getD i 0)), zeroUnits := []
    barriers := if barriers then (List.range t.barriers.length).map (fun i => Barrier.ofWord (leNat (s.teamRead part t.image (0x210 + 8 * i) 8)))
      else t.barriers }

end Sys2Proof.Machine
end

