-- ==== Sys2Proof/Machine/Names.lean ====
section
/-! DEFINITION. Name instructions (spec 20 R370, R376 to R380): arm, waith, myname and nameinfo. -/
namespace Sys2Proof.Machine
open Sys2Proof

/-- R377: a scoreboard hold stalls, an arm hold faults, and then the register is armed. -/
def execArm (w : Fields) (s : State) : Result :=
  s.issue (.arm w) w [{ pos := 1, file := .v, num := s.g.num w.a, write := true }] (fun s =>
    let c := w.immBits 0 6
    { s with g := s.g.setHold (s.g.num w.a) true (if c = 0 then 32 else c) }.finish w false)

/-- R378: satisfied when the register is not held; then an acquire at pod scope. -/
def execWaith (w : Fields) (s : State) : Result :=
  s.issue (.waith w) w [{ pos := 1, file := .v, num := s.g.num w.a }] (fun s =>
    if s.g.holdCount (s.g.num w.a) = 0 then (s.acquireDrop s.g.core 4).finish w false else { s with g := s.g.stopRun })

/-- The BASE of a name's regs pointer (R31, R379). -/
def nameBase (slot gen : Nat) : Nat := slot * 2 ^ 32 + gen * 2 ^ 16

/-- R379: the group's own name, or zero. With N = 1 the form is the one whose TYPE the word has (log 96). -/
def execMyname (w : Fields) (s : State) : Result :=
  if !w.mynameWord then
    s.issue (.myname w) w (s.g.useDestPtr w) (fun s =>
      let p : Ptr := if s.g.nameSlot = 0 then 0
        else Ptr.make (nameBase s.g.nameSlot s.g.nameGen) s.g.namePackage 8192 0 0x02 6 2 4 (w.immBits 0 8)
      (s.putPtr w (fun _ => p)).finish w false)
  else
    laneResult (.myname w) w (s.g.useDest w true)
      (fun s _ => if s.g.nameSlot = 0 then 0 else BitVec.ofNat 64 (nameBase s.g.nameSlot s.g.nameGen)) s

/-- R380: the question takes an entry of path 5; the run stalls until the answer is written. -/
def execNameinfo (w : Fields) (s : State) : Result :=
  s.issue (.nameinfo w) w (s.g.useDest w true ++ s.g.usePtr 1 w.a) (fun s =>
    let p := s.ptrOf w.a 0
    let u : LaneUse := { lane := 0, ptr := p, index := 0, count := 0 }
    match s.checkPtr s.g p 0 0 2 none (if Ptr.space p = 6 then 0 else 2 ^ 10) with
    | some f => s.ptrFaultAt w 1 (u, f)
    | none =>
      let e : Entry := { id := 0, kind := .nameInfo, cls := .i, path := 5, mod := w.mod, ty := w.ty, g := true, dfile := .s
                         dest := s.g.dnum w, anchor := Ptr.anchor p, mask := s.g.lanes w, fmt := s.g.fmt
                         lanes := [{ lane := 0, ptr := p, index := 0 }], pc := s.g.pc, instr := s.g.nextId
                         lane0 := lowestLane (s.g.lanes w), handler := 0 < s.g.depth }
      if s.canTake e then (s.take e).finishBlocked w false s.g.nextId else s.stalls .record)

end Sys2Proof.Machine
end

