-- ==== Sys2Proof/Machine/Runs.lean ====
section
/-! DEFINITION. Runs of a quarter: fetching them (spec 03 R79, R85), granting them (06 R154 to R156, 08 R186), and what
makes a waiting group eligible again (06 R152, 07 R167). -/
namespace Sys2Proof.Machine
open Sys2Proof

/-! Fetch. -/

/-- The words of an instruction-cache line (R83, R85). -/
def lineWords (d : LineData) : List CodeWord := (List.range 8).map (fun i => d.extractLsb' (128 * i) 128)

/-- The units of a run from `va` on: up to the first word with E = 1, or the first unit that cannot be fetched or issued
(R79, R85, R215), as the core's instruction cache gives them (R87). -/
def State.fetchUnits (c : CoreId) (part : Nat) : Nat → Nat → State → State × List Fetched
  | 0, _, s => (s, [])
  | n + 1, va, s =>
    match s.translate c part va .exec with
    | (s, .error f) => (s, [.error f.cause f.extra])
    | (s, .ok t) =>
      let pa := t.frame + va % 4096
      let (s, d, bad) := s.codeLine c (pa / 128)
      if bad.getLsbD (pa % 128) then (s, [if t.pchk then .error 10 0 else .kill])
      else if isPoolUnit (lineWords d) (pa % 128 / 16) then (s, [.pool])
      else
        let x := (lineWords d).getD (pa % 128 / 16) 0
        if (Fields.unpack x).e then (s, [.word x])
        else
          let r := State.fetchUnits c part n ((va + 16) % 2 ^ 52) s
          (r.1, .word x :: r.2)

/-- R79: the quarter fetches the group's next run whole; what cannot be fetched faults when the run reaches it. -/
def execRunFetch (ctx : Nat) (s : State) : Result :=
  .next (s.onCtx ctx (fun s =>
    if s.g.status = .resident ∧ !s.g.running ∧ !s.g.saving ∧ s.g.ibuf = [] ∧ !s.g.id.monitor then
      let r := State.fetchUnits s.g.core s.g.id.part 24 s.g.pc s
      { r.1 with g := { r.1.g with ibuf := r.2 } }
    else s))

/-! Eligibility. -/

/-- The outcome of a wait-class instruction that is not satisfied: its run has ended with pc standing at it (R78). -/
def stillWaits (s : State) (r : Result) : Bool :=
  match r with
  | .next t => !t.g.running && t.g.pc = s.g.pc && t.g.depth = s.g.depth && t.g.status = .resident && t.g.pending = .none
  | _ => false

/-- The group at the head of whose next run an unsatisfied wait stands (R78). -/
def State.headWaits (s : State) (g : Group) : Bool :=
  match g.ibuf with
  | .word x :: _ =>
    let t := s.focus g.id.ctx
    let t := { t with g := { t.g with running := true } }
    (match decodeWord x with
     | .instr (.waitp w) => stillWaits t (execWaitp w t)
     | .instr (.waitm w) => stillWaits t (execWaitm w t)
     | .instr (.waitc w) => stillWaits t (execWaitc w t)
     | .instr (.waith w) => stillWaits t (execWaith w t)
     | .instr (.barWait w) => stillWaits t (execBarWait w t)
     | _ => false)
  | _ => false

/-- The quadrant of a core site (R186, R209): rows 0 to 4 before rows 5 to 9, columns 1 to 5 before columns 6 to 10. -/
def quadrantOf (site : Nat) : Nat := (if 50 ≤ site then 2 else 0) + (if 5 ≤ site % 10 then 1 else 0)

/-- The congestion counter of a quadrant (R186). -/
def State.congestionOf (s : State) (die quadrant : Nat) : Nat :=
  match s.congestion.find? (fun x => x.1 = die && x.2.1 = quadrant) with
  | some x => x.2.2
  | none => 0

/-- The cap of a counter (R186). -/
def throttleCap (n : Nat) : Nat := if n < 64 then 16 else if n < 128 then 8 else if n < 192 then 4 else 2

/-- The last 16 grants of a quarter, newest first. -/
def State.lastGrants (s : State) (c : CoreId) (q : Nat) : List (Bool × Bool) := ((s.core c).grants.getD q []).take 16

/-- The congestion throttle holds the group (R186). -/
def State.throttled (s : State) (g : Group) : Bool :=
  g.memBound && throttleCap (s.congestionOf g.place.die (quadrantOf g.place.site))
    ≤ ((s.lastGrants g.core g.place.quarter).filter (·.1)).length

/-- A replayed operation of the group waits for host service (R332, R333). -/
def Group.replayHeld (g : Group) : Bool := g.entries.any (fun e => e.hostWait && e.cls ≠ .c)

/-- The group's next run needs a result of an earlier one: a literal read (R86), or after a restore the uniform result for which its run had
stalled (R80, R332). -/
def Group.owesResult (g : Group) : Bool :=
  g.entries.any (fun e => !e.done && (e.kind = .literal
    || (e.round ≠ 0 && (e.kind = .nameInfo || (e.dfile ≠ .v && (e.kind = .load || e.returns))))))

/-- A restore has yet to send a part of the group again: its program goes on behind it (R332). -/
def Group.replaying (g : Group) : Bool := g.entries.any (fun e => e.replay && !e.done)

/-- The group and its shadow have to come together first: the queue or the compare buffer is full, or they have stopped on different operations
(R335, R336). Between two runs only: a run that was granted goes to its end (R80), and may fill them beyond their size (log 116). -/
def Group.parted (g : Group) : Bool := g.shadowFull || g.stoppedApart || g.deciding

/-- The group is eligible on its quarter (R154); past the deadline of a pre-emption request it gets no more runs (R184, R319). -/
def State.eligible (s : State) (g : Group) : Bool :=
  g.status = .resident && !g.running && !g.saving && g.pending = .none && g.ibuf ≠ [] && !g.replayHeld && !g.owesResult && !g.replaying && !g.parted
    && !g.overdue s.time && !s.headWaits g && !s.throttled g

/-- The first of two groups by R154's age rule: longest without a grant, one never granted first, then the lower slot. -/
def elder (a b : Group) : Group :=
  match a.lastGrant, b.lastGrant with
  | none, some _ => a
  | some _, none => b
  | some x, some y => if y < x then b else a
  | none, none => if b.place.slot < a.place.slot then b else a

/-- The oldest group of the highest level among some. -/
def bestOf : List Group → Option Group
  | [] => none
  | g :: gs =>
    match bestOf gs with
    | none => some g
    | some h => some (if h.level < g.level then h else if g.level < h.level then g else elder g h)

/-- Grants in a row that a group of the highest eligible level may be passed over before the age rule gives way to it (R156): with those of
the other 15 groups of its quarter, and those of R155, it is granted a run within 64 (log 99). -/
def patience : Nat := 45

/-- The group that has been passed over longest, of some. -/
def longestPassed : List Group → Option Group
  | [] => none
  | g :: gs =>
    match longestPassed gs with
    | none => some g
    | some h => some (if h.waitedTop < g.waitedTop then g else h)

/-- The group that the next run goes to (R154 to R156): the best, unless 15 grants went by without one to a lower level while a
group of a lower level was eligible, or a group of the best's level has been passed over too often. -/
def State.nextRun (s : State) (c : CoreId) (q : Nat) (el : List Group) : Option Group :=
  match bestOf el with
  | none => none
  | some g =>
    let last := (s.lastGrants c q).take 15
    let low := el.filter (fun h => g.level < h.level)
    if last.length = 15 && last.all (fun x => !x.2) && low.any (fun h => 15 ≤ h.waited) then bestOf low
    else match longestPassed (el.filter (fun h => h.level = g.level && patience ≤ h.waitedTop)) with
      | some h => some h
      | none => some g

/-- The run is granted: it starts, and the quarter's counts move on. -/
def State.grantRun (c : CoreId) (q : Nat) (el : List Group) (g : Group) (s : State) : State :=
  let top := el.foldl (fun m h => Nat.min m h.level) g.level
  let k := s.core c
  let lists := (List.range 4).map (fun i =>
    let l := k.grants.getD i []
    if i = q then ((g.memBound, decide (top < g.level)) :: l).take 16 else l)
  let count (h : Group) : Group :=
    if h.core = c && h.place.quarter = q then
      if h.id.ctx = g.id.ctx then { h with waited := 0, waitedTop := 0, lastGrant := some s.time, running := true, issued := 0, stall := .none }
      else if el.any (fun x => x.id.ctx = h.id.ctx) then { h with waited := h.waited + 1, waitedTop := if top = h.level then h.waitedTop + 1 else 0 }
      else { h with waited := 0, waitedTop := 0 }
    else h
  let s := s.setCore c { k with grants := lists }
  ({ s with g := count s.g, gs := s.gs.map count }).focus g.id.ctx

/-- R154, R155: when no group of the quarter has a started run, a fault that waited for a run boundary is delivered, or the
next run is granted. -/
def execRunGrant (core : CoreId) (quarter : Nat) (s : State) : Result :=
  .next (
    let s := s.shadowRuns core quarter
    let here := s.groups.filter (fun g => g.core = core && g.place.quarter = quarter && g.id.ctx ≠ 2 ^ 24 && g.status = .resident)
    if here.any (·.running) then s
    else match here.find? (fun g => !g.boundaryFaults.isEmpty && !g.saving) with
      | some g => s.onCtx g.id.ctx State.boundary
      | none =>
        let el := here.filter s.eligible
        match s.nextRun core quarter el with
        | some g => s.grantRun core quarter el g
        | none => s)

/-! Waits that end. -/

/-- R167: a pause whose time has run out ends; with the request flag set the group is then saved. -/
def execPauseExpiry (ctx : Nat) (s : State) : Result :=
  .next (s.onCtx ctx (fun s =>
    match s.g.pending with
    | .pause t => if t ≤ s.time ∧ s.g.status = .resident then { s with g := { s.g with pending := .none } }.yields else s
    | _ => s))

/-- R152: the head of a quarter's waiting requests may issue again, its registers reserved, once pool and quota allow it. -/
def execVgrowGrant (core : CoreId) (quarter : Nat) (s : State) : Result :=
  .next (match s.quarterQueue core quarter with
    | [] => s
    | c :: _ =>
      match (s.group c).pending with
      | .vgrow n =>
        if s.canGrow (s.group c) n then
          { s with vgrowQueue := s.vgrowQueue.filter (· ≠ c) }.modGroup c (fun g => { g with pending := .none, granted := n })
        else s
      | _ => s)

/-- R186: the mesh reloads a quadrant's counter with the flits that waited. -/
def execCongestionCounterReload (die quadrant flits : Nat) (s : State) : Result :=
  .next (if die < Config.dies ∧ quadrant < 4 then
      { s with congestion := putFirst (fun x => x.1 = die && x.2.1 = quadrant) (die, quadrant, Nat.min 255 flits) s.congestion }
    else s)

end Sys2Proof.Machine
end

