-- ==== Sys2Proof/Machine/Lockstep.lean ====
section
/-! DEFINITION. The instructions of a group and of its shadow (spec 03 R79, R82, R85, 18 R334 to R336): what a fetched unit does, what the
shadow makes of the instruction at its own pc, and the decider's run. `run` is the meaning of an instruction. -/
namespace Sys2Proof.Machine
open Sys2Proof

/-- A fetched unit of the issuing group's run is issued (R79, R82, R85). -/
def State.issueUnit (run : Instr → State → Result) (u : Fetched) (s : State) : Result :=
  match u with
  | .word x =>
    match decodeWord x with
    | .instr i => run i s
    | .bad pos => .next (s.illegal 0 pos (s.g.lanes (Fields.unpack x)))
  | .pool => .next (s.illegal 3 0xFF s.g.active)
  | .kill => .next (s.killCtx s.g.id.ctx 3)
  | .error cause extra =>
    .next (s.takeFault { cause := cause, pc := s.g.pc, mask := s.g.active, lane := 0xFF, kind := 0
                         addr := BitVec.ofNat 64 s.g.pc, extra := BitVec.ofNat 64 extra } s.g.pc true)

/-- The instruction of a unit, with its word's fields. -/
def Fetched.instr (u : Fetched) : Option (Instr × Fields) :=
  match u with
  | .word x =>
    match decodeWord x with
    | .instr i => some (i, Fields.unpack x)
    | .bad _ => none
  | _ => none

/-- The issuing group has not issued the instruction at which it stands: it stalls there, or it waits (R80, R152, R203, R295). -/
def State.heldAt (i : Option Instr) (before s : State) : Bool :=
  (match s.g.stall with | .none | .uniform _ => false | _ => true)
    || (match s.g.pending with | .vgrow _ | .acalloc _ | .host _ => true | _ => false)
    || (i.any waitClass && !s.g.running && s.g.pc = before.g.pc && s.g.depth = before.g.depth)

/-- One instruction that a side sends whole, with the parts it makes: none where it is held. -/
def sendWhole (run : State → Result) : Nat → State → List Entry → Option (State × List Entry)
  | 0, _, _ => none
  | n + 1, s, made =>
    match run s with
    | .next t =>
      let made := made ++ t.g.entries
      if t.g.stall = .record && !t.g.entries.isEmpty then sendWhole run n { t with g := { t.g with entries := [], stall := .none } } made
      else some (t, made)
    | _ => none

/-- What a side makes of the unit at its pc in a sandbox (R334): where it stands after it, and the parts it would send. `value`: what the
load-value queue gives it for an instruction whose result is its own. None where it stays. -/
def State.sideStep (run : Instr → State → Result) (u : Fetched) (value : Option QueueEntry) (box : State) : Option (SideRegs × List Entry) :=
  let stand (r : Option (State × List Entry)) : Option (SideRegs × List Entry) := match r with
    | some (t, made) => if t.stands box.g.id.ctx && !t.heldAt (u.instr.map (·.1)) box then some (t.g.side, made) else none
    | none => none
  match u.instr with
  | none => stand (sendWhole (fun s => s.issueUnit run u) 1 box [])
  | some (i, w) =>
    if box.g.lanes w ≠ 0 && queuedBy i ≠ 0 then
      let closes : Bool := match i with | .acalloc _ => true | _ => false
      match value with
      | some q => some ((({ box with g := box.g.takeResult w q } : State).finish w closes).g.side, [])
      | none => none
    else if waitClass i then some ((box.finish w false).g.side, [])
    else stand (sendWhole (run i) 33 box [])

/-- The unit at a side's own pc, and the state with what its fetch has cached (R79). -/
def State.sideUnit (s : State) (pc : Nat) : Fetched := (State.fetchUnits s.g.core s.g.id.part 1 pc s).2.headD (.error 8 0)

/-- What an instruction of a shadowed group leaves for its shadow, and what the shadow makes of its own (R334, R335), from the state before
it. Its run begins with its leader's (R74). -/
def State.observe (run : Instr → State → Result) (before : State) (u : Fetched) (s : State) : State :=
  match before.g.shadow with
  | none => s
  | some x =>
    if !s.stands before.g.id.ctx || s.heldAt (u.instr.map (·.1)) before then s
    else
      let r := x.now.getD before.g.side
      let r := if before.g.issued = 0 then { r with issued := 0, lat := Vector.replicate 4 (Vector.replicate 32 none) } else r
      let own : Option QueueEntry := match u.instr with
        | some (i, w) => if before.g.lanes w ≠ 0 && queuedBy i ≠ 0 && s.g.pc = (before.g.pc + 16) % 2 ^ 52 then some (s.g.queueResult w (queuedBy i)) else none
        | none => none
      let start := x.start.at_ r
      let made := State.sideStep run (if r.pc = before.g.pc then u else before.sideUnit r.pc) own (before.sandbox r)
      let closes : Bool := s.g.regionCount ≠ before.g.regionCount || s.g.entries.any (fun e => e.kind = .gridgrow && x.seen ≤ e.id)
      { s with g := { s.g with shadow := some (s.g.observed own closes (made.map (·.1) |>.getD r) start ((made.map (·.2)).getD []) x) } }

/-! The decider (R336). -/

/-- The disagreement is settled: one side's operation is released, the other side is corrected and this is logged (R348), or the cluster is
killed. -/
def State.settleShadow (winner : Option Bool) (s : State) : State :=
  match s.g.shadow with
  | none => s
  | some x =>
    match x.compare, x.unsettled winner.isNone s.free, winner with
    | [], _, _ => s
    | _ :: _, some extra, _ => s.killRecorded 6 20 extra
    | c :: _, none, w =>
      let ctx := s.g.id.ctx
      let s := s.corrected s.g.core
      { s with g := s.g.settle c (w.getD true) x
               vgrowQueue := s.vgrowQueue.filter (· ≠ ctx), acallocQueue := s.acallocQueue.filter (· ≠ ctx) }

/-- What the queue kept for an access comes to the parts that a decider's instruction has made. -/
def landKept (free : Nat) (made : List Entry) (q : QueueEntry) (g : Group) : Group :=
  (made.zip q.parts).foldl (fun g x =>
    let e : Entry := { x.1 with lanes := x.2.lanes }
    if e.kind = .nameInfo then e.writeUniform e.dest (((e.lanes.head?).map (fun (a : LaneAcc) => (a.got.getD 0 0).setWidth 64)).getD 0) g
    else e.land free g) g

/-- The decider executes its next instruction, from the region entry on, in the shadow's slot and with the shadow's registers; the kept queue
values come to it in order. The operation in question decides (R336). -/
def State.runDecider (run : Instr → State → Result) (s : State) : State :=
  match s.g.shadow with
  | none => s
  | some x =>
    match x.decider, x.compare with
    | some d, c :: _ =>
      let u := s.sideUnit d.regs.pc
      let box := s.sandbox d.regs
      let box := { box with g := { box.g with holds := Vector.replicate 256 0, liveTags := [], running := true, pending := .none
                                              stall := .none, boundaryFaults := [] } }
      match State.sideStep run u (d.queue.head?) box with
      | none => s.settleShadow none
      | some (r, made) =>
        let returns := made.filter (fun e => 0 < e.queued)
        let own : Bool := u.instr.any (fun i => box.g.lanes i.2 ≠ 0 && queuedBy i.1 ≠ 0)
        let takes : Bool := own || !returns.isEmpty
        let ops := made.filter Entry.compared
        let g := (s.g.withSide r)
        let r := match returns, d.queue with
          | _ :: _, q :: _ => (landKept s.free returns q g).side
          | _, _ => r
        let r := if u.instr.any (fun i => i.2.e) then { r with issued := 0, lat := Vector.replicate 4 (Vector.replicate 32 none) } else r
        let go (skip : Nat) : State :=
          { s with g := { s.g with shadow := some { x with decider := some { d with
              regs := r, skip := skip, queue := if takes then d.queue.drop 1 else d.queue } } } }
        if r.depth ≠ d.regs.depth then s.settleShadow none
        else if ops.isEmpty then (if takes && d.queue.isEmpty then s.settleShadow none else go d.skip)
        else if d.skip ≠ 0 then go (d.skip - 1)
        else if sameOperation ops c.ours then s.settleShadow (some true)
        else if sameOperation ops c.theirs then s.settleShadow (some false)
        else s.settleShadow none
    | _, _ => s

end Sys2Proof.Machine
end

