-- ==== Sys2Proof/Machine/Queues.lean ====
section
/-! DEFINITION. From queue to grid: writes to a work queue's registers (spec 08 R175), launch records (R177, R179, R180), where
a cluster fits (06 R138, R140, 08 R178, R182), the acceptance of a record (R176), and completion records and events (R185). -/
namespace Sys2Proof.Machine
open Sys2Proof

/-! Queue registers. -/

/-- PART of a queue. -/
def State.queuePart (s : State) (q : Nat) : Nat := s.regField (queueBlock q + 16) 33 4
/-- PRIO of a queue. -/
def State.queueLevel (s : State) (q : Nat) : Nat := s.regField (queueBlock q + 16) 37 3
/-- SYS of a queue. -/
def State.queueSystem (s : State) (q : Nat) : Bool := (s.reg (queueBlock q + 16)).getLsbD 40
/-- EN of a queue. -/
def State.queueOn (s : State) (q : Nat) : Bool := (s.reg (queueBlock q + 16)).getLsbD 32
/-- QLOG of a queue. -/
def State.queueLog (s : State) (q : Nat) : Nat := s.regField (queueBlock q + 8) 0 5
/-- QHEAD of a queue. -/
def State.queueHead (s : State) (q : Nat) : Nat := s.regField (queueBlock q + 8) 32 20
/-- QTAIL of a queue. -/
def State.queueTail (s : State) (q : Nat) : Nat := s.regField (queueBlock q + 16) 0 20
/-- Records pending in a queue (R175). -/
def State.queuePending (s : State) (q : Nat) : Nat := (s.queueTail q + 2 ^ 20 - s.queueHead q) % 2 ^ 20
/-- The queue is enabled, and QLOG does not leave it disabled (R175). -/
def State.queueEnabled (s : State) (q : Nat) : Bool := s.queueOn q && 4 ≤ s.queueLog q && s.queueLog q ≤ 20

/-- A QTAIL write arrives: it posts the records up to its tail; a lower tail takes back records that earlier writes posted (R176). Two
writes never arrive in one mesh cycle, since every step takes a core cycle (log 8). -/
def State.postRecords (q tail : Nat) (s : State) : State :=
  let behind (t : Nat) : Nat := (t + 2 ^ 20 - s.queueHead q) % 2 ^ 20
  let cut (x : Nat × Nat) : Nat × Nat := if x.1 = q ∧ behind tail < behind x.2 then (q, tail) else x
  let l := (s.arrivalOrder.map cut).filter (fun x => !(x.1 = q && x.2 = s.queueHead q))
  { s with arrivalOrder := if l.contains (q, tail) || tail = s.queueHead q then l else l ++ [(q, tail)] }

/-- A write of 64 bits to word `word` of queue `q`'s block, judged field by field (R175). -/
def State.writeQueue (q word : Nat) (value : BitVec 64) (s : State) : State :=
  let on := s.queueOn q
  let v := value.toNat
  let at_ := queueBlock q + 8 * word
  match word with
  | 0 => if on then s else s.setReg at_ (BitVec.ofNat 64 (v / 256 * 256))
  | 1 => if on then s else s.setReg at_ (BitVec.ofNat 64 (v % 32 + s.queueHead q * 2 ^ 32))
  | 2 =>
    let old := (s.reg at_).toNat
    let part := if on then bitsAt 33 4 old else bitsAt 33 4 v
    let tail := bitsAt 0 20 v
    let pending := (tail + 2 ^ 20 - s.queueHead q) % 2 ^ 20
    let newOn := v.testBit 32
    let tooMany : Bool := newOn && 2 ^ s.queueLog q - 1 < pending
    let moves : Bool := newOn && !tooMany
    let put (t : Nat) : Nat := t + (if newOn then 2 ^ 32 else 0) + part * 2 ^ 33 + bitsAt 37 3 v * 2 ^ 37 + (if v.testBit 40 then 2 ^ 40 else 0)
    let s := s.setReg at_ (BitVec.ofNat 64 (put (if moves then tail else bitsAt 0 20 old)))
    if tooMany then
      s.event { kind := 6, part := part, queue := q, launch := 0, info := Config.freeValue 64 s.free (2 ^ 50 + s.events.length) }
    else if moves && tail ≠ bitsAt 0 20 old then s.postRecords q tail
    else s
  | _ => s

/-- R175. -/
def execWorkQueueWrite (queue word : Nat) (value : BitVec 64) (s : State) : Result :=
  .next (if s.ready ∧ queue < Config.queues then s.writeQueue queue word value else s)

/-! Launch records (R177). -/

/-- Bits of a record at a byte offset. -/
def recordBits (r : List Byte) (off lo n : Nat) : Nat := bitsAt lo n (leNat ((r.drop off).take 8))

/-- What a launch record asks for, of one cluster. -/
structure Shape where
  groups : Nat
  team : Nat
  width : Nat
  height : Nat
  perCore : Nat
  vregs : Nat
  laneBytes : Nat
  coreBytes : Nat
  clusterBytes : Nat
  units : Nat
  barriers : Nat
  shadowed : Bool
  deriving DecidableEq, Repr

/-- The shape of a record. -/
def shapeOf (r : List Byte) : Shape :=
  { groups := recordBits r 0x10 0 32, team := recordBits r 0x10 32 4, width := recordBits r 0x10 36 4, height := recordBits r 0x10 40 4
    perCore := recordBits r 0x10 44 7, vregs := recordBits r 0x18 0 16, laneBytes := recordBits r 0x18 16 16
    coreBytes := recordBits r 0x18 32 32, clusterBytes := recordBits r 0x20 0 32, units := recordBits r 0x20 32 8
    barriers := recordBits r 0x20 40 7, shadowed := recordBits r 0x10 52 1 = 1 }

/-- Teams of a cluster. -/
def Shape.teams (p : Shape) : Nat := p.width * p.height * p.perCore
/-- Groups of a cluster: U of R138. -/
def Shape.unit (p : Shape) : Nat := p.team * p.teams
/-- Leaders and shadows: 2 on a shadowed launch (R178). -/
def Shape.factor (p : Shape) : Nat := if p.shadowed then 2 else 1
/-- Scratchpad bytes on each core of a cluster (R178). -/
def Shape.spad (p : Shape) : Nat := p.perCore * (p.coreBytes + p.team * 32 * p.laneBytes * p.factor) + p.clusterBytes

/-- The shape of a grid. -/
def Grid.shape (x : Grid) : Shape := shapeOf x.record

/-- Detail 1 of R179. -/
def Shape.badRegs (p : Shape) : Bool := p.vregs = 0 || 256 < p.vregs || p.vregs % 8 ≠ 0
/-- Detail 2 of R179 (R138, R177). -/
def Shape.badCluster (p : Shape) : Bool :=
  p.groups = 0 || p.team = 0 || 8 < p.team || p.width = 0 || p.height = 0 || 12 < p.width * p.height || p.perCore = 0
    || 64 < p.perCore * p.team || p.groups % p.unit ≠ 0
/-- Detail 3 of R179. -/
def badFields (r : List Byte) : Bool :=
  let p := shapeOf r
  recordBits r 0 0 4 ≠ 0 || recordBits r 8 0 6 ≠ 0 || recordBits r 0x10 56 8 ≠ 0
    || 4096 < p.laneBytes || p.laneBytes % 16 ≠ 0 || 3145728 < p.coreBytes || p.coreBytes % 256 ≠ 0
    || 1048576 < p.clusterBytes || p.clusterBytes % 4096 ≠ 0 || 128 < p.units || 64 < p.barriers
    || recordBits r 0x20 47 17 ≠ 0 || recordBits r 0x28 0 8 ≠ 0 || recordBits r 0x30 0 4 ≠ 0 || recordBits r 0x38 0 6 ≠ 0

/-! Where a cluster fits. -/

/-- What is in use on a core: slots as (quarter, slot), and registers of each quarter. -/
structure Load where
  slots : List (Nat × Nat)
  regs : List Nat
  deriving DecidableEq, Repr

/-- The lowest-numbered enabled core site of a die, where the debug monitor runs (R340). -/
def State.monitorSite (s : State) (die : Nat) : Option Nat := findFrom (fun i => s.siteBuilt ⟨die, i⟩) Config.sites 0

/-- The load of a core, without the groups that `gone` names. -/
def State.loadOf (s : State) (c : CoreId) (gone : Group → Bool) : Load :=
  let here := s.groups.filter (fun g => g.core = c && g.holdsPlace && !gone g && !g.id.monitor)
  let mon := s.monitorSite c.die = some c.site
  { slots := (if mon then [(0, 15)] else []) ++ (here.map (fun g =>
      (g.place.quarter, g.place.slot) :: (match g.shadow with | some x => [(x.quarter, x.slot)] | none => []))).flatten
    regs := (List.range 4).map (fun q => here.foldl (fun n g => n + (if g.place.quarter = q then g.alloc + g.granted else 0)
      + (if g.id.shadowed && g.shadowQuarter = q then g.alloc + g.granted else 0)) (if mon && q = 0 then 8 else 0)) }

/-- A load as a candidate sees it that may take no more of the core than a share (R183). -/
def Load.within (l : Load) (f : FreeShare) : Load :=
  let all := ((List.range 4).map (fun q => (List.range Config.slotsPerQuarter).map (fun n => (q, n)))).flatten
  { slots := l.slots ++ all.filter (fun x => !f.slots.contains x)
    regs := (List.range 4).map (fun q => Nat.max (l.regs.getD q 0) (Config.poolRegs - f.regs.getD q 0)) }

/-- One set of a group's slot and registers on a quarter: the lowest free slot (R140). -/
def Load.take (l : Load) (q a : Nat) : Option (Load × Nat) :=
  match findFrom (fun n => !l.slots.contains (q, n)) Config.slotsPerQuarter 0 with
  | none => none
  | some n =>
    if Config.poolRegs < l.regs.getD q 0 + a then none
    else some ({ slots := (q, n) :: l.slots, regs := l.regs.set q (l.regs.getD q 0 + a) }, n)

/-- A group's place on a quarter, with its shadow's on a shadowed launch (R140, R334): slot and shadow slot. -/
def Load.takeGroup (l : Load) (q a : Nat) (shadowed : Bool) : Option (Load × Nat × Option Nat) :=
  match l.take q a with
  | none => none
  | some (l, n) =>
    if shadowed then
      match l.take ((q + 2) % 4) a with
      | none => none
      | some (l, m) => some (l, n, some m)
    else some (l, n, none)

/-- The places of `n` groups of a team from group `j` on, when group 0 goes to quarter `b`: (quarter, slot, shadow slot). -/
def Load.takeTeam (b a : Nat) (shadowed : Bool) : Nat → Nat → Load → Option (Load × List (Nat × Nat × Option Nat))
  | 0, _, l => some (l, [])
  | n + 1, j, l =>
    match l.takeGroup ((b + j) % 4) a shadowed with
    | none => none
    | some (l, slot, sh) =>
      match Load.takeTeam b a shadowed n (j + 1) l with
      | none => none
      | some (l, rest) => some (l, ((b + j) % 4, slot, sh) :: rest)

/-- A team's places, for the smallest b that fits (R140). -/
def Load.placeTeam (p : Shape) (l : Load) : Option (Load × List (Nat × Nat × Option Nat)) :=
  (List.range 4).findSome? (fun b => Load.takeTeam b p.vregs p.shadowed p.team 0 l)

/-- The places of `k` teams of a core. -/
def Load.placeTeams (p : Shape) : Nat → Load → Option (List (List (Nat × Nat × Option Nat)))
  | 0, _ => some []
  | k + 1, l =>
    match l.placeTeam p with
    | none => none
    | some (l, t) => (Load.placeTeams p k l).map (fun ts => t :: ts)

/-- The grid of a launch. -/
def State.gridOf (s : State) (launch : Nat) : Option Grid := s.grids.find? (fun x => x.launch = launch)

/-- The cluster was admitted from another module and has no place here yet (R402): it holds nothing of a core. -/
def State.unplaced (s : State) (launch cluster : Nat) : Bool :=
  s.clusters.any (fun c => c.launch = launch && c.cluster = cluster && c.unplaced)

/-- Scratchpad bytes that a team holds on its core, saved or not (R178). -/
def Team.spad (s : State) (t : Team) : Nat :=
  match s.gridOf t.launch with
  | some x => x.shape.coreBytes + x.shape.team * 32 * x.shape.laneBytes * x.shape.factor
  | none => 0

/-- Cluster bytes on a core, of a partition's clusters or of all (R178, R180, R402). -/
def State.clusterSpad (s : State) (c : CoreId) (part : Option Nat) : Nat :=
  s.clusters.foldl (fun n x =>
    match s.gridOf x.launch with
    | none => n
    | some y =>
      let p := y.shape
      let inside := x.die = c.die && x.site % 10 ≤ c.site % 10 && c.site % 10 < x.site % 10 + p.width
        && x.site / 10 ≤ c.site / 10 && c.site / 10 < x.site / 10 + p.height
      let lives := !x.unplaced && (match x.state with | .resident | .saved => true | _ => false)
      if inside && lives && part.all (· = x.part) then n + p.clusterBytes else n) 0

/-- What a placement takes on one core. -/
structure Needs where
  slots : Nat
  regs : Nat
  spad : Nat
  units : Nat
  barriers : Nat
  deriving DecidableEq, Repr

/-- What a new cluster takes on each of its cores (R178). -/
def Shape.needs (p : Shape) : Needs :=
  { slots := p.perCore * p.team * p.factor, regs := p.perCore * p.team * p.vregs * p.factor, spad := p.spad
    units := p.perCore * p.units, barriers := p.perCore * p.barriers }

/-- The team's cluster is resident: its barriers are in place (R290). -/
def State.holdsBarriers (s : State) (t : Team) : Bool :=
  s.clusters.any (fun c => c.launch = t.launch && c.cluster = t.cluster && c.state = .resident)

/-- Room on a core in the quota of the partition and in the core (R178, R180), leaving out what `gone` names. -/
def State.coreHolds (s : State) (part : Nat) (n : Needs) (c : CoreId) (gone : Group → Bool) (goneTeam : Team → Bool) : Bool :=
  let quota := s.reg (partBlock part + 0x90)
  let f (lo n : Nat) : Nat := bitsAt lo n quota.toNat
  let groups := s.groups.filter (fun g => g.core = c && g.holdsPlace && !g.id.monitor && !gone g)
  let mine := groups.filter (fun g => g.id.part = part)
  let slots (l : List Group) : Nat := l.foldl (fun n g => n + (if g.id.shadowed then 2 else 1)) 0
  let regs := mine.foldl (fun n g => n + g.poolUse) 0
  let teams := s.teams.filter (fun t => t.core = c && !s.unplaced t.launch t.cluster)
  let here := teams.filter (fun t => t.resident && !goneTeam t)
  let barred := teams.filter (fun t => s.holdsBarriers t && !goneTeam t)
  let own (t : Team) : Bool := t.part = part
  let sum (l : List Team) (k : Team → Nat) : Nat := l.foldl (fun n t => n + k t) 0
  slots mine + n.slots ≤ f 0 7
    && regs + n.regs ≤ 8 * f 7 10
    && sum (teams.filter own) (Team.spad s) + s.clusterSpad c (some part) + n.spad ≤ 4096 * f 17 10
    && sum teams (Team.spad s) + s.clusterSpad c none + n.spad ≤ Config.spadBytes
    && sum (here.filter own) (·.units) + n.units ≤ f 27 8
    && sum here (·.units) + n.units ≤ Config.accUnits
    && sum (barred.filter own) (·.barriers.length) + n.barriers ≤ f 35 7
    && sum barred (·.barriers.length) + n.barriers ≤ 64

/-- What is free on a core. -/
def State.coreFree (s : State) (c : CoreId) : FreeShare :=
  let l := s.loadOf c (fun _ => false)
  let teams := s.teams.filter (fun t => t.core = c && !s.unplaced t.launch t.cluster)
  let sum (l : List Team) (k : Team → Nat) : Nat := l.foldl (fun n t => n + k t) 0
  { site := c.site
    slots := ((List.range 4).map (fun q => ((List.range Config.slotsPerQuarter).map (fun n => (q, n))).filter (fun x => !l.slots.contains x))).flatten
    regs := l.regs.map (fun n => Config.poolRegs - n)
    spad := Config.spadBytes - (sum teams (Team.spad s) + s.clusterSpad c none)
    units := Config.accUnits - sum (teams.filter (·.resident)) (·.units)
    barriers := 64 - sum (teams.filter s.holdsBarriers) (·.barriers.length) }

/-- The shares of a core that bind a candidate: those of the rectangles that held candidates before it have reserved (R183). -/
def sharesOf (before : List Held) (c : CoreId) : List FreeShare :=
  (before.map (fun h => if h.die = c.die then h.shares.filter (fun f => f.site = c.site) else [])).flatten

/-- A placement stays within the shares of a core. -/
def Needs.within (n : Needs) (l : List FreeShare) : Bool :=
  l.all (fun f => n.spad ≤ f.spad && n.units ≤ f.units && n.barriers ≤ f.barriers)

/-- The core mask of a partition allows the site (R180). -/
def State.maskAllows (s : State) (part : Nat) (c : CoreId) : Bool :=
  (s.reg (partBlock part + 16 * c.die + 8 * (c.site / 64))).getLsbD (c.site % 64)

/-- The sites of a rectangle in core-position order (R139); none when it leaves the interior. -/
def rectSites (p : Shape) (site : Nat) : Option (List Nat) :=
  if 10 < site % 10 + p.width || 10 < site / 10 + p.height then none
  else some ((List.range (p.width * p.height)).map (fun c => site + c / p.width * 10 + c % p.width))

/-- A rectangle lies on enabled sites within the partition's mask (R137, R182). -/
def State.rectAllowed (s : State) (part die : Nat) (p : Shape) (site : Nat) : Bool :=
  match rectSites p site with
  | none => false
  | some l => l.all (fun i => s.siteEnabled ⟨die, i⟩ && s.maskAllows part ⟨die, i⟩)

/-- The lowest cluster number of a die that no cluster resident on it or saved from it holds (R30). -/
def State.freeClusterNumber (s : State) (die : Nat) : Option Nat :=
  let held := s.clusters.filter (fun c => c.die = die && !c.unplaced && (match c.state with | .resident | .saved => true | _ => false))
  findFrom (fun k => !held.any (fun c => c.number = k)) 128 0

/-- The places of a cluster's groups on a rectangle, core by core and team by team; none when it does not fit (R182), or when its die has no
cluster number free (R30); what candidates before it have reserved is not for it (R183). -/
def State.fitsAt (s : State) (part : Nat) (p : Shape) (die site : Nat) (before : List Held) (gone : Group → Bool) (goneTeam : Team → Bool) :
    Option (List (List (List (Nat × Nat × Option Nat)))) :=
  if !s.rectAllowed part die p site || (s.freeClusterNumber die).isNone then none
  else ((rectSites p site).getD []).foldr (fun i acc =>
    match acc with
    | none => none
    | some rest =>
      let shares := sharesOf before ⟨die, i⟩
      if s.coreHolds part p.needs ⟨die, i⟩ gone goneTeam && p.needs.within shares then
        (Load.placeTeams p p.perCore (shares.foldl Load.within (s.loadOf ⟨die, i⟩ gone))).map (fun x => x :: rest)
      else none) (some [])

/-- The rectangles in R182's order: (die, top-left site). -/
def rectOrder : List (Nat × Nat) := ((List.range Config.dies).map (fun d => (List.range Config.sites).map (fun i => (d, i)))).flatten

/-- The state as the partition would find it empty (R179). -/
def State.emptied (s : State) : State := { s with g := .blank, gs := [], teams := [], clusters := [] }

/-- Detail 4 of R179: no rectangle holds one cluster even when nothing is resident. -/
def State.neverFits (s : State) (part : Nat) (p : Shape) : Bool :=
  !rectOrder.any (fun r => (s.emptied.fitsAt part p r.1 r.2 [] (fun _ => false) (fun _ => false)).isSome)

/-- The launch error detail of a record; zero when it is accepted, the lowest where several checks fail (log 27). -/
def State.launchDetail (s : State) (part : Nat) (r : List Byte) : Nat :=
  let p := shapeOf r
  if p.badRegs then 1 else if p.badCluster then 2 else if badFields r then 3 else if s.neverFits part p then 4 else 0

/-! Completion (R185). -/

/-- The 64 bytes of a completion record. -/
def completionRecord (status detail launch groups faulted : Nat) (lost : List Nat) (relaunched : Nat) : List Byte :=
  leBytes 4 status ++ leBytes 4 detail ++ leBytes 8 (launch % 2 ^ 64) ++ leBytes 4 groups ++ leBytes 4 faulted ++ leBytes 4 lost.length
    ++ leBytes 4 relaunched ++ ((List.range 8).map (fun i => leBytes 4 (lost.getD i 0xFFFFFFFF))).flatten

/-- The completion record is written, as a synchronising store with its launch's overlap-debug flag (R251, R252), and the event of kind 1
requested; the event takes its marked form where the record cannot be written. An address that is not a multiple of 64 is not writable
(log 28). -/
def State.writeCompletion (part queue launch addr status : Nat) (debug : Bool) (bytes : List Byte) (s : State) : State :=
  let w : Option State := match s.vaddr part addr .write with
    | some a =>
      if addr % 64 ≠ 0 || (s.newest (a / 128)).2 then none
      else (s.virtWrite none part addr bytes).map (fun t =>
        { t with lastSync := putFirst (fun x => x.line = a / 128) { line := a / 128, addr := a, size := 64, debug := debug } t.lastSync
               }.noteStore a 64)
    | none => none
  let info := match w with
    | some _ => addr
    | none => 1 + 2 * 2 + status * 8 + addr / 64 * 64
  (w.getD s).event { kind := 1, part := part, queue := queue, launch := launch, info := BitVec.ofNat 64 info }

/-! Acceptance (R176, R179). -/

/-- The queue whose record is accepted next: that of the first QTAIL write, by order of arrival, with records pending in an enabled
queue. -/
def State.nextQueue (s : State) : Option Nat := (s.arrivalOrder.find? (fun x => s.queueEnabled x.1 && s.queueHead x.1 ≠ x.2)).map (·.1)

/-- The acquire of a record's lines at package scope: their releaser records drain (R176, R249). The flag says that none is left. -/
def State.ringDrains (part va : Nat) (s : State) : State × Bool :=
  let lines := (((s.vaddrs part .read 256 va).getD []).map (· / 128)).eraseDups
  lines.foldl (fun r l => let x := r.1.hostDrains l; (x.1, r.2 && x.2)) (s, true)

/-- The grid of an accepted record. -/
def newGrid (queue part launch : Nat) (system : Bool) (r : List Byte) : Grid :=
  { launch := launch, queue := queue, part := part, system := system, record := r, groups := recordBits r 0x10 0 32 }

/-- A record that was read becomes a grid, or completes at once with a launch error (R179). What the final group count of that completion is the
spec does not say, since no group is created; here it is the record's G (log 111). -/
def State.acceptRecord (queue part launch detail : Nat) (r : List Byte) (s : State) : State :=
  if detail = 0 then { s with grids := s.grids ++ [newGrid queue part launch (s.queueSystem queue) r] }
  else s.writeCompletion part queue launch (recordBits r 0x38 0 64) 1 (recordBits r 0x10 54 1 = 1)
    (completionRecord 1 detail launch (recordBits r 0x10 0 32) 0 [] 0)

/-- The address of the record at QHEAD (R175). -/
def State.recordAddr (s : State) (queue : Nat) : Nat :=
  (s.reg (queueBlock queue)).toNat + 256 * (s.queueHead queue % 2 ^ s.queueLog queue)

/-- The next launch number is given and QHEAD moves on; a QTAIL write all of whose records are accepted is served (R176). -/
def State.takeRecord (queue : Nat) (s : State) : State :=
  let head := (s.queueHead queue + 1) % 2 ^ 20
  { s with nextLaunch := s.nextLaunch + 1
           arrivalOrder := s.arrivalOrder.filter (fun x => !(x.1 = queue && x.2 = head))
           }.setReg (queueBlock queue + 8) (BitVec.ofNat 64 (s.queueLog queue + head * 2 ^ 32))

/-- R176: the record at QHEAD of a queue is copied, after an acquire at package scope, numbered and checked; QHEAD moves on. -/
def execRecordAccept (queue : Nat) (s : State) : Result :=
  let part := s.queuePart queue
  let acq := s.ringDrains part (s.recordAddr queue)
  .next (if s.nextQueue ≠ some queue then s
    else if !acq.2 then acq.1
    else
      let s := acq.1
      let record := s.virtRead part (s.recordAddr queue) 256
      let launch := s.nextLaunch
      let s := s.takeRecord queue
      match record with
      | none => s.event { kind := 1, part := part, queue := queue, launch := launch, info := BitVec.ofNat 64 (1 + 1 * 2 + 1 * 8) }
      | some r => s.acceptRecord queue part launch (s.launchDetail part r) r)

end Sys2Proof.Machine
end

