-- ==== Sys2Proof/Machine/Residence.lean ====
section
/-! DEFINITION. Residence: new clusters made resident (spec 01 R9, 06 R139 to R142, 18 R321, 20 R370), and saved ones restored
(06 R141, 18 R323, R325, R332, R333). -/
namespace Sys2Proof.Machine
open Sys2Proof

/-! Numbers. -/

/-- The lowest `n` numbers from `i` on, among `fuel`, that are not used. -/
def lowestFreeNumbers (used : List Nat) : Nat → Nat → Nat → Option (List Nat)
  | _, _, 0 => some []
  | 0, _, _ + 1 => none
  | fuel + 1, i, n + 1 =>
    if used.contains i then lowestFreeNumbers used fuel (i + 1) (n + 1)
    else (lowestFreeNumbers used fuel (i + 1) n).map (fun l => i :: l)

/-- Context numbers for new groups of a partition (R321). -/
def State.freeContexts (s : State) (part n : Nat) : Option (List Nat) :=
  lowestFreeNumbers (s.groups.map (·.id.ctx)) (s.regField (partBlock part + 0x110) 0 16) 0 n

/-- Team images for new teams of a partition (R321). -/
def State.freeTeamImages (s : State) (part n : Nat) : Option (List Nat) :=
  lowestFreeNumbers ((s.teams.filter (fun t => t.part = part)).map (·.image)) (s.regField (partBlock part + 0x118) 0 16) 0 n

/-- Name slots (R370): the lowest free ones (log 29). -/
def State.freeNames (s : State) (n : Nat) : Option (List Nat) :=
  lowestFreeNumbers ((s.pegs.filter (fun p => p.st ≠ 0)).map (·.slot)) (2 ^ 20 - 1) 1 n

/-- A directory entry. -/
def State.peg (s : State) (slot : Nat) : Peg := (s.pegs.find? (fun p => p.slot = slot)).getD { slot := slot }
/-- Replace a directory entry. -/
def State.setPeg (p : Peg) (s : State) : State := { s with pegs := putFirst (fun x => x.slot = p.slot) p s.pegs }

/-- The entry of a group's name, at this module's own directory or in its guest table (R371). -/
def State.pegOf (s : State) (g : Group) : Peg :=
  if g.namePackage = s.package then s.peg g.nameSlot
  else ((s.guests.find? (fun x => x.package = g.namePackage && x.peg.slot = g.nameSlot)).map (fun (x : Guest) => x.peg)).getD { slot := g.nameSlot }

/-- Change the entry of a group's name; nothing without a name. -/
def State.modName (g : Group) (f : Peg → Peg) (s : State) : State :=
  if g.nameSlot = 0 then s
  else if g.namePackage = s.package then s.setPeg (f (s.peg g.nameSlot))
  else
    let put (x : Guest) : Guest := { x with peg := f x.peg }
    { s with guests := modifyFirst (fun x => x.package = g.namePackage && x.peg.slot = g.nameSlot) put s.guests }

/-! New clusters. -/

/-- The identities that a launch record gives group `i` of cluster `cluster` (R139, R177). -/
def Grid.ident (x : Grid) (cluster i ctx : Nat) : Ident :=
  let p := x.shape
  let idx := cluster * p.unit + i
  { ctx := ctx, launch := x.launch, index := idx, team := idx / p.team, member := idx % p.team, cluster := cluster
    teamSize := p.team, width := p.width, height := p.height, perCore := p.perCore, part := x.part, queue := x.queue
    system := x.system, laneBytes := p.laneBytes, coreBytes := p.coreBytes, clusterBytes := p.clusterBytes, barriers := p.barriers
    entry := recordBits x.record 0 0 52, sideTables := recordBits x.record 8 0 64, templates := recordBits x.record 0x28 0 64
    trapVector := recordBits x.record 0x30 0 52, nameable := x.flag 51, shadowed := p.shadowed, idempotent := x.flag 53
    overlapDebug := x.flag 54 }

/-- The state of a new group (R9). -/
def Grid.group (x : Grid) (id : Ident) (place : Place) (level : Nat) (shadow : Option Shadow) : Group :=
  { id := id, place := place, status := .resident, level := level, alloc := x.shape.vregs
    s := Vector.ofFn fun n : Fin 64 => if n.1 < 8 then BitVec.ofNat 64 (recordBits x.record (0x40 + 8 * n.1) 0 64) else 0
    p := Vector.ofFn fun n : Fin 16 => if n.1 < 8 then BitVec.ofNat 128 (leNat ((x.record.drop (0x80 + 16 * n.1)).take 16)) else 0
    fmt := if x.flag 55 then 0x20000 else 0
    pc := id.entry, regionPc := id.entry, shadow := shadow }

/-- A new group receives its name at its first residence (R370, R371). -/
def State.giveName (slot : Nat) (g : Group) (s : State) : State × Group :=
  let old := s.peg slot
  (s.setPeg { slot := slot, gen := old.gen, st := 1, part := g.id.part, ctx := g.id.ctx, die := g.place.die, site := g.place.site
              qtr := g.place.quarter, gslot := g.place.slot },
   { g with nameSlot := slot, nameGen := old.gen, namePackage := s.package })

/-- The header states of the groups are written; an unreachable image kills the cluster (R321, R323). -/
def State.markResident (launch cluster : Nat) (s : State) : State :=
  let mine := s.groups.filter (fun g => g.inCluster launch cluster && g.status = .resident)
  let r := mine.foldl (fun r g => let x := r.1.imageWrite g 4 [1]; (x.1, r.2 && x.2)) (s, true)
  if r.2 then r.1 else r.1.killCluster launch cluster 10 (fun _ => none)

/-- Nothing of a core's scratchpad, or of its accumulator memory, has been given back since bring-up: every team placed there still holds what it
took (R411). -/
def State.spadFresh (s : State) (c : CoreId) : Bool :=
  (s.core c).spadTeams = (s.teams.filter (fun t => t.core = c && !s.unplaced t.launch t.cluster)).length
def State.accFresh (s : State) (c : CoreId) : Bool :=
  (s.core c).accTeams = (s.teams.filter (fun t => t.core = c && t.resident)).length

/-- A new cluster comes to a core with `n` teams of it: its instruction cache holds no line any more, so that the cluster sees the code as it is
now (R87, log 52). -/
def Core.taken (n : Nat) (k : Core) : Core := { k with icache := [], spadTeams := k.spadTeams + n, accTeams := k.accTeams + n }

/-- A cluster of a grid is made resident on a rectangle with the places that fit there (R140, R142); none when a context number,
a team image, a name or a cluster number is missing (R30, R321, R370). -/
def State.makeNew (x : Grid) (cluster die site : Nat) (plan : List (List (List (Nat × Nat × Option Nat)))) (s : State) : Option State :=
  let p := x.shape
  let level := s.queueLevel x.queue
  match s.freeContexts x.part p.unit, s.freeTeamImages x.part p.teams, s.freeClusterNumber die,
      (if x.flag 51 then s.freeNames p.unit else some []) with
  | some ctxs, some images, some k, some names =>
    let places := plan.flatten.flatten
    let at_ (c : Nat) : CoreId := ⟨die, site + c / p.width * 10 + c % p.width⟩
    let core (t : Nat) : CoreId := at_ (t / p.perCore)
    let sites := (List.range (p.width * p.height)).map at_
    let group (i : Nat) : Group :=
      let pl := places.getD i (0, 0, none)
      let c := core (i / p.team)
      x.group (x.ident cluster i (ctxs.getD i 0)) { die := die, site := c.site, quarter := pl.1, slot := pl.2.1, clusterNo := k } level
        (pl.2.2.map (fun m => { slot := m, quarter := (pl.1 + 2) % 4, now := none }))
    let team (t : Nat) : Team :=
      { launch := x.launch, team := cluster * p.teams + t, cluster := cluster, core := core t, part := x.part, size := p.team, image := images.getD t 0
        alloc := if s.spadFresh (core t) then 0 else s.nextAlloc + 1 + 3 * t
        accAlloc := if s.accFresh (core t) then 0 else s.nextAlloc + 3 + 3 * t
        roster := if p.team = 2 ∨ p.team = 4 ∨ p.team = 8 then BitVec.ofNat 8 (2 ^ p.team - 1) else 0
        units := p.units, barriers := List.replicate p.barriers {}, arrivals := List.replicate 8 [] }
    let old := (s.clusters.find? (fun c => c.launch = x.launch && c.cluster = cluster)).getD { launch := x.launch, cluster := cluster }
    let new : Cluster := { old with part := x.part, state := .resident, die := die, site := site, number := k, mem := [], candidate := false
                                    alloc := if sites.all s.spadFresh then 0 else s.nextAlloc }
    let first := decide (cluster = x.placed)
    let moved (y : Grid) : Grid :=
      if first then { y with placed := y.placed + 1 } else y
    let s := { s with
      teams := s.teams ++ (List.range p.teams).map team
      clusters := putFirst (fun c => c.launch = x.launch && c.cluster = cluster) new s.clusters
      grids := modifyFirst (fun y => y.launch = x.launch) moved s.grids
      nextAlloc := s.nextAlloc + 1 + 3 * p.teams }
    let s := (List.range p.unit).foldl (fun (s : State) i =>
      let r := if x.flag 51 then s.giveName (names.getD i 0) (group i) else (s, group i)
      { r.1 with gs := r.1.gs ++ [r.2] }) s
    some ((s.takeCores (Core.taken p.perCore) sites).markResident x.launch cluster)
  | _, _, _, _ => none

/-! Restoration. -/

/-- The level a group is restored at (R187): its queue's; a foreign context keeps its own. -/
def State.restoreLevel (s : State) (g : Group) : Nat := if g.id.queue < Config.queues then s.queueLevel g.id.queue else g.level

/-- An entry as it is replayed (R329, R332): a load is issued again from its first element, a class-D operation again with its
tag, what was to go by a tree with it. -/
def Entry.replayed (e : Entry) : Entry :=
  if e.done then e
  else match e.cls with
    | .i => { e with sentAt := none, drained := [], poison := none, noKeep := false, replay := true, round := e.round + 1
                     lanes := e.lanes.map (fun a => { a with got := [], bytes := [], performed := false }) }
    | .d => { e with sentAt := none, retryAt := none, drained := [], replay := true, round := e.round + 1
                     treeSent := e.treeSent && e.lanes.all (fun a => !a.tree || a.performed)
                     everSent := e.everSent || e.sentAt.isSome, everTree := e.everTree || e.treeSent }
    | .c => e

/-- The right that an entry's pages need. -/
def Entry.right (e : Entry) : Right :=
  if e.kind = .literal then .exec else if e.writes || (e.kind = .scopeWalk && e.imm ≠ 8) then .write else .read

/-- What an entry's lanes access. -/
def Entry.uses (e : Entry) : List LaneUse := e.lanes.map (fun a => { lane := a.lane, ptr := a.ptr, index := a.index.toInt, count := e.elems a })

/-- The pages of an entry, translated again with the checks and the order of its issue (R34, R333). -/
def State.retranslate (c : CoreId) (part : Nat) (e : Entry) (s : State) : State × Except (LaneUse × PtrFault) (List Translation) :=
  match e.kind, e.lanes with
  | .scopeWalk, a :: _ =>
    let x := State.translateList c part e.right [Ptr.base a.ptr] s
    (x.1, match x.2 with
      | .ok ts => .ok ts
      | .error f => .error ({ lane := a.lane, ptr := a.ptr, index := 0, count := 1 },
          ⟨f.1.cause, BitVec.ofNat 64 f.1.extra, BitVec.ofInt 64 (Ptr.elemAddr a.ptr 0)⟩))
  | _, _ => s.translateLanes c part e.right e.uses

/-- The record of a replayed operation that fails in lane `u` (R34, R35). -/
def Entry.replayFailure (e : Entry) (u : LaneUse) (f : PtrFault) : FaultRec :=
  { e.failure f.cause f.extra with addr := f.addr, lane := if e.g then e.lane0 else u.lane, ptr := if e.kind = .literal then 0 else u.ptr }

/-- A replayed operation is checked again; a failure waits for host service, whatever PFMODE holds (R333). Where the fault-entry buffer is full
the operation fails as under PFMODE = 0 (R390, log 110). -/
def State.recheck (ctx : Nat) (e : Entry) (s : State) : State :=
  let g := s.group ctx
  if !s.has ctx then s
  else match s.retranslate g.core g.id.part e with
  | (s, .ok ts) => s.putEntry ctx { e with pages := ts, hostWait := false }
  | (s, .error (u, f)) =>
    let r := e.replayFailure u f
    if s.faultsFull then s.failPartAs ctx e r
    else
      let w := (s.keepRecord g).imageWrite g 0x40 (g.stamp r).bytes
      if !w.2 then w.1.killCtx ctx 10
      else
        (w.1.putEntry ctx { e with hostWait := true }).faultFor
          { part := g.id.part, ctx := ctx, source := .entry e.id, addr := f.addr
            words := [BitVec.ofNat 64 (s.imageAddr g + 0x40), BitVec.ofNat 64 ctx, f.addr, 0] }

/-- The replay of a group's record, in record order (R332). -/
def State.replay (ctx : Nat) (s : State) : State :=
  let s := s.modGroup ctx (fun g => { g with entries := g.entries.map Entry.replayed })
  ((s.group ctx).entries.filter (fun e => !e.done && !e.pages.isEmpty)).foldl (fun s e => State.recheck ctx e s) s

/-- A remote register store ends a pause (R167). -/
def Group.wake (g : Group) : Group :=
  match g.pending with
  | .pause _ => { g with pending := .none }
  | _ => g

/-- A word is written into a register, and lowers its arm hold (R372). -/
def Group.applyWord (w : RegsWord) (g : Group) : Group :=
  if w.reg < g.alloc then
    let g := g.writeV w.reg w.rlane w.value
    if g.holdArm w.reg then g.lowerHold w.reg else g
  else g

/-- The words parked for a group during its restore are written into its registers in order (R374). -/
def Group.applyWords (ws : List RegsWord) (g : Group) : Group :=
  if ws.isEmpty then g else (ws.foldl (fun g w => g.applyWord w) g).wake

/-- The restore of a saved group begins: it has its place again, its shadow too, and from now on words for it park (R374). -/
def State.beginRestore (place : Place) (slot : Option Nat) (ctx : Nat) (s : State) : State :=
  let side (g : Group) : Option Shadow := slot.map (fun m =>
    { (g.shadow.getD { slot := m, quarter := 0, now := none }) with slot := m, quarter := (place.quarter + 2) % 4 })
  (s.modGroup ctx (fun g => { g with place := place, restoring := true, shadow := side g })).modName (s.group ctx) (fun p => { p with rst := true })

/-- The restore of a group ends (R323, R325, R332, R374): its image is read, it is resident, the words parked for it are applied, and its record is
replayed. An image that fails its check ends the group, one that cannot be written kills the cluster (R321). -/
def State.endRestore (ctx : Nat) (s : State) : State :=
  s.onCtx ctx (fun s =>
    let ok := s.imageOk s.g
    let g := if ok then s.loadImage s.g else s.g
    let g : Group := { g with
      shadow := g.shadow.map (fun (x : Shadow) => x.restored x.slot x.quarter s.free g), status := .resident, restoring := false
      level := s.restoreLevel g, running := false, issued := 0, ibuf := [], stall := .none, request := false, saving := false, rolledBack := false
      hostSave := false, halted := false, lastGrant := none, waited := 0, waitedTop := 0, memOps := 0, memBound := false, granted := 0 }
    let s := { s with g := g, works := s.works.map (fun (x : Work) => if x.ctx = ctx then { x with frozen := false } else x) }
    if !ok then s.faultEnds (g.stamp { cause := 1, pc := g.pc, mask := g.active })
    else
      let r := s.imageWrite g 4 [1]
      if !r.2 then r.1.killCtx ctx 10
      else
        let here (p : Peg) : Peg :=
          { p with st := 1, rst := false, parked := [], die := g.place.die, site := g.place.site, qtr := g.place.quarter, gslot := g.place.slot }
        let words := if g.nameSlot = 0 then [] else (r.1.pegOf g).parked
        let s := { r.1 with g := r.1.g.mirror (Group.applyWords words) }.modName g here
        s.replay ctx)

/-- Every restore that is under way ends. -/
def State.endRestores (s : State) : State :=
  ((s.groups.filter (·.restoring)).map (·.id.ctx)).foldl (fun s c => State.endRestore c s) s

/-- The slots of saved groups on their own quarters: (context, place, slot of the shadow); none when a slot or registers are missing (R141). -/
def placeSaved : List Group → (CoreId → Load) → Option (List (Nat × Place × Option Nat))
  | [], _ => some []
  | g :: gs, load =>
    match (load g.core).takeGroup g.place.quarter g.alloc g.id.shadowed with
    | none => none
    | some (l, n, m) =>
      (placeSaved gs (fun c => if c = g.core then l else load c)).map (fun rest =>
        (g.id.ctx, { g.place with slot := n }, m) :: rest)

/-- The saved groups of a cluster, or of one team of it, that may return: a group that the host or `halt` saved stays until it is resumed
(R182, R354). -/
def State.savedGroups (s : State) (launch cluster : Nat) (team : Option Nat) : List Group :=
  s.groups.filter (fun g => g.inCluster launch cluster && g.status = .saved && !g.saving && !g.restoring && !g.hostSave && team.all (· = g.id.team))

/-- What saved groups take on a core when they return. -/
def State.savedNeeds (s : State) (l : List Group) (c : CoreId) : Needs :=
  let here := l.filter (fun g => g.core = c)
  let factor (g : Group) : Nat := if g.id.shadowed then 2 else 1
  let back := s.teams.filter (fun t => t.core = c && !t.resident && l.any (fun g => t.isOf g))
  let barred := s.teams.filter (fun t => t.core = c && !s.holdsBarriers t && l.any (fun g => g.inCluster t.launch t.cluster))
  { slots := here.foldl (fun n g => n + factor g) 0, regs := here.foldl (fun n g => n + g.alloc * factor g) 0, spad := 0
    units := back.foldl (fun n t => n + t.units) 0
    barriers := barred.foldl (fun n t => n + t.barriers.length) 0 }

/-- Places for the saved groups at their own sites and quarters, when sites, quotas and capacities allow it (R141, R182), and what candidates
before it have reserved (R183). -/
def State.fitsSaved (s : State) (launch cluster : Nat) (team : Option Nat) (before : List Held) (gone : Group → Bool) (goneTeam : Team → Bool) :
    Option (List (Nat × Place × Option Nat)) :=
  let l := s.savedGroups launch cluster team
  let teams := s.teams.filter (fun t => !s.holdsBarriers t && l.any (fun g => g.inCluster t.launch t.cluster))
  let cores := (l.map Group.core ++ teams.map (·.core)).eraseDups
  let part := ((l.head?).map (fun (g : Group) => g.id.part)).getD 0
  if cores.all (fun c => s.siteEnabled c && s.maskAllows part c && s.coreHolds part (s.savedNeeds l c) c gone goneTeam
      && (s.savedNeeds l c).within (sharesOf before c)) then
    placeSaved l (fun c => (sharesOf before c).foldl Load.within (s.loadOf c gone))
  else none

/-- The restore of a saved cluster, or of a team saved alone, begins (R141, R332, R374). -/
def State.restore (launch cluster : Nat) (team : Option Nat) (places : List (Nat × Place × Option Nat)) (s : State) : State :=
  let saved := (s.clusters.find? (fun c => c.launch = launch && c.cluster = cluster)).any (fun c => c.state = .saved)
  let l := s.savedGroups launch cluster team
  let units := (s.teams.filter (fun t => !t.resident && l.any (fun g => t.isOf g))).map (·.core)
  let back (t : Team) : Team :=
    if l.any (fun g => t.isOf g) then
      { (if t.resident then t else s.loadTeam t.part t saved) with resident := true, savedAlone := false }
    else if saved && t.launch = launch && t.cluster = cluster then { t with barriers := (s.loadTeam t.part t true).barriers }
    else t
  let now (c : Cluster) : Cluster := { c with state := .resident, candidate := false }
  let s := { s with teams := s.teams.map back
                    clusters := modifyFirst (fun c => c.launch = launch && c.cluster = cluster) now s.clusters }
  places.foldl (fun s x => State.beginRestore x.2.1 x.2.2 x.1 s) (s.takeCores (fun k => { k with accTeams := k.accTeams + 1 }) units)

end Sys2Proof.Machine
end

