-- ==== Sys2Proof/Machine/Sched.lean ====
section
/-! DEFINITION. The dispatcher: candidates, placement, reservation and pre-emption (spec 08 R182 to R184, R187, R188), saves (18
R319, R320), the end of groups, teams and grids (06 R144, 07 R166, R172, 08 R185), kills and relaunches (18 R336 to R338). -/
namespace Sys2Proof.Machine
open Sys2Proof

/-! Candidates (R182). -/

/-- A candidate: `rank` 0 a saved cluster or team, 1 a cluster to be relaunched, 2 a new one. -/
structure Cand where
  level : Nat
  launch : Nat
  rank : Nat
  cluster : Nat
  team : Option Nat := none
  deriving DecidableEq, Repr

/-- R182's order: level, age, and a saved one first. Among several saved clusters or teams of one record the spec gives no order: here the lower
cluster index comes first (log 112). -/
def Cand.before (a b : Cand) : Bool :=
  a.level < b.level || (a.level = b.level && (a.launch % 2 ^ 64 < b.launch % 2 ^ 64
    || (a.launch % 2 ^ 64 = b.launch % 2 ^ 64 && (a.rank < b.rank || (a.rank = b.rank && a.cluster < b.cluster)))))

/-- Insert in order. -/
def Cand.insert (c : Cand) : List Cand → List Cand
  | [] => [c]
  | d :: ds => if d.before c then d :: Cand.insert c ds else c :: d :: ds

/-- The level of what a launch owns: its queue's (R182), or for a foreign context that of its groups. -/
def State.launchLevel (s : State) (launch cluster : Nat) : Nat :=
  match (s.gridOf launch).filter (fun x => !x.foreign) with
  | some x => s.queueLevel x.queue
  | none => (s.groups.filter (fun g => g.inCluster launch cluster)).foldl (fun m g => Nat.min m g.level) 7

/-- Every grid of this module with clusters not yet made resident whose queue has no earlier such grid. -/
def openGrids : List Nat → List Grid → List Grid
  | _, [] => []
  | queues, x :: xs =>
    if !x.foreign && x.placed * x.shape.unit < x.groups then
      (if queues.contains x.queue then openGrids queues xs else x :: openGrids (x.queue :: queues) xs)
    else openGrids queues xs

/-- The candidates in order. -/
def State.candidates (s : State) : List Cand :=
  let saved := (s.clusters.filter (fun c => c.candidate && c.state = .saved && !(s.savedGroups c.launch c.cluster none).isEmpty)).map (fun c =>
    ({ level := s.launchLevel c.launch c.cluster, launch := c.launch, rank := 0, cluster := c.cluster } : Cand))
  let waiting (t : Team) : Bool :=
    t.savedAlone && s.clusters.any (fun c => c.launch = t.launch && c.cluster = t.cluster && c.state = .resident)
      && !(s.savedGroups t.launch t.cluster (some t.team)).isEmpty
      && !s.groups.any (fun g => t.isOf g && (g.saving || (g.request && g.status = .resident)))
  let teams := (s.teams.filter waiting).map (fun t =>
    ({ level := s.launchLevel t.launch t.cluster, launch := t.launch, rank := 0, cluster := t.cluster, team := some t.team } : Cand))
  let again := (s.clusters.filter (fun c => c.candidate && c.state = .pending)).map (fun c =>
    ({ level := s.launchLevel c.launch c.cluster, launch := c.launch, rank := 1, cluster := c.cluster } : Cand))
  let new := (openGrids [] s.grids).map (fun x =>
    ({ level := s.queueLevel x.queue, launch := x.launch, rank := 2, cluster := x.placed } : Cand))
  (saved ++ teams ++ again ++ new).foldr Cand.insert []

/-- The cluster of a candidate. -/
def State.clusterAt (s : State) (launch cluster : Nat) : Cluster :=
  (s.clusters.find? (fun c => c.launch = launch && c.cluster = cluster)).getD { launch := launch, cluster := cluster }

/-- The candidate has its own sites (R141). -/
def State.ownSites (s : State) (c : Cand) : Bool := c.rank = 0 && !(s.clusterAt c.launch c.cluster).unplaced

/-- The groups of a candidate's cluster. -/
def State.candGroups (s : State) (c : Cand) : List Group := s.groups.filter (fun g => g.inCluster c.launch c.cluster)

/-- The shape that a candidate is placed with: its record's; an admitted cluster needs the registers that its groups hold (R402). -/
def State.candShape (s : State) (c : Cand) : Shape :=
  let p := ((s.gridOf c.launch).map Grid.shape).getD (shapeOf [])
  if c.rank = 0 then { p with vregs := (s.candGroups c).foldl (fun m g => Nat.max m g.alloc) 8 } else p

/-- The partition of a candidate: its own, of a cluster that was placed or admitted before, else its record's (R180, R402). -/
def State.candPart (s : State) (c : Cand) : Nat :=
  if c.rank = 0 then (s.clusterAt c.launch c.cluster).part else ((s.gridOf c.launch).map (·.part)).getD 0

/-- The candidate's entry among those that are held. -/
def Cand.isHeld (c : Cand) (h : Held) : Bool := h.launch = c.launch && h.cluster = c.cluster && h.team = c.team

/-- The candidate is held no longer. -/
def State.unheld (c : Cand) (s : State) : State := { s with held := s.held.filter (fun h => !c.isHeld h) }

/-- An admitted cluster takes its new sites; its groups then return as saved ones (R402). -/
def State.settleForeign (c : Cand) (die site : Nat) (plan : List (List (List (Nat × Nat × Option Nat)))) (s : State) : State :=
  let p := s.candShape c
  let number := (s.freeClusterNumber die).getD 0
  let core (t : Nat) : CoreId := let k := t / p.perCore; ⟨die, site + k / p.width * 10 + k % p.width⟩
  let places := plan.flatten.flatten
  let s := (s.candGroups c).foldl (fun (s : State) g =>
    let i := g.id.index % p.unit
    let k := core (i / p.team)
    s.modGroup g.id.ctx (fun g => { g with place := { die := die, site := k.site, quarter := (places.getD i (0, 0, none)).1, slot := 0, clusterNo := number } })) s
  let team (t : Team) : Team := if t.launch = c.launch && t.cluster = c.cluster then { t with core := core (t.team % p.teams) } else t
  let now (k : Cluster) : Cluster := { k with die := die, site := site, number := number, unplaced := false }
  { s with teams := s.teams.map team
           clusters := modifyFirst (fun k => k.launch = c.launch && k.cluster = c.cluster) now s.clusters }

/-- The first request that waits on a quarter, or on a core, can be granted (R152, R295). -/
def State.headGrows (s : State) (core : CoreId) (q : Nat) : Bool :=
  match s.quarterQueue core q with
  | c :: _ => (match (s.group c).pending with | .vgrow n => s.canGrow (s.group c) n | _ => true)
  | [] => true
def State.headGets (s : State) (core : CoreId) : Bool :=
  match s.coreQueue core with
  | c :: _ => (match (s.group c).pending with | .acalloc n => s.canGiveUnits core (s.group c).id.part n | _ => true)
  | [] => true

/-- A waiting `vgrow` or `acalloc` on a core is to be granted, before a team that was saved alone returns there (R188). -/
def State.grantsFirst (s : State) (c : Cand) : Bool :=
  c.team.isSome && (((s.savedGroups c.launch c.cluster c.team).map Group.core).eraseDups).any (fun k =>
    (!(s.coreQueue k).isEmpty && s.headGets k) || (List.range 4).any (fun q => !(s.quarterQueue k q).isEmpty && s.headGrows k q))

/-- A candidate is made resident where it fits first, beside what those before it have reserved; none when it is to be held (R182, R183). -/
def State.place (c : Cand) (before : List Held) (s : State) : Option State :=
  let none_ : Group → Bool := fun _ => false
  let noTeam : Team → Bool := fun _ => false
  let put (t : State) : Option State := (t.fitsSaved c.launch c.cluster c.team before none_ noTeam).map (fun l => t.restore c.launch c.cluster c.team l)
  if s.grantsFirst c then none
  else (if s.ownSites c then put s
   else match rectOrder.findSome? (fun r => (s.fitsAt (s.candPart c) (s.candShape c) r.1 r.2 before none_ noTeam).map (fun plan => (r.1, r.2, plan))),
       s.gridOf c.launch with
     | some (die, site, plan), some x => if c.rank = 0 then put (s.settleForeign c die site plan) else s.makeNew x c.cluster die site plan
     | _, _ => none).map (State.unheld c)

/-- A new cluster of a nameable launch finds too few names, in host-assisted mode for pegboard overflow (R370, R406). -/
def State.shortOfNames (s : State) (c : Cand) : Bool :=
  s.hostMode 4 && c.rank ≠ 0 && (match s.gridOf c.launch with
    | some x => x.flag 51 && (s.freeNames x.shape.unit).isNone
    | none => false)

/-- A candidate that does not fit is held, from now if it was not already (R182 step 4); a shortage of names is reported when it arises
(R370). -/
def State.hold (c : Cand) (s : State) : State :=
  let old : Held := (s.held.find? c.isHeld).getD { launch := c.launch, cluster := c.cluster, team := c.team, since := s.time }
  let short := s.shortOfNames c
  let s := if short && !old.short then s.moduleError else s
  { s with held := putFirst c.isHeld { old with short := short } s.held }

/-- What a share still gives later candidates once one of them was placed. -/
def FreeShare.less (f before after : FreeShare) : FreeShare :=
  { f with slots := f.slots.filter after.slots.contains
           regs := (List.range 4).map (fun q => f.regs.getD q 0 - (before.regs.getD q 0 - after.regs.getD q 0))
           spad := f.spad - (before.spad - after.spad), units := f.units - (before.units - after.units)
           barriers := f.barriers - (before.barriers - after.barriers) }

/-- A candidate was placed after those of `before` were held: what it took of their rectangles is charged to later ones (R183). -/
def State.charge (before : List Held) (old s : State) : State :=
  let paid (h : Held) : Held :=
    if before.any (fun b => b.launch = h.launch && b.cluster = h.cluster && b.team = h.team) then
      { h with shares := h.shares.map (fun f => f.less (old.coreFree ⟨h.die, f.site⟩) (s.coreFree ⟨h.die, f.site⟩)) }
    else h
  { s with held := s.held.map paid }

/-- What a share still gives later candidates once less than it is free. -/
def FreeShare.capped (f now : FreeShare) : FreeShare :=
  { f with slots := f.slots.filter now.slots.contains, regs := (List.range 4).map (fun q => Nat.min (f.regs.getD q 0) (now.regs.getD q 0))
           spad := Nat.min f.spad now.spad, units := Nat.min f.units now.units, barriers := Nat.min f.barriers now.barriers }

/-- Whatever takes resources of a reserved rectangle, later candidates get none of what is freed of them again (R183). -/
def State.capShares (s : State) : State :=
  if s.held.all (fun h => h.shares.isEmpty) then s
  else { s with held := s.held.map (fun h => { h with shares := h.shares.map (fun f => f.capped (s.coreFree ⟨h.die, f.site⟩)) }) }

/-- Steps 2 to 4 of R182 down the candidates: the first that fits is placed. -/
def State.dispatchFrom : List Cand → List Held → State → State × Bool
  | [], _, s => (s, false)
  | c :: cs, before, s =>
    match s.place c before with
    | some t => (t.charge before s, true)
    | none =>
      let s := s.hold c
      State.dispatchFrom cs (before ++ s.held.filter (fun h => c.isHeld h && h.reserved)) s

/-! Pre-emption by the dispatcher (R184). -/

/-- A pre-emption request with its deadline (R319, R401). -/
def State.askSave (s : State) (host : Bool) (g : Group) : Group :=
  let h := host || g.hostSave
  if g.request then { g with hostSave := h }
  else { g with request := true, deadline := s.time + s.regField 0x1000 8 24, hostSave := h }

/-- The request flag of every resident group that `p` names is raised. -/
def State.askSaves (host : Bool) (p : Group → Bool) (s : State) : State :=
  let ask (g : Group) : Group := if p g && g.status = .resident then s.askSave host g else g
  { s with g := ask s.g, gs := s.gs.map ask }

/-- Clusters of a strictly lower level with a team on given cores: their groups, those whose save is under way among them (R184). -/
def State.victims (s : State) (level die : Nat) (sites : List Nat) : List Group :=
  let live := s.groups.filter (fun g => (g.status = .resident || (g.status = .saved && g.saving)) && !g.id.monitor && g.id.ctx ≠ 2 ^ 24)
  let of (g : Group) : List Group := live.filter (fun h => h.inCluster g.id.launch g.id.cluster)
  live.filter (fun g =>
    (of g).any (fun h => h.place.die = die && sites.contains h.place.site) && (of g).all (fun h => level < h.level))

/-- The victims on the first rectangle that would fit once they were saved. -/
def State.preemptFor (c : Cand) (before : List Held) (s : State) : Option (List Group) :=
  let gone (v : List Group) (g : Group) : Bool := v.any (fun h => h.id.ctx = g.id.ctx)
  let goneTeam (v : List Group) (t : Team) : Bool := v.any (fun h => h.id.launch = t.launch && h.id.cluster = t.cluster)
  if s.ownSites c then
    let v := s.victims c.level (s.clusterAt c.launch c.cluster).die ((s.savedGroups c.launch c.cluster c.team).map (fun g => g.place.site))
    if (s.fitsSaved c.launch c.cluster c.team before (gone v) (goneTeam v)).isSome then some v else none
  else
    let p := s.candShape c
    rectOrder.findSome? (fun r =>
      let v := s.victims c.level r.1 ((rectSites p r.2).getD [])
      if (s.fitsAt (s.candPart c) p r.1 r.2 before (gone v) (goneTeam v)).isSome then some v else none)

/-- Every held candidate that may pre-empt raises its requests, in order (R184). -/
def State.preemptFrom : List Cand → List Held → State → State
  | [], _, s => s
  | c :: cs, before, s =>
    let s := match (if c.level ≤ s.regField 0x1000 0 3 then s.preemptFor c before else none) with
      | some v => s.askSaves false (fun g => v.any (fun h => h.id.ctx = g.id.ctx))
      | none => s
    State.preemptFrom cs (before ++ s.held.filter (fun h => c.isHeld h && h.reserved)) s

/-- R182, R184, R374: restores that are under way end, and the first candidate that fits is made resident; when none fits, held ones may pre-empt, but not in host-assisted arbitration
(R406). What is no candidate any more is not held. -/
def execDispatch (s : State) : Result :=
  .next (let s := s.endRestores
         let s : State := { s with held := s.held.filter (fun h => s.candidates.any (fun c => c.isHeld h)) }
         let r := State.dispatchFrom s.candidates [] s
         if r.2 || r.1.hostMode 1 then r.1 else r.1.preemptFrom r.1.candidates [])

/-- 100 µs in core cycles (R183). -/
def holdLimit : Nat := 100 * Config.cyclesPerUs

/-- How long a candidate has been held, and what it has got for it. -/
def State.heldLong (s : State) (c : Cand) : Bool := s.held.any (fun h => c.isHeld h && h.since + holdLimit ≤ s.time && !h.reserved)

/-- The rectangle that a held candidate gets: its own sites, or the first within its partition's mask (R183). -/
def State.reserveAt (s : State) (c : Cand) : Nat × List Nat :=
  if s.ownSites c then
    ((s.clusterAt c.launch c.cluster).die, ((s.savedGroups c.launch c.cluster c.team).map (fun g => g.place.site)).eraseDups)
  else match rectOrder.find? (fun r => s.rectAllowed (s.candPart c) r.1 (s.candShape c) r.2) with
    | some r => (r.1, (rectSites (s.candShape c) r.2).getD [])
    | none => (0, [])

/-- R183, R406: a candidate held for 100 µs gets a rectangle reserved: of what becomes free there from now on later candidates get nothing.
In host-assisted arbitration an event also names its queue. -/
def execHeldCandidateReserve (s : State) : Result :=
  .next (match s.candidates.find? s.heldLong with
    | none => s
    | some c =>
      let r := s.reserveAt c
      let mark (h : Held) : Held := { h with reserved := true, die := r.1, shares := r.2.map (fun i => s.coreFree ⟨r.1, i⟩) }
      let queue := (((s.gridOf c.launch).filter (fun x => !x.foreign)).map (·.queue)).getD 0xFFFFFFFF
      let s := { s with held := modifyFirst c.isHeld mark s.held }
      if s.hostMode 1 then
        s.event { kind := 6, part := 0xFFFF, queue := queue, launch := c.launch % 2 ^ 64, info := Config.freeValue 64 s.free (2 ^ 50 + s.events.length) }
      else s)

/-! Saves. -/

/-- R319: at its deadline a group between runs is saved, and one in a stalled run is rolled back; a run that does not stall goes
on to its end. -/
def execPreemptionDeadline (ctx : Nat) (s : State) : Result :=
  .next (s.onCtx ctx (fun s =>
    if !s.g.request ∨ s.time < s.g.deadline ∨ s.g.status ≠ .resident then s
    else if !s.g.running then { s with g := { s.g with saving := true } }
    else if s.g.stall ≠ .none then
      State.alike (fun s => { s with g := { s.g.stopRun with pc := s.g.regionPc, saving := true, rolledBack := true } }) s
    else s))

/-- The group is at a point of R319 where it is saved, and nothing holds the save back: every store to lane or core space is
performed (R330), no operation of its team is staged or waits for staging (R290), and its shadow has made what it has sent (log 15). -/
def State.mayBeSaved (s : State) (g : Group) : Bool :=
  g.status = .resident && !g.running
    && (g.saving || (g.request && (g.pending ≠ .none || s.headWaits g)))
    && g.entries.all (fun e => e.done || e.path ≠ 0 || !e.writes)
    && !s.ops.any (fun o => o.launch = g.id.launch && o.team = g.id.team)
    && g.shadow.all (fun x => x.compare.isEmpty)

/-- The group as it is saved: its run is over, a granted request is returned; a stop for host service, and a pause that no
request ended, stay (R203, R319). -/
def Group.frozen (g : Group) : Group :=
  let keep : Pending := match g.pending with
    | .host f => .host f
    | .pause t => if g.request then .none else .pause t
    | _ => .none
  { g.stopRun with pending := keep, granted := 0 }

/-- The directory learns that a name's group is saved (R371). -/
def State.nameSaved (g : Group) (s : State) : State := s.modName g (fun p => { p with st := 2 })

/-- Images of the teams that `p` names are written, with the barriers where the whole cluster is saved (R290, R320, R324); the units of the teams
return. The flag is false when one cannot be written. -/
def State.saveTeams (whole : Bool) (p : Team → Bool) (s : State) : State × Bool :=
  let r := (s.teams.filter p).foldl (fun r t => if r.2 then State.saveTeam t.part t whole r.1 else r) (s, true)
  let out (t : Team) : Team := if p t then { t with resident := false, acc := [], zeroUnits := [] } else t
  ({ r.1 with teams := r.1.teams.map out }, r.2)

/-- A team is saved once none of its groups is resident and some are saved (R290, R320). An image that cannot be written kills the cluster
(R321). -/
def State.saveTeamOf (launch cluster team : Nat) (s : State) : State :=
  let mine := s.groups.filter (fun g => g.inCluster launch cluster && g.id.team = team)
  if mine.any (fun g => g.status = .resident || g.restoring) || !mine.any (fun g => g.status = .saved) then s
  else
    let r := s.saveTeams false (fun t => t.launch = launch && t.team = team && t.resident)
    if r.2 then r.1 else r.1.killCluster launch cluster 10 (fun _ => none)

/-- R320: issue stops, the engines end their chunks and bags, the record and the engines' work freeze, and the image is written; an image
that cannot be written kills the cluster with reason 10 (R321). -/
def execSave (ctx : Nat) (s : State) : Result :=
  .next (s.onCtx ctx (fun s =>
    if !s.mayBeSaved s.g then s
    else if s.works.any (fun x => x.ctx = ctx && x.begun && x.held.isNone) then { s with g := { s.g with saving := true } }
    else
      let s := { s with
        g := s.g.frozen
        works := s.works.map (fun (x : Work) => if x.ctx = ctx then { x with frozen := true } else x)
        vgrowQueue := s.vgrowQueue.filter (· ≠ ctx), acallocQueue := s.acallocQueue.filter (· ≠ ctx) }
      let r := s.saveImage s.g
      if !r.2 then r.1.killCtx ctx 10
      else
        let s := { r.1 with g := { r.1.g with status := .saved, saving := true } }
        (s.nameSaved s.g).saveTeamOf s.g.id.launch s.g.id.cluster s.g.id.team))

/-- Every group of the cluster is saved, and every save has finished. -/
def State.clusterSaved (s : State) (launch cluster : Nat) : Bool :=
  let mine := s.groups.filter (fun g => g.inCluster launch cluster)
  mine.all (fun g => g.status = .ended || (g.status = .saved && !g.saving && !g.restoring)) && mine.any (fun g => g.status = .saved)

/-- A Save of the context request register is under way for the group's cluster (R405). -/
def State.clusterRequest (s : State) (g : Group) : Bool := s.saveAsked.any (fun r => r.launch = g.id.launch && r.cluster = g.id.cluster)

/-- The save-finished event (R189, R320), to the ring of a partition. -/
def State.saveEvent (part launch cluster : Nat) (s : State) : State :=
  s.event { kind := 5, part := part, queue := ((s.gridOf launch).map (·.queue)).getD 0xFFFFFFFF, launch := launch, info := BitVec.ofNat 64 cluster }

/-- The Saves that name a cluster are over: GO clears (R405). -/
def State.endRequests (launch cluster : Nat) (s : State) : State :=
  { s with saveAsked := s.saveAsked.filter (fun r => !(r.launch = launch && r.cluster = cluster)) }

/-- How a cluster stands once one of its groups is saved or has left. With its last group saved it is saved whole: its teams' images get their
barriers, it becomes a candidate unless the host or `halt` asked for every save, and every Save that named it is reported (R182, R290, R320,
R324, R405). With no group left to be saved GO clears without a report. -/
def State.settleCluster (launch cluster : Nat) (s : State) : State :=
  let mine := s.groups.filter (fun g => g.inCluster launch cluster)
  if s.clusterSaved launch cluster then
    if (s.clusterAt launch cluster).state ≠ .resident then s
    else
      let r := s.saveTeams true (fun t => t.launch = launch && t.cluster = cluster)
      if !r.2 then r.1.killCluster launch cluster 10 (fun _ => none)
      else
        let asked := mine.all (fun h => h.hostSave || h.status ≠ .saved)
        let now (c : Cluster) : Cluster := { c with state := .saved, candidate := !asked }
        let alone (t : Team) : Team := if t.launch = launch && t.cluster = cluster then { t with savedAlone := false } else t
        let s := { r.1 with clusters := modifyFirst (fun c => c.launch = launch && c.cluster = cluster) now r.1.clusters, teams := r.1.teams.map alone }
        let told := s.saveAsked.filter (fun q => q.launch = launch && q.cluster = cluster)
        told.foldl (fun s q => State.saveEvent q.part launch cluster s) (s.endRequests launch cluster)
  else if mine.all (fun g => g.status = .ended) then s.endRequests launch cluster
  else s

/-- R320 steps 4 and 5: the place returns. A save by `halt` is always reported, and one that the host asked for of a context; that of a whole
cluster is reported when it is whole (R354, R405). -/
def execSaveFinished (ctx : Nat) (s : State) : Result :=
  .next (s.onCtx ctx (fun s =>
    let g := s.g
    if g.status ≠ .saved ∨ !g.saving then s
    else
      let s := { s with g := { g with saving := false, request := false, halted := false } }
      let s := if g.halted || (g.hostSave && !s.clusterRequest g) then s.saveEvent g.id.part g.id.launch g.id.cluster else s
      s.settleCluster g.id.launch g.id.cluster))

/-- The groups of a list of teams. -/
def State.teamGroups (s : State) (t : Team) : List Group := s.groups.filter (fun g => t.isOf g && g.status = .resident)

/-- The started run of a group still holds a `vshrink` or an `acfree` (R188). -/
def Group.releasing (g : Group) : Bool :=
  g.running && g.ibuf.any (fun u => match u with
    | .word x => (match decodeWord x with
      | .instr (.vshrink _) | .instr (.acfree _) => true
      | _ => false)
    | _ => false)

/-- Teams in a resource deadlock on a core: those with a group on a quarter whose every resident group waits in `vgrow`, or every
resident team when each has a group that waits in `acalloc`; the first request cannot be granted and no release is pending (R188). That a debug monitor, which never waits so, is no group of its quarter
here is the model's choice (log 113). -/
def State.deadlocked (s : State) (core : CoreId) : List Team :=
  let here := s.groups.filter (fun g => g.core = core && g.holdsPlace && !g.id.monitor)
  let onQuarter (q : Nat) : List Group := here.filter (fun g => g.place.quarter = q || (g.id.shadowed && g.shadowQuarter = q))
  let stuckQuarter (q : Nat) : Bool :=
    !(onQuarter q).isEmpty && (onQuarter q).all (fun g => g.status = .resident && !g.saving && (match g.pending with | .vgrow _ => true | _ => false))
      && !s.headGrows core q
  let teams := s.teams.filter (fun t => t.core = core && t.resident && !(s.teamGroups t).isEmpty)
  let byRegs := teams.filter (fun t => (List.range 4).any (fun q => stuckQuarter q && (onQuarter q).any (fun g => t.isOf g)))
  let stuckCore : Bool := !s.headGets core && here.all (fun g => g.status = .resident && !g.saving && !g.releasing)
    && s.teams.all (fun t => t.core ≠ core || !t.resident || !(s.teamGroups t).isEmpty)
    && teams.all (fun t => (s.teamGroups t).any (fun g => match g.pending with | .acalloc _ => true | _ => false))
  if !byRegs.isEmpty then byRegs else if stuckCore then teams else []

/-- The youngest launch's highest team (R188); launch numbers are those of 64 bits. -/
def youngest (l : List Team) : Option Team :=
  l.foldl (fun b t => match b with
    | none => some t
    | some u => if u.launch % 2 ^ 64 < t.launch % 2 ^ 64 || (u.launch % 2 ^ 64 = t.launch % 2 ^ 64 && u.team < t.team) then some t else some u) none

/-- R188: the victim team is saved alone at once; a started run of it goes to its end or is rolled back as at a deadline. -/
def execResourceDeadlockSave (core : CoreId) (s : State) : Result :=
  .next (match youngest (s.deadlocked core) with
    | none => s
    | some t =>
      let out (g : Group) : Group :=
        if t.isOf g && g.status = .resident then
          (if g.running then { g with request := true, deadline := s.time } else { g with saving := true })
        else g
      let mark (u : Team) : Team := { u with savedAlone := true }
      { s with g := out s.g, gs := s.gs.map out, teams := modifyFirst (fun u => u.launch = t.launch && u.team = t.team) mark s.teams })

/-! Growth and ends. -/

/-- The old count that a `gridgrow` returns, and the grid after it (R171, R172). -/
def Grid.grow (x : Grid) (index ordinal amount : Nat) : Word64 × Grid :=
  match x.grown.find? (fun k => k.1 = index && k.2.1 = ordinal) with
  | some k => (BitVec.ofNat 64 k.2.2, x)
  | none =>
    if amount = 0 ∨ amount % x.shape.unit ≠ 0 ∨ 2 ^ 32 - 1 < x.groups + amount then (BitVec.allOnes 64, x)
    else (BitVec.ofNat 64 x.groups, { x with groups := x.groups + amount, grown := (index, ordinal, x.groups) :: x.grown })

/-- A group has completed another `gridgrow`: its grid keeps how many (R172). -/
def Grid.completes (x : Grid) (index n : Nat) : Grid := { x with counts := putFirst (fun k => k.1 = index) (index, n) x.counts }

/-- What a `gridgrow` returns, and its grid after it. The dispatcher of another module answers for an admitted group: its old count, or the
refusal, is open (log 36). -/
def State.growth (s : State) (x : Grid) (index ordinal amount : Nat) : Word64 × Grid :=
  if x.foreign then (if Config.freeChoice s.free 10 % 2 = 1 then BitVec.allOnes 64 else (Config.freeValue 32 s.free 7).setWidth 64, x)
  else let r := x.grow index ordinal amount; (r.1, r.2.completes index (ordinal + 1))

/-- What the result of a `gridgrow` does to a side: it is written, and the side stands behind the instruction, which closes its region (R171,
R317). -/
def Group.gridgrown (old : Word64) (e : Entry) (g : Group) : Group :=
  let g := { g with gridgrows := e.imm + 1 }
  let g := if e.quad then g else g.writeS e.dest old
  { g with lat := wr g.lat e.mod.toNat (Vector.replicate 32 (some old)), pc := (g.pc + 16) % 2 ^ 52, issued := g.issued + 1 }.enterRegion

/-- The result of the `gridgrow` at the pc of the issuing group comes, to its shadow by the load-value queue, and the run goes on behind it
(R171, R334). -/
def State.gridgrowDone (e : Entry) (old : Word64) (s : State) : State :=
  let last : Bool := match s.g.ibuf with | .word x :: _ => (Fields.unpack x).e | _ => false
  let g := Group.deliver { e with lanes := [] } (Group.gridgrown old) { s.g with entries := s.g.entries.filter (fun x => x.id ≠ e.id) }
  let g := { g with stall := .none, ibuf := g.ibuf.drop 1 }
  if last then State.boundary { s with g := g.completeRun } else { s with g := g }

/-- R172: the dispatcher applies a `gridgrow` once, a shadowed group's once both sides have made it (R335), and returns the old count; the run goes
on. -/
def execGridgrowResult (ctx : Nat) (s : State) : Result :=
  .next (match (s.group ctx).entries.find? (fun e => e.kind = .gridgrow), s.gridOf (s.group ctx).id.launch with
    | some e, some x =>
      if (s.group ctx).stall ≠ .uniform e.id ∨ (s.group ctx).overdue s.time ∨ (s.group ctx).compares e then s
      else
        let r := s.growth x (s.group ctx).id.index e.imm e.tag.toNat
        let s := { s with grids := modifyFirst (fun y => y.launch = x.launch) (fun _ => r.2) s.grids }
        s.onCtx ctx (State.gridgrowDone e r.1)
    | _, _ => s)

/-- An arrival of the group waits for other members of its team, of which one has not ended (R268). -/
def State.arrivalWaits (s : State) (g : Group) : Bool :=
  (s.teamOf g).arrivals.flatten.any (fun a => a.ctx = g.id.ctx)
    && s.groups.any (fun h => h.id.launch = g.id.launch && h.id.team = g.id.team && h.status ≠ .ended && h.id.ctx ≠ 2 ^ 24)

/-- R166, R331: an ended group's slot and registers return once its in-flight record is empty and no arrival of it waits, and its tags are purged.
With it the last group of a team, or of a cluster, that is not saved may have left. -/
def execSlotRelease (ctx : Nat) (s : State) : Result :=
  .next (let g := s.group ctx
    if g.status = .ended && g.id.ctx ≠ 2 ^ 24 && g.entries.isEmpty && g.unsent.isEmpty && !s.arrivalWaits g then
      let s := (s.purgeTags ctx).dropGroups (fun h => h.id.ctx = ctx)
      if g.id.monitor then s else (s.saveTeamOf g.id.launch g.id.cluster g.id.team).settleCluster g.id.launch g.id.cluster
    else s)

/-- R144: a team whose groups have all left and whose matrix and engine work is done ends; with its last team the cluster ends. -/
def execTeamEnd (launch team : Nat) (s : State) : Result :=
  .next (match s.teams.find? (fun t => t.launch = launch && t.team = team) with
    | none => s
    | some t =>
      if s.groups.any (fun g => t.isOf g && g.id.ctx ≠ 2 ^ 24) || s.ops.any (fun o => o.launch = launch && o.team = team) then s
      else
        let teams := s.teams.filter (fun u => !(u.launch = launch && u.team = team))
        let s := { s with teams := teams }
        if teams.any (fun u => u.launch = launch && u.cluster = t.cluster) then s
        else
          let done (c : Cluster) : Cluster := { c with state := .ended, mem := [], candidate := false }
          { s with clusters := modifyFirst (fun c => c.launch = launch && c.cluster = t.cluster) done s.clusters })

/-- Every cluster of a grid of this module has ended or was killed for good (R144). -/
def State.gridEnded (s : State) (x : Grid) : Bool :=
  !x.foreign && x.groups ≤ x.placed * x.shape.unit
    && (s.clusters.filter (fun c => c.launch = x.launch)).all (fun c => c.state = .ended || c.state = .killed)

/-- The status of a completed grid (R185). -/
def Grid.status (x : Grid) : Nat := if !x.lost.isEmpty then 3 else if x.faulted ≠ 0 then 2 else 0

/-- Lines of host memory that a slice or a home may hold dirty. -/
def State.hostDirty (s : State) : List Nat :=
  ((s.dirs.filter (fun d => d.line / 2 ^ 45 = 2 && (d.st = .E || d.st = .M || d.st = .O))).map (·.line)
    ++ (s.homeLines.filter (fun h => h.line / 2 ^ 45 = 2 && h.dirty)).map (·.line)).eraseDups

/-- Data bound for host memory go to the host (R185): the flag says that it has accepted them all (log 100). -/
def State.drainHost (s : State) : State × Bool :=
  s.hostDirty.foldl (fun r l => let x := State.recallLine l r.1; (x.1, r.2 && x.2)) (s, true)

/-- R185: once every write of the grid is performed at package scope, and those bound for host memory have reached it, the completion record
is written and its event requested; the retained record is released. -/
def execGridCompletion (launch : Nat) (s : State) : Result :=
  .next (match s.gridOf launch with
    | none => s
    | some x =>
      if !s.gridEnded x then s
      else
        let r := s.cores.foldl (fun r c =>
          let w := State.writeBackAll c.1 (fun _ => true) r.1
          (w.1, r.2 && w.2)) (s, true)
        let h := r.1.drainHost
        if !r.2 then r.1
        else if !h.2 then h.1
        else
          let s := { h.1 with grids := h.1.grids.filter (fun y => y.launch ≠ launch)
                              clusters := h.1.clusters.filter (fun c => c.launch ≠ launch) }
          s.writeCompletion x.part x.queue launch (recordBits x.record 0x38 0 64) x.status (x.flag 54)
            (completionRecord x.status 0 launch x.groups x.faulted x.lost x.relaunched))

/-! Kills, relaunches and shadows. -/

/-- The fault that a group met at handler depth 2, which the event does not name: its cause and the rest of its record are open (log 30). -/
def State.depthFault (s : State) (g : Group) : FaultRec :=
  g.stamp { cause := 22, lane := (Config.freeValue 8 s.free 20).toNat, mask := Config.freeValue 32 s.free 21, pc := g.pc
            kind := Config.freeChoice s.free 22 % 5, pos := (Config.freeValue 8 s.free 23).toNat, addr := Config.freeValue 64 s.free 24
            extra := BitVec.ofNat 64 (1 + Config.freeChoice s.free 4 % 22), ptr := Config.freeValue 128 s.free 25 }

/-- R337: a cluster is killed for one of the reasons. Reason 5 needs an operation of the cluster, whose batch number it records (R273), reason
6 a shadowed cluster, and reason 7 a group at handler depth 2. -/
def execClusterKill (launch cluster reason : Nat) (s : State) : Result :=
  .next (let c := s.clusterAt launch cluster
    let mine := s.groups.filter (fun g => g.inCluster launch cluster)
    let plain (s : State) (cause extra : Nat) : State := s.killCluster launch cluster reason (fun g => some (g.killRec cause extra))
    if reason = 0 ∨ 10 < reason ∨ !(c.state = .resident ∨ c.state = .saved) then s
    else match reason with
      | 5 =>
        (match s.ops.find? (fun o => o.launch = launch && mine.any (fun g => g.id.team = o.team)) with
         | some o => s.killMatrix o
         | none => s)
      | 6 => if mine.any (fun g => g.id.shadowed && g.status = .resident) then plain s 20 (1 + Config.freeChoice s.free 4 % 2) else s
      | 7 =>
        (match mine.find? (fun g => g.depth = 2 && g.status = .resident) with
         | some h =>
           let met := s.depthFault h
           s.killCluster launch cluster 7 (fun g => some (if g.id.ctx = h.id.ctx then met else g.killRec 22 met.extra.toNat))
         | none => s)
      | _ => s.killCluster launch cluster reason (fun _ => none))

/-- A silent error changes bits of a register of one side. -/
def SideRegs.struck (e : SilentError) (r : SideRegs) : SideRegs :=
  match e.file with
  | .v => { r with v := wr r.v e.num (wr (rd (VReg.splat 0) r.v e.num) e.lane (rd 0 (rd (VReg.splat 0) r.v e.num) e.lane ^^^ e.bits.setWidth 32)) }
  | .s => { r with s := wr r.s e.num (rd 0 r.s e.num ^^^ e.bits.setWidth 64) }
  | .k => { r with k := wr r.k e.num (rd 0 r.k e.num ^^^ e.bits.setWidth 32) }
  | .p => { r with p := wr r.p e.num (rd 0 r.p e.num ^^^ e.bits) }

/-- A silent error of a shadowed group, of its leader or of its shadow (R334). -/
def Group.struck (e : SilentError) (g : Group) : Group :=
  match g.shadow with
  | none => g
  | some x =>
    if e.shadow then { g with shadow := some { x with now := some ((x.now.getD g.side).struck e) } } else g.withSide (g.side.struck e)

/-- The decider of a disagreement (R336): it starts at the entry of the shadow's region, with the shadow's registers and the kept queue values. -/
def Shadow.decider_ (x : Shadow) (c : Compared) : Decider :=
  { regs := { c.shadow with pc := c.start.pc, regionPc := c.start.pc, regionCount := c.start.count, seqD := c.start.seqD
                            gridgrows := c.start.gridgrows, issued := 0, lat := Vector.replicate 4 (Vector.replicate 32 none) }
    skip := c.start.ops, queue := x.queue.filter (fun q => q.taken && q.region = c.start.count) }

/-- R334, R336: a silent error strikes a side; or, where the oldest operations of the compare buffer differ and the leader's run is over or stalls,
the decider starts, which settles it or kills the cluster: at once where the region overflowed or began before the last restore. -/
def execShadowMismatch (ctx : Nat) (err : Option SilentError) (s : State) : Result :=
  .next (s.onCtx ctx (fun s =>
    match err, s.g.shadow with
    | some e, _ => if s.g.status = .resident then { s with g := s.g.struck e } else s
    | none, none => s
    | none, some x =>
      match x.compare with
      | [] => s
      | c :: _ =>
        if !x.stopped ∨ x.decider.isSome ∨ s.g.status ≠ .resident ∨ (s.g.running ∧ s.g.stall = .none) then s
        else match x.unsettled false s.free with
          | some extra => s.killRecorded 6 20 extra
          | none => { s with g := { s.g with shadow := some { x with decider := some (x.decider_ c) } } }))

/-- R338, R406: the host orders a cluster of an idempotent launch that was killed in host-assisted mode relaunched, at most twice. -/
def execRelaunchOrder (launch cluster : Nat) (s : State) : Result :=
  .next (let c := s.clusterAt launch cluster
    match s.gridOf launch with
    | none => s
    | some x =>
      if !c.assisted ∨ !x.flag 53 ∨ c.state ≠ .killed ∨ 2 ≤ c.relaunches then s
      else
        let again (k : Cluster) : Cluster := { k with state := .pending, candidate := true, relaunches := k.relaunches + 1 }
        let grid (y : Grid) : Grid := { y with relaunched := y.relaunched + 1, lost := y.lost.filter (· ≠ cluster) }
        let s := { s with clusters := modifyFirst (fun k => k.launch = launch && k.cluster = cluster) again s.clusters
                          grids := modifyFirst (fun y => y.launch = launch) grid s.grids }
        s.event { kind := 4, part := c.part, queue := x.queue, launch := launch, info := BitVec.ofNat 64 cluster })

end Sys2Proof.Machine
end

