-- ==== Sys2Proof/Machine/Directory.lean ====
section
/-! DEFINITION. The name directory (spec 20 R371 to R375): words of regs stores and their outcomes, name questions (R380),
what another module's directory sends (R375), and migration (R375, 24 R402); a request from the fabric (R359). -/
namespace Sys2Proof.Machine
open Sys2Proof

/-! Names. -/

/-- Where a name is found: at this module's own directory, or in the guest table (R371). -/
inductive NameAt where
  | own
  | guest (package : Nat)
  deriving DecidableEq, Repr

/-- The entry of a slot and generation that is in use: this module's own name first, then a guest's. A forwarded word carries no
package in this model (log 34). -/
def State.findName (s : State) (slot gen : Nat) : Option (NameAt × Peg) :=
  match s.pegs.find? (fun p => p.slot = slot && p.gen = gen && p.st ≠ 0) with
  | some p => some (.own, p)
  | none => (s.guests.find? (fun x => x.peg.slot = slot && x.peg.gen = gen)).map (fun x => (.guest x.package, x.peg))

/-- Replace the entry of a name. -/
def State.putName (at_ : NameAt) (p : Peg) (s : State) : State :=
  match at_ with
  | .own => s.setPeg p
  | .guest k =>
    let put (x : Guest) : Guest := { x with peg := p }
    { s with guests := modifyFirst (fun x => x.package = k && x.peg.slot = p.slot) put s.guests }

/-- Step 4 of R375 at the old package, once the destination has admitted the name: parked words leave in order, the entry becomes
forwarded, or a guest's entry is freed; the group is here no longer, and with the last group of its cluster the teams are not
either, and the cluster's number and place are free. The cluster does not end here (log 37). -/
def State.settleMove (at_ : NameAt) (p : Peg) (s : State) : State :=
  let g := s.group p.ctx
  let s := { s with out := (p.parked.map (fun w => Out.regsForward (s.route p.fwd 1) p.fwd w)).reverse ++ s.out }
  let s := match at_ with
    | .own => s.setPeg { slot := p.slot, gen := p.gen, st := 4, fwd := p.fwd }
    | .guest k => { s with guests := s.guests.filter (fun x => !(x.package = k && x.peg.slot = p.slot)) }
  let s := (s.purgeTags p.ctx).dropGroups (fun h => h.id.ctx = p.ctx)
  if s.groups.any (fun h => h.inCluster g.id.launch g.id.cluster) then s
  else
    let away (c : Cluster) : Cluster := { c with unplaced := true, candidate := false }
    { s with teams := s.teams.filter (fun t => !(t.launch = g.id.launch && t.cluster = g.id.cluster))
             clusters := modifyFirst (fun c => c.launch = g.id.launch && c.cluster = g.id.cluster) away s.clusters }

/-- A moving name is settled at a moment that the destination decides: a free choice (R375, log 37). -/
def State.settled (slot gen : Nat) (s : State) : State :=
  match s.findName slot gen with
  | some (at_, p) => if p.st = 3 && Config.freeChoice s.free 5 % 2 = 1 then s.settleMove at_ p else s
  | none => s

/-! Words (R372 to R374). -/

/-- What a directory does with a word. -/
inductive WordResult where
  | delivered | deadName | deadRegister | forwarded | retry | later
  deriving DecidableEq, Repr

/-- The code kept for a tag, lane and ordinal (R330). -/
def WordResult.code : WordResult → BitVec 128
  | .deadName => 1 | .deadRegister => 2 | .forwarded => 3 | _ => 0

/-- A word lands in a resident group, in both register files of a shadowed one, between two of its runs; a pause ends (R167, R335, R372). -/
def State.landWord (ctx : Nat) (w : RegsWord) (s : State) : State :=
  s.onCtx ctx (fun s =>
    let s := { s with g := s.g.mirror (Group.applyWord w) }
    match s.g.pending with
    | .pause _ => { s with g := { s.g with pending := .none } }.yields
    | _ => s)

/-- A word in the image of a shadow: the register and its written bit (R335, R372). -/
def Shadow.storeWord (w : RegsWord) (x : Shadow) : Shadow :=
  if x.image.isEmpty then x
  else
    let at_ := 0xA0 + w.reg / 8
    { x with image := memPut (memWrite x.image (0x4000 + 128 * w.reg + 4 * w.rlane) (leBytes 4 w.value.toNat)) at_
                        (memGet x.image at_ ||| BitVec.ofNat 8 (2 ^ (w.reg % 8))) }

/-- A word written into a saved group's image, and into its shadow's: the register, its written bit, and the arm hold (R335, R372); a pause ends
(R167). An unreachable image kills the cluster (R321). -/
def State.storeWord (ctx : Nat) (w : RegsWord) (s : State) : State :=
  let g := s.group ctx
  let written := leNat (s.imageRead g (0xA0 + w.reg / 8) 1) ||| 2 ^ (w.reg % 8)
  let hold := leNat (s.imageRead g (0x780 + w.reg) 1)
  let hold' := if hold.testBit 6 then holdLowered hold else hold
  let s := s.modGroup ctx (fun h => { h.wake with shadow := h.shadow.map (Shadow.storeWord w) })
  let r := State.imageWrites g [(0x39, leBytes 1 (leNat (s.imageRead g 0x39 1) % 4)),
                                (0x4000 + 128 * w.reg + 4 * w.rlane, leBytes 4 w.value.toNat), (0xA0 + w.reg / 8, leBytes 1 written),
                                (0x780 + w.reg, leBytes 1 hold')] s
  if r.2 then r.1 else r.1.killCtx ctx 10

/-- A word at its name, by the state of the entry (R372). -/
def State.wordAt (w : RegsWord) (s : State) : State × WordResult :=
  match s.findName w.slot w.gen with
  | none => (s, .deadName)
  | some (at_, p) =>
    let g := s.group p.ctx
    let park : State × WordResult :=
      if 4095 ≤ p.parked.length then (s, .retry) else (s.putName at_ { p with parked := p.parked ++ [w] }, .delivered)
    if p.st = 4 then ({ s with out := .regsForward (s.route p.fwd 1) p.fwd w :: s.out }, .forwarded)
    else if g.alloc ≤ w.reg then (s, .deadRegister)
    else if p.st = 3 ∨ p.rst then park
    else if p.st = 1 then (if g.running then (s, .later) else (s.landWord p.ctx w, .delivered))
    else (s.storeWord p.ctx w, .delivered)

/-- The directory's table of tags on a slot's die (R371). -/
def nameTable (slot : Nat) : Nat × Nat × Nat := (1, slot % 9, 16384)

/-- What was kept for a word. -/
def State.keptWord (s : State) (tag : BitVec 64) (lane ord : Nat) : Option Suppress :=
  s.suppress.find? (fun x => x.table = 1 && x.tag = tag && x.lane = lane && x.ord = ord)

/-- A word is performed at most once (R330): a repeated one is answered as it was. -/
def State.deliverWord (w : RegsWord) (s : State) : State × WordResult :=
  match s.keptWord w.tag w.lane w.ord with
  | some x => (s, if x.old = 1 then .deadName else if x.old = 2 then .deadRegister else if x.old = 3 then .forwarded else .delivered)
  | none =>
    if s.tableFull (nameTable w.slot) then (s, .retry)
    else
      let r := (s.settled w.slot w.gen).wordAt w
      match r.2 with
      | .retry | .later => r
      | k => (r.1.keep (some (nameTable w.slot)) w.tag w.lane w.ord k.code, k)

/-- The words of a regs store entry, lane by lane (R226). -/
def Entry.words (e : Entry) : List RegsWord :=
  (e.lanes.map (fun a => (List.range (e.elems a)).map (fun j =>
    let i := (a.elem j).toNat
    ({ tag := e.tag, lane := a.lane, ord := j, slot := Ptr.base a.ptr / 2 ^ 32, gen := Ptr.base a.ptr / 2 ^ 16 % 2 ^ 16, reg := i / 32, rlane := i % 32
       value := (a.data.getD j 0).setWidth 32 } : RegsWord)))).flatten

/-- The word of a group of this module that has been sent: its own store's word, after every earlier word of the store to the same name, lane
by lane (R223, R226, R373). -/
def State.ownWord (s : State) (w : RegsWord) : Option RegsWord :=
  (s.groups.filter (fun g => g.status ≠ .saved)).findSome? (fun g =>
    (g.entries.find? (fun e => e.kind = .regsStore && e.tag = w.tag && !e.done && e.sentAt.isSome && e.anchor = s.package)).bind (fun e =>
      (e.words.find? (fun x => x.lane = w.lane && x.ord = w.ord)).filter (fun x =>
        (e.words.takeWhile (fun y => !(y.lane = x.lane && y.ord = x.ord))).all (fun y =>
          !(y.slot = x.slot && y.gen = x.gen) || (s.keptWord y.tag y.lane y.ord).isSome))))

/-- R372: a word reaches the directory of its name; a sender at another module is answered. -/
def execRegsWordDelivery (word : RegsWord) (s : State) : Result :=
  .next (if tagPackage word.tag = s.package % 2 ^ 18 then
      match s.ownWord word with
      | some w => (s.deliverWord w).1
      | none => s
    else
      let r := s.deliverWord word
      let status := match r.2 with
        | .deadName | .deadRegister => 14
        | .retry => 256
        | _ => 0
      match r.2 with
      | .later | .forwarded => r.1
      | _ =>
        let p := tagPackage word.tag
        let extra := word.slot % 2 ^ 20 * 2 ^ 16 + word.gen % 2 ^ 16 + (if r.2 = .deadRegister then 2 ^ 36 else 0)
        { r.1 with out := .answer (r.1.route p 2) p word.tag status (if status = 14 then [BitVec.ofNat 128 extra] else []) :: r.1.out })

/-- The record of a word with a dead name: its lane and element, and the slot and generation that it names (R35, R36, R372). -/
def Entry.deadWord (e : Entry) (w : RegsWord) (register : Bool) : FaultRec :=
  let extra := w.gen % 2 ^ 16 + w.slot % 2 ^ 20 * 2 ^ 16 + (if register then 2 ^ 36 else 0)
  let f := { e with lanes := e.lanes.filter (fun a => a.lane = w.lane), failElem := w.ord }.failure 14 (BitVec.ofNat 64 extra)
  { f with lane := if e.g then e.lane0 else w.lane }

/-- A dead-name status at a sender, for the first of its words with that name: cause 14 under DNT, else the word was dropped (R372). -/
def State.deadName (ctx : Nat) (e : Entry) (slot gen : Nat) (register : Bool) (s : State) : State :=
  match e.words.find? (fun w => w.slot = slot && w.gen = gen) with
  | none => s
  | some w => if fmtDNT e.fmt then s.failPartAs ctx e (e.deadWord w register) else s.complete ctx e.id

/-- Every word of an own-package part has been answered: the outcome, that of the first word with a dead name if there is one; a forwarded word
takes it from the new package. -/
def State.ownOutcome (s : State) (e : Entry) (told : RegsOutcome) : Option RegsOutcome :=
  let kept := e.words.map (fun w => (w, (s.keptWord w.tag w.lane w.ord).map (·.old)))
  if !kept.all (fun x => x.2.isSome) then none
  else match kept.find? (fun x => x.2 = some 1 || x.2 = some 2) with
    | some (w, o) => some (.deadName w.slot w.gen (o = some 2))
    | none => if kept.any (fun x => x.2 = some 3) then some told else some .delivered

/-- The answer to a question about a name of this module, `asked` the package that was asked (R380). -/
def State.nameAnswer (s : State) (slot gen asked : Nat) : BitVec 64 :=
  let own := s.peg slot
  let live : Bool := own.st ≠ 0 && own.gen = gen
  let st := if live then own.st else 0
  let package := if st = 3 || st = 4 then own.fwd else asked
  BitVec.ofNat 64 (st + package % 2 ^ 18 * 2 ^ 3 + own.gen * 2 ^ 21)

/-- The outcome of a regs store part at its sender. -/
def State.storeOutcome (ctx : Nat) (e : Entry) (o : RegsOutcome) (s : State) : State :=
  match o with
  | .delivered => s.complete ctx e.id
  | .deadName slot gen register => s.deadName ctx e slot gen register
  | .retry => s.putEntry ctx { e with sentAt := none, everSent := true, retryAt := some (s.time + retryDelay) }
  | .lost => s.failEntry ctx e 18 (BitVec.ofNat 64 e.anchor)
  | .info _ => s

/-- R372, R380: a sender receives the outcome of its words, or the answer to its question. A frozen entry's is discarded (R328). -/
def execRegsAck (ctx id : Nat) (outcome : RegsOutcome) (s : State) : Result :=
  .next (match s.entry ctx id with
    | none => s
    | some e =>
      if e.done ∨ e.sentAt.isNone ∨ (s.group ctx).status = .saved then s
      else match e.kind with
        | .regsStore =>
          if e.anchor = s.package then
            (match s.ownOutcome e outcome with
             | some o => s.storeOutcome ctx e o
             | none => s)
          else s.storeOutcome ctx e outcome
        | .nameInfo =>
          let p := ((e.lanes.head?).map (fun (a : LaneAcc) => a.ptr)).getD 0
          let slot := Ptr.base p / 2 ^ 32
          let gen := Ptr.base p / 2 ^ 16 % 2 ^ 16
          let s := if e.anchor = s.package then s.settled slot gen else s
          let mine := s.nameAnswer slot gen e.anchor
          let answer (x : BitVec 64) : State :=
            let e := { e with lanes := e.lanes.map (fun (a : LaneAcc) => { a with got := [x.setWidth 128] }) }
            let put (g : Group) : Group := if g.status = .resident then g.deliver e (fun e => e.writeUniform e.dest x) else g
            ((s.modGroup ctx put).complete ctx e.id).resumeRun ctx e.id
          (match outcome with
           | .lost => if e.anchor = s.package then answer mine else s.failEntry ctx e 18 (BitVec.ofNat 64 e.anchor)
           | .info x => answer (if e.anchor = s.package then mine else x)
           | _ => if e.anchor = s.package then answer mine else s)
        | _ => s)

/-! What other modules send (R359, R375, R380). -/

/-- A name of this module ended where it had migrated: its slot is free and its generation rises (R370, R375). -/
def State.nameEnds (slot gen : Nat) (s : State) : State :=
  { s with pegs := modifyFirst (fun p => p.slot = slot && p.gen = gen && p.st ≠ 0) (fun p => { slot := slot, gen := (gen + 1) % 65536 }) s.pegs }

/-- A name of this module migrates on from where it is: its entry gets the new FWD (R375). -/
def State.nameMoves (slot gen fwd : Nat) (s : State) : State :=
  { s with pegs := modifyFirst (fun p => p.slot = slot && p.gen = gen && (p.st = 3 || p.st = 4)) (fun p => { p with fwd := fwd }) s.pegs }

/-- R359, R375, R380: what comes from another module: a memory request; a question about a name; the end of a name that is here only as
forwarded; the new FWD of one. The lane of the last three names the slot and generation as a regs pointer's base does. -/
def execPeerRequest (req : PeerReq) (s : State) : Result :=
  let l := req.lanes.headD { lane := 0, va := 0, size := 0, data := 0, data2 := 0 }
  let slot := l.va / 2 ^ 32 % 2 ^ 20
  let gen := l.va / 2 ^ 16 % 2 ^ 16
  .next (match req.kind with
    | 4 => let s := s.settled slot gen; s.answer req 0 [(s.nameAnswer slot gen s.package).setWidth 128]
    | 5 => s.nameEnds slot gen
    | 6 => s.nameMoves slot gen (l.data.toNat % 2 ^ 18)
    | _ => s.peerRequest req)

/-! Migration (R375, R402). -/

/-- The migration command register after a command: GO clear, ERR set. -/
def State.endCommand (command : BitVec 64) (err : Nat) (s : State) : State :=
  s.setReg 0x1020 (BitVec.ofNat 64 (bitsAt 0 48 command.toNat + err * 2 ^ 57))

/-- The entry of a name here: its own, or a guest's. -/
def State.nameEntry (s : State) (package slot gen : Nat) : Option (NameAt × Peg) :=
  if package = s.package then (s.pegs.find? (fun p => p.slot = slot && p.gen = gen && p.st ≠ 0)).map (fun p => (.own, p))
  else (s.guests.find? (fun x => x.package = package && x.peg.slot = slot && x.peg.gen = gen)).map (fun x => (.guest package, x.peg))

/-- MIGRATE: the error code, or the name's entry and its new state. A group of a cluster that is not saved whole is not saved here for a
migration (log 37). -/
def State.migrateName (s : State) : Except Nat (NameAt × Peg) :=
  let slot := s.regField 0x1010 0 20
  let gen := s.regField 0x1010 20 16
  let package := s.regField 0x1010 36 18
  match s.nameEntry package slot gen with
  | none => .error 1
  | some (at_, p) =>
    let g := s.group p.ctx
    if p.st = 4 then .error 5
    else if p.st ≠ 2 ∨ p.rst then .error 2
    else if g.saving ∨ (s.clusterAt g.id.launch g.id.cluster).state ≠ .saved then .error 5
    else if g.recordEntries.any (fun e => e.cls ≠ .i) then .error 3
    else .ok (at_, p)

/-- R375 step 1: a saved name becomes moving; its cluster is no candidate here from then on. -/
def State.migrate (command : BitVec 64) (s : State) : State :=
  let dest := bitsAt 2 18 command.toNat
  match s.migrateName with
  | .error e => s.endCommand command e
  | .ok (at_, p) =>
    let g := s.group p.ctx
    let s := s.putName at_ { p with st := 3, fwd := dest }
    let s := match at_ with
      | .own => s
      | .guest k => { s with out := .nameForward (s.route k 1) k p.slot dest :: s.out }
    let stay (c : Cluster) : Cluster := { c with candidate := false }
    { s with clusters := modifyFirst (fun c => c.launch = g.id.launch && c.cluster = g.id.cluster) stay s.clusters }.endCommand command 0

/-- A command register write with GO. -/
def migrationGo (command : BitVec 64) (op : Nat) : Bool := command.getLsbD 63 && bitsAt 0 2 command.toNat = op

/-- R375, R402. -/
def execMigrate (command : BitVec 64) (s : State) : Result :=
  .next (if s.ready && migrationGo command 1 then s.migrate command else s)

/-- The grid that an admitted context belongs to: one of this module, or one known only by the record of another module. -/
def State.admitGrid (s : State) (package launch part : Nat) : Grid :=
  let number := if package = s.package then launch else 2 ^ 64 * (package + 1) + launch
  match s.gridOf number with
  | some x => x
  | none =>
    let r := Config.foreignRecord package launch
    { launch := number, queue := 0xFFFFFFFF, part := part, system := r.getLsbD 2048, record := leBytes 256 r.toNat, groups := 0, foreign := true }

/-- A team's pending arrivals for one member, from its image (R324). -/
def State.teamArrivals (s : State) (part image ctx member r : Nat) : List Arrival :=
  ((List.range 4).filterMap (fun a =>
    let x := leNat (s.teamRead part image (0x10 + 16 * (4 * member + a)) 16)
    if x.testBit 42 then some (Arrival.ofWord ctx (32 + a) r (decide (member = 0)) x) else none))

/-- The members of a roster byte. -/
def rosterSize (x : Nat) : Nat := ((List.range 8).filter (fun i => x.testBit i)).length

/-- The admitted group, its team and its cluster, from the images that the host wrote here (R375 steps 2 and 3). The image's context
number becomes the one that ADMIT names (log 35). How long a pause that the group was saved in still lasts its image does not say: here it runs out
at once (log 114). An image that cannot be written kills the cluster (R321). -/
def State.admitGroup (package slot gen part ctx image : Nat) (last : Bool) (s : State) : State :=
  let blank : Group := { id := { ctx := ctx, part := part }, status := .saved }
  let rd_ (off n : Nat) : Nat := leNat (s.imageRead blank off n)
  let x := s.admitGrid package (rd_ 0x30 8) part
  let p := x.shape
  let index := rd_ 0x2C 4
  let id : Ident := { (x.ident (index / p.unit) (index % p.unit) ctx) with part := part }
  let roster := leNat (s.teamRead part image 0 1)
  let arrivals := s.teamArrivals part image ctx id.member (rosterSize roster)
  let flags := rd_ 0x39 1
  let g : Group := { id := id, status := .saved, level := rd_ 0x38 1 % 8, rolledBack := flags.testBit 1
                     pending := if flags.testBit 2 then .pause s.time else .none
                     place := { die := rd_ 0x3C 1 % 16, site := rd_ 0x3A 2 % 128, quarter := rd_ 0x3A 2 / 128 % 4, slot := rd_ 0x3A 2 / 512 % 16 }
                     nameSlot := slot, nameGen := gen, namePackage := package }
  let g := { s.admitImage (s.loadImage g) arrivals with gridgrows := ((x.counts.find? (fun k => k.1 = index)).map (·.2)).getD 0 }
  let mine (t : Team) : Bool := t.launch = id.launch && t.team = id.team
  let fresh : Team := { launch := id.launch, team := id.team, cluster := id.cluster, core := g.core, part := part, size := id.teamSize, image := image
                        alloc := s.nextAlloc + 1, accAlloc := s.nextAlloc + 3, resident := false, barriers := List.replicate id.barriers {}, arrivals := List.replicate 8 [] }
  let t := (s.teams.find? mine).getD fresh
  let t := { t with part := part, image := image, arrivals := t.arrivals.set id.member arrivals }
  let cl := (s.clusters.find? (fun c => c.launch = id.launch && c.cluster = id.cluster)).getD
    { launch := id.launch, cluster := id.cluster, alloc := s.nextAlloc }
  let cl := { cl with part := part, state := .saved, unplaced := true, candidate := last }
  let w := s.imageWrite g 0x28 (leBytes 4 ctx)
  let s := w.1
  let s : State := { s with
    gs := s.gs ++ [g], teams := putFirst mine t s.teams, grids := putFirst (fun y => y.launch = x.launch) x s.grids
    clusters := putFirst (fun c => c.launch = id.launch && c.cluster = id.cluster) cl s.clusters, nextAlloc := s.nextAlloc + 4 }
  if w.2 then s else s.killCluster id.launch id.cluster 10 (fun _ => none)

/-- ADMIT's error code; zero when it is done (R402). -/
def State.admitError (s : State) (package slot gen part ctx : Nat) : Nat :=
  let blank : Group := { id := { ctx := ctx, part := part }, status := .saved }
  let rd_ (off n : Nat) : Nat := leNat (s.imageRead blank off n)
  let entry := s.nameEntry package slot gen
  if slot = 0 ∨ rd_ 0x80 4 % 2 ^ 20 ≠ slot ∨ rd_ 0x80 8 / 2 ^ 20 % 2 ^ 16 ≠ gen then 1
  else if package = s.package ∧ entry.isNone then 1
  else if entry.any (fun x => x.2.st ≠ 4) then 2
  else if s.has ctx ∨ rd_ 0 4 ≠ 1 ∨ rd_ 4 1 ≠ 2 then 5
  else if package ≠ s.package ∧ 4096 ≤ s.guests.length then 4
  else 0

/-- A name that is admitted where it is still moving away has been admitted at every module between: its old group leaves, and the words that it
parked are kept (R375). -/
def State.comesBack (package slot gen : Nat) (s : State) : State × List RegsWord :=
  match s.nameEntry package slot gen with
  | some (at_, p) => if p.st = 3 then (s.settleMove at_ { p with parked := [] }, p.parked) else (s, [])
  | none => (s, [])

/-- R375 step 3: a guest entry, or the name's own entry when it comes home, in state saved; words that it had parked here are written into its
image before any later one (R373). A refused command changes nothing. -/
def State.runAdmit (command : BitVec 64) (s : State) : State :=
  let slot := s.regField 0x1010 0 20
  let gen := s.regField 0x1010 20 16
  let package := s.regField 0x1010 36 18
  let ctx := bitsAt 20 24 command.toNat
  let part := bitsAt 44 4 command.toNat
  let t := s.comesBack package slot gen
  match t.1.admitError package slot gen part ctx with
  | 0 =>
    let p : Peg := { slot := slot, gen := gen, st := 2, part := part, ctx := ctx }
    let s := if package = s.package then t.1.setPeg p else { t.1 with guests := t.1.guests ++ [{ package := package, peg := p }] }
    let s := s.admitGroup package slot gen part ctx (s.regField 0x1018 0 16) ((s.reg 0x1018).getLsbD 16)
    (t.2.foldl (fun s w => if s.has ctx then s.storeWord ctx w else s) s).endCommand command 0
  | e =>
    let s := if e = 4 then s.moduleError else s
    s.endCommand command e

/-- R375, R402. -/
def execAdmitName (command : BitVec 64) (s : State) : Result :=
  .next (if s.ready && migrationGo command 2 then s.runAdmit command else s)

end Sys2Proof.Machine
end

