-- ==== Sys2Proof/Machine/Errors.lean ====
section
/-! DEFINITION. Errors of the protected structures (spec 10 R213, R214, R216, 18 R339): correctable ones are corrected and
counted, uncorrectable ones poison, drop or kill. -/
namespace Sys2Proof.Machine
open Sys2Proof

/-- A correctable error of a slice: CECNT saturates; at CETHR the slice is retired, or in host-assisted mode a module-error event
is raised (R207, R406). A count that stands above a CETHR lowered later does not reach it: only equality acts (log 115). -/
def State.sliceCorrected (d n : Nat) (s : State) : State :=
  let x := s.slice d n
  let y := { x with cecnt := Nat.min 65535 (x.cecnt + 1) }
  let s := s.setSlice y
  if y.cecnt = y.cethr && x.cecnt ≠ y.cecnt then (if s.hostMode 6 then s.moduleError else s.requestRetire d n) else s

/-- The slice of a die that a line's data lie in: a peer line is numbered as R206 says. -/
def State.dataSlice (s : State) (die : Nat) (peer : Option (Nat × Nat)) (line : Nat) : Nat × Nat :=
  s.copySlice die (match peer with | some x => peerNumber x.1 line | none => line)

/-- R213: the correctable column. Of the structures, cores and slices have a counter that a register shows; parity corrects
nothing. -/
def execCorrectableError (err : ErrorSite) (s : State) : Result :=
  .next (match err with
    | .vectorFile core _ | .scratch core _ _ | .l1Data core _ _ _ | .l1Tags core _ =>
      if s.siteEnabled core then s.corrected core else s
    | .l2Data die peer line => if die < Config.dies then s.sliceCorrected die (s.dataSlice die peer line).2 else s
    | .l2Tags die slice _ => if die < Config.dies ∧ slice < 16 then s.sliceCorrected die slice else s
    | .chip _ _ | .memory _ | .instrCache _ _ | .tlb _ _ _ | .tlb2 _ _ _ => s)

/-- The clusters with a team on a core. -/
def State.clustersOn (s : State) (c : CoreId) : List (Nat × Nat) :=
  ((s.teams.filter (fun t => t.core = c)).map (fun t => (t.launch, t.cluster))).eraseDups

/-- The dirty lines of a core's L1. -/
def State.dirtyLines (s : State) (c : CoreId) : List L1Line := (s.core c).l1.filter (fun l => l.dirty ≠ 0)

/-- A line becomes poisoned in every copy of it (R339). -/
def State.poisonLine (line : Nat) (s : State) : State :=
  { s with
    clines := s.clines.map (fun (c : CLine) => if c.line = line then { c with poison := true } else c)
    msgs := s.msgs.map (fun (m : Msg) => if m.line = line then { m with poison := true } else m)
    homeLines := s.homeLines.map (fun (h : HomeLine) => if h.line = line then { h with poison := true } else h)
    poison := if s.poison.contains line then s.poison else line :: s.poison }

/-- A dirty line that a dead core held is marked poisoned at its home (R339): here, or at the module whose line it is, by a write-back that
carries nothing but the mark; a line whose home cannot be reached is reported. -/
def State.poisonHome (s : State) (l : L1Line) : State :=
  match l.peer with
  | none => s.poisonLine l.line
  | some p =>
    if p = s.package then (match s.ownPeerLine l.stamp l.line .read with | some line => s.poisonLine line | none => s.moduleError)
    else match (if s.reachable p then s.route p 0 else none) with
      | some port => { s with out := .writeback port p l.stamp l.line l.data 0 l.colours true :: s.out }
      | none => s.moduleError

/-- A core dies: every cluster with a team on it is killed, and its dirty lines are lost: poisoned at their homes where its tags
can be read, else reported (R213, R337, R339). -/
def State.coreDies (c : CoreId) (tagsReadable : Bool) (s : State) : State :=
  let lost := s.dirtyLines c
  let s := (s.clustersOn c).foldl (fun (s : State) (x : Nat × Nat) => s.killCluster x.1 x.2 2 (fun _ => none)) s
  let s := s.dropGroups (fun g => g.core = c && g.id.monitor)
  let s := s.setCore c { s.core c with l1 := [], icache := [], tlb := [], dead := true }
  let s := { s with flip := s.flip.map (fun (f : Flip) => { f with cores := f.cores.erase c, acks := f.acks.erase c }) }
  if tagsReadable then lost.foldl State.poisonHome s
  else if lost.isEmpty then s else s.moduleError

/-- The line of an L1 that an error names: a global line by its number, a peer line by package, partition and virtual line (R204). -/
def L1Line.named (peer : Option (Nat × Nat)) (line : Nat) (l : L1Line) : Bool :=
  l.line = line && (match peer with | some x => l.peer = some x.1 && l.stamp = x.2 | none => l.peer.isNone)

/-- An uncorrectable error of a 64-bit word of L1 data: clean bytes are dropped, dirty bytes go home poisoned (R213). -/
def State.l1DataError (c : CoreId) (peer : Option (Nat × Nat)) (line word : Nat) (s : State) : State :=
  match (s.core c).l1.find? (L1Line.named peer line) with
  | none => s
  | some l =>
    if l.dirty &&& byteRange (8 * word) 8 = 0 then s.l1Set c l.dropClean
    else
      let bad := { l.dropClean with poison := true }
      let r := (s.l1Set c bad).writeBack c bad
      if r.2 then r.1.l1Set c { bad with valid := 0 } else r.1

/-- The slice holds a line modified: in its own array as home, or as a copy (R254, R257). -/
def CLine.modified (c : CLine) : Bool := c.st.owns && c.st ≠ .E

/-- What a failed slice held of a line is gone; the other slices' newest copy goes to the home, and every requester asks again
(log 41). -/
def State.rescueLine (mine : CLine → Bool) (home : Bool) (line : Nat) (s : State) : State :=
  let rest := s.clines.filter (fun c => !(c.line = line && mine c))
  let s := { s with clines := rest, homeLines := if home then s.homeLines.filter (fun h => h.line ≠ line) else s.homeLines }
  let d := s.newest line
  let s := { s with clines := s.clines.filter (fun c => c.line ≠ line), msgs := s.msgs.filter (fun m => m.line ≠ line)
                    dirs := s.dirs.filter (fun x => x.line ≠ line), snoops := s.snoops.filter (fun x => x.line ≠ line)
                    releasers := if home then s.releasers.filter (fun r => r.line ≠ line) else s.releasers }
  if d = s.homeData line then s else s.dropHome { line := line, data := d.1, dirty := true, poison := d.2 }

/-- A slice fails (R213): its buckets are dealt as in R208 step 5, without a write-back, and its dirty lines are lost: poisoned at their homes where
its tags can be read, else reported (R339). -/
def State.sliceFails (d n : Nat) (tagsReadable : Bool) (s : State) : State :=
  let isHome (line : Nat) : Bool := s.homeSlice line = (d, n)
  let mine (c : CLine) : Bool := match c.agent with
    | .home => isHome c.line
    | .copy e => s.copySlice e c.line = (d, n)
  let rescued (line : Nat) : Bool := s.clines.any (fun c => c.line = line && !mine c && c.modified)
  let lost := (s.homeLines.filter (fun h => isHome h.line && h.dirty && !rescued h.line)).map (·.line)
    ++ (s.clines.filter (fun c => mine c && c.modified)).map (·.line)
  let lines := (s.clines.filter mine).map (·.line) ++ (s.homeLines.filter (fun h => isHome h.line)).map (·.line)
    ++ (s.dirs.filter (fun x => isHome x.line)).map (·.line) ++ (s.msgs.filter (fun m => isHome m.line)).map (·.line)
    ++ (s.releasers.filter (fun r => isHome r.line)).map (·.line)
  let t := lines.eraseDups.foldl (fun (t : State) l => t.rescueLine mine (isHome l) l) s
  let t := { t with peerCopies := t.peerCopies.filter (fun x => !(x.die = d && s.copySlice d x.number = (d, n))) }
  let t := (t.dealBuckets d n).setSlice { t.slice d n with retired := true }
  let t := if tagsReadable then lost.eraseDups.foldl (fun t l => State.poisonLine l t) t else if lost.isEmpty then t else t.moduleError
  t.moduleError

/-- An uncorrectable error of L2 data: a clean line is fetched again from memory, a dirty one is poisoned; a peer line, which is clean there, is
dropped (R205, R213). -/
def State.l2DataError (die : Nat) (peer : Option (Nat × Nat)) (line : Nat) (s : State) : State :=
  let a := agentOf die line
  let hit (c : CLine) : Bool := c.line = line && c.agent = a && c.modified
  match peer with
  | some x => { s with peerCopies := s.peerCopies.filter (fun y => !y.is die x.1 x.2 line) }
  | none => { s with
    clines := s.clines.map (fun (c : CLine) => if hit c then { c with poison := true } else c)
    homeLines := if a = .home then
                   (s.homeLines.filter (fun h => h.line ≠ line || h.dirty)).map (fun (h : HomeLine) => if h.line = line then { h with poison := true } else h)
                 else s.homeLines }

/-- R213: the uncorrectable column. An error in scratchpad bytes that nothing owns is only logged. -/
def execUncorrectableError (err : ErrorSite) (s : State) : Result :=
  .next (match err with
    | .vectorFile core ctx => if (s.group ctx).core = core ∧ (s.group ctx).status = .resident then s.killCtx ctx 1 else s
    | .scratch core ctx allocated => if allocated ∧ (s.group ctx).core = core then s.killCtx ctx 1 else s
    | .chip die word =>
      if die < Config.dies ∧ word < 2 ^ 23 ∧ !s.chipPoison.contains (die * 2 ^ 23 + word) then
        { s with chipPoison := (die * 2 ^ 23 + word) :: s.chipPoison }
      else s
    | .l1Data core peer line word => s.l1DataError core peer line word
    | .l1Tags core tagsReadable => if s.siteEnabled core then s.coreDies core tagsReadable else s
    | .l2Data die peer line => s.l2DataError die peer line
    | .l2Tags die slice tagsReadable => if die < Config.dies ∧ slice < 16 ∧ !(s.slice die slice).retired then s.sliceFails die slice tagsReadable else s
    | .instrCache core line => s.setCore core { s.core core with icache := (s.core core).icache.filter (fun l => l.line ≠ line) }
    | .tlb core part va => s.setCore core { s.core core with tlb := (s.core core).tlb.filter (fun e => !e.maps part va) }
    | .tlb2 die part va => { s with tlb2 := s.tlb2.filter (fun x => !(x.1 = die && x.2.maps part va)) }
    | .memory line =>
      if (s.tierLimit (line / 2 ^ 45) ≤ line % 2 ^ 45 * 128) ∨ 2 ≤ line / 2 ^ 45 ∨ s.poison.contains line then s
      else { s with poison := line :: s.poison })

/-- R213: the scrubber reads a line of HBM or LPDDR; what it finds is an error of its own. -/
def execPatrolScrub (_line : Nat) (s : State) : Result := .next s

/-- R216: a corrected flit changes nothing; a lost payload kills the context's cluster; a lost header loses the die. -/
def execMeshFlitError (err : FlitError) (s : State) : Result :=
  .next (match err with
    | .corrected _ => s
    | .payload ctx => s.killCtx ctx 4
    | .header die => if die < Config.dies then { s with fatal := true }.moduleError else s)

end Sys2Proof.Machine
end

