-- ==== Sys2Proof/Machine/HostAttach.lean ====
section
/-! DEFINITION. The host's accesses to module memory and its snoops (spec 21 R381, R382, R385), and bias flips (R386 to R388,
23 R396). Every one needs a module that is ready (R411). A host access that must first obtain
its line is held in `State.hostReqs`, and tried again after every event (log 16). -/
namespace Sys2Proof.Machine
open Sys2Proof

/-- The line of an HDM offset (R381); none outside the window and in the range of R197. -/
def hostLine (offset : Nat) : Option Nat :=
  if offset < Config.reservedBase then some (offset / 128)
  else if Config.hbmBytes ≤ offset ∧ offset < Config.hdmBytes then some (2 ^ 45 + (offset - Config.hbmBytes) / 128)
  else none

/-- What the home sends the host (R382). -/
def State.tell (o : Out) (s : State) : State := { s with out := o :: s.out }

/-- The entries of a line's home slice in the back-invalidate filter, newest first (R385). -/
def State.biEntries (s : State) (line : Nat) : List Nat := s.biFilter.filter (fun l => s.homeSlice l = s.homeSlice line)

/-- The host caches a line of a page of host bias: the filter records it, after the oldest entry of a full one has been given
up (R385). The flag says that it is recorded. -/
def State.biRecord (line : Nat) (s : State) : State × Bool :=
  let rest := s.biFilter.filter (· ≠ line)
  if s.biFilter.contains line then ({ s with biFilter := line :: rest }, true)
  else if (s.biEntries line).length < 16384 then ({ s with biFilter := line :: rest }, true)
  else match (s.biEntries line).getLast? with
    | some old => (s.biSnoop old false, false)
    | none => (s, false)

/-- The offset that a host access names. -/
def HostReq.offset : HostReq → Nat
  | .read offset _ => offset
  | .write offset _ => offset

/-- A host read of the line at an offset (R381, R382, R385): the flag says that it is answered. A line of a page of host bias is recorded when
the host takes it exclusively, but not while the page is being flipped (R396 step 3). -/
def State.hostRead (offset : Nat) (exclusive : Bool) (s : State) : State × Bool :=
  match hostLine offset with
  | none => (s.tell (.memData offset 0), true)
  | some line =>
    if s.inHostBias line then
      let keeps := exclusive && s.flip.all (fun f => some f.page ≠ hdmPage line)
      let r := if keeps then s.biRecord line else (s, true)
      if r.2 then (r.1.tell (.memData offset (r.1.blur line (r.1.homeData line).1)), true) else r
    else if s.flushing line then (s, false)
    else
      let r := s.hostDrains line
      if !r.2 then r
      else match r.1.homeRead line with
        | (s, some d) => (s.tell (.memData offset (s.blur line d.1)), true)
        | (s, none) => (s, false)

/-- A host write within the line at an offset (R381, R382): Cmp follows its performance. Its bytes stand over synchronising stores (R251). -/
def State.hostWrite (offset : Nat) (bytes : List Byte) (s : State) : State × Bool :=
  match hostLine offset with
  | none => (s.tell (.memCmp offset), true)
  | some line =>
    let d := placeBytes (offset % 128) bytes
    let mask := byteRange (offset % 128) bytes.length
    let done (s : State) : State × Bool := ((s.notePlain (maskBytes line mask)).tell (.memCmp offset), true)
    if s.inHostBias line then done (s.biasStore line d mask false)
    else if s.flushing line then (s, false)
    else
      let r := s.hostDrains line
      if !r.2 then r
      else
        let r := r.1.homeOwn line
        if r.2 then done (r.1.homeMerge line d mask false) else r

/-- The host's accesses that wait, oldest first: those of one line are answered in order of arrival, each as soon as it can be (R382, R387).
The result lists what still waits. -/
def State.serveHost : List HostReq → List (Option Nat) → State → State × List HostReq
  | [], _, s => (s, [])
  | r :: rest, blocked, s =>
    let line := hostLine r.offset
    if blocked.contains line then
      let x := State.serveHost rest blocked s
      (x.1, r :: x.2)
    else
      let a := match r with
        | .read offset exclusive => s.hostRead offset exclusive
        | .write offset bytes => s.hostWrite offset bytes
      if a.2 then State.serveHost rest blocked a.1
      else
        let x := State.serveHost rest (line :: blocked) a.1
        (x.1, r :: x.2)

/-- The host's accesses are tried again. -/
def State.retryHost (s : State) : State :=
  if s.hostReqs.isEmpty then s
  else
    let r := State.serveHost s.hostReqs [] s
    { r.1 with hostReqs := r.2 }

/-- R381, R382, R385, R387: a host read of the line at an offset arrives. -/
def execHostMemrd (offset : Nat) (exclusive : Bool) (s : State) : Result :=
  .next (if !s.ready then s else { s with hostReqs := s.hostReqs ++ [HostReq.read offset exclusive] }.retryHost)

/-- R381, R382, R387: a host write within the line at an offset arrives. -/
def execHostMemwr (offset : Nat) (bytes : List Byte) (s : State) : Result :=
  .next (if !s.ready ∨ 128 < offset % 128 + bytes.length then s
    else { s with hostReqs := s.hostReqs ++ [HostReq.write offset bytes] }.retryHost)

/-- R381: the home slice of a tier-2 line answers a host snoop for the whole module: with its data, or after every copy of the
line is gone from the slices. -/
def execHostSnoop (line : Nat) (invalidate : Bool) (s : State) : Result :=
  .next (if !s.ready ∨ line / 2 ^ 45 ≠ 2 then s
    else if (s.dir line).holders.isEmpty && !s.homeLines.any (fun h => h.line = line) && !s.msgs.any (fun m => m.line = line) then
      s.tell (.snoopResp line none)
    else if !invalidate then
      match s.homeRead line with
      | (s, some d) => s.tell (.snoopResp line (some (s.blur line d.1)))
      | (s, none) => s
    else
      let r := s.recallLine line
      if r.2 then r.1.tell (.snoopResp line (some (r.1.blur line (r.1.homeData line).1))) else r.1)

/-! Bias flips. -/

/-- Pages of the window. -/
def hdmPages : Nat := Config.hdmBytes / 4096

/-- The lines of a page. -/
def pageLines (page : Nat) : List Nat := ((List.range 32).map (fun i => hostLine (4096 * page + 128 * i))).filterMap id

/-- The enabled cores of the module. -/
def State.enabledCores (s : State) : List CoreId :=
  (((List.range Config.dies).map (fun d => (List.range Config.sites).map (fun i => (⟨d, i⟩ : CoreId)))).flatten).filter s.siteEnabled

/-- The bias command register (R386) with its read-only fields. -/
def biasWord (page : Nat) (dir go bias err : Bool) : BitVec 64 :=
  BitVec.ofNat 64 (page + dir.toNat * 2 ^ 30 + go.toNat * 2 ^ 31 + bias.toNat * 2 ^ 32 + err.toNat * 2 ^ 33)

/-- The bit of the page being flipped flips; BIAS is set and GO clears (R387, R388). -/
def State.endFlip (f : Flip) (s : State) : State :=
  { s with flip := none
           hostPages := if f.toHost then f.page :: s.hostPages else s.hostPages.filter (· ≠ f.page) }.setReg 0x1008
    (biasWord f.page f.toHost false f.toHost false)

/-- The filter entries of a page. -/
def State.biOfPage (s : State) (page : Nat) : List Nat := s.biFilter.filter (fun l => hdmPage l = some page)

/-- A write of the bias command register (R386 to R388). -/
def State.biasCommand (v : BitVec 64) (s : State) : State :=
  let old := s.reg 0x1008
  let page := bitsAt 0 30 v.toNat
  let dir := v.getLsbD 30
  if old.getLsbD 31 then s
  else if !v.getLsbD 31 then s.setReg 0x1008 (biasWord page dir false (old.getLsbD 32) (old.getLsbD 33))
  else if hdmPages ≤ page then s.setReg 0x1008 (biasWord page dir false (old.getLsbD 32) true)
  else if s.hostPages.contains page = dir then s.setReg 0x1008 (biasWord page dir false dir false)
  else
    let s := s.setReg 0x1008 (biasWord page dir true (old.getLsbD 32) false)
    if dir then
      { s with flip := some { page := page, toHost := true, cores := s.enabledCores, acks := s.enabledCores } }
    else
      let f : Flip := { page := page, toHost := false }
      let mine := s.biOfPage page
      if s.hostMode 3 then
        { s with biFilter := s.biFilter.filter (fun l => !mine.contains l), biAsked := s.biAsked.filter (fun l => !mine.contains l)
                 biDataAsked := s.biDataAsked.filter (fun l => !mine.contains l) }.endFlip f
      else
        let s := mine.foldl (fun s l => s.biSnoop l false) { s with flip := some f }
        if mine.isEmpty then s.endFlip f else s

/-- R387. -/
def execBiasFlipToHost (command : BitVec 64) (s : State) : Result :=
  .next (if s.ready ∧ command.getLsbD 31 ∧ command.getLsbD 30 then s.biasCommand command else s)

/-- R388. -/
def execBiasFlipToDevice (command : BitVec 64) (s : State) : Result :=
  .next (if s.ready ∧ command.getLsbD 31 ∧ !command.getLsbD 30 then s.biasCommand command else s)

/-- The line of an L1 is a line of the page (R396), also where it was filled through this module's own peer space (R385, log 38). -/
def State.onPage (s : State) (page : Nat) (l : L1Line) : Bool :=
  match l.peer with
  | none => hdmPage l.line = some page
  | some p => p = s.package && (s.ownPeerLine l.stamp l.line .read).any (fun n => hdmPage n = some page)

/-- R396 step 2: the core writes its dirty bytes of the page to its die's slices and drops the clean ones; from then on its
accesses to the page go uncached to the home. -/
def execPageflush (core : CoreId) (s : State) : Result :=
  .next (match s.flip with
    | none => s
    | some f =>
      if !f.cores.contains core then s
      else
        let r := s.writeBackAll core (s.onPage f.page)
        if r.2 then { r.1.dropCleanAll core (s.onPage f.page) with flip := some { f with cores := f.cores.erase core } } else r.1)

/-- R387 step 2, R396 step 3, for one line: its records drain, its copies come back, and it is written to memory; the host accesses held for it
are answered then, before the bit flips. -/
def State.flushLine (line : Nat) (s : State) : State :=
  match s.flip with
  | none => s
  | some f =>
    if f.done.contains line then s
    else
      let r := s.hostDrains line
      if !r.2 then r.1
      else
        let x := r.1.recallLine line
        if x.2 then { x.1.dropShared line with flip := some { f with done := line :: f.done } }.retryHost else x.1

/-- The homes flush the page's lines; after the last the bit flips (R396 steps 3 and 4). A line of the range of R197 has
nothing to flush. -/
def State.flushPage (s : State) : State :=
  match s.flip with
  | none => s
  | some f =>
    let s := (pageLines f.page).foldl (fun s l => s.flushLine l) s
    match s.flip with
    | none => s
    | some g => if (pageLines g.page).all g.done.contains then s.endFlip g else s

/-- R396: a core that has walked answers FlushAck; after the last one the homes flush the lines of the page. -/
def execFlushack (core : CoreId) (s : State) : Result :=
  .next (match s.flip with
    | none => s
    | some f =>
      if !f.toHost || f.cores.contains core then s
      else
        let f := { f with acks := f.acks.erase core }
        let s := { s with flip := some f }
        if f.acks.isEmpty then s.flushPage else s)

/-- R385, R388: the home asks the host to give up a line that it caches. -/
def execBisnpinv (line : Nat) (s : State) : Result := .next (s.biSnoop line false)

/-- R385: the home recalls the data of a line that the host caches. -/
def execBisnpdata (line : Nat) (s : State) : Result := .next (s.biSnoop line true)

/-- R385, R388: the host has answered: the filter entry is cleared; the last of a page being flipped ends the flip. -/
def execBirspi (line : Nat) (s : State) : Result :=
  .next (if !s.biAsked.contains line && !s.biDataAsked.contains line then s
    else
      let s := { s with biFilter := s.biFilter.filter (· ≠ line), biAsked := s.biAsked.filter (· ≠ line)
                        biDataAsked := s.biDataAsked.filter (· ≠ line) }
      match s.flip with
      | none => s
      | some f => if !f.toHost && (s.biOfPage f.page).isEmpty then s.endFlip f else s)

end Sys2Proof.Machine
end

