-- ==== Sys2Proof/Machine/Manage.lean ====
section
/-! DEFINITION. The management registers (spec 24 R399 to R408, R412, 21 R386, R389 to R391, 08 R175, R180, 10 R195, R198,
R207, 18 R321, 20 R356, R362): one read and one write for the host and for system contexts, host service (R203, R391), the
event arbiter and its rings (R189, R390), power (R407), attestation (R410), and reset (R411). -/
namespace Sys2Proof.Machine
open Sys2Proof

/-! Context requests (R405). -/

/-- A saved or halted cluster becomes a candidate (R182, R354): its saved groups are no longer held for the host. A save that has not finished is
not one to be resumed. -/
def State.resumeCluster (launch cluster : Nat) (s : State) : State :=
  let mine (g : Group) : Bool := g.inCluster launch cluster && g.status = .saved && !g.saving
  let free (g : Group) : Group := if mine g then { g with hostSave := false } else g
  let s := { s with g := free s.g, gs := s.gs.map free }
  let k := s.clusterAt launch cluster
  if k.state = .saved then
    { s with clusters := modifyFirst (fun c => c.launch = launch && c.cluster = cluster) (fun c => { c with candidate := true }) s.clusters }
  else
    let back (t : Team) : Team :=
      if t.launch = launch && t.cluster = cluster && s.groups.any (fun g => t.isOf g && mine g) then { t with savedAlone := true }
      else t
    { s with teams := s.teams.map back }

/-- A Save of a partition's context request register is under way: its GO reads as 1 (R405). -/
def State.requestBusy (s : State) (part : Nat) : Bool := s.saveAsked.any (fun r => r.part = part)

/-- The word of a context request, with GO or ERR. -/
def requestWord (ctx act : Nat) (err go : Bool) : BitVec 64 :=
  BitVec.ofNat 64 (ctx + act * 2 ^ 24 + err.toNat * 2 ^ 62 + go.toNat * 2 ^ 63)

/-- A context request (R405). -/
def State.contextRequest (part : Nat) (v : BitVec 64) (s : State) : State :=
  let off := partBlock part + 0xA8
  let ctx := bitsAt 0 24 v.toNat
  let act := bitsAt 24 2 v.toNat
  let g := s.group ctx
  let known := g.id.ctx ≠ 2 ^ 24 && !g.id.monitor && g.id.part = part
  let done (err : Bool) (s : State) : State := s.setReg off (requestWord ctx act err false)
  if s.requestBusy part then s
  else if !v.getLsbD 63 then s.setReg off (requestWord ctx act ((s.reg off).getLsbD 62) false)
  else match act with
    | 0 =>
      if known && g.status = .resident then
        let mine (h : Group) : Bool := h.inCluster g.id.launch g.id.cluster
        let hold (h : Group) : Group := if mine h && h.status = .saved then { h with hostSave := true } else h
        let s := s.askSaves true mine
        done false { s with g := hold s.g, gs := s.gs.map hold,
                            saveAsked := s.saveAsked ++ [{ part := part, launch := g.id.launch, cluster := g.id.cluster }] }
      else done true s
    | 1 => if known && g.status = .saved && !g.saving && !g.restoring then done false (s.resumeCluster g.id.launch g.id.cluster) else done true s
    | 2 =>
      if known && (g.status = .resident || g.status = .saved) then
        done false (s.killCluster g.id.launch g.id.cluster 9 (fun _ => none))
      else done true s
    | _ => done true s

/-! Host service (R203, R281, R333, R360, R391). -/

/-- The fault-ring entry for what a context of a partition waits with still waits for room: the host has not seen it (R390). -/
def State.entryWaits (s : State) (part ctx : Nat) (src : FaultSource) : Bool :=
  s.faultBuffer.any (fun f => f.part = part && f.ctx = ctx && f.source = src)

/-- A group that waits under PFMODE = 1 restarts at its region entry pc with its counter kept, or takes its fault (R203). -/
def State.replyGroup (f : FaultRec) (refuse : Bool) (s : State) : State :=
  let g := { s.g with pending := .none }
  match g.status, refuse with
  | .saved, true => { s with g := { g with boundaryFaults := g.boundaryFaults ++ [f] } }
  | .saved, false =>
    let w := s.imageWrite g 8 (s.imageRead g 0x10 8)
    if w.2 then { w.1 with g := { g with pc := g.regionPc } } else w.1.killCtx g.id.ctx 10
  | _, true => { s with g := g }.deliver f g.pc
  | _, false => { s with g := { g.stopRun with pc := g.regionPc } }

/-- An entry that waits for the host: a replayed operation is checked again or its cluster killed with reason 8 (R333), engine work
goes on or is given up (R281). -/
def State.replyEntry (ctx : Nat) (e : Entry) (refuse : Bool) (s : State) : State :=
  if e.cls ≠ .c then
    (if refuse then s.killCtx ctx 8 else if (s.group ctx).status = .saved then s else s.recheck ctx { e with hostWait := false })
  else
    let s := s.putEntry ctx { e with hostWait := false }
    match s.works.find? (fun x => x.ctx = ctx && x.entry = e.id) with
    | none => s
    | some x =>
      match x.held, refuse with
      | some r, true => s.abandonWork x r
      | _, _ => s.putWork { x with held := none }

/-- A parked request that has left the table is refused with what its walk found (R360): at its module, or of this module's own peer space
at its entry, which for an engine is its command's (R281). A load that was replayed since waits no more for it (R361). -/
def State.refuseParked (p : Parked) (s : State) : State :=
  match p.own with
  | none => s.answer p.req p.cause [BitVec.ofNat 128 p.extra]
  | some o =>
    match s.entry o.ctx o.entry, s.works.find? (fun x => x.ctx = o.ctx && x.entry = o.entry) with
    | _, some x => s.abandonWork x (x.faultRec s { cause := p.cause, extra := BitVec.ofNat 64 p.extra, addr := BitVec.ofNat 64 p.addr })
    | some e, none => if e.done || (e.round ≠ o.round && e.cls ≠ .d) then s else s.failEntry o.ctx e p.cause (BitVec.ofNat 64 p.extra)
    | none, none => s

/-- A parked request walks again, and is parked again when the walk still fails, or is refused (R360), in the mode in which it began (R406). -/
def State.replyParked (i : Nat) (p : Parked) (refuse : Bool) (s : State) : State :=
  let gone (s : State) : State := { s with parked := s.parked.eraseIdx i }
  if refuse then (gone s).refuseParked p
  else match s.walkPeer p.req with
    | .error (f, va) =>
      let s := gone s
      if p.assisted && s.faultsFull then s.refuseParked { p with cause := f.cause, extra := f.extra, addr := va }
      else s.parkAs p.assisted p.req f va p.own
    | .ok l =>
      if p.own.isSome then gone s
      else
        let r := s.servePeer p.req l
        if r.2 then gone r.1 else { r.1 with parked := r.1.parked.set i { p with assisted := false } }

/-- The context that the fault-ring entry of a parked request names. -/
def Parked.ctx (p : Parked) : Nat := (p.own.map (·.ctx)).getD (tagCtx p.req.tag)

/-- R391: a fault reply for a context that waits on the fault ring of the partition; any other is ignored. -/
def State.faultReply (part ctx : Nat) (refuse : Bool) (s : State) : State :=
  let g := s.group ctx
  let mine := g.id.ctx ≠ 2 ^ 24 && g.id.part = part
  let held : Option FaultRec := match g.pending with
    | .host f => if mine && !s.entryWaits part ctx .group then some f else none
    | _ => none
  let entry := g.entries.find? (fun e => mine && e.hostWait && !s.entryWaits part ctx (.entry e.id))
  let waits (p : Parked) : Bool := p.assisted && p.req.part = part && p.ctx = ctx && !s.entryWaits part ctx (.parked p.req.tag)
  match held, entry, findFrom (fun i => s.parked[i]?.any waits) s.parked.length 0 with
  | some f, _, _ => s.onCtx ctx (State.replyGroup f refuse)
  | none, some e, _ => s.replyEntry ctx e refuse
  | none, none, some i =>
    (match s.parked[i]? with
     | some p => s.replyParked i p refuse
     | none => s)
  | none, none, none => s

/-! Reset and bring-up (R411). -/

/-- The debug monitor group of a die (R340). Nothing gives its code: no run of it is fetched (log 11). -/
def State.monitorGroup (s : State) (die : Nat) : Group :=
  { id := { ctx := 0xFFFF00 + die, launch := 2 ^ 82 * (die + 1), system := true, monitor := true, queue := 0xFFFFFFFF }
    place := { die := die, site := (s.monitorSite die).getD 0, quarter := 0, slot := 15 }, status := .resident }

/-- A configuration record that bring-up accepts (R409). -/
def Flash.accepted (f : Flash) : Bool :=
  f.configOk && f.harvest.length = Config.dies
    && f.harvest.all (fun m => ((List.range Config.sites).filter (fun i => m.getLsbD i)).length = 96)

/-- The status register at a step of bring-up (R411). -/
def statusWord (ready cfgErr fwErr : Bool) (step : Nat) : BitVec 64 :=
  BitVec.ofNat 64 (ready.toNat + cfgErr.toNat * 2 + fwErr.toNat * 4 + step * 256)

/-- Power-on, or a write of 1 to RESET: every context ends, every cache is dropped, and the steps run to READY or to the one that
fails. Host memory, which is tier 2, keeps what it holds. -/
def State.bringUp (s : State) : State :=
  let t : State := { agenda := s.agenda, free := s.free, flash := s.flash, resets := s.resets + 1, package := s.package
                     out := s.out
                     mem := s.mem.filter (fun c => 2 * 2 ^ 52 ≤ c.1), poison := s.poison.filter (fun l => 2 * 2 ^ 45 ≤ l) }
  if !s.flash.firmwareOk then t.setReg 0 (statusWord false false true 1)
  else if !s.flash.accepted then t.setReg 0 (statusWord false true false 2)
  else
    let t := s.flash.retired.foldl (fun (t : State) (x : Nat × Nat) =>
      (t.dealBuckets x.1 x.2).setSlice { t.slice x.1 x.2 with retired := true }) t
    { t with gs := (List.range Config.dies).map t.monitorGroup }.setReg 0 (statusWord true false false 10)

/-- R411. -/
def execPowerOn (s : State) : Result := .next s.bringUp

/-! Attestation (R410). -/

/-- The report: format, nonce, measurements, resets, signature. What was measured at this reset is the same in every report; the signature is over the
nonce too. -/
def State.report (s : State) : List Byte :=
  let nonce := (List.range 4).foldl (fun n i => n + (s.reg (0x200 + 8 * i)).toNat * 2 ^ (64 * i)) 0
  let secret (n i : Nat) : Byte := Config.attestByte s.resets i (BitVec.ofNat 256 n)
  leBytes 4 1 ++ leBytes 4 0 ++ leBytes 32 nonce ++ (List.range 96).map (secret 0) ++ leBytes 8 (s.resets % 2 ^ 64)
    ++ (List.range 29792).map (fun i => secret nonce (96 + i))

/-- Bytes of the report (R410). -/
def reportBytes : Nat := 29936

/-- A module physical address that the module may write: tier 2, or tier 0 below the range of R197. -/
def writable (tier addr n : Nat) : Bool := tier = 2 || (tier = 0 && addr + n ≤ Config.reservedBase)

/-- A write of the attestation register. -/
def State.attest (v : BitVec 64) (s : State) : State :=
  let addr := bitsAt 8 44 v.toNat * 256
  let tier := bitsAt 52 2 v.toNat
  if !writable tier addr reportBytes then s
  else
    let s := s.setReg 0x220 (BitVec.ofNat 64 (addr + tier * 2 ^ 52))
    if v.getLsbD 63 then s.physWrite (addr + tier * 2 ^ 52) s.report else s

/-! Registers. -/

/-- Chip windows [a, a + n) and [b, b + m) overlap; an empty window overlaps nothing. -/
def windowsMeet (a n b m : Nat) : Bool := n ≠ 0 && m ≠ 0 && a < b + m && b < a + n

/-- A write of a chip window register (R195). -/
def State.writeWindow (part die : Nat) (v : BitVec 64) (s : State) : State :=
  let off (p : Nat) : Nat := partBlock p + 0xC0 + 8 * die
  let base := bitsAt 0 10 v.toNat
  let size := bitsAt 16 10 v.toNat
  let new := BitVec.ofNat 64 (base + size * 2 ^ 16)
  let taken := (List.range Config.partitions).any (fun p =>
    p ≠ part && windowsMeet base size (s.regField (off p) 0 10) (s.regField (off p) 16 10))
  let held := new ≠ s.reg (off part)
    && s.groups.any (fun g => g.id.ctx ≠ 2 ^ 24 && !g.id.monitor && g.id.part = part && g.place.die = die)
  if 1023 < base + size || taken || held then s else s.setReg (off part) new

/-- A write of a table base of the fabric, of which `lo` address bits are zero (R403). -/
def State.writeBase (off lo : Nat) (v : BitVec 64) (s : State) : State :=
  let base := bitsAt lo (52 - lo) v.toNat * 2 ^ lo
  if Config.reservedBase < base + 2 ^ lo then s else s.setReg off (BitVec.ofNat 64 (base + v.toNat % 2))

/-- A write of the migration command register (R402). -/
def State.writeMigration (v : BitVec 64) (s : State) : State :=
  if migrationGo v 1 then s.migrate v
  else if migrationGo v 2 then s.runAdmit v
  else s.endCommand v (s.regField 0x1020 57 4)

/-- A write of a slice's status register: ones clear bits of CECNT, and RETIRE asks for retirement (R207). -/
def State.writeSlice (d n : Nat) (v : BitVec 64) (s : State) : State :=
  let x := s.slice d n
  let s := s.setSlice { x with cecnt := x.cecnt - (x.cecnt &&& bitsAt 0 16 v.toNat), cethr := bitsAt 16 16 v.toNat }
  if v.getLsbD 32 then s.requestRetire d n else s

/-- A slice's status register. -/
def Slice.word (x : Slice) : BitVec 64 :=
  BitVec.ofNat 64 (x.cecnt + x.cethr * 2 ^ 16 + x.retire.toNat * 2 ^ 32 + x.retired.toNat * 2 ^ 33)

/-- A ring's record. -/
def State.ring (s : State) (off : Nat) : Ring := (s.rings.find? (fun r => r.off = off)).getD { off := off }
/-- Replace a ring's record. -/
def State.setRing (r : Ring) (s : State) : State := { s with rings := putFirst (fun x => x.off = r.off) r s.rings }

/-- A write of a word of a ring register; the ring may take entries again (R389, R390). -/
def State.writeRing (base word : Nat) (v : BitVec 64) (s : State) : State :=
  let n := v.toNat
  let s := s.setRing { s.ring base with held := false }
  match word with
  | 0 => s.setReg base (BitVec.ofNat 64 ((if base = 0x40 then n % 2 ^ 54 else n) / 256 * 256))
  | 1 => s.setReg (base + 8) (BitVec.ofNat 64 (n % 32 + bitsAt 32 20 n * 2 ^ 32))
  | 2 => s.setReg (base + 16) (BitVec.ofNat 64 (s.regField (base + 16) 0 20 + bitsAt 20 12 n * 2 ^ 20))
  | _ => s

/-- A write at an offset of a partition's block (R404). -/
def State.writePart (p x : Nat) (v : BitVec 64) (s : State) : State :=
  let off := partBlock p + x
  let put (lo n : Nat) : State := s.setReg off (BitVec.ofNat 64 (bitsAt lo n v.toNat * 2 ^ lo))
  if x < 0x90 then (if x % 16 = 0 then s.setReg off v else put 0 36)
  else if x = 0x90 then put 0 42
  else if x = 0x98 then s.setReg off (v &&& BitVec.ofNat 64 (2 ^ 63 + (2 ^ 52 - 2 ^ 17) + 3))
  else if x = 0xA0 then put 0 1
  else if x = 0xA8 then s.contextRequest p v
  else if 0xC0 ≤ x ∧ x < 0x108 then s.writeWindow p ((x - 0xC0) / 8) v
  else if x = 0x110 ∨ x = 0x118 then put 0 52
  else if 0x120 ≤ x ∧ x < 0x140 then s.writeRing (partBlock p + 0x120) ((x - 0x120) / 8) v
  else if 0x140 ≤ x ∧ x < 0x160 then s.writeRing (partBlock p + 0x140) ((x - 0x140) / 8) v
  else if x = 0x160 then s.faultReply p (bitsAt 0 24 v.toNat) (v.getLsbD 24)
  else s

/-- A write of an 8-byte register of the module control block or of the module's other control registers (R399 to R403, R407,
R412). -/
def State.writeControl (off : Nat) (v : BitVec 64) (s : State) : State :=
  let put (lo n : Nat) : State := s.setReg off (BitVec.ofNat 64 (bitsAt lo n v.toNat * 2 ^ lo))
  if off = 0x8 then (if v.getLsbD 0 then s.bringUp else s)
  else if off = 0x10 then put 0 7
  else if off = 0x20 then
    s.setReg off (BitVec.ofNat 64 (Nat.min 5000 (Nat.max 1000 (bitsAt 0 13 v.toNat)) + s.regField 0x20 16 13 * 2 ^ 16))
  else if off = 0x28 then put 12 40
  else if 0x40 ≤ off ∧ off < 0x60 then s.writeRing 0x40 ((off - 0x40) / 8) v
  else if 0x100 ≤ off ∧ off < 0x148 then put 0 13
  else if 0x200 ≤ off ∧ off < 0x220 then s.setReg off v
  else if off = 0x220 then s.attest v
  else if off = 0x1000 then
    s.setReg off (BitVec.ofNat 64 (bitsAt 0 3 v.toNat + Nat.max 1024 (bitsAt 8 24 v.toNat) * 2 ^ 8))
  else if off = 0x1008 then s.biasCommand v
  else if off = 0x1010 then put 0 54
  else if off = 0x1018 then put 0 17
  else if off = 0x1020 then s.writeMigration v
  else if off = 0x2000 then s.writeBase off 21 v
  else if off = 0x2008 then s.writeBase off 22 v
  else if 0x3000 ≤ off ∧ off < 0x3800 then s.writeLost ((off - 0x3000) / 8) v
  else s

/-- A WRITE of a management register, by the host or by a system context (R349, R399, R411): ignored until READY, and at an offset
that no register has. -/
def State.mgmtWrite (off : Nat) (v : BitVec 64) (s : State) : State :=
  if !s.ready ∨ off % 8 ≠ 0 then s
  else if off < 0x10000 then s.writeControl off v
  else if off < 0x20000 then s.writePart ((off - 0x10000) / 0x1000) ((off - 0x10000) % 0x1000) v
  else if off < 0x20120 then s.portWrite ((off - 0x20000) / 8) v
  else if 0x20200 ≤ off ∧ off < 0x20680 then s.writeSlice ((off - 0x20200) / 8 / 16) ((off - 0x20200) / 8 % 16) v
  else if 0x100000 ≤ off ∧ off < 0x140000 then s.writeQueue ((off - 0x100000) / 32) ((off - 0x100000) % 32 / 8) v
  else s

/-- A READ of a management register (R349, R399, R411). -/
def State.mgmtRead (s : State) (off : Nat) : BitVec 64 :=
  if off = 0 then s.reg 0
  else if !s.ready ∨ off % 8 ≠ 0 then 0
  else if 0x20000 ≤ off ∧ off < 0x20120 then (s.port ((off - 0x20000) / 8)).word
  else if 0x20200 ≤ off ∧ off < 0x20680 then (s.slice ((off - 0x20200) / 8 / 16) ((off - 0x20200) / 8 % 16)).word
  else if 0x10000 ≤ off ∧ off < 0x20000 ∧ (off - 0x10000) % 0x1000 = 0xA8 ∧ s.requestBusy ((off - 0x10000) / 0x1000) then
    s.reg off ||| BitVec.ofNat 64 (2 ^ 63)
  else s.reg off

/-- R399: a register without behaviour of its own takes the writable fields; every other register acts by its rule. -/
def execManagementRegisterWrite (offset : Nat) (value : BitVec 64) (s : State) : Result := .next (s.mgmtWrite offset value)

/-- R401. -/
def execDispatchControlWrite (value : BitVec 64) (s : State) : Result := .next (s.mgmtWrite 0x1000 value)

/-- R403. -/
def execFabricBaseWrite (multicast : Bool) (value : BitVec 64) (s : State) : Result :=
  .next (s.mgmtWrite (if multicast then 0x2008 else 0x2000) value)

/-- R407. -/
def execPowerWrite (value : BitVec 64) (s : State) : Result := .next (s.mgmtWrite 0x20 value)

/-- R195. -/
def execChipWindowWrite (part die : Nat) (value : BitVec 64) (s : State) : Result :=
  .next (if part < Config.partitions ∧ die < Config.dies then s.mgmtWrite (partBlock part + 0xC0 + 8 * die) value else s)

/-- R410. -/
def execAttestation (value : BitVec 64) (s : State) : Result := .next (s.mgmtWrite 0x220 value)

/-- R411. -/
def execReset (value : BitVec 64) (s : State) : Result := .next (s.mgmtWrite 8 value)

/-- A context request with GO (R405). -/
def State.requestAct (part ctx act : Nat) (s : State) : State :=
  if part < Config.partitions ∧ ctx < 2 ^ 24 then s.mgmtWrite (partBlock part + 0xA8) (requestWord ctx act false true) else s

/-- R405. -/
def execContextSave (part ctx : Nat) (s : State) : Result := .next (s.requestAct part ctx 0)
/-- R405. -/
def execContextResume (part ctx : Nat) (s : State) : Result := .next (s.requestAct part ctx 1)
/-- R405. -/
def execContextKill (part ctx : Nat) (s : State) : Result := .next (s.requestAct part ctx 2)

/-- The fault reply register's word (R391). -/
def replyWord (ctx : Nat) (refuse : Bool) : BitVec 64 := BitVec.ofNat 64 (ctx + refuse.toNat * 2 ^ 24)

/-- R391. -/
def execFaultReplyResume (part ctx : Nat) (s : State) : Result :=
  .next (if part < Config.partitions ∧ ctx < 2 ^ 24 then s.mgmtWrite (partBlock part + 0x160) (replyWord ctx false) else s)
/-- R391. -/
def execFaultReplyRefuse (part ctx : Nat) (s : State) : Result :=
  .next (if part < Config.partitions ∧ ctx < 2 ^ 24 then s.mgmtWrite (partBlock part + 0x160) (replyWord ctx true) else s)

/-! Power (R407). -/

/-- The die allowances scaled to the cap. -/
def scaledPower (cap : Nat) (l : List Nat) : List Nat :=
  let sum := l.foldl (· + ·) 0
  if cap < sum then l.map (fun a => a * cap / sum) else l

/-- An equal share of a die's allowance for each of its enabled cores, in microwatts (R407). -/
def State.coreShare (s : State) (die watts : Nat) : Nat :=
  watts * 1000000 / ((List.range Config.sites).filter (fun i => s.siteEnabled ⟨die, i⟩)).length

/-- R407: at a period boundary the allowances set in the last period take effect, within CAP: in host-assisted mode what the registers hold;
in hardware mode the arbiter's own, which no rule states (log 42). Pacing changes timing only (R408). -/
def execPowerPeriod (watts : List Nat) (s : State) : Result :=
  .next (if !s.ready then s
    else
      let cap := s.regField 0x20 0 13
      let asked := (List.range Config.dies).map (fun d =>
        if s.hostMode 5 then s.regField (0x100 + 8 * d) 0 13 else (Config.freeValue 13 s.free (20 + d)).toNat)
      let now := (scaledPower cap asked).zipIdx.map (fun x => (x.1, s.coreShare x.2 x.1))
      let meas := Nat.min 8191 (watts.foldl (· + ·) 0)
      { s with power := now }.setReg 0x20 (BitVec.ofNat 64 (cap + meas * 2 ^ 16)))

/-! Rings (R389, R390). -/

/-- A ring takes 32 bytes: none when it is full, disabled or held, or the write fails, which holds it until its register is
rewritten. `part` is none for the module event ring, whose address is physical. -/
def State.pushRing (off : Nat) (part : Option Nat) (bytes : List Byte) (s : State) : State × Bool :=
  let log := s.regField (off + 8) 0 5
  let head := s.regField (off + 8) 32 20
  let tail := s.regField (off + 16) 0 20
  let r := s.ring off
  if log < 4 || 20 < log || r.held || 2 ^ log - 1 ≤ (tail + 2 ^ 20 - head) % 2 ^ 20 then (s, false)
  else
    let base := (s.reg off).toNat
    let spot := 32 * (tail % 2 ^ log)
    let put : Option State := match part with
      | some p =>
        let bad := match s.vaddr p (base + spot) .write with
          | some a => s.physPoison a 32
          | none => true
        if bad then none else s.virtWrite none p (base + spot) bytes
      | none =>
        let tier := bitsAt 52 2 base
        let addr := base % 2 ^ 52
        if writable tier addr (32 * 2 ^ log) && !s.physPoison (base % 2 ^ 54 + spot) 32 then
          some (s.physWrite (base % 2 ^ 54 + spot) bytes)
        else none
    match put with
    | none => (s.setRing { r with held := true }, false)
    | some s =>
      let w := s.setReg (off + 16) (BitVec.ofNat 64 ((tail + 1) % 2 ^ 20 + bitsAt 20 12 (s.reg (off + 16)).toNat * 2 ^ 20))
      (if (w.reg (off + 16)).getLsbD 20 then w.setRing { r with due := true } else w, true)

/-- Fault-ring entries that wait are written, those of one partition in order, as far as their ring has room (R390). -/
def State.pushFaults : List FaultEntry → List Nat → State → State × List FaultEntry
  | [], _, s => (s, [])
  | f :: fs, blocked, s =>
    if blocked.contains f.part then
      let r := State.pushFaults fs blocked s
      (r.1, f :: r.2)
    else
      let w := s.pushRing (partBlock f.part + 0x140) (some f.part) ((f.words.map (fun x => leBytes 8 x.toNat)).flatten)
      if w.2 then State.pushFaults fs blocked w.1
      else
        let r := State.pushFaults fs (f.part :: blocked) w.1
        (r.1, f :: r.2)

/-- The 32 bytes of an event (R189). -/
def Event.bytes (e : Event) (sequence : Nat) : List Byte :=
  leBytes 8 (sequence % 2 ^ 64) ++ leBytes 2 e.kind ++ leBytes 2 e.part ++ leBytes 4 e.queue ++ leBytes 8 (e.launch % 2 ^ 64)
    ++ leBytes 8 e.info.toNat

/-- The ring of an event: its partition's, or the module's (R189). -/
def Event.ring (e : Event) : Nat × Option Nat :=
  if e.part < Config.partitions then (partBlock e.part + 0x120, some e.part) else (0x40, none)

/-- The first event whose ring takes it is granted (R189, R390). -/
def State.grantEvent : List Event → List Event → List Nat → State → State
  | _, [], _, s => s
  | before, e :: rest, blocked, s =>
    if blocked.contains e.ring.1 then State.grantEvent (before ++ [e]) rest blocked s
    else
      let w := s.pushRing e.ring.1 e.ring.2 (e.bytes s.nextEvent)
      if w.2 then { w.1 with events := before ++ rest, nextEvent := s.nextEvent + 1 }
      else State.grantEvent (before ++ [e]) rest (e.ring.1 :: blocked) w.1

/-- The interrupts that are due are sent, at most one per microsecond and ring (R390). -/
def State.interrupts (s : State) : State :=
  s.rings.foldl (fun (s : State) (r : Ring) =>
    if r.due && r.sent.all (fun t => t + Config.cyclesPerUs ≤ s.time) then
      { s.setRing { r with due := false, sent := some s.time } with
        out := .interrupt (s.regField (r.off + 16) 21 11) :: s.out }
    else s) s

/-- R189, R390: the arbiter grants one event; fault-ring entries that found no room are written too. -/
def execEventGrant (s : State) : Result :=
  .next (if !s.ready then s
    else
      let r := State.pushFaults s.faultBuffer [] s
      let s := { r.1 with faultBuffer := r.2 }
      (State.grantEvent [] s.events [] s).interrupts)

/-- What follows every step of the module by itself: the host's accesses that wait are tried again, and what is reserved for held candidates never
grows (R182, R183, R382). -/
def State.afterwards (s : State) : State := s.retryHost.capShares

end Sys2Proof.Machine
end

