-- ==== Sys2Proof/Machine/System.lean ====
section
/-! DEFINITION. Trap, region and privileged instructions (spec 19 R343 to R354): pollpre, region, trap, brkpt, hret, hretr, rdsr,
wrsr, tlbinv, mbxs, mbxr, ifread and halt. -/
namespace Sys2Proof.Machine
open Sys2Proof

/-- R347: the request flag as it stands at issue. With N = 1 the form is the one whose TYPE the word has (log 96). -/
def execPollpre (w : Fields) (s : State) : Result :=
  s.issue (.pollpre w) w (s.g.useDest w true) (fun s =>
    let x : BitVec 64 := if !s.g.request then 0 else if w.pollpreFlag then 0xFFFFFFFF else 1
    (s.putResult w (!w.pollpreFlag) (fun _ => x)).finish w false)

/-- R346: a region entry at the next instruction. -/
def execRegion (w : Fields) (s : State) : Result :=
  let act (s : State) : State := s.finish w true
  s.issueWith (.region w) w false [] act act

/-- R344: cause 16 with IMM, or bits 15:0 of A. -/
def execTrap (w : Fields) (s : State) : Result :=
  s.issue (.trap w) w (if w.a = {} then [] else s.g.useOf 1 w.a true) (fun s =>
    let code := if w.a = {} then w.imm.setWidth 64 else ((s.readOp .n64 w.a true 0).setWidth 16).setWidth 64
    s.faultAt w { cause := 16, extra := code })

/-- R344: cause 17. -/
def execBrkpt (w : Fields) (s : State) : Result := s.issue (.brkpt w) w [] (fun s => s.faultAt w { cause := 17 })

/-- Leaving handler mode (R315, R345): a fault at depth 0, and a stall until every earlier store of the group is performed. -/
def State.handlerReturn (w : Fields) (toRegion : Bool) (s : State) : State :=
  if s.g.depth = 0 then s.illegal 0 0xFF (s.g.lanes w)
  else if s.g.entries.any (fun e => e.writes && !e.performed) then s.stalls .other
  else (s.leaveHandler toRegion).boundary

/-- R315, R345. -/
def execHret (w : Fields) (s : State) : Result :=
  s.issueWith (.hret w) w false [] (State.handlerReturn w false) (State.handlerReturn w false)
/-- R315, R345. -/
def execHretr (w : Fields) (s : State) : Result :=
  s.issueWith (.hretr w) w false [] (State.handlerReturn w true) (State.handlerReturn w true)

/-! System registers. -/

/-- A local system register as the issuing group reads it (R348); a leader reads SHADOW as 0. -/
def State.localRegister (s : State) (n : Nat) : BitVec 64 :=
  let g := s.g
  match n with
  | 0 => BitVec.ofNat 64 ((if g.id.monitor then 0 else g.id.part) + g.id.ctx % 2 ^ 24 * 2 ^ 4 + g.id.system.toNat * 2 ^ 28)
  | 1 => BitVec.ofNat 64 ((List.range 4).foldl (fun n q => n + s.congestionOf g.place.die q * 2 ^ (8 * q)) 0)
  | 2 => BitVec.ofNat 64 (g.level % 8)
  | _ => BitVec.ofNat 64 (s.core g.core).corece

/-- R348, R349: the local form. -/
def execRdsr (w : Fields) (s : State) : Result :=
  s.issue (.rdsr w) w (s.g.useDest w true)
    (fun s => (s.putResult w true (fun _ => s.localRegister (w.immBits 0 8))).finish w false)

/-- The offset of the management form: none where it is no multiple of 8 or lies beyond the area (R349). -/
def managementOffset (off : BitVec 64) : Option Nat :=
  if off.toNat % 8 = 0 ∧ off.toNat < 2 ^ 24 then some off.toNat else none

/-- R349: the management form. -/
def execRdsrMgmt (w : Fields) (s : State) : Result :=
  s.issue (.rdsrMgmt w) w (s.g.useDest w true ++ s.g.useOf 2 w.b true) (fun s =>
    let off := s.readOp .n64 w.b true 0
    match managementOffset off with
    | none => s.faultAt w { cause := 5, kind := 1, pos := 2, extra := off }
    | some o => (s.putResult w true (fun _ => s.mgmtRead o)).finish w false)

/-- R348, R349: of the local registers only CORECE has a writable field, whose bits a one clears. -/
def execWrsr (w : Fields) (s : State) : Result :=
  s.issue (.wrsr w) w (s.g.useOf 1 w.a true) (fun s =>
    let x := s.readOp .n64 w.a true 0
    let k := s.core s.g.core
    let s := if w.immBits 0 8 = 3 then s.setCore s.g.core { k with corece := k.corece - (k.corece &&& x.toNat % 2 ^ 32) } else s
    s.finish w true)

/-- A release of the issuing group at package scope with drain mask 0xFF, as an instruction of this chapter performs it before its
own effect (R244, R247, R349, R351); the flag says that it is performed. -/
def State.fullRelease (s : State) : State × Bool :=
  if s.mayPerform s.g { id := s.g.nextId, kind := .localArrival, cls := .c, path := 9 } then s.releaseLines s.g.core 3 0xFF
  else (s, false)

/-- R349: the release, and then the write under the register's own rules. -/
def execWrsrMgmt (w : Fields) (s : State) : Result :=
  s.issue (.wrsrMgmt w) w (s.g.useOf 1 w.a true ++ s.g.useOf 2 w.b true) (fun s =>
    let off := s.readOp .n64 w.b true 0
    let x := s.readOp .n64 w.a true 0
    match managementOffset off with
    | none => s.faultAt w { cause := 5, kind := 2, pos := 2, extra := off }
    | some o =>
      let r := s.fullRelease
      if !r.2 then r.1.stalls .other
      else
        let t := r.1.mgmtWrite o x
        if t.g.id.ctx = s.g.id.ctx ∧ t.g.running then t.finish w true else t)

/-! Translation invalidation. -/

/-- The entries that a tlbinv removes (R350): by form, partition and range. A debug monitor, which has no partition, names one. -/
def invalidated (form part first n : Nat) (e : TlbEntry) : Bool :=
  e.part = part && (form = 2 || (n ≠ 0 && first < e.base + e.size && e.base < first + n))

/-- R350, R351: a release, and the matching entries leave every TLB. -/
def execTlbinv (w : Fields) (s : State) : Result :=
  let form := w.modBits 0 2
  s.issue (.tlbinv w) w ((if form < 2 then s.g.useOf 1 w.a true else []) ++ (if form = 1 then s.g.useOf 2 w.b true else [])) (fun s =>
    let r := s.fullRelease
    if !r.2 then r.1.stalls .other
    else
      let s := r.1
      let first := if form < 2 then (s.readOp .n64 w.a true 0).toNat else 0
      let n := if form = 1 then (s.readOp .n64 w.b true 0).toNat else 1
      let out (e : TlbEntry) : Bool :=
        (w.modBit 4 || !s.g.id.monitor) && invalidated form (if w.modBit 4 then w.immBits 0 4 else s.g.id.part) first n e
      { s with
        cores := s.cores.map (fun (x : CoreId × Core) => (x.1, { x.2 with tlb := x.2.tlb.filter (fun e => !out e) }))
        tlb2 := s.tlb2.filter (fun x => !out x.2) }.finish w false)

/-! The debug mailbox (R341, R352). -/

/-- The first byte of a die's mailbox among the chip scratchpads: the last 64 KiB unit. -/
def mailbox (die : Nat) : Nat := die * 2 ^ 26 + 1023 * 65536

/-- The offset of message `n` of a ring that starts at `ring`. -/
def messageAt (ring n : Nat) : Nat := ring + 64 * (n % 511)

/-- A pointer of the mailbox. -/
def State.mailPointer (s : State) (die off : Nat) : Nat := leNat (memRead s.chip (mailbox die + off) 8)

/-- Write bytes of the mailbox. -/
def State.mailWrite (die off : Nat) (bs : List Byte) (s : State) : State := { s with chip := memWrite s.chip (mailbox die + off) bs }

/-- The next inbound message, if there is one. -/
def State.nextMail (s : State) (die : Nat) : Option (List Byte) :=
  let head := s.mailPointer die 0
  if head = s.mailPointer die 8 then none else some (memRead s.chip (mailbox die + messageAt 0x40 head) 64)

/-- The inbound head moves on. -/
def State.takeMail (die : Nat) (s : State) : State := s.mailWrite die 0 (leBytes 8 ((s.mailPointer die 0 + 1) % 2 ^ 64))

/-- There is room for an outbound message. -/
def State.mailRoom (s : State) (die : Nat) : Bool := (s.mailPointer die 0x18 + 2 ^ 64 - s.mailPointer die 0x10) % 2 ^ 64 < 511

/-- An outbound message, and then the tail. -/
def State.sendMail (die : Nat) (msg : List Byte) (s : State) : State :=
  let tail := s.mailPointer die 0x18
  (s.mailWrite die (messageAt 0x8000 tail) msg).mailWrite die 0x18 (leBytes 8 ((tail + 1) % 2 ^ 64))

/-- The register checks of an instruction that ignores the active mask (R352): holds as for any other. -/
def State.everyLane (w : Fields) (uses : List RegUse) (body : State → State) (s : State) : State :=
  match firstArmed s.g uses with
  | some (u, n) => s.faultAt w { cause := 13, pos := u.pos, extra := BitVec.ofNat 64 n }
  | none =>
    match heldRegs s.g uses with
    | n :: _ => s.stalls (.hold n)
    | [] => body s

/-- R352: sixteen words of lanes 0 to 15 are sent; the k destination says whether. -/
def execMbxs (w : Fields) (s : State) : Result :=
  let uses := s.g.useDest w false ++ s.g.useOf 3 w.c false
  let act (s : State) : State :=
    let die := s.g.place.die
    let msg := ((List.range 16).map (fun l => leBytes 4 ((s.readOp .b32 w.c false l).toNat % 2 ^ 32))).flatten
    let room := s.mailRoom die
    let s := if room then s.sendMail die msg else s
    let x : BitVec 64 := if room then 0xFFFFFFFF else 0
    let s := if w.n then s else { s with g := s.g.writeK (s.g.dnum w) (x.setWidth 32) }
    (s.captureUniform w x).finish w true
  s.issueWith (.mbxs w) w false uses (State.everyLane w uses act) act

/-- R352: a message goes to lanes 0 to 15 and 1 to lane 16, the others keep their values; with none every lane receives 0. -/
def execMbxr (w : Fields) (s : State) : Result :=
  let uses := s.g.useDest w false
  let act (s : State) : State :=
    let die := s.g.place.die
    let r : Mask × (Nat → BitVec 64) × State := match s.nextMail die with
      | none => (0xFFFFFFFF, fun _ => 0, s)
      | some m => (0x1FFFF, fun l => if l < 16 then BitVec.ofNat 64 (leNat ((m.drop (4 * l)).take 4)) else 1, s.takeMail die)
    let s := r.2.2.captureLanes w false r.1 r.2.1
    (if w.n then s else { s with g := s.g.writeLanes (s.g.dnum w) false r.1 r.2.1 }).finish w true
  s.issueWith (.mbxr w) w false uses (State.everyLane w uses act) act

/-! Code read and halt. -/

/-- R353: the unit as a fetch on the core would see it (R87, log 52), or as its home holds it; poison acts as R215 says. -/
def execIfread (w : Fields) (s : State) : Result :=
  s.issue (.ifread w) w (s.g.useDestPtr w ++ s.g.useOf 1 w.a true) (fun s =>
    let va := (s.readOp .n64 w.a true 0).toNat % 2 ^ 52 / 16 * 16
    match s.translate s.g.core s.g.id.part va .read with
    | (s, .error f) => s.faultAt w { cause := f.cause, kind := 1, pos := 1, addr := BitVec.ofNat 64 va, extra := BitVec.ofNat 64 f.extra }
    | (s, .ok t) =>
      let pa := t.frame + va % 4096
      let r : State × Option (LineData × Bool) :=
        if w.modBit 0 then s.homeRead (pa / 128)
        else
          let k := s.codeLine s.g.core (pa / 128)
          (k.1, some (k.2.1, k.2.2.getLsbD (pa % 128)))
      match r with
      | (s, none) => s.stalls .other
      | (s, some d) =>
        if d.2 then
          (if t.pchk then s.faultAt w { cause := 10, kind := 1, pos := 1, addr := BitVec.ofNat 64 va } else s.killCtx s.g.id.ctx 3)
        else (s.putPtr w (fun _ => d.1.extractLsb' (8 * (pa % 128)) 128)).finish w false)

/-- R354: the group stops at the next instruction and is saved; an event of kind 5 follows. -/
def execHalt (w : Fields) (s : State) : Result :=
  let act (s : State) : State :=
    let t := s.finish w false
    if t.g.id.ctx = s.g.id.ctx ∧ t.g.status = .resident then { t with g := { t.g with saving := true, hostSave := true, halted := true } } else t
  s.issueWith (.halt w) w true [] act act

end Sys2Proof.Machine
end

