-- ==== Sys2Proof/Machine/Monitor.lean ====
section
/-! DEFINITION. The debug monitor's service (spec 18 R340 to R342): what each command of its mailbox does, and the host's writes of the
mailbox. A command stands at the inbound head until it is answered. -/
namespace Sys2Proof.Machine
open Sys2Proof

/-- A message's fields (R342). -/
structure Message where
  command : Nat
  sequence : Nat
  length : Nat
  arg1 : Nat
  arg2 : Nat
  data : List Byte
  deriving DecidableEq, Repr

/-- A message from its 64 bytes. -/
def messageOf (b : List Byte) : Message :=
  let f (off n : Nat) : Nat := leNat ((b.drop off).take n)
  { command := f 0 2, sequence := f 2 2, length := f 6 2, arg1 := f 8 8, arg2 := f 0x10 8, data := (b.drop 0x18).take 32 }

/-- The reply to a message. -/
def Message.reply (m : Message) (status : Nat) (data : List Byte) : List Byte :=
  leBytes 2 m.command ++ leBytes 2 m.sequence ++ leBytes 2 status ++ leBytes 2 data.length ++ leBytes 8 m.arg1 ++ leBytes 8 m.arg2
    ++ (data ++ List.replicate (32 - data.length) 0) ++ leBytes 8 0

/-- What serving a command comes to: a reply with its status and data, or it goes on waiting. -/
inductive Served where
  | reply (status : Nat) (data : List Byte)
  | waits
  deriving DecidableEq, Repr

/-- The debug monitor of a die. -/
def State.monitorOf (s : State) (die : Nat) : Option Group :=
  s.groups.find? (fun g => g.id.monitor && g.place.die = die && g.status = .resident)

/-- The monitor serves the inbound message at the head when it is the given command, and there is room for the reply; a
command that R342 does not list is answered with status 1. -/
def State.serve (die command : Nat) (act : Group → Message → State → State × Served) (s : State) : Result :=
  .next (match s.monitorOf die, s.nextMail die with
    | some mon, some b =>
      let m := messageOf b
      if !s.mailRoom die then s
      else if m.command = 0 ∨ 6 < m.command then (s.takeMail die).sendMail die (m.reply 1 [])
      else if m.command ≠ command then s
      else if 32 < m.length then (s.takeMail die).sendMail die (m.reply 1 [])
      else match act mon m s with
        | (s, .waits) => s
        | (s, .reply status data) => (s.takeMail die).sendMail die (m.reply status data)
    | _, _ => s)

/-- A live context that is no debug monitor. -/
def State.liveContext (s : State) (ctx : Nat) : Option Group :=
  s.groups.find? (fun g => g.id.ctx = ctx && ctx ≠ 2 ^ 24 && g.status ≠ .ended)

/-- R342 command 1: the request flag is raised, and the reply follows once the context is saved. -/
def execMonitorSuspend (die : Nat) (s : State) : Result :=
  s.serve die 1 (fun _ m s =>
    match s.liveContext m.arg1 with
    | none => (s, .reply 2 [])
    | some g =>
      if g.id.monitor then (s, .reply 1 [])
      else if g.status = .saved then (if g.saving || g.restoring then (s, .waits) else (s, .reply 0 []))
      else (s.askSaves true (fun h => h.id.ctx = g.id.ctx), .waits))

/-- A saved context is no longer held for the host: with its cluster, or in a resident cluster with its team, it becomes a candidate
(R182, R342). -/
def State.resumeContext (g : Group) (s : State) : State :=
  let s := s.modGroup g.id.ctx (fun h => { h with hostSave := false })
  if (s.clusterAt g.id.launch g.id.cluster).state = .saved then
    { s with clusters := modifyFirst (fun c => c.launch = g.id.launch && c.cluster = g.id.cluster) (fun c => { c with candidate := true }) s.clusters }
  else { s with teams := s.teams.map (fun t => if t.isOf g then { t with savedAlone := true } else t) }

/-- R342 command 2: the saved context becomes a candidate; a halted debug monitor goes on in the slot that it kept (R354). -/
def execMonitorResume (die : Nat) (s : State) : Result :=
  s.serve die 2 (fun _ m s =>
    match s.liveContext m.arg1 with
    | none => (s, .reply 2 [])
    | some g =>
      if g.status ≠ .saved ∨ g.saving ∨ g.restoring then (s, .reply 1 [])
      else if g.id.monitor then (s.modGroup g.id.ctx (fun g => { g with status := .resident, hostSave := false }), .reply 0 [])
      else (s.resumeContext g, .reply 0 []))

/-- Bytes of an image (R322). -/
def imageBytes : Nat := 49152

/-- R342 command 3. -/
def execReadImage (die : Nat) (s : State) : Result :=
  s.serve die 3 (fun mon m s =>
    match s.liveContext m.arg1 with
    | none => (s, .reply 2 [])
    | some g =>
      if g.id.monitor ∨ imageBytes < m.arg2 + m.length then (s, .reply 1 [])
      else match s.coreRead mon.core g.id.part (s.imageAddr g + m.arg2) m.length with
        | some bs => (s, .reply 0 bs)
        | none => (s, .reply 1 []))

/-- The bytes of a saved image that the monitor may write (R325): pc, region entry pc and counter, active mask, fmt, fault record, the
register areas, stack, handler bank and flags. -/
def imageWritable (off : Nat) : Bool :=
  (0x08 ≤ off && off < 0x24) || (0x40 ≤ off && off < 0x80) || (0x100 ≤ off && off < 0x446) || (0x480 ≤ off && off < 0x780)
    || (0x880 ≤ off && off < 0x8A0) || (0x4000 ≤ off && off < 0xC000)

/-- R342 command 4. -/
def execWriteImage (die : Nat) (s : State) : Result :=
  s.serve die 4 (fun mon m s =>
    match s.liveContext m.arg1 with
    | none => (s, .reply 2 [])
    | some g =>
      if g.id.monitor ∨ g.status ≠ .saved ∨ g.saving ∨ g.restoring ∨ !(List.range m.length).all (fun i => imageWritable (m.arg2 + i)) then
        (s, .reply 1 [])
      else match s.virtWrite (some mon.core) g.id.part (s.imageAddr g + m.arg2) (m.data.take m.length) with
        | some s => (s, .reply 0 [])
        | none => (s, .reply 1 []))

/-- R342 command 5: read as a plain load of the monitor's core. -/
def execReadMemory (die : Nat) (s : State) : Result :=
  s.serve die 5 (fun mon m s =>
    match s.coreRead mon.core (m.arg1 % 16) m.arg2 m.length with
    | some bs => if 2 ^ 52 < m.arg2 + m.length then (s, .reply 1 []) else (s, .reply 0 bs)
    | none => (s, .reply 1 []))

/-- R342 command 6: the bytes are written, and then released at package scope. -/
def execWriteMemory (die : Nat) (s : State) : Result :=
  s.serve die 6 (fun mon m s =>
    if 2 ^ 52 < m.arg2 + m.length then (s, .reply 1 [])
    else
      let r := s.releaseLines mon.core 3 0xFF
      if !r.2 then (r.1, .waits)
      else match r.1.virtWrite (some mon.core) (m.arg1 % 16) m.arg2 (m.data.take m.length) with
        | some s => (s, .reply 0 [])
        | none => (r.1, .reply 1 []))

/-- The bytes of a mailbox that the host writes (R341): inbound tail, outbound head and the inbound ring. -/
def hostMail (off n : Nat) : Bool := (8 ≤ off && off + n ≤ 0x18) || (0x40 ≤ off && off + n ≤ 0x40 + 32704)

/-- R341: a host write of a die's mailbox. -/
def execHostMailboxWrite (die offset : Nat) (bytes : List Byte) (s : State) : Result :=
  .next (if s.ready ∧ die < Config.dies ∧ hostMail offset bytes.length then s.mailWrite die offset bytes else s)

end Sys2Proof.Machine
end

