-- ==== Sys2Proof/Machine/Dispatch.lean ====
section
/-! DEFINITION. The meaning of every instruction: one arm per constructor of `Instr`. -/
namespace Sys2Proof.Machine
open Sys2Proof

/-- One step of the machine's own kind: a program instruction of the issuing group, or a device operation or event. -/
def exec (i : Instr) (s : State) : Host.Outcome State Fault Refusal :=
  match i with
  | .iadd w => Sys2Proof.Machine.execIadd w s
  | .isub w => Sys2Proof.Machine.execIsub w s
  | .imul w => Sys2Proof.Machine.execImul w s
  | .imulh w => Sys2Proof.Machine.execImulh w s
  | .imad w => Sys2Proof.Machine.execImad w s
  | .iabs w => Sys2Proof.Machine.execIabs w s
  | .imin w => Sys2Proof.Machine.execImin w s
  | .imax w => Sys2Proof.Machine.execImax w s
  | .idiv w => Sys2Proof.Machine.execIdiv w s
  | .irem w => Sys2Proof.Machine.execIrem w s
  | .and w => Sys2Proof.Machine.execAnd w s
  | .or w => Sys2Proof.Machine.execOr w s
  | .xor w => Sys2Proof.Machine.execXor w s
  | .andn w => Sys2Proof.Machine.execAndn w s
  | .shl w => Sys2Proof.Machine.execShl w s
  | .shr w => Sys2Proof.Machine.execShr w s
  | .sar w => Sys2Proof.Machine.execSar w s
  | .rotl w => Sys2Proof.Machine.execRotl w s
  | .bfx w => Sys2Proof.Machine.execBfx w s
  | .bfi w => Sys2Proof.Machine.execBfi w s
  | .bsel w => Sys2Proof.Machine.execBsel w s
  | .popc w => Sys2Proof.Machine.execPopc w s
  | .clz w => Sys2Proof.Machine.execClz w s
  | .ctz w => Sys2Proof.Machine.execCtz w s
  | .brev w => Sys2Proof.Machine.execBrev w s
  | .iaddc w => Sys2Proof.Machine.execIaddc w s
  | .iaddx w => Sys2Proof.Machine.execIaddx w s
  | .icmp w => Sys2Proof.Machine.execIcmp w s
  | .sel w => Sys2Proof.Machine.execSel w s
  | .mov w => Sys2Proof.Machine.execMov w s
  | .ldi w => Sys2Proof.Machine.execLdi w s
  | .ldih w => Sys2Proof.Machine.execLdih w s
  | .fadd w => Sys2Proof.Machine.execFadd w s
  | .fsub w => Sys2Proof.Machine.execFsub w s
  | .fmul w => Sys2Proof.Machine.execFmul w s
  | .ffma w => Sys2Proof.Machine.execFfma w s
  | .fmin w => Sys2Proof.Machine.execFmin w s
  | .fmax w => Sys2Proof.Machine.execFmax w s
  | .frcp w => Sys2Proof.Machine.execFrcp w s
  | .frsq w => Sys2Proof.Machine.execFrsq w s
  | .fsqrt w => Sys2Proof.Machine.execFsqrt w s
  | .fdiv w => Sys2Proof.Machine.execFdiv w s
  | .fexp2 w => Sys2Proof.Machine.execFexp2 w s
  | .flog2 w => Sys2Proof.Machine.execFlog2 w s
  | .fsin w => Sys2Proof.Machine.execFsin w s
  | .fcos w => Sys2Proof.Machine.execFcos w s
  | .fscale w => Sys2Proof.Machine.execFscale w s
  | .fgetexp w => Sys2Proof.Machine.execFgetexp w s
  | .fgetman w => Sys2Proof.Machine.execFgetman w s
  | .frint w => Sys2Proof.Machine.execFrint w s
  | .fcmp w => Sys2Proof.Machine.execFcmp w s
  | .fclass w => Sys2Proof.Machine.execFclass w s
  | .fdot2 w => Sys2Proof.Machine.execFdot2 w s
  | .cvt w => Sys2Proof.Machine.execCvt w s
  | .cvtpk w => Sys2Proof.Machine.execCvtpk w s
  | .cvtx w => Sys2Proof.Machine.execCvtx w s
  | .nqdec w => Sys2Proof.Machine.execNqdec w s
  | .nqenc w => Sys2Proof.Machine.execNqenc w s
  | .setfmt w => Sys2Proof.Machine.execSetfmt w s
  | .setfmtImm w => Sys2Proof.Machine.execSetfmtImm w s
  | .getfmt w => Sys2Proof.Machine.execGetfmt w s
  | .getflg w => Sys2Proof.Machine.execGetflg w s
  | .clrflg w => Sys2Proof.Machine.execClrflg w s
  | .kand w => Sys2Proof.Machine.execKand w s
  | .kor w => Sys2Proof.Machine.execKor w s
  | .kxor w => Sys2Proof.Machine.execKxor w s
  | .kandn w => Sys2Proof.Machine.execKandn w s
  | .knot w => Sys2Proof.Machine.execKnot w s
  | .kmov w => Sys2Proof.Machine.execKmov w s
  | .kpop w => Sys2Proof.Machine.execKpop w s
  | .kffs w => Sys2Proof.Machine.execKffs w s
  | .vote w => Sys2Proof.Machine.execVote w s
  | .shfl w => Sys2Proof.Machine.execShfl w s
  | .shflu w => Sys2Proof.Machine.execShflu w s
  | .iscan w => Sys2Proof.Machine.execIscan w s
  | .fscan w => Sys2Proof.Machine.execFscan w s
  | .ired w => Sys2Proof.Machine.execIred w s
  | .fred w => Sys2Proof.Machine.execFred w s
  | .matchLanes w => Sys2Proof.Machine.execMatchLanes w s
  | .compact w => Sys2Proof.Machine.execCompact w s
  | .expand w => Sys2Proof.Machine.execExpand w s
  | .bra w => Sys2Proof.Machine.execBra w s
  | .brx w => Sys2Proof.Machine.execBrx w s
  | .call w => Sys2Proof.Machine.execCall w s
  | .callx w => Sys2Proof.Machine.execCallx w s
  | .ret w => Sys2Proof.Machine.execRet w s
  | .mark w => Sys2Proof.Machine.execMark w s
  | .join w => Sys2Proof.Machine.execJoin w s
  | .exit w => Sys2Proof.Machine.execExit w s
  | .nop w => Sys2Proof.Machine.execNop w s
  | .yield w => Sys2Proof.Machine.execYield w s
  | .yieldPause w => Sys2Proof.Machine.execYieldPause w s
  | .ld w => Sys2Proof.Machine.execLd w s
  | .ldLiteral w => Sys2Proof.Machine.execLdLiteral w s
  | .st w => Sys2Proof.Machine.execSt w s
  | .atom w => Sys2Proof.Machine.execAtom w s
  | .narrow w => Sys2Proof.Machine.execNarrow w s
  | .widen w => Sys2Proof.Machine.execWiden w s
  | .linclr w => Sys2Proof.Machine.execLinclr w s
  | .pmake w => Sys2Proof.Machine.execPmake w s
  | .pset w => Sys2Proof.Machine.execPset w s
  | .padd w => Sys2Proof.Machine.execPadd w s
  | .psub w => Sys2Proof.Machine.execPsub w s
  | .pget w => Sys2Proof.Machine.execPget w s
  | .pchk w => Sys2Proof.Machine.execPchk w s
  | .pmov w => Sys2Proof.Machine.execPmov w s
  | .mma w => Sys2Proof.Machine.execMma w s
  | .roster w => Sys2Proof.Machine.execRoster w s
  | .acalloc w => Sys2Proof.Machine.execAcalloc w s
  | .acfree w => Sys2Proof.Machine.execAcfree w s
  | .aczero w => Sys2Proof.Machine.execAczero w s
  | .acrd w => Sys2Proof.Machine.execAcrd w s
  | .acwr w => Sys2Proof.Machine.execAcwr w s
  | .sealm w => Sys2Proof.Machine.execSealm w s
  | .waitp w => Sys2Proof.Machine.execWaitp w s
  | .waitm w => Sys2Proof.Machine.execWaitm w s
  | .waitc w => Sys2Proof.Machine.execWaitc w s
  | .waith w => Sys2Proof.Machine.execWaith w s
  | .sealc w => Sys2Proof.Machine.execSealc w s
  | .arm w => Sys2Proof.Machine.execArm w s
  | .barInit w => Sys2Proof.Machine.execBarInit w s
  | .barArrive w => Sys2Proof.Machine.execBarArrive w s
  | .barArriveRemote w => Sys2Proof.Machine.execBarArriveRemote w s
  | .barExpect w => Sys2Proof.Machine.execBarExpect w s
  | .barWait w => Sys2Proof.Machine.execBarWait w s
  | .barTry w => Sys2Proof.Machine.execBarTry w s
  | .rdid w => Sys2Proof.Machine.execRdid w s
  | .rdclk w => Sys2Proof.Machine.execRdclk w s
  | .vgrow w => Sys2Proof.Machine.execVgrow w s
  | .vshrink w => Sys2Proof.Machine.execVshrink w s
  | .gridgrow w => Sys2Proof.Machine.execGridgrow w s
  | .xset w => Sys2Proof.Machine.execXset w s
  | .xadd w => Sys2Proof.Machine.execXadd w s
  | .xget w => Sys2Proof.Machine.execXget w s
  | .myname w => Sys2Proof.Machine.execMyname w s
  | .nameinfo w => Sys2Proof.Machine.execNameinfo w s
  | .pollpre w => Sys2Proof.Machine.execPollpre w s
  | .region w => Sys2Proof.Machine.execRegion w s
  | .trap w => Sys2Proof.Machine.execTrap w s
  | .brkpt w => Sys2Proof.Machine.execBrkpt w s
  | .hret w => Sys2Proof.Machine.execHret w s
  | .hretr w => Sys2Proof.Machine.execHretr w s
  | .rdsr w => Sys2Proof.Machine.execRdsr w s
  | .rdsrMgmt w => Sys2Proof.Machine.execRdsrMgmt w s
  | .wrsr w => Sys2Proof.Machine.execWrsr w s
  | .wrsrMgmt w => Sys2Proof.Machine.execWrsrMgmt w s
  | .tlbinv w => Sys2Proof.Machine.execTlbinv w s
  | .mbxs w => Sys2Proof.Machine.execMbxs w s
  | .mbxr w => Sys2Proof.Machine.execMbxr w s
  | .ifread w => Sys2Proof.Machine.execIfread w s
  | .halt w => Sys2Proof.Machine.execHalt w s
  | .runGrant core quarter => Sys2Proof.Machine.execRunGrant core quarter s
  | .runFetch ctx => Sys2Proof.Machine.execRunFetch ctx s
  | .loadDataLands ctx id resp => Sys2Proof.Machine.execLoadDataLands ctx id resp s
  | .inFlightCompletion ctx id resp => Sys2Proof.Machine.execInFlightCompletion ctx id resp s
  | .atomicPerform ctx id resp => Sys2Proof.Machine.execAtomicPerform ctx id resp s
  | .syncAccessPerform ctx id resp => Sys2Proof.Machine.execSyncAccessPerform ctx id resp s
  | .translationWalk core part va => Sys2Proof.Machine.execTranslationWalk core part va s
  | .drain line core => Sys2Proof.Machine.execDrain line core s
  | .drainack line core => Sys2Proof.Machine.execDrainack line core s
  | .gets line from_ => Sys2Proof.Machine.execGets line from_ s
  | .getm line from_ => Sys2Proof.Machine.execGetm line from_ s
  | .putm line from_ => Sys2Proof.Machine.execPutm line from_ s
  | .puto line from_ => Sys2Proof.Machine.execPuto line from_ s
  | .pute line from_ => Sys2Proof.Machine.execPute line from_ s
  | .fwdgets line at_ => Sys2Proof.Machine.execFwdgets line at_ s
  | .fwdgetm line at_ => Sys2Proof.Machine.execFwdgetm line at_ s
  | .inv line at_ => Sys2Proof.Machine.execInv line at_ s
  | .cnt line at_ => Sys2Proof.Machine.execCnt line at_ s
  | .backinv line at_ => Sys2Proof.Machine.execBackinv line at_ s
  | .data line at_ => Sys2Proof.Machine.execData line at_ s
  | .datae line at_ => Sys2Proof.Machine.execDatae line at_ s
  | .invack line at_ => Sys2Proof.Machine.execInvack line at_ s
  | .putack line at_ => Sys2Proof.Machine.execPutack line at_ s
  | .backack line from_ => Sys2Proof.Machine.execBackack line from_ s
  | .retireNotice tag => Sys2Proof.Machine.execRetireNotice tag s
  | .suppressionRetry ctx id => Sys2Proof.Machine.execSuppressionRetry ctx id s
  | .sliceRetire die slice => Sys2Proof.Machine.execSliceRetire die slice s
  | .retirementRetry line from_ => Sys2Proof.Machine.execRetirementRetry line from_ s
  | .correctableError err => Sys2Proof.Machine.execCorrectableError err s
  | .uncorrectableError err => Sys2Proof.Machine.execUncorrectableError err s
  | .patrolScrub line => Sys2Proof.Machine.execPatrolScrub line s
  | .meshFlitError err => Sys2Proof.Machine.execMeshFlitError err s
  | .congestionCounterReload die quadrant flits => Sys2Proof.Machine.execCongestionCounterReload die quadrant flits s
  | .vgrowGrant core quarter => Sys2Proof.Machine.execVgrowGrant core quarter s
  | .acallocGrant core => Sys2Proof.Machine.execAcallocGrant core s
  | .pauseExpiry ctx => Sys2Proof.Machine.execPauseExpiry ctx s
  | .workQueueWrite queue word value => Sys2Proof.Machine.execWorkQueueWrite queue word value s
  | .recordAccept queue => Sys2Proof.Machine.execRecordAccept queue s
  | .dispatch => Sys2Proof.Machine.execDispatch s
  | .heldCandidateReserve => Sys2Proof.Machine.execHeldCandidateReserve s
  | .preemptionDeadline ctx => Sys2Proof.Machine.execPreemptionDeadline ctx s
  | .save ctx => Sys2Proof.Machine.execSave ctx s
  | .saveFinished ctx => Sys2Proof.Machine.execSaveFinished ctx s
  | .resourceDeadlockSave core => Sys2Proof.Machine.execResourceDeadlockSave core s
  | .gridgrowResult ctx => Sys2Proof.Machine.execGridgrowResult ctx s
  | .slotRelease ctx => Sys2Proof.Machine.execSlotRelease ctx s
  | .teamEnd launch team => Sys2Proof.Machine.execTeamEnd launch team s
  | .gridCompletion launch => Sys2Proof.Machine.execGridCompletion launch s
  | .eventGrant => Sys2Proof.Machine.execEventGrant s
  | .clusterKill launch cluster reason => Sys2Proof.Machine.execClusterKill launch cluster reason s
  | .shadowMismatch ctx err => Sys2Proof.Machine.execShadowMismatch ctx err s
  | .matrixOperation core failedChecks => Sys2Proof.Machine.execMatrixOperation core failedChecks s
  | .barrierArrivalApply ctx id => Sys2Proof.Machine.execBarrierArrivalApply ctx id s
  | .barrierRemoteArrival ctx id => Sys2Proof.Machine.execBarrierRemoteArrival ctx id s
  | .copyStart ctx id => Sys2Proof.Machine.execCopyStart ctx id s
  | .copyChunk core channel => Sys2Proof.Machine.execCopyChunk core channel s
  | .gatherStart ctx id => Sys2Proof.Machine.execGatherStart ctx id s
  | .gatherBag core channel => Sys2Proof.Machine.execGatherBag core channel s
  | .collectiveStart ctx id => Sys2Proof.Machine.execCollectiveStart ctx id s
  | .reductionContribution part => Sys2Proof.Machine.execReductionContribution part s
  | .reductionTotal group sequence chunk total => Sys2Proof.Machine.execReductionTotal group sequence chunk total s
  | .reductionAbort group sequence => Sys2Proof.Machine.execReductionAbort group sequence s
  | .apertureRegisterWrite ctx id => Sys2Proof.Machine.execApertureRegisterWrite ctx id s
  | .flitResend port failures => Sys2Proof.Machine.execFlitResend port failures s
  | .portStatusWrite port value => Sys2Proof.Machine.execPortStatusWrite port value s
  | .peerRequest req => Sys2Proof.Machine.execPeerRequest req s
  | .parkRewalk index => Sys2Proof.Machine.execParkRewalk index s
  | .keepWaitingNotice ctx id => Sys2Proof.Machine.execKeepWaitingNotice ctx id s
  | .remoteFaultTimeout ctx id => Sys2Proof.Machine.execRemoteFaultTimeout ctx id s
  | .cancel tag => Sys2Proof.Machine.execCancel tag s
  | .lostHomeTimeout package => Sys2Proof.Machine.execLostHomeTimeout package s
  | .lostHomeTableWrite index value => Sys2Proof.Machine.execLostHomeTableWrite index value s
  | .multicastStore req group offer => Sys2Proof.Machine.execMulticastStore req group offer s
  | .multicastAck tag ack => Sys2Proof.Machine.execMulticastAck tag ack s
  | .regsWordDelivery word => Sys2Proof.Machine.execRegsWordDelivery word s
  | .regsAck ctx id outcome => Sys2Proof.Machine.execRegsAck ctx id outcome s
  | .migrate command => Sys2Proof.Machine.execMigrate command s
  | .admitName command => Sys2Proof.Machine.execAdmitName command s
  | .hostMemrd offset exclusive => Sys2Proof.Machine.execHostMemrd offset exclusive s
  | .hostMemwr offset bytes => Sys2Proof.Machine.execHostMemwr offset bytes s
  | .hostSnoop line invalidate => Sys2Proof.Machine.execHostSnoop line invalidate s
  | .biasFlipToHost command => Sys2Proof.Machine.execBiasFlipToHost command s
  | .biasFlipToDevice command => Sys2Proof.Machine.execBiasFlipToDevice command s
  | .pageflush core => Sys2Proof.Machine.execPageflush core s
  | .flushack core => Sys2Proof.Machine.execFlushack core s
  | .bisnpinv line => Sys2Proof.Machine.execBisnpinv line s
  | .bisnpdata line => Sys2Proof.Machine.execBisnpdata line s
  | .birspi line => Sys2Proof.Machine.execBirspi line s
  | .faultReplyResume part ctx => Sys2Proof.Machine.execFaultReplyResume part ctx s
  | .faultReplyRefuse part ctx => Sys2Proof.Machine.execFaultReplyRefuse part ctx s
  | .monitorSuspend die => Sys2Proof.Machine.execMonitorSuspend die s
  | .monitorResume die => Sys2Proof.Machine.execMonitorResume die s
  | .readImage die => Sys2Proof.Machine.execReadImage die s
  | .writeImage die => Sys2Proof.Machine.execWriteImage die s
  | .readMemory die => Sys2Proof.Machine.execReadMemory die s
  | .writeMemory die => Sys2Proof.Machine.execWriteMemory die s
  | .contextSave part ctx => Sys2Proof.Machine.execContextSave part ctx s
  | .contextResume part ctx => Sys2Proof.Machine.execContextResume part ctx s
  | .contextKill part ctx => Sys2Proof.Machine.execContextKill part ctx s
  | .chipWindowWrite part die value => Sys2Proof.Machine.execChipWindowWrite part die value s
  | .dispatchControlWrite value => Sys2Proof.Machine.execDispatchControlWrite value s
  | .fabricBaseWrite multicast value => Sys2Proof.Machine.execFabricBaseWrite multicast value s
  | .powerWrite value => Sys2Proof.Machine.execPowerWrite value s
  | .powerPeriod watts => Sys2Proof.Machine.execPowerPeriod watts s
  | .attestation value => Sys2Proof.Machine.execAttestation value s
  | .reset value => Sys2Proof.Machine.execReset value s
  | .powerOn => Sys2Proof.Machine.execPowerOn s
  | .managementRegisterWrite offset value => Sys2Proof.Machine.execManagementRegisterWrite offset value s
  | .linkTrained port => Sys2Proof.Machine.execLinkTrained port s
  | .hostMailboxWrite die offset bytes => Sys2Proof.Machine.execHostMailboxWrite die offset bytes s
  | .relaunchOrder launch cluster => Sys2Proof.Machine.execRelaunchOrder launch cluster s

end Sys2Proof.Machine
end

