-- ==== Sys2Proof/Machine/Step.lean ====
section
/-! DEFINITION. One step of the module: what is due comes first (log 1), else the issuing group's next instruction of its
started run (spec 03 R76 to R80, R82, R85). -/
namespace Sys2Proof.Machine
open Sys2Proof

/-- The module cycle counter moves on, and the free values of the next step are others (log 5, log 8). -/
def State.tick (s : State) : State := { s with time := s.time + 1 + Config.stepCycles s.free, free := s.free + 1 }

/-- An outcome with the time moved on. -/
def ticked (r : Result) : Result :=
  match r with
  | .next s => .next s.tick
  | .fault f => .fault f
  | .refused e => .refused e

/-- After a device operation or event every run that had to wait tries its instruction again (R21, R80). -/
def State.retryRuns (s : State) : State := { s with g := s.g.unstall s.time, gs := s.gs.map (Group.unstall s.time) }

/-- The next fetched unit of the issuing group's run is issued (R79, R82, R85), and its shadow makes its own of it (R334, R335). -/
def State.issueNext (s : State) : Result :=
  match s.g.ibuf with
  | [] => .next s
  | u :: _ =>
    match s.issueUnit exec u with
    | .next t => .next (State.observe exec s u t).afterwards
    | .fault f => .fault f
    | .refused e => .refused e

/-- What is due is done; a program instruction is no event. -/
def State.act (a : Act) (s : State) : Result :=
  match a with
  | .focus ctx => .next (s.focus ctx)
  | .event i =>
    if i.isEvent then
      match exec i s with
      | .next t => .next t.afterwards.retryRuns
      | r => r
    else .next s

/-- The issuing group has a started run whose next instruction can be tried now. -/
def State.canIssue (s : State) : Bool := s.g.running && s.g.stall = .none

/-- What the issuing group does when nothing else is due: its decider's next instruction (R336), or its run's. -/
def State.advance (s : State) : Result :=
  if s.g.deciding then .next (s.runDecider exec).afterwards else if s.canIssue then s.issueNext else .next s

/-- What a module that lost a die still does: it reports the loss (R216), and a power-on or a reset starts it anew (R411, log 91). -/
def outlastsLoss : Act → Bool
  | .event .eventGrant | .event .powerOn | .event (.reset _) => true
  | _ => false

/-- One step (R216, R411). -/
def step (s : State) : Host.Outcome State Fault Refusal :=
  if s.fatal then
    (match s.agenda with
     | a :: rest => if outlastsLoss a then ticked (State.act a { s with agenda := rest }) else .fault .moduleFatal
     | [] => .fault .moduleFatal)
  else ticked (match s.agenda with
    | a :: rest => State.act a { s with agenda := rest }
    | [] => s.advance)

/-- The state with one instruction as the next unit of a started run of the issuing group (log 23). -/
def State.withFetchWord (s : State) (nbits w : Nat) : State :=
  { s with
    agenda := [], fatal := false
    g := { s.g with
      id := { s.g.id with ctx := if s.g.id.ctx = 2 ^ 24 then 0 else s.g.id.ctx }
      status := .resident, running := true, issued := 0, stall := .none
      ibuf := [.word (BitVec.ofNat 128 (leNat (leBytes 16 (w % 2 ^ nbits))))] } }

end Sys2Proof.Machine
end

