-- ==== Sys2Proof/Safety.lean ====
section
/-! DEFINITION. What counts as a safe run, and the terms that claims use: the canonical forms every step keeps, when an
instruction executes normally (spec 01 R15, R20, R21, 03 R64, R76, R78, R82, R34), what the run's bookkeeping is, what a step
leaves unchanged, and what it means that a synchronous result was written (03 R65, R66, R72; 04 R102). -/
namespace Sys2Proof.Safety
open Sys2Proof Sys2Proof.Machine

/-- Memory and the chip scratchpads are in their canonical form. -/
def Canonical (s : State) : Prop := s.mem.wf = true ∧ s.chip.wf = true

/-- A step that answers a next state. -/
def Runs (s t : State) : Prop := step s = .next t

/-- A run of `n` steps that meets no fault and no refusal. -/
def SafeRun : Nat → State → Prop
  | 0, _ => True
  | n + 1, s => ∃ t, Runs s t ∧ SafeRun n t

/-- The program instruction `i` with the word fields `w`, which names the registers `uses`, executes normally (R34): the word is
legal, the run may still hold the instruction (R76) and, for a wait-class instruction, begins with it (R78), the context may execute
it (R25, R343), every register exists and is aligned (R11, R15) and carries no hold (R20, R21), at least one active lane is enabled
(R64), and no fault waits for the run boundary that E = 1 makes (R268). -/
abbrev Ready (i : Instr) (w : Fields) (uses : List RegUse) (s : State) : Prop :=
  i.WellFormed = true ∧ (s.g.issued = 23 → w.e = true) ∧ (privileged i = true → s.g.id.system = true)
    ∧ (monitorOnly i = true → s.g.id.monitor = true) ∧ (waitClass i = true → s.g.issued = 0)
    ∧ (∀ u ∈ uses, s.g.outOfBounds u = false) ∧ s.g.lanes w ≠ 0
    ∧ (∀ u ∈ uses, u.file = .v → ∀ r < u.count, s.g.holdCount (u.num + r) = 0)
    ∧ (w.e = true → s.g.boundaryFaults = [])

/-- A group without its run's bookkeeping: the pc, the run's count, buffer and stall, its latches, and what R186 and R272 keep of a
run. -/
def still (g : Group) : Group :=
  { g with pc := 0, issued := 0, running := false, ibuf := [], stall := .none, memBound := false, memOps := 0, unsent := []
           tileWait := none, lat := Vector.replicate 4 (Vector.replicate 32 none) }

/-- The issuing group became `g'`, but for its run's bookkeeping; nothing else of the module changed, and every byte of memory reads
as before. -/
def Only (s t : State) (g' : Group) : Prop :=
  still t.g = still g' ∧ { t with g := s.g } = s ∧ ∀ a n, t.physRead a n = s.physRead a n

/-- The instruction is done (R76, R77): the pc stands at the next instruction, and the run goes on, or is over with E = 1. -/
def Advanced (w : Fields) (s t : State) : Prop :=
  t.g.pc = (s.g.pc + 16) % 2 ^ 52 ∧ t.g.stall = .none ∧
    (if w.e then t.g.running = false ∧ t.g.issued = 0 ∧ t.g.ibuf = []
     else t.g.running = s.g.running ∧ t.g.issued = s.g.issued + 1 ∧ t.g.ibuf = s.g.ibuf.drop 1)

/-- A result of a 32-bit type is its low half (R12). -/
def cutTo (wide : Bool) (x : BitVec 64) : BitVec 64 := if wide then x else (x.setWidth 32).setWidth 64

/-- The value of lane `l` of a result: the lane's own, or with G = 1 the one value of lane 0's operands (R65). -/
def laneVal (w : Fields) (wide : Bool) (f : Nat → BitVec 64) (l : Nat) : BitVec 64 := cutTo wide (f (if w.g then 0 else l))

/-- The value of a uniform destination: with G = 0 that of the lowest active, enabled lane (R66, log 12). -/
def uniVal (w : Fields) (wide : Bool) (f : Nat → BitVec 64) (s : State) : BitVec 64 :=
  cutTo wide (f (if w.g then 0 else lowestLane (s.g.lanes w)))

/-- The result `f`, one value for each lane, is written (R66): a v destination in the active, enabled lanes, an s or k destination as
a uniform value, nothing with N = 1; every other register keeps its value. -/
def Written (w : Fields) (wide : Bool) (f : Nat → BitVec 64) (s t : State) : Prop :=
  let d := s.g.dnum w
  (∀ n < 256, ∀ l < 32, t.g.readV n l =
    if w.n = false ∧ w.dfile = .v ∧ (s.g.lanes w).getLsbD l = true ∧ n = d then (laneVal w wide f l).setWidth 32
    else if w.n = false ∧ w.dfile = .v ∧ (s.g.lanes w).getLsbD l = true ∧ wide = true ∧ n = d + 1 then
      (laneVal w wide f l >>> 32).setWidth 32
    else s.g.readV n l) ∧
  (∀ n < 64, t.g.readS n = if w.n = false ∧ w.dfile = .s ∧ n = d then uniVal w wide f s else s.g.readS n) ∧
  (∀ n < 16, t.g.readK n =
    if w.n = false ∧ w.dfile = .k ∧ n = d ∧ n ≠ 0 then (uniVal w wide f s).setWidth 32 else s.g.readK n)

/-- One lane of a latch. -/
def latchLane (g : Group) (n l : Nat) : Option (BitVec 64) := rd none (rd (Vector.replicate 32 none) g.lat n) l

/-- The result is captured in latch CAP while the run goes on (R72, R74): a uniform result in every lane, a vector result in the
active, enabled lanes, where a 32-bit value leaves the high half open; every other latch lane keeps what it held. -/
def Latched (w : Fields) (wide : Bool) (f : Nat → BitVec 64) (s t : State) : Prop :=
  let uniform : Bool := w.g || (!w.n && w.dfile ≠ .v)
  w.e = false → ∀ n < 4, ∀ l < 32,
    if n ≠ w.cap.toNat then latchLane t.g n l = latchLane s.g n l
    else if uniform then latchLane t.g n l = some (uniVal w wide f s)
    else if (s.g.lanes w).getLsbD l then
      ∃ x, latchLane t.g n l = some x ∧ (if wide then x = laneVal w wide f l else x.setWidth 32 = (laneVal w wide f l).setWidth 32)
    else latchLane t.g n l = latchLane s.g n l

/-- The registers of `t` in place of those of `g`: the only state, but for the run, that a synchronous result may change. -/
def regsOf (g t : Group) : Group := { g with v := t.v, s := t.s, hs := t.hs, k := t.k }

/-- The bank of uniform registers that the mode does not select keeps its values (R24). -/
def BankKept (w : Fields) (s t : State) : Prop :=
  let d := s.g.dnum w
  if w.n = false ∧ w.dfile = .s then
    (if 0 < s.g.depth ∧ d < 8 then t.g.s = s.g.s else t.g.hs = s.g.hs)
  else t.g.s = s.g.s ∧ t.g.hs = s.g.hs

/-- An instruction wrote the result `f` and did nothing else (R102): the frame of a register-only instruction. -/
def Yields (w : Fields) (wide : Bool) (f : Nat → BitVec 64) (s t : State) : Prop :=
  Written w wide f s t ∧ Latched w wide f s t ∧ BankKept w s t ∧ Advanced w s t ∧ Only s t (regsOf s.g t.g)

/-- Flags are ORed into the active, enabled lanes, and stay in the others (R19). -/
def FlagsOred (w : Fields) (fl : Nat → FlagBits) (s t : State) : Prop :=
  ∀ l < 32, rd 0 t.g.flags l = if (s.g.lanes w).getLsbD l then rd 0 s.g.flags l ||| fl l else rd 0 s.g.flags l

/-- An instruction wrote the result `f`, raised the flags `fl`, and did nothing else. -/
def YieldsFlags (w : Fields) (wide : Bool) (f : Nat → BitVec 64) (fl : Nat → FlagBits) (s t : State) : Prop :=
  Written w wide f s t ∧ Latched w wide f s t ∧ BankKept w s t ∧ FlagsOred w fl s t ∧ Advanced w s t ∧
    Only s t { regsOf s.g t.g with flags := t.g.flags }

/-- An instruction wrote a mask result (R102): bit `l` is `f l` in an active, enabled lane and 0 elsewhere; latch CAP captures the mask
as a uniform value; it raised the flags `fl` and did nothing else. -/
def MaskYields (w : Fields) (f : Nat → Bool) (fl : Nat → FlagBits) (s t : State) : Prop :=
  (∃ x : Mask, (∀ l < 32, x.getLsbD l = ((s.g.lanes w).getLsbD l && f l)) ∧
    (∀ n < 16, t.g.readK n = if w.n = false ∧ n = s.g.dnum w ∧ n ≠ 0 then x else s.g.readK n) ∧
    (w.e = false → ∀ n < 4, ∀ l < 32,
      latchLane t.g n l = if n = w.cap.toNat then some (x.setWidth 64) else latchLane s.g n l)) ∧
  FlagsOred w fl s t ∧ Advanced w s t ∧ Only s t { s.g with k := t.g.k, flags := t.g.flags }

/-- An instruction wrote a vector result in those active, enabled lanes for which `f` gives a value, or a uniform s result when the
lowest active lane has one (R157); other lanes and registers keep their values, and only written lanes are captured. -/
def PartYields (w : Fields) (wide : Bool) (f : Nat → Option (BitVec 64)) (s t : State) : Prop :=
  let d := s.g.dnum w
  let m := s.g.lanes w
  let vector : Bool := w.n || w.dfile = .v
  (∀ n < 256, ∀ l < 32, t.g.readV n l =
    match f l with
    | some x =>
      if w.n = false ∧ w.dfile = .v ∧ m.getLsbD l = true ∧ n = d then x.setWidth 32
      else if w.n = false ∧ w.dfile = .v ∧ m.getLsbD l = true ∧ wide = true ∧ n = d + 1 then (x >>> 32).setWidth 32
      else s.g.readV n l
    | none => s.g.readV n l) ∧
  (∀ n < 64, t.g.readS n =
    match f (lowestLane m) with
    | some x => if vector = false ∧ n = d then x else s.g.readS n
    | none => s.g.readS n) ∧
  (w.e = false → ∀ n < 4, ∀ l < 32,
    if n = w.cap.toNat then
      (if vector then
        (match (if m.getLsbD l then f l else none) with
         | some x => ∃ y, latchLane t.g n l = some y ∧ (if wide then y = x else y.setWidth 32 = x.setWidth 32)
         | none => latchLane t.g n l = latchLane s.g n l)
       else latchLane t.g n l = (match f (lowestLane m) with | some x => some x | none => latchLane s.g n l))
    else latchLane t.g n l = latchLane s.g n l) ∧
  (if vector = true ∨ f (lowestLane m) = none then t.g.s = s.g.s ∧ t.g.hs = s.g.hs
   else if 0 < s.g.depth ∧ d < 8 then t.g.s = s.g.s else t.g.hs = s.g.hs) ∧
  Advanced w s t ∧ Only s t { s.g with v := t.g.v, s := t.g.s, hs := t.g.hs }

/-- An instruction wrote a pointer result (R72, R121): a p register, or the quad of each active, enabled lane; latch CAP captures bits
63:0; nothing else happened. -/
def PtrYields (w : Fields) (f : Nat → Ptr) (s t : State) : Prop :=
  let d := s.g.dnum w
  let m := s.g.lanes w
  let val (l : Nat) : Ptr := f (if w.g then 0 else l)
  (∀ n < 256, ∀ l < 32, t.g.readV n l =
    if w.n = false ∧ w.dfile = .v ∧ m.getLsbD l = true ∧ d ≤ n ∧ n < d + 4 then (val l >>> (32 * (n - d))).setWidth 32
    else s.g.readV n l) ∧
  (∀ n < 16, t.g.readP n = if w.n = false ∧ w.dfile = .p ∧ n = d then f 0 else s.g.readP n) ∧
  (w.e = false → ∀ n < 4, ∀ l < 32, latchLane t.g n l =
    if n = w.cap.toNat ∧ (w.g = true ∨ m.getLsbD l = true) then some ((val l).setWidth 64) else latchLane s.g n l) ∧
  Advanced w s t ∧ Only s t { s.g with v := t.g.v, p := t.g.p }

/-- When `i` with the word `w` is ready with the registers `uses`, `exec` answers a next state, of which `P` holds. -/
def Does (i : Instr) (w : Fields) (uses : List RegUse) (s : State) (P : State → Prop) : Prop :=
  Ready i w uses s → ∃ t, exec i s = .next t ∧ P t

/-- Element `k` of a lane value of the word's type, as a number of its signedness (R37, R38). -/
def elem (w : Fields) (x : BitVec 64) (k : Nat) : Int :=
  elemValue w.type (Ty.elems w.type).1 (bitsAt ((Ty.elems w.type).1 * k) (Ty.elems w.type).1 x.toNat)

/-- Every element of every lane of `x` is the exact result `f` of the operands' elements, modulo 2 to the element width (R102). -/
def Exact (w : Fields) (x : Nat → BitVec 64) (f : Nat → Nat → Int) : Prop :=
  ∀ l < 32, ∀ k < (Ty.elems w.type).2,
    (bitsAt ((Ty.elems w.type).1 * k) (Ty.elems w.type).1 (x l).toNat : Int) = f l k % 2 ^ (Ty.elems w.type).1

/-- An integer instruction writes, in every lane and element, its exact result modulo 2 to the element width (R102), and does nothing
else. -/
def IntResult (i : Instr) (w : Fields) (uses : List RegUse) (s : State) (f : Nat → Nat → Int) : Prop :=
  Does i w uses s fun t => ∃ x, Yields w w.type.wide x s t ∧ Exact w x f

/-- A bit instruction writes a value each of whose bits, below the type's width, is `bit l j`, and does nothing else. -/
def BitResult (i : Instr) (w : Fields) (uses : List RegUse) (s : State) (bit : Nat → Nat → Bool) : Prop :=
  Does i w uses s fun t => ∃ x, Yields w w.type.wide x s t ∧ ∀ l < 32, ∀ j < w.type.width, (x l).getLsbD j = bit l j

/-- The group after an instruction is done (R76, R317, R186): the pc moves on, a region is entered when the instruction makes one, and
with E = 1 the run is over. -/
def done (w : Fields) (closes : Bool) (g : Group) : Group :=
  let pc := (g.pc + 16) % 2 ^ 52
  let g := { g with pc := pc, issued := g.issued + 1, stall := .none, ibuf := g.ibuf.drop 1 }
  let g := if closes then { g with regionPc := pc, regionCount := (g.regionCount + 1) % 2 ^ 32 } else g
  if w.e then
    { g with running := false, issued := 0, ibuf := [], unsent := [], tileWait := none, memBound := 4 < g.memOps, memOps := 0
             lat := Vector.replicate 4 (Vector.replicate 32 none) }
  else g

/-- The group after a control transfer (R76, R77): the run is over and the next one begins at the target. -/
def jumped (target : Nat) (g : Group) : Group :=
  { g with pc := target, running := false, issued := 0, ibuf := [], stall := .none, unsent := [], tileWait := none
           memBound := 4 < g.memOps, memOps := 0, lat := Vector.replicate 4 (Vector.replicate 32 none) }

/-- When `i` is ready, the issuing group becomes `g`, nothing else of the module changes, and every byte of memory reads as before. -/
def Sets (i : Instr) (w : Fields) (uses : List RegUse) (s : State) (g : Group) : Prop :=
  Ready i w uses s → exec i s = .next { s with g := g } ∧ ∀ a n, State.physRead { s with g := g } a n = s.physRead a n

/-- The operation of an integer scan on values of the type (R160). -/
def scanOp (t : Ty) (code : Nat) (a b : BitVec 64) : BitVec 64 :=
  let num (x : BitVec 64) : Int := elemValue t t.width x.toNat
  match code with
  | 0 => cutTo t.wide (a + b)
  | 1 => if num b < num a then b else a
  | 2 => if num a < num b then b else a
  | 3 => a &&& b | 4 => a ||| b | _ => a ^^^ b

/-- The lanes that lane `l` of a scan combines (R160): every active lane for a reduction, else those below it, and itself when the scan
is inclusive. -/
def scanned (reduce excl : Bool) (m : Mask) (l : Nat) : List Nat :=
  (List.range 32).filter fun j => m.getLsbD j && (reduce || j < l || (!excl && j = l))

/-- One level of the tree of R56: lane `l` takes lane `l − d` as its left operand. -/
def treeLevel (op : BitVec 64 → BitVec 64 → BitVec 64 × FlagBits) (d : Nat) (y : Nat → Option (BitVec 64)) (l : Nat) :
    Option (BitVec 64) × FlagBits :=
  if l < d then (y l, 0)
  else match y (l - d), y l with
    | some a, some b => (some (op a b).1, (op a b).2)
    | some a, none => (some a, 0)
    | none, z => (z, 0)

/-- The values and the flags that the tree of R56 leaves. -/
def tree (op : BitVec 64 → BitVec 64 → BitVec 64 × FlagBits) (y : Nat → Option (BitVec 64)) : (Nat → Option (BitVec 64)) × FlagBits :=
  [1, 2, 4, 8, 16].foldl (fun y d => (fun l => (treeLevel op d y.1 l).1,
    (List.range 32).foldl (fun fl l => fl ||| (treeLevel op d y.1 l).2) y.2)) (y, 0)

/-- A floating-point instruction writes, in every lane and element, the pattern that `f` gives for the operands' elements under fmt
(R38, R107, R108), ORs the elements' flags into the lane's (R19), and does nothing else. -/
def FloatResult (i : Instr) (w : Fields) (uses : List RegUse) (s : State) (f : Nat → FFmt → FCtx → Nat → Nat → Nat → FRes) : Prop :=
  Does i w uses s fun t => ∃ (x : Nat → BitVec 64) (fl : Nat → FlagBits),
    YieldsFlags w w.type.wide x fl s t ∧ ∀ l < 32,
      let n := (floatOf w.type).bits
      let lane := if w.g then 0 else l
      let r (k : Nat) : FRes := f lane (floatOf w.type) (FCtx.ofFmt s.g.fmt) (bitsAt (n * k) n (s.opA w lane).toNat)
        (bitsAt (n * k) n (s.opB w lane).toNat) (bitsAt (n * k) n (s.opC w lane).toNat)
      if w.type.packed then bitsAt 0 n (x l).toNat = (r 0).1 ∧ bitsAt n n (x l).toNat = (r 1).1 ∧ fl l = (r 0).2 ||| (r 1).2
      else (x l).toNat = (r 0).1 ∧ fl l = (r 0).2

/-- The group that waits at its pc, its run over (R78, R152); a `gridgrow` at which it stood has not been executed, by it or its shadow (R172). -/
def parked (g : Group) : Group :=
  { g with running := false, issued := 0, ibuf := [], stall := .none, unsent := [], tileWait := none, memOps := 0
           entries := g.entries.filter (fun e => e.kind ≠ .gridgrow)
           shadow := match g.entries.find? (fun e => e.kind = .gridgrow) with
             | some e => g.shadow.map (Shadow.forget e.id)
             | none => g.shadow
           lat := Vector.replicate 4 (Vector.replicate 32 none) }

/-- A region is entered at the next instruction, or not (R22, R317). -/
def RegionEntered (closes : Bool) (s t : State) : Prop :=
  if closes then t.g.regionPc = t.g.pc ∧ t.g.regionCount = (s.g.regionCount + 1) % 2 ^ 32
  else t.g.regionPc = s.g.regionPc ∧ t.g.regionCount = s.g.regionCount

/-- The record has room for one more entry with `slots` payload slots, of class D with a tag that is not live (R212, R326, R329). -/
def HasRoom (slots : Nat) (classD : Bool) (s : State) : Prop :=
  s.g.recordUsed < 24 ∧ (s.g.freeSlots slots).isSome ∧ s.g.entries.foldl (fun n e => n + e.slots) 0 + slots ≤ 24 ∧
    (classD = true → s.nextTag ∉ s.g.liveTags)

/-- The access became one entry `e` of the in-flight record, which carries its lanes' pointers, element indices and data (R34, R212,
R224): the registers it will write are held (R20), the flags of its store data are raised, the pc moves on, and a uniform destination
stalls the run (R80); `s'` is `s` with what the translations left in the TLBs. Nothing else changes. -/
def Entered (w : Fields) (closes : Bool) (span : Nat) (lanes : List LaneAcc) (fl : Nat → FlagBits) (s s' t : State) (e : Entry) : Prop :=
  t.g.entries = s.g.entries ++ [e] ∧ e.lanes = lanes ∧ e.done = false ∧ e.pc = s.g.pc ∧ e.fmt = s.g.fmt ∧
  (e.cls = .d → e.tag = s.nextTag ∧ t.g.liveTags = e.tag :: s.g.liveTags) ∧
  (∀ r < 256, t.g.holdCount r = s.g.holdCount r + (if e.dfile = .v ∧ e.dest ≤ r ∧ r < e.dest + span then 1 else 0)) ∧
  FlagsOred w fl s t ∧ t.g.pc = (s.g.pc + 16) % 2 ^ 52 ∧ RegionEntered closes s t ∧
  t.g.stall = (if e.dfile ≠ .v then .uniform e.id else .none) ∧
  { still t.g with entries := s.g.entries, nextId := s.g.nextId, liveTags := s.g.liveTags, seqD := s.g.seqD, holds := s.g.holds
                   flags := s.g.flags, regionPc := s.g.regionPc, regionCount := s.g.regionCount } = still s.g ∧
  { t with g := s.g } = { s' with g := s.g } ∧ ∀ a n, t.physRead a n = s.physRead a n

/-- When `i` is ready, `exec` answers exactly `t`. -/
def Makes (i : Instr) (w : Fields) (uses : List RegUse) (s t : State) : Prop := Ready i w uses s → exec i s = .next t

/-- When `i` is ready it takes the precise fault `f` and has no effect of its own (R34). -/
def Takes (i : Instr) (w : Fields) (uses : List RegUse) (s : State) (f : FaultRec) : Prop :=
  Ready i w uses s → exec i s = .next (s.faultAt w f)

/-- When the context is present, the event acts on its group as the issuing one, from the first state to the second, and the group that
was issuing goes on. -/
def OnCtx (ctx : Nat) (i : Instr) (s : State) (P : State → State → Prop) : Prop :=
  s.has ctx = true → ∃ u, exec i s = .next (u.focus s.g.id.ctx) ∧ P (s.focus ctx) u

/-- Entry `e` of the context's record waits to be performed, and nothing holds it back (R133, R233, R236, R246, R253, R330, R332, R333). -/
def Performable (ctx id : Nat) (e : Entry) (s : State) : Prop :=
  s.entry ctx id = some e ∧ e.done = false ∧ e.retryAt = none ∧ e.hostWait = false ∧ e.replay = false ∧ s.mayPerform (s.group ctx) e = true ∧
    (s.group ctx).status ≠ .saved

/-- The entry is complete: it has left the record, or waits there for an older one of its path (R211). -/
def Completed (ctx id : Nat) (g : Group) (t : State) : Prop := ∃ x, x.id = id ∧ x.done = true ∧
  (t.group ctx).entries = popDone [] (modifyFirst (fun y => y.id = id) (fun _ => x) g.entries)

end Sys2Proof.Safety
end

