-- ==== Sys2Proof/Certificates/Slice0/Obligations.lean ====
section
/-! DEFINITION. The statements for the provers. Each docstring names the rule of the spec that it states. A statement about an
instruction says that `exec` answers a next state whenever the instruction is ready (`Safety.Ready`), what that state holds, and that
nothing else changes. -/
open Sys2Proof Sys2Proof.Machine Sys2Proof.Safety

/-- R24, R175, R198, R202, R207, R213, R356, R385, R386, R389, R401 to R407: what reset leaves of the registers named here, in the values
the spec gives, and of tables and caches. Choices of the model that it uses: the reset state is the module before its bring-up (log 3),
and an address of any tier that nothing has written reads zero (log 7: R411 step 7 says so of tiers 0 and 1 alone). No group, team,
grid or cache line exists. -/
def Obligations.ResetState : Prop :=
  let s := State.reset
  let field (off lo n : Nat) : Nat := (s.reg off).toNat / 2 ^ lo % 2 ^ n
  s.reg 0 = 0 ∧ field 0x10 0 7 = 0 ∧ field 0x20 0 13 = 5000 ∧ field 0x20 16 13 = 0 ∧ field 0x1000 0 3 = 0 ∧ field 0x1000 8 24 = 16000 ∧
  s.reg 0x1008 = 0 ∧ s.reg 0x1010 = 0 ∧ s.reg 0x1018 = 0 ∧ s.reg 0x1020 = 0 ∧ s.reg 0x2000 = 0 ∧ s.reg 0x2008 = 0 ∧ s.reg 0x2010 = 0 ∧ (∀ i < 256, s.reg (lostEntry i) = 0) ∧
  (∀ p < 16, ∀ x < 0x1000, s.reg (0x10000 + 0x1000 * p + x) = 0) ∧
  (∀ q < 8192, s.queueOn q = false ∧ s.queueLevel q = 7 ∧ s.queuePart q = 0 ∧ s.queueSystem q = false ∧ s.queueHead q = 0 ∧ s.queueTail q = 0 ∧
    s.queueLog q = 0 ∧ s.reg (0x100000 + 32 * q) = 0) ∧
  (∀ j, s.port j = { port := j, up := false, en := true, resends := 0 }) ∧
  (∀ d n, s.slice d n = { die := d, slice := n, cecnt := 0, cethr := 1024, retire := false, retired := false }) ∧
  (∀ d j, s.sliceOf d j = j % 16) ∧ (∀ line, s.inHostBias line = false) ∧ s.biFilter = [] ∧ s.flip = none ∧
  (∀ c, (s.core c).l1 = [] ∧ (s.core c).tlb = [] ∧ (s.core c).corece = 0 ∧ (s.core c).dead = false) ∧ (∀ a line, (s.cline a line).st = .I) ∧
  (∀ a, memGet s.mem a = 0) ∧ (∀ a, memGet s.chip a = 0) ∧ s.groups = [.blank] ∧ s.teams = [] ∧ s.grids = [] ∧ s.clusters = []

/-- The memories of the reset state are in their canonical form. -/
def Obligations.ResetInvariant : Prop := Canonical State.reset

/-- Every step keeps the canonical form of the memories. -/
def Obligations.StepInvariant : Prop := ∀ s t : State, Canonical s → Runs s t → Canonical t

/-- R8, R10, R191, R194, R385: bytes that the module itself writes to memory read back in every cache state, and every other byte reads
as before; a line that the host caches is recalled first; equal contents are equal data; a lane or core scratchpad keeps each byte where
it was stored. (Choices of the model that it uses: log 9, by which such a write reaches every cached copy in one step.) -/
def Obligations.MemoryReadsBack : Prop := ∀ (s : State) (m m' : Memory) (a n b : Nat) (bs : List Byte) (x : Scratch) (alloc : Nat),
  let t := s.physWrite a bs
  (Canonical s → t.physRead a bs.length = bs ∧
    (a + bs.length ≤ b ∨ b + n ≤ a → t.physRead b n = s.physRead b n) ∧
    ((∀ i < bs.length, (a + i) / 128 ∉ s.biFilter) → { t with clines := s.clines, msgs := s.msgs, homeLines := s.homeLines, mem := s.mem } = s) ∧
    t.biFilter = s.biFilter.filter (fun l => (List.range bs.length).all (fun i => (a + i) / 128 ≠ l)) ∧
    { t with clines := s.clines, msgs := s.msgs, homeLines := s.homeLines, mem := s.mem, biFilter := s.biFilter, biAsked := s.biAsked,
             biDataAsked := s.biDataAsked, out := s.out } = s) ∧
  (m.wf = true → m'.wf = true → (∀ i, memGet m i = memGet m' i) → m = m') ∧
  (m.wf = true → memRead (memWrite m a bs) a bs.length = bs ∧ ∀ i, i < a ∨ a + bs.length ≤ i → memGet (memWrite m a bs) i = memGet m i) ∧
  (x.Pairwise (fun p q => p.1 < q.1) → (scratchWrite x a bs).Pairwise (fun p q => p.1 < q.1) ∧
    scratchRead alloc (scratchWrite x a bs) a bs.length = bs ∧
    ∀ i, i < a ∨ a + bs.length ≤ i → scratchGet alloc (scratchWrite x a bs) i = scratchGet alloc x i)

/-- R61, R67, R83: the decoder reads back every well-formed program instruction from its word, and a word that decodes is the word of
the instruction it decodes to. -/
def Obligations.DecodeEncode : Prop :=
  (∀ i : Instr, i.WellFormed = true → ∃ x, encode i = some x ∧ decode x = some i) ∧
  (∀ (x : CodeWord) (i : Instr), decode x = some i → i.WellFormed = true ∧ encode i = some x)

/-- R127, R304, R377 to R380 and the worked words of spec 03, 05, 07, 11, 14, 16, 19, 20, 22 and 23: words written out in the spec
decode to the instructions they stand for. -/
def Obligations.DecodeWords : Prop :=
  let word (a b c d : BitVec 32) : CodeWord := d ++ c ++ b ++ a
  let v (n : BitVec 8) : Operand := { num := n }
  let s (n : BitVec 8) : Operand := { num := n, file := .s }
  let p (n : BitVec 8) : Operand := { num := n, file := .p }
  decode (word 0x28000000 0x41800401 0 0) = some (.iadd { n := true, cap := 2, a := { num := 1, latch := true }, b := s 6 }) ∧
  decode (word 0x100E0081 0x04000008 2 0x04000000) = some (.fsub { dnum := 7, cap := 1, a := v 8, b := { num := 16, idx := 1 }, ty := 4 }) ∧
  decode (word 0x0604001B 0x01800006 0x70 0x01040000) =
    some (.icmp { dnum := 2, dfile := .k, a := v 6, b := { num := 6, pat := 6, parm := 1 }, mod := 1, ty := 1 }) ∧
  decode (word 0x00000706 0 0 0x0087FFFC) = some (.xadd { g := true, imm := 0xFFFF, mod := 0x21 }) ∧
  decode (word 0x000006C0 0x00000109 0 0x0000000C) = some (.waitp { g := true, a := s 9, imm := 3 }) ∧
  decode (word 0x00104A00 0x01C00202 0 0x01401000) =
    some (.ld { e := true, grd := 4, dnum := 8, a := p 2, b := v 7, imm := 1024, mod := 0x10, ty := 1 }) ∧
  decode (word 0x00000201 0x01000200 0x00006000 0x01400280) =
    some (.st { a := p 0, b := v 4, c := v 6, imm := 160, mod := 0x10, ty := 1 }) ∧
  decode (word 0x00000680 0x05000010 0x00024000 0) = some (.mma { g := true, a := v 16, b := v 20, c := v 36 }) ∧
  decode (word 0x000006C6 0 0 0x00800100) = some (.barInit { g := true, imm := 0x40, mod := 0x20 }) ∧
  decode (word 0x00000F40 0 0 0xA8) = some (.trap { g := true, e := true, imm := 0x2A }) ∧
  decode (word 0x000006C5 0x28 0 0) = some (.arm { g := true, a := v 40 }) ∧
  decode (word 0x02080709 0x205 0 0x03000000) = some (.nameinfo { g := true, dnum := 4, dfile := .s, a := p 5, ty := 3 }) ∧
  decode (word 0x3FF 0 0 0) = none ∧ decode (word 0 0 0 0x10000000) = none

/-- R79, R82, R85, R216: a step runs the decoded instruction: with nothing due and a started run whose next unit decodes to `i`, the
step is `exec i` with the time moved on, with what the shadow of a shadowed group makes of it (R334, R335) and what the module does after
every step by itself; without a shadow, a waiting host access and a reservation it is `exec i` alone. A bad encoding is rejected by its
operand position, a pool unit with subcode 3, a unit that could not be fetched by its own fault; a decider runs in its place (R336); a
module that lost a die reports it, and is started anew by a power-on or a reset, and does nothing else. Choices of the model that it
uses: an event of the agenda, when there is one, comes before the issuing group's run (log 1); how many cycles a step takes is open
(log 8); what a lost die leaves possible (log 91). -/
def Obligations.StepRunsDecoded : Prop := ∀ (s : State) (x : CodeWord) (rest : List Fetched) (as : List Act) (i : Instr),
  let ticks (t : State) : Prop := ∃ k, step s = .next { t with time := t.time + 1 + k, free := t.free + 1 }
  let runs (u : Fetched) (r : Result) : Prop :=
    (∀ t, r = .next t → ticks (State.observe exec s u t).afterwards) ∧ (∀ f, r = .fault f → step s = .fault f) ∧
    (∀ f, r = .refused f → step s = .refused f)
  let idle : Prop := s.fatal = false ∧ s.agenda = []
  let issues (u : Fetched) : Prop := idle ∧ s.g.deciding = false ∧ s.g.running = true ∧ s.g.stall = .none ∧ s.g.ibuf = u :: rest
  let illegal (sub pos : Nat) (mask : Mask) : Result :=
    .next (s.takeFault { cause := 1, pc := s.g.pc, mask := mask, pos := pos, extra := BitVec.ofNat 64 sub } s.g.pc false)
  let unfetched (c e : Nat) : FaultRec := { cause := c, pc := s.g.pc, mask := s.g.active, lane := 0xFF, kind := 0, addr := BitVec.ofNat 64 s.g.pc,
                                            extra := BitVec.ofNat 64 e }
  let lasts (i : Instr) : Prop := i = .eventGrant ∨ i = .powerOn ∨ ∃ v, i = .reset v
  let due (a : Act) : Prop := (s.fatal = false ∨ ∃ i, a = .event i ∧ lasts i) ∧ s.agenda = a :: as
  let popped : State := { s with agenda := as }
  (issues (.word x) → decode x = some i → runs (.word x) (exec i s)) ∧
  (∀ u t, s.g.shadow = none → State.observe exec s u t = t) ∧
  (∀ t : State, t.hostReqs = [] → (∀ h ∈ t.held, h.shares = []) → t.afterwards = t) ∧
  (issues (.word x) → decode x = none → ∃ pos, decodeWord x = .bad pos ∧ runs (.word x) (illegal 0 pos (s.g.lanes (Fields.unpack x)))) ∧
  (issues .pool → runs .pool (illegal 3 0xFF s.g.active)) ∧
  (issues .kill → runs .kill (.next (s.killCtx s.g.id.ctx 3))) ∧
  (∀ c e, issues (.error c e) → runs (.error c e) (.next (s.takeFault (unfetched c e) s.g.pc true))) ∧
  (idle → s.g.deciding = true → ticks (s.runDecider exec).afterwards) ∧
  (idle → s.g.deciding = false → s.g.running = false ∨ s.g.stall ≠ .none → ticks s) ∧
  (due (.event i) → i.isEvent = true → ∀ t, exec i popped = .next t → ∃ k u, step s = .next u ∧ u = { t.afterwards with
      g := u.g, gs := u.gs, time := t.afterwards.time + 1 + k, free := t.afterwards.free + 1 } ∧ still u.g = still t.afterwards.g ∧
      u.gs.map still = t.afterwards.gs.map still) ∧
  (due (.event i) → i.isEvent = false → ticks popped) ∧
  (∀ ctx, due (.focus ctx) → ticks (popped.focus ctx)) ∧
  (s.fatal = true → (∀ i, s.agenda.head? = some (.event i) → ¬lasts i) → step s = .fault .moduleFatal)

/-- R9, R11, R13, R14, R24, R67 to R72: the register files: k0 reads all ones and takes no write, x0 does not exist, s0 to s7 are hs0
to hs7 in the handler; and the value of an operand: its register, pair or latch, moved by its pattern, then negated. -/
def Obligations.RegisterFiles : Prop := ∀ (s : State) (g : Group) (n m l j : Nat) (x : BitVec 64) (o : Operand) (t : Ty),
  let at_ (i : Nat) : BitVec 64 := s.readOp t o t.wide i
  let pattern (p q : Nat) : Prop := o.pat.toNat = p ∧ o.parm.toNat = q ∧ o.neg = false
  let plain (i : Nat) : BitVec 64 := s.readOp t { o with pat := 0, parm := 0, neg := false } t.wide i
  let reg := o.num.toNat + g.readX o.idx.toNat
  g.readK 0 = 0xFFFFFFFF ∧ g.writeK 0 (x.setWidth 32) = g ∧
  (n < 16 → n ≠ 0 → m < 16 → (g.writeK n (x.setWidth 32)).readK m = if m = n then x.setWidth 32 else g.readK m) ∧
  g.readX 0 = 0 ∧ g.writeX 0 (x.setWidth 16) = g ∧
  (n < 4 → n ≠ 0 → (g.writeX n (x.setWidth 16)).readX m = if m = n then x.toNat % 2 ^ 16 else g.readX m) ∧
  (n < 64 → m < 64 → (g.writeS n x).readS m = if m = n then x else g.readS m) ∧
  (0 < g.depth → n < 8 → g.readS n = rd 0 g.hs n ∧ (g.writeS n x).s = g.s) ∧
  (g.depth = 0 ∨ 8 ≤ n → g.readS n = rd 0 g.s n ∧ (g.writeS n x).hs = g.hs) ∧
  (n < 256 → l < 32 → (g.writeV n l (x.setWidth 32)).readV m j = if m = n ∧ j = l then x.setWidth 32 else g.readV m j) ∧
  (n < 16 → m < 16 → (g.writeP n (x.setWidth 128)).readP m = if m = n then x.setWidth 128 else g.readP m) ∧
  (s.g = g → pattern 0 0 → o.latch = false →
    (o.file = .v → at_ l = if t.wide then g.readV (reg + 1) l ++ g.readV reg l else (g.readV reg l).setWidth 64) ∧
    (o.file = .s → at_ l = if t.wide then g.readS reg else ((g.readS reg).setWidth 32).setWidth 64) ∧
    (o.file = .k → at_ l = (g.readK reg).setWidth 64)) ∧
  (s.g = g → pattern 0 0 → o.latch = true → ∀ y, latchLane g (o.num.toNat % 4) l = some y →
    at_ l = if t.wide then y else (y.setWidth 32).setWidth 64) ∧
  (l < 32 → j < 32 → (pattern 1 j → at_ l = plain ((l + j) % 32)) ∧ (pattern 2 j → at_ l = plain j) ∧ (pattern 3 j → at_ l = plain (l ^^^ j)) ∧
    (pattern 4 j → 1 ≤ j → j ≤ 5 → at_ l = plain (l / 2 ^ j * 2 ^ j + (2 ^ j - 1 - l % 2 ^ j))) ∧
    (pattern 5 j → at_ l = if l + j ≤ 31 then plain (l + j) else 0) ∧ (pattern 6 j → at_ l = if j ≤ l then plain (l - j) else 0)) ∧
  (o.neg = true → (t = .f32 → at_ l = s.readOp t { o with neg := false } false l ^^^ 2 ^ 31) ∧
    (t = .f64 → at_ l = s.readOp t { o with neg := false } true l ^^^ 2 ^ 63) ∧
    (t = .f16x2 ∨ t = .bf16x2 → at_ l = s.readOp t { o with neg := false } false l ^^^ (2 ^ 31 + 2 ^ 15)))

/-- R15, R20, R21, R25, R34, R64, R76, R78, R82: what is met before an instruction has any effect, in its order: a bad encoding, a 24th
instruction without E, the privilege, a wait that is not first; then, shown on an integer add, a register out of bounds, a destination
with an arm hold, and a stall on a hold. A word whose guard enables no lane only advances, or makes the check of its registers. -/
def Obligations.IssueOrder : Prop := ∀ (i : Instr) (w : Fields) (f : Form) (s : State) (pos : Nat),
  let illegal (i : Instr) (sub pos : Nat) : Prop := exec i s =
    .next (s.takeFault { cause := 1, pc := s.g.pc, mask := s.g.lanes w, pos := pos, extra := BitVec.ofNat 64 sub } s.g.pc false)
  let first : Prop := i.WellFormed = true
  let uses := s.usesImm w
  let sound : Prop := (Instr.iadd w).WellFormed = true ∧ (s.g.issued = 23 → w.e = true)
  let bounded : Prop := ∀ u ∈ uses, s.g.outOfBounds u = false
  i.fields = some w →
  (i.form = some f → f.badPosition w = some pos → illegal i 0 pos) ∧
  (first → s.g.issued = 23 → w.e = false → illegal i 0 0xFF) ∧
  (first → (s.g.issued = 23 → w.e = true) →
    i ∈ [.wrsr w, .wrsrMgmt w, .rdsrMgmt w, .tlbinv w, .linclr w, .ifread w, .halt w] → s.g.id.system = false → illegal i 1 0xFF) ∧
  (first → (s.g.issued = 23 → w.e = true) → i = .mbxs w ∨ i = .mbxr w → s.g.id.monitor = false → illegal i 1 0xFF) ∧
  (first → (s.g.issued = 23 → w.e = true) → i ∈ [.waitp w, .waitm w, .waitc w, .waith w, .barWait w] → s.g.issued ≠ 0 → illegal i 2 0xFF) ∧
  (first → (s.g.issued = 23 → w.e = true) → (waitClass i = true → s.g.issued = 0) → (privileged i = true → s.g.id.system = true) →
    i ∉ [.region w, .hret w, .hretr w, .mbxs w, .mbxr w, .halt w] → s.g.lanes w = 0 →
    exec i s = .next (s.finish w false) ∨ ∃ r, r.cause = 2 ∧ exec i s = .next (s.faultAt w r)) ∧
  (sound → (∀ u, uses.find? s.g.outOfBounds = some u → exec (.iadd w) s = .next (s.faultAt w
      { cause := 2, pos := u.pos, extra := BitVec.ofNat 64 (u.num % 2 ^ 18 + u.file.code.toNat * 2 ^ 24) })) ∧
    (bounded → s.g.lanes w ≠ 0 → w.n = false → w.dfile = .v → w.type.wide = false → s.g.holdCount (s.g.dnum w) ≠ 0 →
      (s.g.holdArm (s.g.dnum w) = true → exec (.iadd w) s = .next (s.faultAt w { cause := 13, pos := 0, extra := BitVec.ofNat 64 (s.g.dnum w) })) ∧
      (s.g.holdArm (s.g.dnum w) = false → exec (.iadd w) s = .next { s with g := { s.g with stall := .hold (s.g.dnum w) } })) ∧
    (bounded → s.g.lanes w ≠ 0 → w.n = true → w.a.latch = false → w.a.file = .v → w.type.wide = false → s.g.holdCount (s.g.num w.a) ≠ 0 →
      exec (.iadd w) s = .next { s with g := { s.g with stall := .hold (s.g.num w.a) } }))

/-- R102, R104: integer instructions form every element exactly and keep it modulo 2^w; a zero divisor gives all ones as quotient and
the dividend as remainder. B is IMM with MOD bit 5 (R105). (Choices of the model that it uses: logs 12 and 13.) -/
def Obligations.IntegerArithmetic : Prop := ∀ (w : Fields) (s : State),
  let a (l k : Nat) : Int := elem w (s.opA w l) k
  let b (l k : Nat) : Int := elem w (s.opB w l) k
  let c (l k : Nat) : Int := elem w (s.opC w l) k
  let bi (l k : Nat) : Int := elem w (s.opBImm w l) k
  IntResult (.iadd w) w (s.usesImm w) s (fun l k => a l k + bi l k) ∧
  IntResult (.isub w) w (s.usesImm w) s (fun l k => a l k - bi l k) ∧
  IntResult (.imul w) w (s.usesImm w) s (fun l k => a l k * bi l k) ∧
  IntResult (.imulh w) w (s.uses2 w) s (fun l k => a l k * b l k / 2 ^ w.type.width) ∧
  IntResult (.imad w) w (s.uses3 w) s (fun l k => a l k * b l k + c l k) ∧
  IntResult (.iabs w) w (s.uses1 w) s (fun l k => if a l k < 0 then - a l k else a l k) ∧
  IntResult (.imin w) w (s.usesImm w) s (fun l k => if bi l k < a l k then bi l k else a l k) ∧
  IntResult (.imax w) w (s.usesImm w) s (fun l k => if a l k < bi l k then bi l k else a l k) ∧
  IntResult (.idiv w) w (s.uses2 w) s (fun l k => if b l k = 0 then -1 else (a l k).tdiv (b l k)) ∧
  IntResult (.irem w) w (s.uses2 w) s (fun l k => if b l k = 0 then a l k else (a l k).tmod (b l k)) ∧
  IntResult (.iaddx w) w (s.uses2 w ++ s.g.useOf 3 w.c false) s
    (fun l k => a l k + b l k + (if (s.g.readK (s.g.num w.c)).getLsbD l then 1 else 0))

/-- R104: the bitwise instructions, `bsel`, `sel` and `mov`. R104: shifts by B mod 256, zeros or copies of the sign coming in past the
width; rotation by B mod w. R104, R106: bit fields, immediates and reversal. IMM holds pos in bits 7:0 and len in bits 15:8. R104:
`popc`, `clz` and `ctz` over the w bits of A; the width for a value of zero. (Choices of the model that it uses: log 12, a 32-bit result in an s register.) -/
def Obligations.BitOperations : Prop :=
  (∀ (w : Fields) (s : State),
  let a (l j : Nat) : Bool := (s.opA w l).getLsbD j
  let b (l j : Nat) : Bool := (s.opB w l).getLsbD j
  let c (l j : Nat) : Bool := (s.opC w l).getLsbD j
  let bi (l j : Nat) : Bool := (s.opBImm w l).getLsbD j
  BitResult (.and w) w (s.usesImm w) s (fun l j => a l j && bi l j) ∧
  BitResult (.or w) w (s.usesImm w) s (fun l j => a l j || bi l j) ∧
  BitResult (.xor w) w (s.usesImm w) s (fun l j => a l j != bi l j) ∧
  BitResult (.andn w) w (s.usesImm w) s (fun l j => a l j && !bi l j) ∧
  BitResult (.bsel w) w (s.uses3 w) s (fun l j => if c l j then a l j else b l j) ∧
  BitResult (.sel w) w (s.uses2 w ++ s.g.useOf 3 w.c false) s
    (fun l j => if (s.g.readK (s.g.num w.c)).getLsbD l then a l j else b l j) ∧
  BitResult (.mov w) w (s.uses1 w) s a) ∧
  (∀ (w : Fields) (s : State),
  let a (l j : Nat) : Bool := (s.opA w l).getLsbD j
  let n (l : Nat) : Nat := (s.opBImm w l).toNat % 256
  let r (l : Nat) : Nat := (s.opBImm w l).toNat % w.type.width
  BitResult (.shl w) w (s.usesImm w) s (fun l j => n l ≤ j && a l (j - n l)) ∧
  BitResult (.shr w) w (s.usesImm w) s (fun l j => j + n l < w.type.width && a l (j + n l)) ∧
  BitResult (.sar w) w (s.usesImm w) s (fun l j => a l (min (j + n l) (w.type.width - 1))) ∧
  BitResult (.rotl w) w (s.usesImm w) s (fun l j => a l ((j + w.type.width - r l) % w.type.width))) ∧
  (∀ (w : Fields) (s : State),
  let a (l j : Nat) : Bool := (s.opA w l).getLsbD j
  let b (l j : Nat) : Bool := (s.opB w l).getLsbD j
  let pos := w.immBits 0 8
  let len := w.immBits 8 8
  BitResult (.bfx w) w (s.uses1 w) s
    (fun l j => if j < len then a l (pos + j) else w.type.signed && a l (pos + len - 1)) ∧
  BitResult (.bfi w) w (s.uses2 w) s (fun l j => if pos ≤ j ∧ j < pos + len then b l (j - pos) else a l j) ∧
  BitResult (.brev w) w (s.uses1 w) s (fun l j => a l (w.type.width - 1 - j)) ∧
  BitResult (.ldi w) w (s.g.useDest w w.type.wide) s
    (fun _ j => if j < 16 then w.imm.getLsbD j else w.type.signed && w.imm.getLsbD 15) ∧
  BitResult (.ldih w) w (s.uses1 w) s (fun l j =>
    let h := 16 * w.modBits 0 2
    if h ≤ j ∧ j < h + 16 then w.imm.getLsbD (j - h) else a l j)) ∧
  (∀ (w : Fields) (s : State),
  let a (l j : Nat) : Bool := (s.opA w l).getLsbD j
  Does (.popc w) w (s.uses1 w) s (fun t => ∃ x, Yields w w.type.wide x s t ∧
    ∀ l < 32, (x l).toNat = (List.range w.type.width).countP (a l)) ∧
  Does (.clz w) w (s.uses1 w) s (fun t => ∃ x, Yields w w.type.wide x s t ∧
    ∀ l < 32, (x l).toNat ≤ w.type.width ∧ (∀ j < (x l).toNat, a l (w.type.width - 1 - j) = false) ∧
      ((x l).toNat < w.type.width → a l (w.type.width - 1 - (x l).toNat) = true)) ∧
  Does (.ctz w) w (s.uses1 w) s (fun t => ∃ x, Yields w w.type.wide x s t ∧
    ∀ l < 32, (x l).toNat ≤ w.type.width ∧ (∀ j < (x l).toNat, a l j = false) ∧
      ((x l).toNat < w.type.width → a l (x l).toNat = true)))

/-- R102, R104, R106, R120: instructions that write a lane mask: the carry, the comparison by the type's signedness under the condition
of MOD bits 2:0, and the votes over the active, enabled lanes. R119: the predicate instructions act on whole masks, whatever the active
mask. -/
def Obligations.LaneMasksAndPredicates : Prop :=
  (∀ (w : Fields) (s : State),
  let a (l : Nat) : Int := elem w (s.opA w l) 0
  let b (l : Nat) : Int := elem w (s.opBImm w l) 0
  let on (l : Nat) : Bool := (s.g.lanes w).getLsbD l
  Does (.iaddc w) w (s.uses2 w) s
    (MaskYields w (fun l => 2 ^ w.type.width ≤ (s.opA w l).toNat + (s.opB w l).toNat) (fun _ => 0) s) ∧
  Does (.icmp w) w (s.usesImm w) s
    (MaskYields w (fun l =>
      match w.modBits 0 3 with
      | 0 => a l = b l | 1 => a l ≠ b l | 2 => a l < b l | 3 => a l ≤ b l | 4 => b l < a l | _ => b l ≤ a l) (fun _ => 0) s) ∧
  Does (.vote w) w (s.uses1 w) s
    (MaskYields w (fun l =>
      match w.modBits 0 2 with
      | 0 => s.opA w l ≠ 0
      | 1 => (List.range 32).any (fun i => on i && s.opA w i ≠ 0)
      | 2 => (List.range 32).all (fun i => !on i || s.opA w i ≠ 0)
      | _ => (List.range 32).all (fun i => !on i || s.opA w i = s.opA w (lowestLane (s.g.lanes w)))) (fun _ => 0) s)) ∧
  (∀ (w : Fields) (s : State),
  let a (j : Nat) : Bool := (s.g.readK (s.g.num w.a)).getLsbD j
  let b (j : Nat) : Bool := (s.g.readK (s.g.num w.b)).getLsbD j
  let uses := s.g.useDest w false ++ s.g.useOf 1 w.a false ++ (if w.b = {} then [] else s.g.useOf 2 w.b false)
  let masks (i : Instr) (bit : Nat → Bool) : Prop :=
    Does i w uses s (fun t => ∃ x : Mask, Yields w false (fun _ => x.setWidth 64) s t ∧ ∀ j < 32, x.getLsbD j = bit j)
  let counts (i : Instr) (n : Nat → Prop) : Prop :=
    Does i w uses s (fun t => ∃ x : Mask, Yields w false (fun _ => x.setWidth 64) s t ∧ n x.toNat)
  masks (.kand w) (fun j => a j && b j) ∧ masks (.kor w) (fun j => a j || b j) ∧ masks (.kxor w) (fun j => a j != b j) ∧
  masks (.kandn w) (fun j => a j && !b j) ∧ masks (.knot w) (fun j => !a j) ∧
  masks (.kmov w) (fun j => (s.readOp .b32 w.a false 0).getLsbD j) ∧
  counts (.kpop w) (fun n => n = (List.range 32).countP a) ∧
  counts (.kffs w) (fun n => n ≤ 32 ∧ (∀ j < n, a j = false) ∧ (n < 32 → a n = true)))

/-- R107, R108: floating-point instructions act on each element under fmt, one operation per element, and OR their flags into the lane.
(The values of `frcp`, `frsq`, `fexp2`, `flog2`, `fsin` and `fcos` within their bounds are the model's, logs 5 and 14.) R55, R107,
R111: `fdot2`, `fcmp` and `fclass`. (Choices of the model that it uses: logs 12, 13, 14 and 97.) -/
def Obligations.FloatInstructions : Prop :=
  (∀ (w : Fields) (s : State),
  let undefinedAt (l : Nat) : BitVec 32 := Config.freeValue 32 s.free (2048 + l)
  FloatResult (.fadd w) w (s.uses2 w) s (fun _ f c a b _ => fAdd f c false a b) ∧
  FloatResult (.fsub w) w (s.uses2 w) s (fun _ f c a b _ => fAdd f c true a b) ∧
  FloatResult (.fmul w) w (s.uses2 w) s (fun _ f c a b _ => fMul f c a b) ∧
  FloatResult (.ffma w) w (s.uses3 w) s (fun _ f c a b d => fFma f c a b d) ∧
  FloatResult (.fmin w) w (s.uses2 w) s (fun _ f c a b _ => fMinMax f c false a b) ∧
  FloatResult (.fmax w) w (s.uses2 w) s (fun _ f c a b _ => fMinMax f c true a b) ∧
  FloatResult (.frcp w) w (s.uses1 w) s (fun _ f c a _ _ => fRcp f c a) ∧
  FloatResult (.frsq w) w (s.uses1 w) s (fun _ f c a _ _ => fRsq f c a) ∧
  FloatResult (.fsqrt w) w (s.uses1 w) s (fun _ f c a _ _ => fSqrt f c a) ∧
  FloatResult (.fdiv w) w (s.uses2 w) s (fun _ f c a b _ => fDiv f c a b) ∧
  FloatResult (.fexp2 w) w (s.uses1 w) s (fun _ _ c a _ _ => fExp2 c a) ∧
  FloatResult (.flog2 w) w (s.uses1 w) s (fun _ _ c a _ _ => fLog2 c a) ∧
  FloatResult (.fsin w) w (s.uses1 w) s (fun l _ c a _ _ => fTrig c false (undefinedAt l) a) ∧
  FloatResult (.fcos w) w (s.uses1 w) s (fun l _ c a _ _ => fTrig c true (undefinedAt l) a) ∧
  FloatResult (.fscale w) w (s.uses2 w) s (fun _ f c a b _ => fScale f c a (toSigned 32 (b % 2 ^ 32))) ∧
  FloatResult (.fgetexp w) w (s.uses1 w) s (fun _ f c a _ _ => fGetExp f c a) ∧
  FloatResult (.fgetman w) w (s.uses1 w) s (fun _ f c a _ _ => fGetMan f c a) ∧
  FloatResult (.frint w) w (s.uses1 w) s (fun _ f c a _ _ => fRint f c a)) ∧
  (∀ (w : Fields) (s : State),
  let c := FCtx.ofFmt s.g.fmt
  let f := floatOf w.type
  let a (l : Nat) : Nat := (s.opA w l).toNat
  let b (l : Nat) : Nat := (s.opB w l).toNat
  Does (.fdot2 w) w (s.uses3 w) s (fun t => ∃ (x : Nat → BitVec 64) (fl : Nat → FlagBits), YieldsFlags w false x fl s t ∧
    ∀ l < 32, let lane := if w.g then 0 else l
      ((x l).toNat, fl l) = fDot2 f c (a lane) (b lane) (s.opC w lane).toNat) ∧
  Does (.fcmp w) w (s.uses2 w) s
    (MaskYields w (fun l => (fCmp f c (w.modBits 0 3) (a l) (b l)).1) (fun l => (fCmp f c (w.modBits 0 3) (a l) (b l)).2) s) ∧
  Does (.fclass w) w (s.uses1 w) s (MaskYields w (fun l => w.imm.getLsbD (fClass f (a l))) (fun _ => 0) s))

/-- R109: `fmin` and `fmax` order −0 below +0 and return one operand exactly, but for flushing; of a NaN and a number they return the
number, of two NaNs what R45 gives; NV is set for a signalling NaN, and no other flag. R43: an operand that is flushed is a zero of its
sign. R111: a comparison with a NaN is unordered, and without one exactly one of less, equal and greater holds. -/
def Obligations.MinMaxAndOrder : Prop := ∀ (f : FFmt) (c : FCtx) (a b : Nat), f ≠ .e4m3 → a < 2 ^ f.bits → b < 2 ^ f.bits →
  let nan (x : Nat) : Bool := (f.decode x).isNan
  let negative (x : Nat) : Bool := x.testBit (f.bits - 1)
  let v (x : Nat) : Nat := if c.flushes f = true ∧ x / 2 ^ f.frac % 2 ^ f.exp = 0 then f.signBit (negative x) else x
  let least := (fMinMax f c false a b).1
  let greatest := (fMinMax f c true a b).1
  let r (cond : Nat) : Bool := (fCmp f c cond a b).1
  (∀ mx, (fMinMax f c mx a b).2 = if (f.decode a).isSnan || (f.decode b).isSnan then flagNV else 0) ∧
  (nan a = false → nan b = true → least = v a ∧ greatest = v a) ∧
  (nan a = true → nan b = false → least = v b ∧ greatest = v b) ∧
  (nan a = true → nan b = true → ∀ mx, (fMinMax f c mx a b).1 = if c.nanp then a ||| 2 ^ (f.frac - 1) else f.canonical) ∧
  (nan a = false → nan b = false →
    (r 2 = true → least = v a ∧ greatest = v b) ∧ (r 4 = true → least = v b ∧ greatest = v a) ∧
    (r 0 = true → negative a = negative b → v a = v b ∧ least = v a ∧ greatest = v a) ∧
    (r 0 = true → negative a = true → negative b = false → least = v a ∧ greatest = v b) ∧
    (r 0 = true → negative a = false → negative b = true → least = v b ∧ greatest = v a) ∧
    r 6 = false ∧ r 7 = true ∧ r 1 = !r 0 ∧ r 3 = (r 2 || r 0) ∧ r 5 = (r 4 || r 0) ∧
    ((r 2 = true ∧ r 0 = false ∧ r 4 = false) ∨ (r 2 = false ∧ r 0 = true ∧ r 4 = false) ∨ (r 2 = false ∧ r 0 = false ∧ r 4 = true))) ∧
  (nan a = true ∨ nan b = true → r 1 = true ∧ r 6 = true ∧ r 0 = false ∧ r 2 = false ∧ r 3 = false ∧ r 4 = false ∧ r 5 = false ∧ r 7 = false) ∧
  (fMinMax f c false (f.signBit true) (f.signBit false)).1 = f.signBit true ∧
  (fMinMax f c true (f.signBit true) (f.signBit false)).1 = f.signBit false

/-- R41, R42 (the modes, exactness and NX of rounding): a significand loses `sh` bits by the mode `rm`; the error is below one unit, at
most half a unit in the nearest modes with ties to even or away, and of the mode's direction in the others. R42: an overflow sets OF
and NX and gives an infinity, or the largest finite value, by the mode and the sign. -/
def Obligations.RoundingAndOverflow : Prop :=
  (∀ (rm m sh : Nat) (sign : Bool), rm ≤ 4 → 0 < m →
  let q := (roundShift rm sign m sh).1
  ((roundShift rm sign m sh).2 = true ↔ q * 2 ^ sh ≠ m) ∧ q * 2 ^ sh < m + 2 ^ sh ∧ m < q * 2 ^ sh + 2 ^ sh ∧
  (rm = 0 → 2 * (q * 2 ^ sh) ≤ 2 * m + 2 ^ sh ∧ 2 * m ≤ 2 * (q * 2 ^ sh) + 2 ^ sh ∧
    (q * 2 ^ sh ≠ m → (2 * (q * 2 ^ sh) = 2 * m + 2 ^ sh ∨ 2 * m = 2 * (q * 2 ^ sh) + 2 ^ sh) → q % 2 = 0)) ∧
  (rm = 1 → q * 2 ^ sh ≤ m) ∧
  (rm = 2 → if sign then q * 2 ^ sh ≤ m else m ≤ q * 2 ^ sh) ∧
  (rm = 3 → if sign then m ≤ q * 2 ^ sh else q * 2 ^ sh ≤ m) ∧
  (rm = 4 → 2 * (q * 2 ^ sh) ≤ 2 * m + 2 ^ sh ∧ 2 * m < 2 * (q * 2 ^ sh) + 2 ^ sh ∨ q * 2 ^ sh = m)) ∧
  (∀ (f : FFmt) (rm : Nat) (sign : Bool), rm ≤ 4 →
  f.overflow rm false sign =
    (if rm = 1 ∨ (rm = 2 ∧ sign = true) ∨ (rm = 3 ∧ sign = false) then f.maxBits sign else f.infBits sign, flagOF ||| flagNX))

/-- R44, R45: with NANP = 0 a NaN operand makes an arithmetic result the canonical NaN; with NANP = 1 it is the first NaN operand with
its quiet bit set; NV is set for a signalling one (`fadd`, `fsub`, `fmul`, `fdiv`, `fsqrt`). R41, R45, R54: infinities and zeros:
opposite infinities make an invalid sum, a zero sum of opposite signs is −0 only toward −∞, the division of a finite nonzero number of
either sign by a zero sets DZ and gives an infinity, and the root of a negative number is invalid; a subnormal operand that is flushed is
a zero (R43). (Choices of the model that it uses: log 97.) -/
def Obligations.SpecialResults : Prop :=
  (∀ (f : FFmt) (c : FCtx) (a b : Nat) (sub : Bool), f ≠ .e4m3 → a < 2 ^ f.bits → b < 2 ^ f.bits →
  let isNan (x : Nat) : Bool := (f.decode x).isNan
  let nv : FlagBits := if (f.decode a).isSnan || (f.decode b).isSnan then flagNV else 0
  let nan : Nat := if c.nanp then (if isNan a then a else b) ||| 2 ^ (f.frac - 1) else f.canonical
  (isNan a ∨ isNan b → fAdd f c sub a b = (nan, nv) ∧ fMul f c a b = (nan, nv) ∧ fDiv f c a b = (nan, nv)) ∧
  (isNan a → fSqrt f c a = (if c.nanp then a ||| 2 ^ (f.frac - 1) else f.canonical, if (f.decode a).isSnan then flagNV else 0))) ∧
  (∀ (f : FFmt) (c : FCtx) (sg : Bool), f ≠ .e4m3 →
  let inf (s : Bool) : Nat := f.infBits s
  let zero (s : Bool) : Nat := f.signBit s
  fAdd f c false (inf sg) (inf sg) = (inf sg, 0) ∧
  fAdd f c false (inf sg) (inf !sg) = (f.canonical, flagNV) ∧
  fAdd f c false (zero sg) (zero sg) = (zero sg, 0) ∧
  fAdd f c false (zero sg) (zero !sg) = (zero (c.rm = 3), 0) ∧
  fMul f c (inf sg) (zero false) = (f.canonical, flagNV) ∧
  fDiv f c (zero sg) (zero false) = (f.canonical, flagNV) ∧
  (∀ (neg : Bool) (q m : Nat), q < 2 ^ f.exp - 1 → m < 2 ^ f.frac → (0 < q ∨ (0 < m ∧ c.flushes f = false)) →
    fDiv f c (f.signBit neg + q * 2 ^ f.frac + m) (zero sg) = (inf (neg != sg), flagDZ) ∧
    fSqrt f c (f.signBit true + q * 2 ^ f.frac + m) = (f.canonical, flagNV)) ∧
  (∀ (neg : Bool) (m : Nat), m < 2 ^ f.frac → c.flushes f = true →
    fDiv f c (f.signBit neg + m) (zero sg) = (f.canonical, flagNV) ∧ fSqrt f c (f.signBit neg + m) = (zero neg, 0)) ∧
  fSqrt f c (zero sg) = (zero sg, 0) ∧ fSqrt f c (inf true) = (f.canonical, flagNV) ∧ fSqrt f c (inf false) = (inf false, 0) ∧
  fRcp f c (zero sg) = (inf sg, flagDZ) ∧ fRcp f c (inf sg) = (zero sg, 0) ∧
  fGetExp f c (zero sg) = (inf true, flagDZ) ∧ fGetMan f c (zero sg) = (zero sg, 0) ∧ fGetMan f c (inf sg) = (f.canonical, flagNV))

/-- R113 to R116: the conversion instructions: which bits of A are the source, which rounding mode and saturation govern, and where the
packed results go. R48, R50 (NaNs, infinities and ranges of conversions to integers; narrowing between integer formats keeps the low
bits, or clamps with SAT = 1; no flag). (Choices of the model that it uses: logs 12, 13 and 97.) -/
def Obligations.Conversions : Prop :=
  (∀ (w : Fields) (s : State),
  let code := w.modBits 0 4
  let src := NumFmt.ofCode code
  let c := FCtx.ofFmt s.g.fmt
  let source (l : Nat) : Nat :=
    let x := (s.readOp w.type w.a (src.width = 64) l).toNat
    if src.width = 64 then x else x / 2 ^ (src.width * w.modBits 4 2) % 2 ^ src.width
  let pair (l : Nat) : FRes × FRes :=
    (convert (NumFmt.ofCode w.ty.toNat) src c (s.opA w l).toNat, convert (NumFmt.ofCode w.ty.toNat) src c (s.opB w l).toNat)
  let oneReg := s.g.useDest w false ++ s.g.useOf 1 w.a w.type.wide ++ s.g.useOf 2 w.b w.type.wide
  let converts (i : Instr) (uses : List RegUse) (r : Nat → FRes) : Prop := Does i w uses s (fun t =>
    ∃ (x : Nat → BitVec 64) (fl : Nat → FlagBits), YieldsFlags w w.type.wide x fl s t ∧
      ∀ l < 32, ((x l).toNat, fl l) = r (if w.g then 0 else l))
  converts (.cvt w) (s.usesCvt w) (fun l => convert src (NumFmt.ofCode w.ty.toNat) c (source l)) ∧
  converts (.cvtx w) (s.usesCvt w) (fun l =>
    convert src (NumFmt.ofCode w.ty.toNat) { c with rm := w.immBits 0 3, sat := w.imm.getLsbD 3 } (source l)) ∧
  converts (.nqdec w) (s.uses3 w) (fun l =>
    nqDecode ((s.opA w l).toNat / 16 ^ w.modBits 0 3 % 16) ((s.opB w l).toNat % 256) (s.opC w l).toNat) ∧
  Does (.nqenc w) w (s.uses3 w) s (fun t => ∃ (x : Nat → BitVec 64) (fl : Nat → FlagBits), YieldsFlags w false x fl s t ∧
    ∀ l < 32, let lane := if w.g then 0 else l
      let r := nqEncode (s.opA w lane).toNat (s.opB w lane).toNat
      fl l = r.2 ∧ ∀ j < 32, (x l).getLsbD j =
        if j / 4 = w.modBits 0 3 then r.1.testBit (j % 4) else (s.opC w lane).getLsbD j) ∧
  Does (.cvtpk w) w (oneReg ++ (if src.width = 8 then s.g.useOf 3 w.c false else [])) s (fun t =>
    ∃ (x : Nat → BitVec 64) (fl : Nat → FlagBits), YieldsFlags w false x fl s t ∧
    ∀ l < 32, let lane := if w.g then 0 else l
      let p := pair lane
      let h := if w.modBit 4 then 16 else 0
      fl l = p.1.2 ||| p.2.2 ∧ ∀ j < 32, (x l).getLsbD j =
        if src.width = 16 then (if j < 16 then p.1.1.testBit j else p.2.1.testBit (j - 16))
        else if h ≤ j ∧ j < h + 8 then p.1.1.testBit (j - h)
        else if h + 8 ≤ j ∧ j < h + 16 then p.2.1.testBit (j - h - 8)
        else (s.readOp .b32 w.c false lane).getLsbD j)) ∧
  (∀ (c : FCtx) (sg sg' : Bool) (n n' x : Nat),
  n ∈ [8, 16, 32, 64] → n' ∈ [8, 16, 32, 64] → x < 2 ^ n →
  let value : Int := if sg ∧ 2 ^ (n - 1) ≤ x then (x : Int) - 2 ^ n else x
  let lo : Int := if sg' then -2 ^ (n' - 1) else 0
  let hi : Int := if sg' then 2 ^ (n' - 1) - 1 else 2 ^ n' - 1
  let r := convert (.int sg n) (.int sg' n') c x
  r.2 = 0 ∧ (c.sat = false → (r.1 : Int) = value % 2 ^ n') ∧
  (c.sat = true → (r.1 : Int) = (if value < lo then lo else if hi < value then hi else value) % 2 ^ n') ∧
  (∀ (f : FFmt) (y : Nat), (f.decode y).isNan → convert (.flt f) (.int sg' n') c y = (0, flagNV)) ∧
  (∀ (f : FFmt) (neg : Bool), f ≠ .e4m3 →
    convert (.flt f) (.int sg' n') c (f.infBits neg) = (((if neg then lo else hi) % 2 ^ n').toNat, flagNV)))

/-- R17, R117, R118: `setfmt` replaces the selected fields of fmt, or takes an illegal-instruction fault of subcode 4 and leaves fmt;
`getfmt` and `getflg` read, `clrflg` clears flags of the active, enabled lanes. (Choices of the model that it uses: log 12, a 32-bit result in an s register.) -/
def Obligations.FormatAndFlags : Prop := ∀ (w : Fields) (s : State),
  let field (j : Nat) : Bool :=
    (w.modBit 0 && j < 3) || (w.modBit 1 && (j = 3 || j = 4)) || (w.modBit 2 && j = 5) || (w.modBit 3 && 6 ≤ j && j < 14)
      || (w.modBit 4 && (j = 14 || j = 15)) || (w.modBit 5 && (j = 16 || j = 17))
  let chosen (v new : BitVec 32) : Prop := ∀ j < 32, new.getLsbD j = if field j then v.getLsbD j else s.g.fmt.getLsbD j
  let v := (s.readOp .b32 w.a false 0).setWidth 32
  (∀ new, chosen v new → fmtLegal new → Sets (.setfmt w) w (s.g.useOf 1 w.a false) s (done w true { s.g with fmt := new })) ∧
  (∀ new, chosen (w.imm.setWidth 32) new → fmtLegal new → Sets (.setfmtImm w) w [] s (done w true { s.g with fmt := new })) ∧
  (∀ new, chosen v new → fmtLegal new = false → Ready (.setfmt w) w (s.g.useOf 1 w.a false) s →
    exec (.setfmt w) s = .next (s.illegal 4 1 (s.g.lanes w))) ∧
  (∀ new, chosen (w.imm.setWidth 32) new → fmtLegal new = false → Ready (.setfmtImm w) w [] s →
    exec (.setfmtImm w) s = .next (s.illegal 4 0xFF (s.g.lanes w))) ∧
  Does (.getfmt w) w (s.g.useDest w false) s (Yields w false (fun _ => s.g.fmt.setWidth 64) s) ∧
  Does (.getflg w) w (s.g.useDest w false) s (fun t => ∃ x, Yields w false x s t ∧
    ∀ l < 32, ∀ j < 32, (x l).getLsbD j =
      if w.g then (List.range 32).any (fun i => (s.g.lanes w).getLsbD i && (rd 0 s.g.flags i).getLsbD j)
      else (rd 0 s.g.flags l).getLsbD j) ∧
  Does (.clrflg w) w [] s (fun t => Advanced w s t ∧ Only s t { s.g with flags := t.g.flags } ∧
    ∀ l < 32, ∀ j < 5, (rd 0 t.g.flags l).getLsbD j =
      ((rd 0 s.g.flags l).getLsbD j && !((s.g.lanes w).getLsbD l && w.imm.getLsbD j)))

/-- R159, R161, R162: the shuffles, `match`, `compact` and `expand`. (Choices of the model that it uses: log 12, a 32-bit result in an s register.) -/
def Obligations.Shuffles : Prop := ∀ (w : Fields) (s : State),
  let on (l : Nat) : Bool := (s.g.lanes w).getLsbD l
  let aim (l : Nat) : Nat := (s.readOp .n32 w.b false l).toNat % 32
  let pick (l : Nat) : Bool := on l && (s.g.readK (s.g.num w.b)).getLsbD l
  let place (p : Nat → Bool) (l : Nat) : Nat := (List.range l).countP p
  Does (.shfl w) w (s.usesShfl w) s (fun t => ∃ x, Yields w w.type.wide x s t ∧ ∀ l < 32, x l = s.opA w (aim l)) ∧
  Does (.shflu w) w (s.usesShfl w) s (fun t => ∃ f, PartYields w w.type.wide f s t ∧
    ∀ l < 32, ((∀ j < 32, on j = true → aim j ≠ l) → f l = none) ∧
      (∀ j < 32, on j = true → aim j = l → (∀ i < 32, j < i → on i = true → aim i ≠ l) → f l = some (s.opA w j))) ∧
  Does (.matchLanes w) w (s.uses1 w) s (fun t => ∃ x, Yields w w.type.wide x s t ∧
    ∀ l < 32, ∀ j < 64, (x l).getLsbD j = (decide (j < 32) && on j && s.opA w j = s.opA w l)) ∧
  Does (.compact w) w (s.usesShfl w) s (fun t => ∃ f, PartYields w w.type.wide f s t ∧
    ∀ l < 32, on l = true → ((∀ j < 32, pick j = true → place pick j ≠ place on l) → f l = none) ∧
      (∀ j < 32, pick j = true → place pick j = place on l → f l = some (s.opA w j))) ∧
  Does (.expand w) w (s.usesShfl w) s (fun t => ∃ f, PartYields w w.type.wide f s t ∧
    ∀ l < 32, on l = true → (pick l = false → f l = none) ∧
      (∀ j < 32, pick l = true → on j = true → place on j = place pick l → f l = some (s.opA w j)))

/-- R37, R56, R160: integer scans and reductions wrap, so each lane's result is the fold of its lanes, whatever the tree's order. R56,
R109, R160: float scans and reductions combine in the tree of R56, and every step's flags go to every active, enabled lane. (Choices of
the model that it uses: log 12.) -/
def Obligations.Scans : Prop :=
  (∀ (w : Fields) (s : State),
  let width := w.type.width
  let ident : BitVec 64 := BitVec.ofNat 64 (match w.modBits 0 3 with
    | 1 => if w.type.signed then 2 ^ (width - 1) - 1 else 2 ^ width - 1
    | 2 => if w.type.signed then 2 ^ (width - 1) else 0
    | 3 => 2 ^ width - 1
    | _ => 0)
  let fold (reduce excl : Bool) (l : Nat) : BitVec 64 :=
    (scanned reduce excl (s.g.lanes w) l).foldl (fun y j => scanOp w.type (w.modBits 0 3) y (s.opA w j)) ident
  let scans (i : Instr) (reduce : Bool) : Prop := Does i w (s.uses1 w) s (fun t => ∃ x, Yields w w.type.wide x s t ∧
    ∀ l < 32, (s.g.lanes w).getLsbD l = true → x l = fold reduce (w.modBit 3) l)
  scans (.iscan w) false ∧ scans (.ired w) true) ∧
  (∀ (w : Fields) (s : State),
  let f := floatOf w.type
  let c := FCtx.ofFmt s.g.fmt
  let op (a b : BitVec 64) : BitVec 64 × FlagBits :=
    let r := match w.modBits 0 3 with
      | 0 => fAdd f c false a.toNat b.toNat
      | 1 => fMinMax f c false a.toNat b.toNat
      | _ => fMinMax f c true a.toNat b.toNat
    (BitVec.ofNat 64 r.1, r.2)
  let ident : BitVec 64 := BitVec.ofNat 64 (match w.modBits 0 3 with | 0 => 0 | 1 => f.infBits false | _ => f.infBits true)
  let y := tree op (fun l => if l < 32 ∧ (s.g.lanes w).getLsbD l then some (BitVec.ofNat 64 (f.flushed c (s.opA w l).toNat)) else none)
  let scans (i : Instr) (value : Nat → BitVec 64) : Prop := Does i w (s.uses1 w) s (fun t =>
    ∃ x, YieldsFlags w w.type.wide x (fun _ => y.2) s t ∧ ∀ l < 32, (s.g.lanes w).getLsbD l = true → x l = value l)
  scans (.fscan w) (fun l =>
    if w.modBit 3 then
      (match (scanned false true (s.g.lanes w) l).getLast? with | some j => (y.1 j).getD ident | none => ident)
    else (y.1 l).getD ident) ∧
  scans (.fred w) (fun _ => (y.1 31).getD ident))

/-- R128, R129: branches, calls and returns; the run ends, and the group splits where the lanes disagree (R148). R146, R147, R148,
R163, R165: the mark-join stack: `mark` pushes, a `join` at the nearest mark's address pops, `exit` takes lanes away and unwinds, or
ends the group with its last live lane. -/
def Obligations.ControlFlow : Prop :=
  (∀ (w : Fields) (s : State),
  let all : Prop := s.g.lanes w = s.g.active
  let near : Nat := (((s.g.pc : Int) + 16 * w.imm.toInt) % 2 ^ 52).toNat
  let far : Nat := (s.readOp .n64 w.a true 0).toNat / 16 % 2 ^ 48 * 16
  let path (target : Nat) : StackEntry := { path := true, addr := target, mask := s.g.lanes w, fmt := s.g.fmt.setWidth 18 }
  let branch (i : Instr) (uses : List RegUse) (target : Nat) : Prop :=
    (w.modBits 0 2 = 1 ∨ all → Sets i w uses s (jumped target s.g)) ∧
    (w.modBits 0 2 = 2 → ¬all → Sets i w uses s (done w false s.g)) ∧
    (w.modBits 0 2 = 0 → ¬all → s.g.stack.length < 32 →
      Sets i w uses s (done w true { s.g with stack := path target :: s.g.stack, active := s.g.active &&& ~~~(s.g.lanes w) })) ∧
    (w.modBits 0 2 = 0 → ¬all → 32 ≤ s.g.stack.length → Ready i w uses s → exec i s = .next (s.faultAt w { cause := 11 }))
  let calls (i : Instr) (uses : List RegUse) (target : Nat) : Prop := Does i w uses s (fun t =>
    t.g.readS (s.g.dnum w) = BitVec.ofNat 64 ((s.g.pc + 16) % 2 ^ 52) ∧
    (∀ n < 64, n ≠ s.g.dnum w → t.g.readS n = s.g.readS n) ∧
    BankKept w s t ∧ t = { s with g := jumped target { s.g with s := t.g.s, hs := t.g.hs } })
  branch (.bra w) [] near ∧ branch (.brx w) (s.g.useOf 1 w.a true) far ∧
  (w.n = false → calls (.call w) (s.g.useDest w true) near) ∧
  (w.n = false → calls (.callx w) (s.g.useDest w true ++ s.g.useOf 1 w.a true) far) ∧
  (w.n = true → Sets (.call w) w (s.g.useDest w true) s (jumped near s.g)) ∧
  (w.n = true → Sets (.callx w) w (s.g.useDest w true ++ s.g.useOf 1 w.a true) s (jumped far s.g)) ∧
  Sets (.ret w) w (s.g.useOf 1 w.a true) s (jumped far s.g)) ∧
  (∀ (w : Fields) (s : State) (e : StackEntry) (dead rest : List StackEntry),
  let at_ : Nat := (((s.g.pc : Int) + 16 * w.imm.toInt) % 2 ^ 52).toNat
  let mark : StackEntry := { path := false, addr := at_, mask := s.g.active, fmt := s.g.fmt.setWidth 18 }
  let popped (g : Group) (e : StackEntry) (rest : List StackEntry) : Group :=
    let pc := if e.path then e.addr else (e.addr + 16) % 2 ^ 52
    jumped pc { g with stack := rest, active := e.mask &&& g.live, fmt := e.fmt.setWidth 32, regionPc := pc
                       regionCount := (g.regionCount + 1) % 2 ^ 32 }
  let live := s.g.live &&& ~~~(s.g.lanes w)
  let left : Group := { s.g with live := live, active := s.g.active &&& ~~~(s.g.lanes w),
                                 stack := s.g.stack.map (fun e => { e with mask := e.mask &&& live }) }
  (s.g.stack.length < 32 → Sets (.mark w) w [] s (done w true { s.g with stack := mark :: s.g.stack })) ∧
  (32 ≤ s.g.stack.length → Ready (.mark w) w [] s → exec (.mark w) s = .next (s.faultAt w { cause := 11 })) ∧
  (s.g.stack = dead ++ e :: rest → (∀ d ∈ dead, d.mask &&& s.g.live = 0) → e.mask &&& s.g.live ≠ 0 → e.addr < 2 ^ 52 →
    (s.g.stack.find? (fun e => !e.path)).map (·.addr) = some s.g.pc → Sets (.join w) w [] s (popped s.g e rest)) ∧
  ((s.g.stack.find? (fun e => !e.path)).map (·.addr) ≠ some s.g.pc → Sets (.join w) w [] s (done w true s.g)) ∧
  (s.g.lanes w ≠ s.g.active → Sets (.exit w) w [] s (done w true left)) ∧
  (s.g.lanes w = s.g.active → s.g.stack = dead ++ e :: rest → (∀ d ∈ dead, d.mask &&& live = 0) → e.mask &&& live ≠ 0 →
    e.addr < 2 ^ 52 →
    Sets (.exit w) w [] s (popped left { e with mask := e.mask &&& live } (rest.map fun e => { e with mask := e.mask &&& live }))) ∧
  (s.g.lanes w = s.g.active → (∀ d ∈ s.g.stack, d.mask &&& live = 0) → s.g.id.ctx ≠ 2 ^ 24 →
    Does (.exit w) w [] s (fun t => t.g.status = .ended ∧ t.g.running = false ∧ (t.g.id = s.g.id → t.g.live = live))) ∧
  ((s.g.stack.find? (fun e => !e.path)).map (·.addr) = some s.g.pc → (∀ d ∈ s.g.stack, d.mask &&& s.g.live = 0) →
    s.g.id.ctx ≠ 2 ^ 24 → Does (.join w) w [] s (fun t => t.g.status = .ended ∧ t.g.running = false)))

/-- R22, R76, R77, R165, R167: `nop` only advances; `yield` ends the run and, under a pre-emption request, lets the group be saved;
`yield.pause` also makes the group wait. R344 to R347: `trap` and `brkpt` take causes 16 and 17 at their own address; `region` enters a
region at the next instruction; `pollpre` reads the request flag. R353, R354: `ifread` writes the code unit at an address, read under
the page's P through the core's instruction cache or at its home, raw into a p register; `halt` lets the group be saved at the next
instruction. (Choices of the model that it uses: log 52, what the instruction cache holds; log 83, the page right of `ifread`; log 96, the form
of `pollpre` with N = 1.) -/
def Obligations.RunControl : Prop :=
  (∀ (w : Fields) (s : State),
  Sets (.nop w) w [] s (done w false s.g) ∧
  Sets (.yield w) w [] s { done w false s.g with saving := s.g.request || s.g.saving } ∧
  (s.g.request = true → Sets (.yieldPause w) w [] s { done w false s.g with saving := true }) ∧
  (s.g.request = false → s.g.status = .resident → s.g.pending = .none →
    Sets (.yieldPause w) w [] s { done w false s.g with pending := .pause (s.time + 16 * w.imm.toNat) })) ∧
  (∀ (w : Fields) (s : State),
  let code : BitVec 64 := if w.a = {} then w.imm.setWidth 64 else ((s.readOp .n64 w.a true 0).setWidth 16).setWidth 64
  Takes (.trap w) w (if w.a = {} then [] else s.g.useOf 1 w.a true) s { cause := 16, extra := code } ∧
  Takes (.brkpt w) w [] s { cause := 17 } ∧
  Sets (.region w) w [] s (done w true s.g) ∧
  Does (.pollpre w) w (s.g.useDest w true) s (Yields w (!w.pollpreFlag) (fun _ =>
    if s.g.request = false then 0 else if w.pollpreFlag = true then 0xFFFFFFFF else 1) s)) ∧
  (∀ (w : Fields) (s s1 s2 : State) (tr : Translation) (d : LineData) (bad : ByteMask),
  let va := (s.readOp .n64 w.a true 0).toNat % 2 ^ 52 / 16 * 16
  let pa := tr.frame + va % 4096
  let unit : Ptr := d.extractLsb' (8 * (pa % 128)) 128
  let uses := s.g.useDestPtr w ++ s.g.useOf 1 w.a true
  let reads (s2 : State) : Prop := Does (.ifread w) w uses s (fun t => PtrYields w (fun _ => unit) s2 t ∧ s2.g = s.g)
  (s.translate s.g.core s.g.id.part va .read = (s1, .ok tr) → w.modBit 0 = false → s1.codeLine s.g.core (pa / 128) = (s2, d, bad) →
    bad.getLsbD (pa % 128) = false → reads s2) ∧
  (s.translate s.g.core s.g.id.part va .read = (s1, .ok tr) → w.modBit 0 = true → s1.homeRead (pa / 128) = (s2, some (d, false)) →
    s2.g = s.g → reads s2) ∧
  (∀ f, s.translate s.g.core s.g.id.part va .read = (s1, .error f) → Ready (.ifread w) w uses s →
    exec (.ifread w) s = .next (s1.faultAt w { cause := f.cause, kind := 1, pos := 1, addr := BitVec.ofNat 64 va, extra := BitVec.ofNat 64 f.extra })) ∧
  (s.g.status = .resident → Sets (.halt w) w [] s { done w false s.g with saving := true, hostSave := true, halted := true }))

/-- R139, R168, R169: `rdid` reads the identity its code names, zero-extended; `rdclk` the module cycle counter. R14, R173: `xset` and
`xadd` write an index register modulo 2^16, `xget` reads one. (Choices of the model that it uses: log 36, another module's grid.) -/
def Obligations.IdentityAndIndex : Prop :=
  (∀ (w : Fields) (s : State) (x : Grid),
  let id := s.g.id
  let t := id.team % (id.width * id.height * id.perCore)
  let value (l : Nat) : Nat := match w.modBits 0 4 with
    | 0 => id.index | 1 => id.team | 2 => id.member | 3 => id.cluster | 4 => t
    | 5 => t / id.perCore % id.width | 6 => t / id.perCore / id.width | 7 => t % id.perCore | 8 => l
    | 9 => s.g.place.die | 10 => s.g.place.site | 11 => s.g.place.quarter | 12 => s.g.place.slot | 13 => s.g.place.clusterNo
    | 14 => s.package | _ => x.groups
  ((w.modBits 0 4 = 15 → s.grids.find? (fun x => x.launch = id.launch) = some x ∧ x.foreign = false) →
    Does (.rdid w) w (s.g.useDest w w.type.wide) s (Yields w w.type.wide (fun l => BitVec.ofNat 64 (value l)) s)) ∧
  Does (.rdclk w) w (s.g.useDest w true) s (Yields w true (fun _ => BitVec.ofNat 64 s.time) s)) ∧
  (∀ (w : Fields) (s : State),
  let r := w.modBits 0 2
  let value : BitVec 16 := if w.modBit 5 then w.imm else (s.readOp .n64 w.a true 0).setWidth 16
  let uses := if w.modBit 5 then [] else s.g.useOf 1 w.a true
  Sets (.xset w) w uses s (done w false { s.g with x := wr s.g.x r value }) ∧
  Sets (.xadd w) w uses s (done w false { s.g with x := wr s.g.x r (rd 0 s.g.x r + value) }) ∧
  Does (.xget w) w (s.g.useDest w false) s (Yields w false (fun _ => (rd 0 s.g.x r).setWidth 64) s))

/-- R20, R21, R36, R151 to R153, R170: `vgrow` raises the allocation and clears the new registers, waits at its pc when it cannot, and
takes a register-bounds fault outside 8 to 256 (or past the quota); `vshrink` releases registers, stalls on a scoreboard hold and
faults on an arm hold. R152: registers that `vgrow` grants hold 0 in every lane and have hold count 0; all others keep their values.
(Choices of the model that it uses: log 108, the quarter in whose order a shadowed group waits.) -/
def Obligations.RegisterAllocation : Prop :=
  (∀ (w : Fields) (s : State),
  let n := w.imm.toNat
  let a := s.g.alloc
  let k := if s.g.id.shadowed then 2 else 1
  let outside : Prop := 256 < a + n ∨ s.quotaRegs s.g.id.part < k * (a + n)
  let free : Prop := s.g.granted = n ∨ (s.quarterQueue s.g.core s.g.place.quarter = [] ∧ s.canGrow s.g n = true)
  let bounds (r : Int) : FaultRec := { cause := 2, extra := BitVec.ofNat 64 (r % 2 ^ 18).toNat }
  let held (r : Nat) : Bool := a - n ≤ r && r < a && s.g.holdCount r ≠ 0
  (¬outside → free →
    Sets (.vgrow w) w [] s (done w true (Group.clearRegs { s.g with alloc := a + n, granted := 0 } a n))) ∧
  (outside → Ready (.vgrow w) w [] s → exec (.vgrow w) s = .next (s.faultAt w (bounds ((a : Int) + n)))) ∧
  (¬outside → ¬free → Does (.vgrow w) w [] s (fun t => t.g.pc = s.g.pc ∧ t.g.pending = .vgrow n ∧ t.g.running = false ∧
    t.vgrowQueue = s.vgrowQueue ++ [s.g.id.ctx] ∧ t.g.alloc = a ∧ t.g.v = s.g.v)) ∧
  (n + 8 ≤ a → a ≤ 256 → (∀ r < 256, held r = false) →
    Sets (.vshrink w) w [] s (done w true (Group.clearRegs { s.g with alloc := a - n } (a - n) n))) ∧
  (a < n + 8 → Ready (.vshrink w) w [] s → exec (.vshrink w) s = .next (s.faultAt w (bounds ((a : Int) - n)))) ∧
  (∀ r < 256, n + 8 ≤ a → a ≤ 256 → held r = true → (∀ q < 256, held q = true → s.g.holdArm q = false) → (∀ q < r, held q = false) →
    Ready (.vshrink w) w [] s → exec (.vshrink w) s = .next { s with g := { s.g with stall := .hold r } }) ∧
  (∀ r < 256, n + 8 ≤ a → a ≤ 256 → held r = true → s.g.holdArm r = true → (∀ q < r, held q = true → s.g.holdArm q = false) →
    Ready (.vshrink w) w [] s →
    exec (.vshrink w) s = .next (s.faultAt w { cause := 13, extra := BitVec.ofNat 64 r }))) ∧
  (∀ (g : Group) (a n r l : Nat), r < 256 → l < 32 →
  let h := g.clearRegs a n
  h.readV r l = (if a ≤ r ∧ r < a + n then 0 else g.readV r l) ∧
  h.holdCount r = (if a ≤ r ∧ r < a + n then 0 else g.holdCount r) ∧ { h with v := g.v, holds := g.holds } = g)

/-- R171, R172: `gridgrow` sends its amount with the group's index and ordinal to the dispatcher, and the run stalls at it for the old
count. R171, R172: the dispatcher applies a `gridgrow` once, when its amount is a multiple of the groups of a cluster that the grid can
take, and returns the old count, else all ones; a repeated one gets the same answer; the result is written, the group's ordinal goes
up, and the run goes on in a new region. A shadowed group's waits until its shadow has made it too (R335). What the dispatcher of another
module answers is open. (Choices of the model that it uses: log 36, another module's grid; log 107, the region is entered with the result.) -/
def Obligations.GridGrowth : Prop :=
  (∀ (w : Fields) (s : State),
  let amount : BitVec 64 := if w.modBit 5 then w.imm.setWidth 64 else s.readOp .n64 w.b true 0
  let id := s.g.nextId
  let e : Entry := { id := id, kind := .gridgrow, cls := .d, path := 8, slots := 0, dfile := .s, dest := s.g.dnum w, tag := amount
                     imm := s.g.gridgrows, counted := false, pc := s.g.pc, instr := id, quad := w.n, mod := w.cap.setWidth 6 }
  Sets (.gridgrow w) w (s.g.useDest w true ++ (if w.modBit 5 then [] else s.g.useOf 2 w.b true)) s
    { s.g with entries := s.g.entries ++ [e], nextId := id + 1, stall := .uniform id }) ∧
  (∀ (s : State) (ctx : Nat) (e : Entry) (x : Grid) (y : CodeWord) (rest : List Fetched),
  let g := s.group ctx
  let w := Fields.unpack y
  let amount := e.tag.toNat
  let applies : Prop := amount ≠ 0 ∧ amount % x.shape.unit = 0 ∧ x.groups + amount ≤ 2 ^ 32 - 1
  let kept : Option (Nat × Nat × Nat) := x.grown.find? (fun k => k.1 = g.id.index && k.2.1 = e.imm)
  let counts := putFirst (fun k => k.1 = g.id.index) (g.id.index, e.imm + 1) x.counts
  let answered (v : BitVec 64) (x' : Grid) : Prop := ∃ t, exec (.gridgrowResult ctx) s = .next t ∧
    t.grids = modifyFirst (fun y => y.launch = x.launch) (fun _ => x') s.grids ∧
    let h := t.group ctx
    h.entries = g.entries.filter (fun k => k.id ≠ e.id) ∧ h.gridgrows = e.imm + 1 ∧
    (∀ r < 64, h.readS r = if e.quad = false ∧ r = e.dest then v else g.readS r) ∧
    h.pc = (g.pc + 16) % 2 ^ 52 ∧ h.regionPc = h.pc ∧ h.regionCount = (g.regionCount + 1) % 2 ^ 32 ∧ h.stall = .none ∧
    h.running = (g.running && !w.e) ∧ h.v = g.v ∧ h.p = g.p ∧ h.k = g.k ∧ h.x = g.x ∧ h.fmt = g.fmt ∧ h.flags = g.flags ∧ t.mem = s.mem
  s.has ctx = true → g.entries.find? (fun e => e.kind = .gridgrow) = some e → s.gridOf g.id.launch = some x →
  g.ibuf = .word y :: rest → g.boundaryFaults = [] → e.dest < 64 → 0 < x.shape.unit →
  (g.stall ≠ .uniform e.id ∨ (g.request = true ∧ g.deadline ≤ s.time) ∨ g.compares e = true → exec (.gridgrowResult ctx) s = .next s) ∧
  (g.stall = .uniform e.id → (g.request = false ∨ s.time < g.deadline) → g.compares e = false →
    (x.foreign = true → ∃ v, answered v x) ∧
    (x.foreign = false →
      (∀ k, kept = some k → answered (BitVec.ofNat 64 k.2.2) { x with counts := counts }) ∧
      (kept = none → applies → answered (BitVec.ofNat 64 x.groups)
        { x with groups := x.groups + amount, grown := (g.id.index, e.imm, x.groups) :: x.grown, counts := counts }) ∧
      (kept = none → ¬applies → answered (BitVec.allOnes 64) { x with counts := counts }))))

/-- R26, R121 to R125, R127: what each pointer instruction builds or reads, field by field. R26, R30, R32, R218, R219: the checks of a
pointer at use, in order: its bits, its anchor, read-shared stores, bounds, alignment. -/
def Obligations.Pointers : Prop :=
  (∀ (w : Fields) (s : State),
  let a (l : Nat) : Ptr := s.ptrOf w.a l
  let b (l : Nat) : BitVec 64 := s.readOp .n64 w.b true l
  let code := w.modBits 0 4
  -- the bits of a field by its code (R121)
  let field : Nat × Nat := match code with
    | 0 => (0, 52) | 1 => (52, 18) | 3 => (104, 6) | 4 => (110, 3) | 5 => (113, 2) | 6 => (115, 3) | 7 => (118, 8) | 8 => (127, 1)
    | 9 => (70, 32) | _ => (102, 2)
  let inField (j : Nat) : Prop := field.1 ≤ j ∧ j < field.1 + field.2
  -- a pointer's length field holds encode(len)
  let holds (p : Ptr) (len : Nat) : Prop :=
    ∃ g < 4, Ptr.lgran p = g ∧ (∀ h < g, 2 ^ 32 ≤ len / granOf h) ∧
      (Ptr.lcount p = len / granOf g ∨ g = 3 ∧ 2 ^ 32 ≤ len / granOf 3 ∧ Ptr.lcount p = 2 ^ 32 - 1)
  let builds (i : Instr) (uses : List RegUse) (P : Nat → Ptr → Prop) : Prop :=
    Does i w (s.g.useDestPtr w ++ uses) s (fun t => ∃ f, PtrYields w f s t ∧ ∀ l < 32, P l (f l))
  let use2 := s.g.usePtr 1 w.a ++ (if w.modBit 4 then [] else s.g.useOf 2 w.b true)
  builds (.pmake w) (s.g.useOf 1 w.a true ++ s.g.useOf 2 w.b true) (fun l p =>
    Ptr.base p = (s.readOp .n64 w.a true l).toNat % 2 ^ 52 ∧ holds p (b l).toNat ∧ Ptr.efmt p = w.immBits 0 6 ∧ Ptr.space p = w.immBits 6 3 ∧
    Ptr.cls p = w.immBits 9 2 ∧ Ptr.scope p = w.immBits 11 3 ∧ Ptr.colour p = w.immBits 14 2 + 4 * w.modBits 0 6 ∧ Ptr.valid p = true ∧
    p.getLsbD 126 = false ∧
    Ptr.anchor p = (match w.immBits 11 3 with
      | 0 => s.package % 128 * 2048 + s.g.place.die * 128 + s.g.place.site
      | 1 => s.package % 128 * 2048 + s.g.place.die * 128 + s.g.place.clusterNo
      | 2 => s.package % 128 * 2048 + s.g.place.die * 128
      | 3 => s.package | _ => 0) % 2 ^ 18) ∧
  builds (.pset w) use2 (fun l p =>
    let v := if w.modBit 4 then w.imm.setWidth 64 else b l
    if code = 2 then holds p v.toNat ∧ ∀ j < 128, ¬(70 ≤ j ∧ j < 104) → p.getLsbD j = (a l).getLsbD j
    else ∀ j < 128, (inField j → p.getLsbD j = v.getLsbD (j - field.1)) ∧ (¬inField j → p.getLsbD j = (a l).getLsbD j)) ∧
  builds (.padd w) use2 (fun l p =>
    let v := (if w.modBit 4 then w.imm.signExtend 64 else b l).toInt
    let nq := Ptr.efmt (a l) = 0x18
    let step : Int := if nq then v / 16384 * 8704 else v * (Ptr.size (a l) : Int)
    let nb : Int := Ptr.base (a l) + step
    let nl : Int := Ptr.length (a l) - v
    (∀ j < 127, ¬(j < 52 ∨ (70 ≤ j ∧ j < 104)) → p.getLsbD j = (a l).getLsbD j) ∧
    (if efReserved (Ptr.efmt (a l)) ∨ (nq ∧ v % 16384 ≠ 0) then Ptr.valid p = false ∧ ∀ j < 127, p.getLsbD j = (a l).getLsbD j
     else (Ptr.base p : Int) = nb % 2 ^ 52 ∧ holds p nl.toNat ∧
      Ptr.valid p = (Ptr.valid (a l) && decide (0 ≤ nb) && decide (nb < 2 ^ 52) && decide (0 ≤ nl)))) ∧
  builds (.pmov w) (s.g.usePtr 1 w.a) (fun l p => p = a l) ∧
  Does (.psub w) w (s.g.useDest w true ++ (s.g.usePtr 1 w.a ++ s.g.usePtr 2 w.b)) s (Yields w true (fun l =>
    let d : Int := (Ptr.base (a l) : Int) - Ptr.base (s.ptrOf w.b l)
    BitVec.ofInt 64 (if Ptr.efmt (a l) = 0x18 then d.tdiv 8704 * 16384 else if efReserved (Ptr.efmt (a l)) then 0 else d.tdiv (Ptr.size (a l)))) s) ∧
  Does (.pget w) w (s.g.useDest w true ++ s.g.usePtr 1 w.a) s (Yields w true (fun l =>
    BitVec.ofNat 64 (if code = 2 then Ptr.length (a l) else (a l).toNat / 2 ^ field.1 % 2 ^ field.2)) s) ∧
  Does (.pchk w) w (s.g.useDest w false ++ s.g.usePtr 1 w.a ++ s.useIndex w (w.modBit 2)) s (Yields w false (fun l =>
    let kind := if w.modBit 3 then 2 else if w.modBit 5 then 3 else 1
    match s.checkLane kind none (fun _ => 0)
        { lane := l, ptr := a l, index := s.elemIndex w (w.modBit 2) l, count := 2 ^ w.modBits 0 2 } with
    | some f => BitVec.ofNat 64 f.cause
    | none => 0) s)) ∧
  (∀ (s : State) (g : Group) (p : Ptr) (i : Int) (kind : Nat) (t : Option Ty) (own : Nat),
  let r := s.checkPtr g p i 1 kind t own
  let addr : Int := if Ptr.efmt p = 0x18 then
      Ptr.base p + 8704 * (i / 16384) + 512 + 32 * (i % 16384 / 64) + i % 16384 % 64 / 2
    else Ptr.base p + i * Ptr.size p
  (Ptr.valid p = false → r.map (·.cause) = some 6) ∧ (p.getLsbD 126 = true → r.map (·.cause) = some 6) ∧
  (Ptr.cls p = 3 ∨ 6 ≤ Ptr.scope p → r.map (·.cause) = some 6) ∧
  (badPointerBits p kind t own = 0 →
    (Ptr.scope p ≤ 3 → Ptr.anchor p ≠ s.anchorFor g (Ptr.scope p) → r.map (·.cause) = some 3) ∧
    (Ptr.scope p = 4 ∨ Ptr.anchor p = s.anchorFor g (Ptr.scope p) → Ptr.scope p ≤ 4 →
      (Ptr.cls p = 1 → kind = 2 → r.map (·.cause) = some 4) ∧
      (Ptr.cls p ≠ 1 → i < 0 ∨ (Ptr.length p : Int) ≤ i ∨ 2 ^ 52 < addr + Ptr.size p → r.map (·.cause) = some 5) ∧
      (r = none → 0 ≤ i ∧ i < (Ptr.length p : Int) ∧ addr + Ptr.size p ≤ 2 ^ 52 ∧ (kind = 3 → addr % (Ptr.size p : Int) = 0)))) ∧
  (r = none → Ptr.valid p = true))

/-- R15, R20, R34, R64, R76, R121 to R127: each of pmake, pset, padd, psub, pget, pchk and pmov completes for every value of its
operands when its word is legal, its registers exist and carry no hold, and an active lane is enabled: the pc advances, no other part
of the module changes, and the destination takes the result: a pointer, or for psub, pget and pchk a number. None of them faults on a
pointer's contents. -/
def Obligations.PointersComplete : Prop := ∀ (w : Fields) (s : State),
  let pointer := s.g.useDestPtr w
  let imm := w.modBit 4
  let lens (l : Nat) : Nat × Nat := encodeLen (s.readOp .n64 w.b true l).toNat
  let made (i : Instr) (uses : List RegUse) (f : Nat → Ptr) : Prop := Ready i w (pointer ++ uses) s →
    ∃ t, exec i s = .next t ∧ Advanced w s t ∧ { t with g := s.g } = s ∧ PtrYields w f s t
  let read (i : Instr) (wide : Bool) (uses : List RegUse) (f : Nat → BitVec 64) : Prop := Ready i w (s.g.useDest w wide ++ uses) s →
    ∃ t, exec i s = .next t ∧ Advanced w s t ∧ { t with g := s.g } = s ∧ Yields w wide f s t
  let second := if imm then [] else s.g.useOf 2 w.b true
  made (.pmake w) (s.g.useOf 1 w.a true ++ s.g.useOf 2 w.b true) (fun l =>
    Ptr.make (s.readOp .n64 w.a true l).toNat (s.anchorFor s.g (w.immBits 11 3)) (lens l).1 (lens l).2 (w.immBits 0 6) (w.immBits 6 3)
      (w.immBits 9 2) (w.immBits 11 3) (w.immBits 14 2 + 4 * w.modBits 0 6)) ∧
  made (.pset w) (s.g.usePtr 1 w.a ++ second) (fun l =>
    let v := (if imm then w.imm.setWidth 64 else s.readOp .n64 w.b true l).toNat
    if w.modBits 0 4 = 2 then Ptr.setLength (s.ptrOf w.a l) v
    else Ptr.set (s.ptrOf w.a l) (ptrField (w.modBits 0 4)).1 (ptrField (w.modBits 0 4)).2 v) ∧
  made (.padd w) (s.g.usePtr 1 w.a ++ second) (fun l =>
    ptrAdd (s.ptrOf w.a l) (if imm then w.imm.signExtend 64 else s.readOp .n64 w.b true l).toInt) ∧
  made (.pmov w) (s.g.usePtr 1 w.a) (fun l => s.ptrOf w.a l) ∧
  read (.psub w) true (s.g.usePtr 1 w.a ++ s.g.usePtr 2 w.b) (fun l => BitVec.ofInt 64 (ptrDistance (s.ptrOf w.a l) (s.ptrOf w.b l))) ∧
  read (.pget w) true (s.g.usePtr 1 w.a) (fun l =>
    let f := ptrField (w.modBits 0 4)
    BitVec.ofNat 64 (if w.modBits 0 4 = 2 then Ptr.length (s.ptrOf w.a l) else bitsAt f.1 f.2 (s.ptrOf w.a l).toNat)) ∧
  (Ready (.pchk w) w (s.g.useDest w false ++ s.g.usePtr 1 w.a ++ s.useIndex w (w.modBit 2)) s →
    ∃ t f, exec (.pchk w) s = .next t ∧ Advanced w s t ∧ { t with g := s.g } = s ∧ Yields w false f s t ∧ ∀ l < 32, (f l).toNat < 8)

/-- R34, R131, R132, R201, R212, R220 to R224: a load whose lanes pass every check, share one path and translate, with room in the
record, becomes one entry and holds its destination registers. R86, R131: a literal load reads n values of the type's width from pc + 4
× IMM with execute permission. (Choices of the model that it uses: log 98.) -/
def Obligations.LoadIssues : Prop :=
  (∀ (w : Fields) (s s' : State) (ts : List Translation) (k : Nat × Nat),
  let n := 2 ^ w.modBits 0 2
  let step := stepOf w.type (s.lanePtrs w)
  let us := s.laneUses w (w.modBit 2) (elemCount n w.type)
  let uses := [spanUse 0 w.dfile (s.g.dnum w) n step true] ++ s.g.usePtr 1 w.a ++ s.useIndex w (w.modBit 2)
  s.g.unsent = [] → (∀ u ∈ us, s.checkLane 1 (some w.type) (wrongForP (w.dfile = .p)) u = none ∧ partKey u.ptr = k) →
  State.translateLanes s.g.core s.g.id.part .read us s = (s', .ok ts) → HasRoom (payloadSlots (w.a.file = .v) 0) false s →
  Does (.ld w) w uses s (fun t => ∃ e, Entered w false (n * step)
    (us.map fun u => { lane := u.lane, ptr := u.ptr, index := BitVec.ofInt 64 u.index }) (fun _ => 0) s s' t e ∧
    e.kind = .load ∧ e.path = k.1 ∧ e.cls = .i ∧ e.dfile = w.dfile ∧ e.dest = s.g.dnum w ∧ e.pages = (if k.1 = 3 then ts else []))) ∧
  (∀ (w : Fields) (s s' : State) (ts : List Translation),
  let n := 2 ^ w.modBits 0 2
  let step := if w.type.wide then 2 else 1
  let a := (((s.g.pc : Int) + 4 * w.imm.toInt) % 2 ^ 52).toNat
  let uses := [spanUse 0 w.dfile (s.g.dnum w) (if w.dfile = .p then 1 else n) step true]
  s.g.unsent = [] → HasRoom 1 false s →
  (a % (4 * step) = 0 →
    State.translateList s.g.core s.g.id.part .exec ((List.range n).map fun j => (a + j * (4 * step)) % 2 ^ 52) s = (s', .ok ts) →
    Does (.ldLiteral w) w uses s (fun t => ∃ e p, Entered w false (n * step)
      [{ lane := 0, ptr := p, index := BitVec.ofNat 64 (a / (4 * step)) }] (fun _ => 0) s s' t e ∧
      Ptr.base p = 0 ∧ Ptr.space p = 4 ∧ Ptr.cls p = 1 ∧ Ptr.scope p = 3 ∧ Ptr.size p = 4 * step ∧
      e.kind = .literal ∧ e.path = 7 ∧ e.dfile = w.dfile ∧ e.dest = s.g.dnum w ∧ e.pages = ts)) ∧
  (a % (4 * step) ≠ 0 → Ready (.ldLiteral w) w uses s → exec (.ldLiteral w) s = .next (s.faultAt w
    { cause := 7, kind := 1, pos := 0xFF, addr := BitVec.ofNat 64 a, extra := BitVec.ofNat 64 (4 * step), lane := lowestLane (s.g.lanes w) })))

/-- R34, R222 to R224, R226, R227, R317, R329: a store whose lanes pass every check, share one path and translate becomes one class-D
entry that carries its converted data; the conversions' flags are raised, and a synchronising pointer makes a region entry. (What a
store that starts a command does when it performs is stated in `EngineEvents`.) R34, R228 to R230, R317, R329: an atomic whose lanes
pass every check becomes one class-D entry with its operands; with MOD bit 5 its destination is held, or a uniform one stalls the run.
(Choices of the model that it uses: logs 21 and 98.) -/
def Obligations.StoreAndAtomicIssues : Prop :=
  (∀ (w : Fields) (s s' : State) (ts : List Translation) (k : Nat × Nat),
  let n := 2 ^ w.modBits 0 2
  let step := stepOf w.type (s.lanePtrs w)
  let us := s.laneUses w (w.modBit 2) (elemCount n w.type)
  let uses := s.g.usePtr 1 w.a ++ s.useIndex w (w.modBit 2) ++ (if w.c.latch then [] else [spanUse 3 w.c.file (s.g.num w.c) n step false])
  let isP : Bool := !w.c.latch && w.c.file = .p
  s.g.unsent = [] → (∀ u ∈ us, s.checkLane 2 (some w.type) (wrongForP isP) u = none ∧ partKey u.ptr = k) →
  (∀ u ∈ us, Ptr.space u.ptr = 7 → ∀ x ∈ engineWrites u (s.storeLane w n u).1, startsWork x = false) →
  State.translateLanes s.g.core s.g.id.part .write us s = (s', .ok ts) →
  HasRoom (payloadSlots (w.a.file = .v) (128 * step * n)) true s →
  Does (.st w) w uses s (fun t => ∃ e, Entered w (us.any fun u => Ptr.sync u.ptr) 0
    (us.map fun u => { lane := u.lane, ptr := u.ptr, index := BitVec.ofInt 64 u.index, data := (s.storeLane w n u).1 })
    (fun l => match us.find? (fun u => u.lane = l || w.g) with | some u => (s.storeLane w n u).2 | none => 0) s s' t e ∧
    e.kind = (if k.1 = 5 then .regsStore else if k.1 = 6 then .engineStart else .store) ∧ e.path = k.1 ∧ e.cls = .d ∧ e.dfile = .v)) ∧
  (∀ (w : Fields) (s s' : State) (ts : List Translation) (k : Nat × Nat),
  let step := if w.type.wide then 2 else 1
  let op := w.modBits 0 4
  let n := if op = 8 then 2 else 1
  let us := s.laneUses w false (fun _ => 1)
  let uses := (if w.modBit 5 then [spanUse 0 w.dfile (s.g.dnum w) 1 step true] else []) ++ s.g.usePtr 1 w.a ++ s.useIndex w false
    ++ (if w.c.latch then [] else [spanUse 3 w.c.file (s.g.num w.c) n step false])
  s.g.unsent = [] → atomTypes op w.type = true → (∀ u ∈ us, s.checkLane 3 (some w.type) (fun _ => 0) u = none ∧ partKey u.ptr = k) →
  State.translateLanes s.g.core s.g.id.part .write us s = (s', .ok ts) →
  HasRoom (payloadSlots (w.a.file = .v) (32 * (if op = 8 then 16 else if w.type.wide then 8 else 4))) true s →
  Does (.atom w) w uses s (fun t => ∃ e, Entered w (us.any fun u => Ptr.sync u.ptr) (if w.modBit 5 then step else 0)
    (us.map fun u => { lane := u.lane, ptr := u.ptr, index := BitVec.ofInt 64 u.index
                       data := (List.range n).map (fun j => s.dataReg w step j u.lane) }) (fun _ => 0) s s' t e ∧
    e.kind = .atomic ∧ e.path = k.1 ∧ e.cls = .d ∧ e.mod = w.mod ∧ e.ty = w.ty ∧
    e.dfile = (if w.modBit 5 then w.dfile else .v) ∧ (w.modBit 5 = true → e.dest = s.g.dnum w)))

/-- R34, R218, R219: an access one of whose lanes fails a check takes that fault before any effect: the failure that comes first in the
order of R34, at its lowest lane (`ld` and `st`). -/
def Obligations.AccessFaults : Prop := ∀ (w : Fields) (s : State) (u : LaneUse) (f : PtrFault),
  let n := 2 ^ w.modBits 0 2
  let step := stepOf w.type (s.lanePtrs w)
  let us := s.laneUses w (w.modBit 2) (elemCount n w.type)
  let index := s.useIndex w (w.modBit 2)
  let isP : Bool := !w.c.latch && w.c.file = .p
  let fails (kind : AccessKind) (own : Ptr → Nat) : Prop := u ∈ us ∧ s.checkLane kind (some w.type) own u = some f ∧
    ∀ v ∈ us, ∀ f', s.checkLane kind (some w.type) own v = some f' →
      causeRank f.cause ≤ causeRank f'.cause ∧ (causeRank f.cause = causeRank f'.cause → u.lane ≤ v.lane)
  let takes (i : Instr) (uses : List RegUse) (kind : AccessKind) : Prop := Ready i w uses s →
    exec i s = .next (s.faultAt w { cause := f.cause, kind := kind, pos := 1, addr := f.addr, extra := f.extra, ptr := u.ptr
                                    lane := if w.g then 0xFF else u.lane })
  s.g.unsent = [] →
  (fails 1 (wrongForP (w.dfile = .p)) →
    takes (.ld w) ([spanUse 0 w.dfile (s.g.dnum w) n step true] ++ s.g.usePtr 1 w.a ++ index) 1) ∧
  (fails 2 (wrongForP isP) → takes (.st w) (s.g.usePtr 1 w.a ++ index
    ++ (if w.c.latch then [] else [spanUse 3 w.c.file (s.g.num w.c) n step false])) 2)

/-- R231, R233: `narrow` and `widen` give the pointer its new scope and the issuer's own anchor for it; for global and peer space an
entry walks the L1. (`n` is the destination's number; the form has a p destination and G = 1.) R234: `linclr` sends one 128-byte line,
aligned in global space, with the words of every lane of C. -/
def Obligations.ScopeChangesAndLineClear : Prop :=
  (∀ (w : Fields) (s s' : State) (ts : List Translation),
  let p := s.g.readP (s.g.num w.a)
  let sc := w.immBits 0 3
  let cached : Prop := (Ptr.space p = 4 ∨ Ptr.space p = 5) ∧ Ptr.length p ≠ 0
  let uses := s.g.useDestPtr w ++ s.g.usePtr 1 w.a
  let changes (i : Instr) (narrow : Bool) : Prop :=
    Ptr.space p < 6 → (if narrow then sc ≤ Ptr.scope p else Ptr.scope p ≤ sc) →
    (Ptr.length p ≠ 0 → s.checkPtr s.g p 0 1 1 none 0 = none ∧ s.checkPtr s.g p ((Ptr.length p : Int) - 1) 1 1 none 0 = none) →
    (Ptr.space p = 4 → Ptr.length p ≠ 0 →
      State.translateList s.g.core s.g.id.part (if narrow then .read else .write) [Ptr.base p] s = (s', .ok ts)) →
    (¬(Ptr.space p = 4 ∧ Ptr.length p ≠ 0) → s' = s) → HasRoom 1 false s →
    Does i w uses s (fun t =>
      (∃ q, (∀ n < 16, t.g.readP n = if w.n = false ∧ n = s.g.dnum w then q else s.g.readP n) ∧
        (sc = Ptr.scope p → q = p) ∧
        (sc ≠ Ptr.scope p → Ptr.scope q = sc ∧ Ptr.anchor q = s.anchorFor s.g sc % 2 ^ 18 ∧
          ∀ j < 128, ¬(52 ≤ j ∧ j < 70) → ¬(115 ≤ j ∧ j < 118) → q.getLsbD j = p.getLsbD j)) ∧
      (cached → ∃ e, t.g.entries = s.g.entries ++ [e] ∧ e.kind = .scopeWalk ∧ e.imm = (if narrow then 8 else sc)) ∧
      (¬cached → t.g.entries = s.g.entries) ∧
      Advanced w s t ∧ t.g.v = s.g.v ∧ t.g.s = s.g.s ∧ t.g.hs = s.g.hs ∧ t.g.k = s.g.k ∧ t.g.x = s.g.x ∧ t.g.fmt = s.g.fmt ∧
      t.g.flags = s.g.flags ∧ { t with g := s.g } = { s' with g := s.g })
  changes (.narrow w) true ∧ changes (.widen w) false) ∧
  (∀ (w : Fields) (s s' : State) (ts : List Translation),
  let p := s.ptrOf w.a 0
  let i := s.elemIndex w true 0
  let u : LaneUse := { lane := 0, ptr := p, index := i, count := 1 }
  let uses := s.g.usePtr 1 w.a ++ s.useIndex w true ++ s.g.useOf 3 w.c false
  Ptr.space p = 4 → s.checkPtr s.g p i 1 2 none 0 = none → Ptr.elemAddr p i % 128 = 0 →
  State.translateLanes s.g.core s.g.id.part .write [u] s = (s', .ok ts) → HasRoom (payloadSlots (w.a.file = .v) 128) true s →
  Does (.linclr w) w uses s (fun t => ∃ e, Entered w false 0
    [{ lane := 0, ptr := p, index := BitVec.ofInt 64 i, data := (List.range 32).map fun l => (s.readOp .b32 w.c false l).setWidth 128 }]
    (fun _ => 0) s s' t e ∧ e.kind = .linclr ∧ e.cls = .d ∧ e.path = 3 ∧ e.pages = ts))

/-- R211, R235: `waitp` ends when its path's counter is at most the limit, else the group waits at its pc. R20, R21, R377, R378: `arm`
sets an arm hold of IMM counts (0 stands for 32); `waith` is satisfied when the register is not held and acquires at pod scope, else
the group waits. -/
def Obligations.PathAndArmWaits : Prop :=
  (∀ (w : Fields) (s : State),
  let limit := if w.modBit 5 then w.immBits 8 8 else (s.readOp .n64 w.a true 0).toNat
  let counter := (s.g.entries.filter fun e => e.counted && e.path = w.immBits 0 3).length
  let uses := if w.modBit 5 then [] else s.g.useOf 1 w.a true
  (counter ≤ limit → Sets (.waitp w) w uses s (done w false s.g)) ∧ (limit < counter → Sets (.waitp w) w uses s (parked s.g))) ∧
  (∀ (w : Fields) (s : State),
  let r := s.g.num w.a
  let c := if w.immBits 0 6 = 0 then 32 else w.immBits 0 6
  let use (wr : Bool) : RegUse := { pos := 1, file := .v, num := r, write := wr }
  Sets (.arm w) w [use true] s (done w false { s.g with holds := wr s.g.holds r (BitVec.ofNat 8 (64 + c)) }) ∧
  Makes (.waith w) w [use false] s { s.acquireDrop s.g.core 4 with g := done w false s.g } ∧
  (Ready (.waith w) w [] s → s.g.outOfBounds (use false) = false → s.g.holdCount r ≠ 0 →
    exec (.waith w) s = .next { s with g := parked s.g }) ∧
  (Ready (.arm w) w [] s → s.g.outOfBounds (use true) = false → s.g.holdCount r ≠ 0 →
    exec (.arm w) s = .next (if s.g.holdArm r then s.faultAt w { cause := 13, pos := 1, extra := BitVec.ofNat 64 r }
      else { s with g := { s.g with stall := .hold r } })))

/-- R292: `roster` sets the team's roster; an index past the team, or a pending arrival, is refused with cause 12, bit 3. R268, R293,
R294: `mma` is an arrival: it holds its fragment registers and joins the open batch; the last member's arrival forms an operation when
all agree. It is refused, in order, outside the roster, for formats that are no row of R57, and for units the team does not hold. -/
def Obligations.MatrixArrivals : Prop :=
  (∀ (w : Fields) (s : State),
  let t := s.teamOf s.g
  let m := w.immBits 0 8
  let refused : Prop := (∃ i < 8, t.size ≤ i ∧ m.testBit i = true) ∨ ∃ l ∈ t.arrivals, l ≠ []
  (¬refused → Makes (.roster w) w [] s { s.modTeam s.g (fun t => { t with roster := BitVec.ofNat 8 m }) with g := done w true s.g }) ∧
  (refused → Takes (.roster w) w [] s { cause := 12, extra := 8 })) ∧
  (∀ (w : Fields) (s : State) (sh : Nat × Nat × Nat) (place : Nat),
  let mfa := fmtMFA s.g.fmt
  let mfb := fmtMFB s.g.fmt
  let macc := fmtMACC s.g.fmt
  let t := s.teamOf s.g
  let h := w.immBits 0 8
  let me := s.g.id.member
  let span (first n : Nat) : List Nat := (List.range n).map (first + ·)
  let regs := (span (s.g.num w.a) s.mmaSpans.1 ++ span (s.g.num w.b) s.mmaSpans.2.1 ++ span (s.g.num w.c) s.mmaSpans.2.2).eraseDups
  let a : Arrival := { ctx := s.g.id.ctx, op := s.g.nextId, handle := h, mfa := mfa, mfb := mfb, macc := macc, regA := s.g.num w.a
                       regB := s.g.num w.b, regS := s.g.num w.c, held := regs, pc := s.g.pc, mask := s.g.lanes w }
  let pending (m : Nat) : List Arrival := t.arrivals.getD m []
  let put (t : Team) : Team :=
    { t with arrivals := (List.range 8).map fun m => if m = me then t.arrivals.getD m [] ++ [a] else t.arrivals.getD m [] }
  let g := { regs.foldl Group.raiseHold s.g with nextId := s.g.nextId + 1, openMatrix := s.g.openMatrix ++ [s.g.nextId] }
  let i := Instr.mma w
  (s.rosterPlace = none → Takes i w (s.usesMma w) s { cause := 12, extra := 8 }) ∧
  (s.rosterPlace = some place → matrixShape mfa mfb macc = none → Takes i w (s.usesMma w) s { cause := 12, extra := 4 }) ∧
  (s.rosterPlace = some place → matrixShape mfa mfb macc = some sh →
    (t.units < h + (if sh.1 = 64 then 4 else 1) → Takes i w (s.usesMma w) s { cause := 12, extra := 2 }) ∧
    (h + (if sh.1 = 64 then 4 else 1) ≤ t.units →
      (4 ≤ (pending me).length → Makes i w (s.usesMma w) s { s with g := { s.g with stall := .other } }) ∧
      ((pending me).length < 4 → (∃ m ∈ t.positions, m ≠ me ∧ pending m = []) →
        Makes i w (s.usesMma w) s { s.modTeam s.g put with g := done w true g }) ∧
      (pending me = [] → (∀ m ∈ t.positions, m ≠ me → ∃ b rest, pending m = b :: rest ∧
          b.handle = h ∧ b.mfa = mfa ∧ b.mfb = mfb ∧ b.macc = macc) →
        Does i w (s.usesMma w) s (fun t' => t'.nextOp = s.nextOp + 1 ∧ t'.g.pc = (s.g.pc + 16) % 2 ^ 52 ∧
          ∃ o ∈ t'.ops, o.id = s.nextOp ∧ o.launch = s.g.id.launch ∧ o.team = s.g.id.team ∧ o.core = s.g.core ∧ o.handle = h ∧
            o.mfa = mfa ∧ o.mfb = mfb ∧ o.macc = macc ∧ o.r = t.positions.length)))))

/-- R295, R296: `acalloc` grants units, whose bytes are zero, at once, waits at its pc, or faults; `acfree` releases the last units,
stalls while an arrival or an operation names them, or faults. R271, R272, R297 to R299: `aczero` and `acwr` write a tile at once when
no operation concerns it, else after the last that does; `acrd` reads a row once the operations before it are complete; a row or tile
out of range is cause 12, bit 1. (Choices of the model that it uses: log 51.) -/
def Obligations.Accumulators : Prop :=
  (∀ (w : Fields) (s : State),
  let u := (if w.a = {} then BitVec.ofNat 64 (w.immBits 0 8) else s.readOp .n64 w.a true 0).toNat
  let n := (s.teamOf s.g).units
  let q := s.coreQueue s.g.core
  let bad : Prop := u = 0 ∨ 128 < n + u ∨ s.quotaUnits s.g.id.part < n + u
  let now : Prop := (q = [] ∨ q.head? = some s.g.id.ctx) ∧ s.canGiveUnits s.g.core s.g.id.part u = true
  let fault (r : Int) : FaultRec := { cause := 2, extra := BitVec.ofNat 64 ((r % 2 ^ 18).toNat + 2 ^ 26) }
  let usesA := if w.a = {} then [] else s.g.useOf 1 w.a true
  let alloc := s.g.useDest w true ++ usesA
  let meets (h m : Nat) : Prop := h < n ∧ n - u < h + m
  let busy : Prop := (∃ l ∈ (s.teamOf s.g).arrivals, ∃ a ∈ l, meets a.handle (unitsOf a.mfa a.mfb a.macc)) ∨ s.opsOn s.g (n - u) u ≠ []
  (bad → Takes (.acalloc w) w alloc s (fault ((n : Int) + u))) ∧
  (¬bad → now → Does (.acalloc w) w alloc s (fun t =>
    t.teams = (s.modTeam s.g fun t => { t.clearUnits n u with units := n + u }).teams ∧
    (w.n = false → t.g.readS (s.g.dnum w) = BitVec.ofNat 64 n) ∧ (∀ r < 64, w.n = true ∨ r ≠ s.g.dnum w → t.g.readS r = s.g.readS r) ∧
    s.g.id.ctx ∉ t.acallocQueue ∧ Advanced w s t ∧ RegionEntered true s t ∧
    (if 0 < s.g.depth ∧ s.g.dnum w < 8 then t.g.s = s.g.s else t.g.hs = s.g.hs) ∧
    still t.g = still { s.g with s := t.g.s, hs := t.g.hs, regionPc := t.g.regionPc, regionCount := t.g.regionCount } ∧
    { t with g := s.g, teams := s.teams, acallocQueue := s.acallocQueue } = s)) ∧
  (¬bad → ¬now → Does (.acalloc w) w alloc s (fun t => t.g = { parked s.g with pending := .acalloc u } ∧ s.g.id.ctx ∈ t.acallocQueue ∧
    { t with g := s.g, acallocQueue := s.acallocQueue } = s)) ∧
  (u = 0 ∨ n < u → Takes (.acfree w) w usesA s (fault ((n : Int) - u))) ∧
  (0 < u → u ≤ n → busy → Makes (.acfree w) w usesA s { s with g := { s.g with stall := .other } }) ∧
  (0 < u → u ≤ n → ¬busy → Makes (.acfree w) w usesA s
    { (s.modTeam s.g (fun t => { t.dropUnits (n - u) u with units := n - u })).setCore s.g.core
        { s.core s.g.core with accTeams := (s.core s.g.core).accTeams + 1 } with g := done w true s.g })) ∧
  (∀ (w : Fields) (s : State) (o : MatrixOp),
  let kind := w.modBits 0 2
  let h := w.immBits 0 8
  let clear : TileWrite := { first := h, units := w.immBits 8 8 + 1, clear := true }
  let step := if w.type.wide then 2 else 1
  let units := if kind = 0 then 4 else 1
  let size := if kind = 2 then 8 else 4
  let row := (if w.modBit 5 then BitVec.ofNat 64 (w.immBits 8 8) else s.readOp .n64 w.b true 0).toNat
  let regs := if kind = 0 then 2 else 1
  let dims : Nat × Nat := if kind = 0 then (64, 64) else if kind = 1 then (32, 32) else (16, 16)
  let bad : Prop := dims.1 ≤ row ∨ (kind = 2 ∧ row % 2 = 1) ∨ (s.teamOf s.g).units < h + units
  -- the byte offset of the element in register `j`, lane `l`
  let at_ (j l : Nat) : Nat :=
    4096 * h + size * (if kind = 2 then (row + l / 16) * 16 + l % 16 else row * dims.2 + 32 * j + l)
  let fmt : NumFmt := if w.modBits 2 2 = 1 then .int true 32 else if w.modBits 2 2 = 2 then .flt .f64 else .flt .f32
  let c := FCtx.ofFmt s.g.fmt
  let read (j l : Nat) : FRes := convert fmt (tyNum w.type) c ((s.teamOf s.g).accRead (at_ j l) size)
  let written (j l : Nat) : FRes := convert (tyNum w.type) fmt c (s.dataReg w step j l).toNat
  let puts := ((maskLanes (s.g.lanes w)).map fun l => (List.range regs).map fun j => (at_ j l, leBytes size (written j l).1)).flatten
  let tile : TileWrite := { first := h, units := units, puts := puts }
  let rowUse := if w.modBit 5 then [] else s.g.useOf 2 w.b true
  let usesR := (if w.n then [] else [({ pos := 0, file := .v, num := s.g.dnum w, count := regs * step, align := step, write := true } : RegUse)]) ++ rowUse
  let usesW := rowUse ++ (if w.c.latch then [] else [spanUse 3 .v (s.g.num w.c) regs step false])
  let flags (f : Nat → Nat → FRes) (l : Nat) : FlagBits := if regs = 2 then (f 0 l).2 ||| (f 1 l).2 else (f 0 l).2
  let last (first n : Nat) : Option MatrixOp := (s.opsOn s.g first n).getLast?
  ((s.teamOf s.g).units < h + clear.units → Takes (.aczero w) w [] s { cause := 12, extra := 2 }) ∧
  (h + clear.units ≤ (s.teamOf s.g).units → last h clear.units = none →
    Makes (.aczero w) w [] s { s.modTeam s.g (fun t => t.clearUnits h clear.units) with g := done w false s.g }) ∧
  (h + clear.units ≤ (s.teamOf s.g).units → last h clear.units = some o → Makes (.aczero w) w [] s
    { s with ops := modifyFirst (fun x => x.id = o.id) (fun x => { x with after := x.after ++ [clear] }) s.ops, g := done w false s.g }) ∧
  (bad → Takes (.acrd w) w usesR s { cause := 12, extra := 2 } ∧ Takes (.acwr w) w usesW s { cause := 12, extra := 2 }) ∧
  (¬bad → s.opsOn s.g h units ≠ [] → s.g.tileWait = none →
    Makes (.acrd w) w usesR s { s with g := { s.g with stall := .tile, tileWait := some ((s.opsOn s.g h units).map (·.id), h, units) } }) ∧
  (¬bad → (s.g.tileWait = none ∧ s.opsOn s.g h units = []) ∨ (∃ x, s.g.tileWait = some x ∧ ∀ o ∈ s.ops, o.id ∉ x.1) → Does (.acrd w) w usesR s (fun t =>
    (∀ n < 256, ∀ l < 32, t.g.readV n l =
      let j := (n - s.g.dnum w) / step
      if w.n = false ∧ (s.g.lanes w).getLsbD l = true ∧ s.g.dnum w ≤ n ∧ n < s.g.dnum w + regs * step then
        (BitVec.ofNat 64 (read j l).1 >>> (32 * ((n - s.g.dnum w) % step))).setWidth 32
      else s.g.readV n l) ∧
    FlagsOred w (flags read) s t ∧ Advanced w s t ∧ Only s t { s.g with v := t.g.v, flags := t.g.flags })) ∧
  (¬bad → last h units = none → Does (.acwr w) w usesW s (fun t =>
    t.teams = (s.modTeam s.g fun t => { t with acc := puts.foldl (fun m p => scratchWrite m p.1 p.2) t.acc }).teams ∧
    FlagsOred w (flags written) s t ∧ Advanced w s t ∧ Only s { t with teams := s.teams } { s.g with flags := t.g.flags })) ∧
  (¬bad → last h units = some o → Does (.acwr w) w usesW s (fun t =>
    t.ops = modifyFirst (fun x => x.id = o.id) (fun x => { x with after := x.after ++ [tile] }) s.ops ∧
    FlagsOred w (flags written) s t ∧ Advanced w s t ∧ Only s { t with ops := s.ops } { s.g with flags := t.g.flags })))

/-- R274, R275, R282, R300, R301: `sealm` and `sealc` close the open batch under its number, the 64th pending one stalls; `waitm` and
`waitc` end when at most the limit is pending, and `waitm` then takes the team's matrix flags. -/
def Obligations.Batches : Prop := ∀ (w : Fields) (s : State),
  let dest := if w.modBit 0 then s.g.useDest w true else []
  let limit := if w.modBit 5 then w.immBits 8 8 else (s.readOp .n64 w.a true 0).toNat
  let uses := if w.modBit 5 then [] else s.g.useOf 1 w.a true
  let seals (i : Instr) (closed : List (Nat × List Nat)) (n : Nat) (g : Group → Group) : Prop :=
    (63 ≤ closed.length → Makes i w dest s { s with g := { s.g with stall := .batch } }) ∧
    (closed.length < 63 → Does i w dest s (fun t =>
      (∀ r < 64, t.g.readS r = if w.modBit 0 ∧ w.n = false ∧ r = s.g.dnum w then BitVec.ofNat 64 n else s.g.readS r) ∧
      (if 0 < s.g.depth ∧ s.g.dnum w < 8 then t.g.s = s.g.s else t.g.hs = s.g.hs) ∧
      Advanced w s t ∧ RegionEntered true s t ∧
      Only s t { g s.g with s := t.g.s, hs := t.g.hs, regionPc := t.g.regionPc, regionCount := t.g.regionCount }))
  seals (.sealm w) s.g.matrixBatches s.g.nextMatrix (fun g => { g with
    matrixBatches := if g.openMatrix = [] then g.matrixBatches else g.matrixBatches ++ [(g.nextMatrix, g.openMatrix)]
    openMatrix := [], nextMatrix := (g.nextMatrix + 1) % 65536 }) ∧
  seals (.sealc w) s.g.copyBatches s.g.nextCopy (fun g => { g with
    copyBatches := if g.openCopy = [] then g.copyBatches else g.copyBatches ++ [(g.nextCopy, g.openCopy)]
    openCopy := [], nextCopy := (g.nextCopy + 1) % 65536 }) ∧
  (s.g.matrixBatches.length ≤ limit → Does (.waitm w) w uses s (fun t => Advanced w s t ∧
    (∀ l < 32, rd 0 t.g.flags l = if (s.g.lanes w).getLsbD l then rd 0 s.g.flags l ||| (s.teamOf s.g).flags else rd 0 s.g.flags l) ∧
    Only s t { s.g with flags := t.g.flags })) ∧
  (limit < s.g.matrixBatches.length → Sets (.waitm w) w uses s (parked s.g)) ∧
  (s.g.copyBatches.length ≤ limit → Sets (.waitc w) w uses s (done w false s.g)) ∧
  (limit < s.g.copyBatches.length → Sets (.waitc w) w uses s (parked s.g))

/-- R287, R288, R302, R303, R305: `bar.init` and `bar.expect` change the barrier of the team that they name, and a phase completes when
its arrivals and bytes are all there; a barrier past the team's count is cause 5. R289, R302, R304, R317: an arrival at a barrier takes
an entry of the record and the run goes on; its count is made once the group's earlier accesses are performed. The remote form names a
team of the cluster. R249, R288, R289, R302, R306: `bar.wait` and `bar.try` are satisfied when the barrier's phase is not the parity
they name and the group's earlier arrivals are applied; success acquires at the barrier's scope. (Choices of the model that it uses:
log 55.) -/
def Obligations.Barriers : Prop :=
  (∀ (w : Fields) (s : State),
  let b := w.immBits 0 6
  let count := (s.teamOf s.g).barriers.length
  let wrap (x : Int) : Int := if 2 ^ 31 ≤ x % 2 ^ 32 then x % 2 ^ 32 - 2 ^ 32 else x % 2 ^ 32
  let settle (x : Barrier) : Barrier := if x.init ∧ x.arr = x.expArr ∧ x.tx = 0 then { x with phase := !x.phase, arr := 0 } else x
  let n := (if w.modBit 5 then BitVec.ofNat 64 (w.immBits 6 10) else s.readOp .n64 w.a true 0)
  let signed (x : BitVec 64) : Int := (x.setWidth 32).toInt
  let bytes := if w.b = {} then 0 else signed (s.readOp .n64 w.b true 0)
  let add : Int := if w.modBit 5 then ((64 * w.immBits 6 10 : Nat) : Int) else signed (s.readOp .n64 w.b true 0)
  let usesI := (if w.modBit 5 then [] else s.g.useOf 1 w.a true) ++ (if w.b = {} then [] else s.g.useOf 2 w.b true)
  let usesE := if w.modBit 5 then [] else s.g.useOf 2 w.b true
  let free : Prop := s.g.arriving s.g.teamInCluster = false
  let put (f : Barrier → Barrier) : State := { s.modBarrier s.g.id.launch s.g.id.team b f with g := done w true s.g }
  (count ≤ b → Takes (.barInit w) w usesI s { cause := 5, extra := BitVec.ofNat 64 b } ∧
    Takes (.barExpect w) w usesE s { cause := 5, extra := BitVec.ofNat 64 b }) ∧
  (b < count → n = 0 ∨ 768 < n.toNat → Takes (.barInit w) w usesI s { cause := 5, extra := n }) ∧
  (b < count → n ≠ 0 → n.toNat ≤ 768 → free → Makes (.barInit w) w usesI s (put fun x =>
    settle { x with expArr := n.toNat, scope := w.modBit 0, init := true, arr := min x.arr n.toNat, tx := wrap (x.tx + bytes) })) ∧
  (b < count → free → Makes (.barExpect w) w usesE s (put fun x => settle { x with tx := wrap (x.tx + add) })) ∧
  (b < count → ¬free → Makes (.barExpect w) w usesE s { s with g := { s.g with stall := .other } })) ∧
  (∀ (w : Fields) (s : State),
  let b := w.immBits 0 6
  let count := (s.teamOf s.g).barriers.length
  let team := (s.readOp .n64 w.a true 0).toNat % 256
  let teams := s.g.id.width * s.g.id.height * s.g.id.perCore
  let usesR := s.g.useOf 1 w.a true
  let arrives (i : Instr) (uses : List RegUse) (kind : EntryKind) (t : Nat) : Prop :=
    HasRoom 1 true s → Does i w uses s (fun u => ∃ e, Entered w true 0 [] (fun _ => 0) s s u e ∧
      e.kind = kind ∧ e.cls = .d ∧ e.imm = b ∧ e.work = t)
  (b < count → arrives (.barArrive w) [] .localArrival s.g.teamInCluster) ∧
  (b < count → team < teams → arrives (.barArriveRemote w) usesR .remoteArrival team) ∧
  (b < count → teams ≤ team → Takes (.barArriveRemote w) w usesR s { cause := 5, extra := BitVec.ofNat 64 team }) ∧
  (count ≤ b → Takes (.barArrive w) w [] s { cause := 5, extra := BitVec.ofNat 64 b } ∧
    Takes (.barArriveRemote w) w usesR s { cause := 5, extra := BitVec.ofNat 64 b })) ∧
  (∀ (w : Fields) (s : State),
  let b := w.immBits 0 6
  let count := (s.teamOf s.g).barriers.length
  let x := (s.teamOf s.g).barriers.getD b {}
  let parity := if w.a = {} then w.imm.getLsbD 6 else (s.readOp .n64 w.a true 0).getLsbD 0
  let usesA := if w.a = {} then [] else s.g.useOf 1 w.a true
  let arriving : Prop := s.g.arriving s.g.teamInCluster = true
  let acquired : State := s.acquireDrop s.g.core (if x.scope then 1 else 0)
  (b < count → ¬arriving → x.phase ≠ parity → Makes (.barWait w) w usesA s { acquired with g := done w false s.g }) ∧
  (b < count → arriving ∨ x.phase = parity → Makes (.barWait w) w usesA s { s with g := parked s.g }) ∧
  (b < count → ¬arriving → Does (.barTry w) w (s.g.useDest w false ++ usesA) s (fun t =>
    if x.phase ≠ parity then Yields w false (fun _ => 0xFFFFFFFF) acquired t else Yields w false (fun _ => 0) s t)) ∧
  (b < count → arriving → Makes (.barTry w) w (s.g.useDest w false ++ usesA) s { s with g := { s.g with stall := .other } }) ∧
  (count ≤ b → Takes (.barWait w) w usesA s { cause := 5, extra := BitVec.ofNat 64 b } ∧
    Takes (.barTry w) w (s.g.useDest w false ++ usesA) s { cause := 5, extra := BitVec.ofNat 64 b }))

/-- R31, R379, R380: `myname` writes the group's own regs pointer, or the BASE value, and zero without a name; `nameinfo` sends its
question and the run stalls for the answer. -/
def Obligations.NameInstructions : Prop := ∀ (w : Fields) (s : State),
  let base := (s.g.nameSlot * 2 ^ 32 + s.g.nameGen * 2 ^ 16) % 2 ^ 52
  let p := s.ptrOf w.a 0
  let bad (f : PtrFault) : FaultRec := { cause := f.cause, kind := 1, pos := 1, addr := f.addr, extra := f.extra, ptr := p
                                         lane := if w.g then 0xFF else 0 }
  let check (own : Nat) : Option PtrFault := s.checkPtr s.g p 0 0 2 none own
  let uses := s.g.useDest w true ++ s.g.usePtr 1 w.a
  (w.mynameWord = false → Does (.myname w) w (s.g.useDestPtr w) s (fun t => ∃ q, PtrYields w (fun _ => q) s t ∧
    (s.g.nameSlot = 0 → q = 0) ∧
    (s.g.nameSlot ≠ 0 → Ptr.base q = base ∧ Ptr.anchor q = s.g.namePackage % 2 ^ 18 ∧ Ptr.lcount q = 8192 ∧ Ptr.lgran q = 0 ∧
      Ptr.efmt q = 0x02 ∧ Ptr.space q = 6 ∧ Ptr.cls q = 2 ∧ Ptr.scope q = 4 ∧ Ptr.colour q = w.immBits 0 8 ∧ Ptr.valid q = true ∧
      q.getLsbD 126 = false))) ∧
  (w.mynameWord = true → Does (.myname w) w (s.g.useDest w true) s (Yields w true (fun _ =>
    if s.g.nameSlot = 0 then 0 else BitVec.ofNat 64 (s.g.nameSlot * 2 ^ 32 + s.g.nameGen * 2 ^ 16)) s)) ∧
  (Ptr.space p = 6 → check 0 = none → HasRoom 1 false s → Does (.nameinfo w) w uses s (fun t => ∃ e,
    Entered w false 0 [{ lane := 0, ptr := p, index := 0 }] (fun _ => 0) s s t e ∧ e.kind = .nameInfo ∧ e.path = 5 ∧ e.dfile = .s ∧
      e.dest = s.g.dnum w ∧ e.anchor = Ptr.anchor p)) ∧
  (∀ f, check (if Ptr.space p = 6 then 0 else 2 ^ 10) = some f → Takes (.nameinfo w) w uses s (bad f))

/-- R35, R313, R314: a fault of a group with a trap vector at depth 0 enters the handler: the record goes to image byte 0x40, the
resume pc, mask, fmt and stack depth to entry 1 and the region to region 1 of the handler bank; hs0 and hs1 tell the handler, the rest
of hs is zero, the pc is the trap vector, and every other register stays. R166, R189, R313: without a trap vector a fault ends the
group: its record is written, event kind 2 names the cause and the group, and the completion record counts it; where no arrival of another
member waits for it, nothing else is reported. (The image can be written.) -/
def Obligations.FaultDelivery : Prop :=
  (∀ (s s1 s2 s3 : State) (f : FaultRec) (resume : Nat) (hostable : Bool),
  let g := s.g
  let r : FaultRec := { f with depth := g.depth, regionPc := g.regionPc, regionCount := g.regionCount }
  f.cause ≠ 20 → f.cause ≠ 21 → g.id.trapVector ≠ 0 → g.depth = 0 →
  (hostable = false ∨ (f.cause ≠ 8 ∧ f.cause ≠ 9) ∨ s.pfmode g.id.part = false) →
  s.imageWrite g 0x40 r.bytes = (s1, true) →
  s1.imageWrite g 0x740 (leBytes 16 (resume + g.active.toNat * 2 ^ 64 + g.fmt.toNat % 2 ^ 18 * 2 ^ 96 + g.stack.length * 2 ^ 114)) = (s2, true) →
  s2.imageWrite g 0x760 (leBytes 16 (g.regionPc + g.regionCount * 2 ^ 64)) = (s3, true) →
  ∃ hs : Vector Word64 8, s.takeFault f resume hostable =
      { s3 with g := { parked g with depth := 1, hs := hs, pc := g.id.trapVector, pending := .none, heldRecord := none } } ∧
    rd 0 hs 0 = BitVec.ofNat 64 (s.imageAddr g + 0x40) ∧ rd 0 hs 1 = BitVec.ofNat 64 f.cause ∧ ∀ i, 2 ≤ i → i < 8 → rd 0 hs i = 0) ∧
  (∀ (s s1 : State) (f : FaultRec) (resume : Nat) (hostable : Bool),
  let g := s.g
  let r : FaultRec := { f with depth := g.depth, regionPc := g.regionPc, regionCount := g.regionCount }
  let events := s1.events ++ [{ kind := 2, part := g.id.part, queue := g.id.queue, launch := g.id.launch
                                info := BitVec.ofNat 64 (f.cause % 65536 + g.id.index * 2 ^ 32) }]
  let grids := modifyFirst (fun x => x.launch = g.id.launch) (fun x => { x with faulted := x.faulted + 1 }) s1.grids
  let u : State := { s1 with g := { parked g with reported := true }, events := events, grids := grids }
  f.cause < 20 → f.cause ≠ 8 → f.cause ≠ 9 → g.id.trapVector = 0 → s.imageWrite g 0x40 r.bytes = (s1, true) → u.quit.2 = true →
  let t := s.takeFault f resume hostable
  t = u.quit.1 ∧ t.g.status = .ended ∧ t.g.running = false ∧
    ((∀ a ∈ (u.teamOf u.g).arrivals.flatten, a.ctx = g.id.ctx) → t.g.reported = true ∧ t.events = events ∧ t.grids = grids))

/-- R315, R345: `hret` resumes at the pc of the handler's entry, `hretr` at its region entry, with the entry's mask, fmt and region;
marks above the entry's stack depth are dropped, and at depth 0 both are illegal. A reserved fmt in the bank is an illegal instruction
(R17). -/
def Obligations.HandlerReturn : Prop := ∀ (w : Fields) (s : State),
  let g := s.g
  let entry := leNat (s.imageRead g (0x730 + 16 * g.depth) 16)
  let region := leNat (s.imageRead g (0x750 + 16 * g.depth) 16)
  let rpc := region % 2 ^ 52 / 16 * 16
  let resumed (toRegion : Bool) (hs : Vector Word64 8) : Group :=
    { jumped (if toRegion then rpc else entry % 2 ^ 52 / 16 * 16) g with
        stack := g.stack.drop (g.stack.length - entry / 2 ^ 114 % 64)
        active := BitVec.ofNat 32 (entry / 2 ^ 64 % 2 ^ 32) &&& g.live, fmt := BitVec.ofNat 32 (entry / 2 ^ 96 % 2 ^ 18)
        regionPc := rpc, regionCount := region / 2 ^ 64 % 2 ^ 32, hs := hs, depth := g.depth - 1, heldRecord := none }
  let legal : Prop := fmtLegal (BitVec.ofNat 32 (entry / 2 ^ 96 % 2 ^ 18)) = true
  let idle : Prop := ∀ e ∈ g.entries, e.writes = true → e.performed = true
  let returns (i : Instr) (toRegion : Bool) : Prop :=
    (g.depth = 1 → idle → legal → Sets i w [] s (resumed toRegion g.hs)) ∧
    (g.depth = 2 → idle → legal → ∀ s1, s.imageWrite g 0x40 (s.imageRead g 0x700 64) = (s1, true) →
      Does i w [] s (fun t => ∃ hs : Vector Word64 8, t = { s1 with g := resumed toRegion hs } ∧
        ∀ j < 8, rd 0 hs j = BitVec.ofNat 64 (leNat (s.imageRead g (0x6C0 + 8 * j) 8)))) ∧
    (0 < g.depth → idle → ¬legal → Ready i w [] s → exec i s = .next (s.illegal 4 0xFF g.active)) ∧
    (0 < g.depth → ¬idle → Makes i w [] s { s with g := { g with stall := .other } }) ∧
    (g.depth = 0 → Ready i w [] s → exec i s = .next (s.illegal 0 0xFF (g.lanes w)))
  returns (.hret w) false ∧ returns (.hretr w) true

/-- R348, R349: the local system registers, and the management form, whose offset must be a multiple of 8 below 2^24. R350, R351:
`tlbinv` removes, from every TLB of the module, the entries that its form names in its partition, and no others. (Choices of the model
that it uses: logs 72, 82 and 84.) -/
def Obligations.SystemRegisters : Prop :=
  (∀ (w : Fields) (s s1 : State),
  let g := s.g
  let n := w.immBits 0 8
  let off := s.readOp .n64 w.b true 0
  let x := s.readOp .n64 w.a true 0
  let legal : Prop := off.toNat % 8 = 0 ∧ off.toNat < 2 ^ 24
  let k := s.core g.core
  let cong (q : Nat) : Nat := s.congestionOf g.place.die q
  let value : Nat := match n with
    | 0 => (if g.id.monitor then 0 else g.id.part) + g.id.ctx % 2 ^ 24 * 2 ^ 4 + (if g.id.system then 2 ^ 28 else 0)
    | 1 => cong 0 + cong 1 * 2 ^ 8 + cong 2 * 2 ^ 16 + cong 3 * 2 ^ 24
    | 2 => g.level % 8
    | _ => k.corece
  let rd8 := s.g.useDest w true ++ s.g.useOf 2 w.b true
  let wr8 := s.g.useOf 1 w.a true ++ s.g.useOf 2 w.b true
  let bad (kind : Nat) : FaultRec := { cause := 5, kind := kind, pos := 2, extra := off }
  Does (.rdsr w) w (s.g.useDest w true) s (Yields w true (fun _ => BitVec.ofNat 64 value) s) ∧
  (legal → Does (.rdsrMgmt w) w rd8 s (Yields w true (fun _ => s.mgmtRead off.toNat) s)) ∧
  (¬legal → Takes (.rdsrMgmt w) w rd8 s (bad 1) ∧ Takes (.wrsrMgmt w) w wr8 s (bad 2)) ∧
  (n ≠ 3 → Sets (.wrsr w) w (s.g.useOf 1 w.a true) s (done w true s.g)) ∧
  (n = 3 → k.corece < 2 ^ 32 → Does (.wrsr w) w (s.g.useOf 1 w.a true) s (fun t => ∃ c,
    t = { s.setCore g.core { k with corece := c } with g := done w true s.g } ∧
    c < 2 ^ 32 ∧ ∀ j < 32, c.testBit j = (k.corece.testBit j && !x.getLsbD j))) ∧
  (legal → s.fullRelease = (s1, true) → (s1.mgmtWrite off.toNat x).g = s.g → s.g.running = true →
    Makes (.wrsrMgmt w) w wr8 s { s1.mgmtWrite off.toNat x with g := done w true s.g }) ∧
  (legal → s.fullRelease = (s1, false) → Makes (.wrsrMgmt w) w wr8 s { s1 with g := { s1.g with stall := .other } })) ∧
  (∀ (w : Fields) (s s1 : State),
  let form := w.modBits 0 2
  let first := (s.readOp .n64 w.a true 0).toNat
  let n := (s.readOp .n64 w.b true 0).toNat
  let part := if w.modBit 4 then w.immBits 0 4 else s.g.id.part
  let named (e : TlbEntry) : Bool := (w.modBit 4 || !s.g.id.monitor) && e.part = part &&
    (form = 2 || (form = 0 && first < e.base + e.size && e.base ≤ first) ||
      (form = 1 && n ≠ 0 && first < e.base + e.size && e.base < first + n))
  let uses := (if form < 2 then s.g.useOf 1 w.a true else []) ++ (if form = 1 then s.g.useOf 2 w.b true else [])
  s.fullRelease = (s1, true) → s1.g = s.g → Makes (.tlbinv w) w uses s { s1 with
    g := done w false s.g, tlb2 := s1.tlb2.filter (fun e => !named e.2)
    cores := s1.cores.map (fun x => (x.1, { x.2 with tlb := x.2.tlb.filter (fun e => !named e) })) })

/-- R341, R352: a debug monitor's `mbxs` puts sixteen words behind the outbound tail when there is room; `mbxr` takes the inbound
message at the head. The message at pointer `n` lies at ring + 64 × (n mod 511). (Choices of the model that it uses: log 81.) -/
def Obligations.Mailboxes : Prop := ∀ (w : Fields) (s : State),
  let box := s.g.place.die * 2 ^ 26 + 1023 * 65536
  let pointer (off : Nat) : Nat := leNat (memRead s.chip (box + off) 8)
  let full : Prop := (pointer 0x18 + 2 ^ 64 - pointer 0x10) % 2 ^ 64 ≥ 511
  let usesS := s.g.useDest w false ++ s.g.useOf 3 w.c false
  let sent (t : State) (x : Mask) : Prop :=
    (∀ n < 16, t.g.readK n = if w.n = false ∧ n = s.g.dnum w ∧ n ≠ 0 then x else s.g.readK n) ∧ Advanced w s t ∧ RegionEntered true s t ∧
    Only s { t with chip := s.chip } { s.g with k := t.g.k, regionPc := t.g.regionPc, regionCount := t.g.regionCount }
  let received (t : State) (lanes : Nat) (f : Nat → BitVec 32) : Prop :=
    (∀ n < 256, ∀ l < 32, t.g.readV n l = if w.n = false ∧ n = s.g.dnum w ∧ l < lanes then f l else s.g.readV n l) ∧
    Advanced w s t ∧ RegionEntered true s t ∧
    Only s { t with chip := s.chip } { s.g with v := t.g.v, regionPc := t.g.regionPc, regionCount := t.g.regionCount }
  (full → Does (.mbxs w) w usesS s (fun t => t.chip = s.chip ∧ sent t 0)) ∧
  (¬full → Does (.mbxs w) w usesS s (fun t => sent t 0xFFFFFFFF ∧
    t.chip = memWrite (memWrite s.chip (box + 0x8000 + 64 * (pointer 0x18 % 511))
        ((List.range 16).map (fun l => leBytes 4 ((s.readOp .b32 w.c false l).toNat % 2 ^ 32))).flatten)
      (box + 0x18) (leBytes 8 ((pointer 0x18 + 1) % 2 ^ 64)))) ∧
  (pointer 0 = pointer 8 → Does (.mbxr w) w (s.g.useDest w false) s (fun t => t.chip = s.chip ∧ received t 32 (fun _ => 0))) ∧
  (pointer 0 ≠ pointer 8 → Does (.mbxr w) w (s.g.useDest w false) s (fun t =>
    t.chip = memWrite s.chip box (leBytes 8 ((pointer 0 + 1) % 2 ^ 64)) ∧
    received t 17 (fun l => if l < 16 then
        BitVec.ofNat 32 (leNat (memRead s.chip (box + 0x40 + 64 * (pointer 0 % 511) + 4 * l) 4)) else 1)))

/-- R79, R85, R203, R215: the group's next run is fetched whole, up to the first word with E = 1, at most 24 units; a unit that cannot
be fetched, or that a literal pool covers, is the last. The units come from the core's instruction cache (R87); only it and the TLBs
change besides. R154 to R156, R268: when no group of the quarter has a started run, a fault that waited for a run boundary is
delivered, else the eligible group of the highest level with the longest wait starts its run; a lower level that waited through 15
grants of a higher one goes first, and then a group of the highest level that was passed over too often (R156). The shadows on the
quarter run first (R334). (Choices of the model that it uses: logs 15, 52, 99 and 116.) -/
def Obligations.RunsBegin : Prop :=
  (∀ (s : State) (ctx : Nat), OnCtx ctx (.runFetch ctx) s fun a u =>
  let g := a.g
  let idle : Prop := g.status = .resident ∧ g.running = false ∧ g.saving = false ∧ g.ibuf = [] ∧ g.id.monitor = false
  (¬idle → u = a) ∧
  (idle → ∃ l, u.g = { g with ibuf := l } ∧ { u with g := g, cores := a.cores, tlb2 := a.tlb2 } = a ∧ l ≠ [] ∧ l.length ≤ 24 ∧
    (∀ x ∈ l.dropLast, ∃ w, x = .word w ∧ (Fields.unpack w).e = false) ∧
    (l.length < 24 → ∀ w, l.getLast? = some (.word w) → (Fields.unpack w).e = true) ∧
    (∀ b f, a.translate g.core g.id.part g.pc .exec = (b, .error f) → l = [.error f.cause f.extra]) ∧
    (∀ b t, a.translate g.core g.id.part g.pc .exec = (b, .ok t) →
      let pa := t.frame + g.pc % 4096
      let d := (b.codeLine g.core (pa / 128)).2.1
      let bad := (b.codeLine g.core (pa / 128)).2.2.getLsbD (pa % 128)
      let pool := isPoolUnit (lineWords d) (pa % 128 / 16)
      (bad = true → l = [if t.pchk then .error 10 0 else .kill]) ∧ (bad = false → pool = true → l = [.pool]) ∧
      (bad = false → pool = false → l.head? = some (.word (d.extractLsb' (128 * (pa % 128 / 16)) 128)))))) ∧
  (∀ (s : State) (c : CoreId) (q : Nat),
  let a := s.shadowRuns c q
  let here := a.groups.filter (fun g => g.core = c && g.place.quarter = q && g.id.ctx ≠ 2 ^ 24 && g.status = .resident)
  let el := here.filter a.eligible
  let older (g h : Group) : Prop := match g.lastGrant, h.lastGrant with
    | none, none => g.place.slot < h.place.slot
    | none, some _ => True
    | some _, none => False
    | some x, some y => x < y
  let best (g : Group) : Prop := g ∈ el ∧ ∀ h ∈ el, g.level ≤ h.level ∧ (h.level = g.level → ¬older h g)
  let last := ((a.core c).grants.getD q []).take 15
  let low (g : Group) : Prop := last.length = 15 ∧ (∀ x ∈ last, x.2 = false) ∧ ∃ h ∈ el, g.level < h.level ∧ 15 ≤ h.waited
  let late (g h : Group) : Prop := h ∈ el ∧ h.level = g.level ∧ patience ≤ h.waitedTop
  let starts (g : Group) : Prop := ∃ t, exec (.runGrant c q) s = .next t ∧
    t.g = { g with waited := 0, waitedTop := 0, lastGrant := some s.time, running := true, issued := 0, stall := .none } ∧
    t.mem = s.mem ∧ t.time = s.time ∧ ∀ h ∈ t.groups, h.id.ctx ≠ g.id.ctx → ∃ k ∈ a.groups, h = { k with waited := h.waited, waitedTop := h.waitedTop }
  a.groups.Pairwise (fun g h => g.id.ctx ≠ h.id.ctx) → q < 4 →
  (here.any (·.running) = true → exec (.runGrant c q) s = .next a) ∧
  (here.any (·.running) = false → ∀ g, here.find? (fun g => !g.boundaryFaults.isEmpty && !g.saving) = some g →
    exec (.runGrant c q) s = .next (a.onCtx g.id.ctx State.boundary)) ∧
  (here.any (·.running) = false → (∀ g ∈ here, g.boundaryFaults = [] ∨ g.saving = true) →
    (el = [] → exec (.runGrant c q) s = .next a) ∧
    (el ≠ [] → ∃ g, best g ∧
      (low g → ∃ h ∈ el, g.level < h.level ∧ starts h) ∧
      (¬low g → (∃ h, late g h) → ∃ h, late g h ∧ starts h) ∧
      (¬low g → (∀ h, ¬late g h) → starts g))))

/-- R152, R167, R186, R295, R319: what ends a wait: a pause runs out; the head of the waiting `vgrow` or `acalloc` requests of its
quarter or core is let issue again once pool, units and quota allow it; a quadrant's counter takes the flits that waited; at its
deadline a group between runs is saved, and one in a stalled run goes back to its region entry, with its shadow. (Choices of the model that it
uses: logs 59 and 108.) -/
def Obligations.WaitsEnd : Prop := ∀ (s : State) (c : CoreId) (q n ctx : Nat) (rest : List Nat),
  OnCtx ctx (.pauseExpiry ctx) s (fun a u => ∀ x, a.g.pending = .pause x →
    (s.time < x → u = a) ∧ (x ≤ s.time → a.g.status = .resident →
      u = { a with g := { a.g with pending := .none, saving := a.g.request || a.g.saving } })) ∧
  (s.quarterQueue c q = ctx :: rest → (s.group ctx).pending = .vgrow n →
    (s.canGrow (s.group ctx) n = true → ∃ t, exec (.vgrowGrant c q) s = .next t ∧ t.vgrowQueue = s.vgrowQueue.filter (· ≠ ctx) ∧
      t.group ctx = { s.group ctx with pending := .none, granted := n }) ∧
    (s.canGrow (s.group ctx) n = false → exec (.vgrowGrant c q) s = .next s)) ∧
  (s.coreQueue c = ctx :: rest → (s.group ctx).pending = .acalloc n →
    (s.canGiveUnits c (s.group ctx).id.part n = true → ∃ t, exec (.acallocGrant c) s = .next t ∧ t.acallocQueue = s.acallocQueue ∧
      t.group ctx = { s.group ctx with pending := .none }) ∧
    (s.canGiveUnits c (s.group ctx).id.part n = false → exec (.acallocGrant c) s = .next s)) ∧
  (∀ die quadrant, die < 9 → quadrant < 4 → ∃ t, exec (.congestionCounterReload die quadrant n) s = .next t ∧
    t.congestionOf die quadrant = min 255 n ∧ { t with congestion := s.congestion } = s ∧
    ∀ d k, ¬(d = die ∧ k = quadrant) → t.congestionOf d k = s.congestionOf d k) ∧
  OnCtx ctx (.preemptionDeadline ctx) s (fun a u =>
    (a.g.request = false ∨ s.time < a.g.deadline ∨ a.g.status ≠ .resident → u = a) ∧
    (a.g.request = true → a.g.deadline ≤ s.time → a.g.status = .resident →
      (a.g.running = false → u = { a with g := { a.g with saving := true } }) ∧
      (a.g.running = true → a.g.stall = .none → u = a) ∧
      (a.g.running = true → a.g.stall ≠ .none →
        u = { a with g := { parked a.g with
          pc := a.g.regionPc, saving := true, rolledBack := true
          shadow := (parked a.g).shadow.map (fun (y : Shadow) => { y with now := y.now.map (fun (r : SideRegs) =>
            { r with pc := r.regionPc, issued := 0, lat := Vector.replicate 4 (Vector.replicate 32 none) }) }) } })))

/-- R9, R139, R182, R183: what a new group holds at its first residence; the candidates stand in R182's order, and, once the restores under
way have ended, the first that fits is made resident, else it is held; one held for 100 µs gets the first rectangle of its partition's mask reserved, or its own sites, and
of each core what is free there is kept as its share, which in host-assisted arbitration an event tells. (Choices of the model that it
uses: logs 29, 56, 60 and 112.) -/
def Obligations.Placement : Prop := ∀ (s t : State) (x : Grid) (id : Ident) (place : Place) (level : Nat) (sh : Option Shadow) (c : Cand)
    (cs : List Cand) (rect : Nat × Nat),
  let g := x.group id place level sh
  -- what is no candidate any more is not held
  let b := s.endRestores
  let a : State := { b with held := b.held.filter (fun h => b.candidates.any (fun c => c.isHeld h)) }
  let r := s.reserveAt c
  let mark (h : Held) : Held := { h with reserved := true, die := r.1, shares := r.2.map (fun i => s.coreFree ⟨r.1, i⟩) }
  let reserved : State := { s with held := modifyFirst c.isHeld mark s.held }
  (g.status = .resident ∧ g.pc = id.entry ∧ g.regionPc = id.entry ∧ g.depth = 0 ∧ g.stack = [] ∧ g.active = 0xFFFFFFFF ∧
    g.live = 0xFFFFFFFF ∧ g.alloc = x.shape.vregs ∧ g.entries = [] ∧ g.running = false ∧ g.level = level ∧
    (∀ n < 64, g.readS n = if n < 8 then BitVec.ofNat 64 (recordBits x.record (0x40 + 8 * n) 0 64) else 0) ∧
    (∀ n < 16, g.readP n = if n < 8 then BitVec.ofNat 128 (leNat ((x.record.drop (0x80 + 16 * n)).take 16)) else 0) ∧
    (∀ n < 16, g.readK n = if n = 0 then 0xFFFFFFFF else 0) ∧
    (∀ n < 256, ∀ l < 32, g.readV n l = 0) ∧ (∀ n < 256, g.holdCount n = 0) ∧ (∀ n < 4, rd 0 g.x n = 0) ∧ (∀ l < 32, rd 0 g.flags l = 0) ∧
    (∀ j < 32, g.fmt.getLsbD j = (decide (j = 17) && x.flag 55))) ∧
  s.candidates.Pairwise (fun a b => a.level < b.level ∨ (a.level = b.level ∧ (a.launch % 2 ^ 64 < b.launch % 2 ^ 64 ∨
    (a.launch % 2 ^ 64 = b.launch % 2 ^ 64 ∧ (a.rank < b.rank ∨ (a.rank = b.rank ∧ a.cluster ≤ b.cluster)))))) ∧
  (∃ u, exec .dispatch s = .next u) ∧
  (a.candidates = c :: cs → a.place c [] = some t → exec .dispatch s = .next t) ∧
  (a.candidates = [c] → a.place c [] = none → a.hostMode 1 = true ∨ a.regField 0x1000 0 3 < c.level → exec .dispatch s = .next (a.hold c)) ∧
  (b.candidates = [] → exec .dispatch s = .next { b with held := [] }) ∧
  ((∀ h ∈ s.groups, h.restoring = false) → b = s) ∧
  (s.heldLong c = true ↔ ∃ h ∈ s.held, c.isHeld h = true ∧ h.since + 100 * Config.cyclesPerUs ≤ s.time ∧ h.reserved = false) ∧
  (c.rank ≠ 0 → rectOrder.find? (fun r => s.rectAllowed (s.candPart c) r.1 (s.candShape c) r.2) = some rect →
    r = (rect.1, (rectSites (s.candShape c) rect.2).getD [])) ∧
  (∃ u, exec .heldCandidateReserve s = .next u) ∧
  (s.candidates.find? s.heldLong = none → exec .heldCandidateReserve s = .next s) ∧
  (s.candidates.find? s.heldLong = some c →
    (s.hostMode 1 = false → exec .heldCandidateReserve s = .next reserved) ∧
    (s.hostMode 1 = true → ∃ e, exec .heldCandidateReserve s = .next { reserved with events := s.events ++ [e] } ∧ e.kind = 6 ∧
      e.part = 0xFFFF ∧ e.launch = c.launch % 2 ^ 64 ∧ e.queue = (match s.gridOf c.launch with
        | some x => if x.foreign then 0xFFFFFFFF else x.queue
        | none => 0xFFFFFFFF)))

/-- R188, R319 to R321, R405: a group that may be saved stops once its engines have ended their chunks and bags, its image is written
and it is saved; an image that cannot be written kills its cluster with reason 10. When the save has finished the place returns; event kind 5
reports a group that `halt` stopped or that a request of the host for its context named. A wholly saved cluster gets its teams' images written
with their barriers, becomes a candidate unless the host asked for every group of it, and every Save of a context request register that named
it is reported and over. The team that R188 names is saved alone. (Choices of the model that it uses: logs 15, 66 and 93.) -/
def Obligations.Saves : Prop := ∀ (s b : State) (ctx : Nat) (core : CoreId) (t : Team),
  OnCtx ctx (.save ctx) s (fun a u =>
    let keep : Pending := match a.g.pending with
      | .host f => .host f
      | .pause x => if a.g.request then .none else .pause x
      | _ => .none
    let f : State := { a with
      g := { parked a.g with pending := keep, granted := 0 }
      works := a.works.map fun x => if x.ctx = ctx then { x with frozen := true } else x
      vgrowQueue := a.vgrowQueue.filter (· ≠ ctx), acallocQueue := a.acallocQueue.filter (· ≠ ctx) }
    let busy : Bool := a.works.any fun x => x.ctx = ctx && x.begun && x.held.isNone
    (a.mayBeSaved a.g = false → u = a) ∧
    (a.mayBeSaved a.g = true → busy = true → u = { a with g := { a.g with saving := true } }) ∧
    (a.mayBeSaved a.g = true → busy = false → f.saveImage f.g = (b, false) → u = b.killCtx ctx 10) ∧
    (a.mayBeSaved a.g = true → busy = false → f.saveImage f.g = (b, true) → b.g.nameSlot = 0 →
      (∃ h ∈ b.gs, h.id.launch = b.g.id.launch ∧ h.id.team = b.g.id.team ∧ h.inCluster b.g.id.launch b.g.id.cluster = true ∧
        h.status = .resident) →
      u = { b with g := { b.g with status := .saved, saving := true } })) ∧
  OnCtx ctx (.saveFinished ctx) s (fun a u =>
    let g := a.g
    let launch := g.id.launch
    let cluster := g.id.cluster
    let event (v : State) (part : Nat) : Event :=
      { kind := 5, part := part, queue := ((v.gridOf launch).map (·.queue)).getD 0xFFFFFFFF, launch := launch, info := BitVec.ofNat 64 cluster }
    let r : State := { a with g := { g with saving := false, request := false, halted := false } }
    let told : State :=
      if g.halted = true ∨ (g.hostSave = true ∧ a.clusterRequest g = false) then { r with events := a.events ++ [event a g.id.part] } else r
    let mine := r.groups.filter (fun h => h.inCluster launch cluster)
    let names (q : SaveRequest) : Bool := q.launch = launch && q.cluster = cluster
    (g.status ≠ .saved ∨ g.saving = false → u = a) ∧
    (g.status = .saved → g.saving = true →
      (r.clusterSaved launch cluster = false → (∃ h ∈ mine, h.status ≠ .ended) → u = told) ∧
      (r.clusterSaved launch cluster = true → (a.clusterAt launch cluster).state = .resident →
        ∀ v, told.saveTeams true (fun t => t.launch = launch && t.cluster = cluster) = (v, true) →
        u.events = v.events ++ (v.saveAsked.filter names).map (fun q => event v q.part) ∧
        u.saveAsked = v.saveAsked.filter (fun q => !names q) ∧ (∀ q ∈ v.saveAsked, names q = true → (∀ p ∈ v.saveAsked, p.part = q.part → names p = true) →
          u.requestBusy q.part = false) ∧
        u.mem = v.mem ∧ u.groups = v.groups ∧
        u.clusters = modifyFirst (fun c => c.launch = launch && c.cluster = cluster)
          (fun c => { c with state := .saved, candidate := mine.any (fun h => !h.hostSave && h.status = .saved) }) v.clusters))) ∧
  (s.deadlocked core = [] → exec (.resourceDeadlockSave core) s = .next s) ∧
  (t ∈ s.deadlocked core → (∀ u ∈ s.deadlocked core, (u.launch = t.launch ∧ u.team = t.team) ∨ u.launch % 2 ^ 64 < t.launch % 2 ^ 64 ∨
      (u.launch % 2 ^ 64 = t.launch % 2 ^ 64 ∧ u.team < t.team)) →
    ∃ u, exec (.resourceDeadlockSave core) s = .next u ∧ u.mem = s.mem ∧ u.groups = s.groups.map (fun g =>
      if t.isOf g && g.status = .resident then
        (if g.running then { g with request := true, deadline := s.time } else { g with saving := true })
      else g))

/-- R144, R166, R331, R336 to R338: an ended group leaves once its in-flight record is empty, and its tags are purged; a team ends with
its last group, and a cluster with its last team; a kill stops every group of its cluster, is reported, and relaunches an idempotent
launch's cluster at most twice, which the host may order instead; reasons 5 to 7 need their cause. A silent error strikes a register of
one side. Equal operations of the two sides are released, and different ones stop both. A decider starts at the region entry with the shadow's
registers; the mismatch that it settles is counted and releases the operation, and both sides go on with what the right one holds; one it
cannot settle, and one of a region that overflowed or began before a restore, kills with reason 6. (Choices of the model that it uses: logs 15,
30 and 31.) -/
def Obligations.EndsAndKills : Prop := ∀ (s : State) (ctx launch team cluster reason : Nat) (t : Team) (x : Grid) (err : Option SilentError),
  let g := s.group ctx
  let c := s.clusterAt launch cluster
  let ofCluster (k : Cluster) : Bool := k.launch = launch && k.cluster = cluster
  let relaunchEvent : Event := { kind := 4, part := c.part, queue := x.queue, launch := launch, info := BitVec.ofNat 64 cluster }
  (g.status = .ended → g.id.ctx ≠ 2 ^ 24 → g.entries = [] → g.unsent = [] → s.arrivalWaits g = false → ∃ u,
    exec (.slotRelease ctx) s =
      .next (if g.id.monitor then u else (u.saveTeamOf g.id.launch g.id.cluster g.id.team).settleCluster g.id.launch g.id.cluster) ∧
    (∀ h ∈ u.groups, h.id.ctx ≠ ctx ∨ ctx = 2 ^ 24) ∧ (∀ h ∈ s.gs, h.id.ctx ≠ ctx → h ∈ u.gs) ∧ u.mem = s.mem ∧ u.teams = s.teams ∧
    (∀ y ∈ u.suppress, ¬(tagCtx y.tag = ctx ∧ tagPackage y.tag = s.package % 2 ^ 18)) ∧
    (∀ k ∈ u.groups, k.inCluster g.id.launch g.id.cluster = true → k.id.team = g.id.team → k.status = .resident →
      exec (.slotRelease ctx) s = .next u)) ∧
  (g.status ≠ .ended ∨ g.entries ≠ [] ∨ s.arrivalWaits g = true → exec (.slotRelease ctx) s = .next s) ∧
  (s.teams.find? (fun t => t.launch = launch && t.team = team) = some t → t.cluster = cluster →
    (∀ h ∈ s.groups, t.isOf h = true → h.id.ctx = 2 ^ 24) → (∀ o ∈ s.ops, ¬(o.launch = launch ∧ o.team = team)) →
    let left := s.teams.filter (fun u => !(u.launch = launch && u.team = team))
    exec (.teamEnd launch team) s = .next { s with
      teams := left
      clusters := if left.any (fun u => u.launch = launch && u.cluster = cluster) then s.clusters
        else modifyFirst ofCluster (fun k => { k with state := .ended, mem := [], candidate := false }) s.clusters }) ∧
  (0 < reason → reason ≤ 10 → c.state = .resident ∨ c.state = .saved → s.gridOf launch = some x → reason ≠ 5 →
    (reason = 6 → ∃ g ∈ s.groups, g.inCluster launch cluster = true ∧ g.id.shadowed = true ∧ g.status = .resident) →
    (reason = 7 → ∃ g ∈ s.groups, g.inCluster launch cluster = true ∧ g.depth = 2 ∧ g.status = .resident) →
    let again : Bool := x.flag 53 && !x.foreign && !s.hostMode 2 && decide (c.relaunches < 2)
    ∃ u, exec (.clusterKill launch cluster reason) s = .next u ∧
      (∀ h ∈ u.groups, h.inCluster launch cluster = false) ∧ (∀ y ∈ u.teams, ¬(y.launch = launch ∧ y.cluster = cluster)) ∧
      u.events = s.events ++ { kind := 3, part := c.part, queue := x.queue, launch := launch
                               info := BitVec.ofNat 64 (cluster + reason * 2 ^ 32) } :: (if again then [relaunchEvent] else []) ∧
      (u.clusterAt launch cluster).state = (if again then .pending else .killed) ∧
      (u.clusterAt launch cluster).candidate = again ∧ (u.clusterAt launch cluster).assisted = s.hostMode 2 ∧
      (∀ q ∈ u.saveAsked, ¬(q.launch = launch ∧ q.cluster = cluster)) ∧
      (u.clusterAt launch cluster).relaunches = c.relaunches + (if again then 1 else 0)) ∧
  (c.state = .resident ∨ c.state = .saved →
    let mine := s.groups.filter (fun g => g.inCluster launch cluster)
    let own (o : MatrixOp) : Bool := o.launch = launch && mine.any (fun g => g.id.team = o.team)
    (∀ o, s.ops.find? own = some o → exec (.clusterKill launch cluster 5) s = .next (s.killMatrix o)) ∧
    (s.ops.find? own = none → exec (.clusterKill launch cluster 5) s = .next s)) ∧
  (s.gridOf launch = some x →
    (c.assisted = true → x.flag 53 = true → c.state = .killed → c.relaunches < 2 → ∃ u, exec (.relaunchOrder launch cluster) s = .next u ∧
      u.events = s.events ++ [relaunchEvent] ∧
      u.clusters = modifyFirst ofCluster (fun k => { k with state := .pending, candidate := true, relaunches := k.relaunches + 1 }) s.clusters ∧
      u.grids = modifyFirst (fun y => y.launch = launch)
        (fun y => { y with relaunched := y.relaunched + 1, lost := y.lost.filter (· ≠ cluster) }) s.grids) ∧
    (c.assisted = false ∨ x.flag 53 = false ∨ c.state ≠ .killed ∨ 2 ≤ c.relaunches →
      exec (.relaunchOrder launch cluster) s = .next s)) ∧
  (∀ (y : Shadow) (k : Compared) (ks : List Compared), y.compare = k :: ks →
    (sameOperation k.ours k.theirs = true → (y.advance 1).compare = ks ∧ (y.advance 1).stopped = y.stopped) ∧
    (sameOperation k.ours k.theirs = false → ∀ n, (y.advance (n + 1)).compare = y.compare ∧ (y.advance (n + 1)).stopped = true)) ∧
  OnCtx ctx (.shadowMismatch ctx err) s (fun a u =>
    (∀ z, err = some z → (a.g.status ≠ .resident → u = a) ∧
      (a.g.status = .resident → u = { a with g := u.g } ∧ (z.shadow = true → u.g.side = a.g.side) ∧
        (a.g.shadow ≠ none → z.shadow = false → u.g.shadow = a.g.shadow ∧ ∀ r < 16, u.g.readP r =
          if z.file = .p ∧ r = z.num then a.g.readP r ^^^ z.bits else a.g.readP r))) ∧
    (err = none → (a.g.shadow = none → u = a) ∧ ∀ y, a.g.shadow = some y → (y.compare = [] → u = a) ∧ ∀ k ks, y.compare = k :: ks →
      let ready : Prop := y.stopped = true ∧ y.decider = none ∧ a.g.status = .resident ∧ (a.g.running = true → a.g.stall ≠ .none)
      (¬ready → u = a) ∧
      (ready → y.overflow = true → u = a.killRecorded 6 20 2) ∧
      (ready → y.overflow = false → y.stale = true → ∃ n, (n = 1 ∨ n = 2) ∧ u = a.killRecorded 6 20 n) ∧
      (ready → y.overflow = false → y.stale = false → ∃ d, u = { a with g := { a.g with shadow := some { y with decider := some d } } } ∧
        d.regs.pc = k.start.pc ∧ d.regs.v = k.shadow.v ∧ d.regs.s = k.shadow.s ∧
        d.queue = y.queue.filter (fun q => q.taken && q.region = k.start.count)))) ∧
  (∀ (y : Shadow) (k : Compared) (ks : List Compared) (leader : Bool), s.g.shadow = some y → y.compare = k :: ks → y.overflow = false →
    y.stale = false →
    let u := s.settleShadow (some leader)
    s.settleShadow none = s.killRecorded 6 20 1 ∧ u.mem = s.mem ∧ u.g.running = false ∧
    (u.core s.g.core).corece = min (2 ^ 32 - 1) ((s.core s.g.core).corece + 1) ∧
    u.g.side = { (if leader then k.leader else k.shadow) with issued := 0, lat := Vector.replicate 4 (Vector.replicate 32 none) } ∧
    ∃ z, u.g.shadow = some z ∧ z.compare = [] ∧ z.stopped = false ∧ z.decider = none ∧ z.now = some u.g.side)

/-- R175, R176, R179, R185, R189, R390: a queue's registers are written field by field; the record at QHEAD is copied, numbered and
checked, once the releaser records of its lines have drained (R249); a grid that has ended is completed; the arbiter writes one event
to its ring under the next sequence number. (The order that overtaken QTAIL writes leave is the model's, log 58.) (Choices of the model
that it uses: logs 27, 28, 58, 77, 78, 100 and 111.) -/
def Obligations.QueuesAndEvents : Prop := ∀ (s : State) (q launch : Nat) (v : BitVec 64) (r : List Byte) (x : Grid) (e : Event) (rest : List Event),
  let on := s.queueOn q
  let head := s.queueHead q
  let newTail := v.toNat % 2 ^ 20
  let tooMany : Bool := v.getLsbD 32 && decide (2 ^ s.queueLog q - 1 < (newTail + 2 ^ 20 - head) % 2 ^ 20)
  let moves : Bool := v.getLsbD 32 && !tooMany
  let part := s.queuePart q
  let addr := (s.reg (queueBlock q)).toNat + 256 * (head % 2 ^ s.queueLog q)
  let drained := s.ringDrains part addr
  let b := drained.1
  let taken : State := State.setReg { b with
      nextLaunch := b.nextLaunch + 1, arrivalOrder := b.arrivalOrder.filter (fun x => !(x.1 = q && x.2 = (head + 1) % 2 ^ 20)) }
    (queueBlock q + 8) (BitVec.ofNat 64 (s.queueLog q + (head + 1) % 2 ^ 20 * 2 ^ 32))
  let record := b.virtRead part addr 256
  (s.ready = false → ∀ k, exec (.workQueueWrite q k v) s = .next s) ∧
  (s.ready = true → q < 8192 →
    (on = true → exec (.workQueueWrite q 0 v) s = .next s ∧ exec (.workQueueWrite q 1 v) s = .next s) ∧
    (on = false → ∃ t, exec (.workQueueWrite q 0 v) s = .next t ∧ (t.reg (queueBlock q)).toNat = v.toNat / 256 * 256 ∧ { t with regs := s.regs } = s) ∧
    (on = false → ∃ t, exec (.workQueueWrite q 1 v) s = .next t ∧ t.queueLog q = v.toNat % 32 ∧ t.queueHead q = head ∧ { t with regs := s.regs } = s) ∧
    (∃ t, exec (.workQueueWrite q 2 v) s = .next t ∧ t.queueOn q = v.getLsbD 32 ∧ t.queueLevel q = v.toNat / 2 ^ 37 % 8 ∧
      t.queueSystem q = v.getLsbD 40 ∧ t.queuePart q = (if on then part else v.toNat / 2 ^ 33 % 16) ∧
      t.queueTail q = (if moves then newTail else s.queueTail q) ∧ t.queueHead q = head ∧
      (moves = false ∨ newTail = s.queueTail q → t.arrivalOrder = s.arrivalOrder) ∧
      t.arrivalOrder.filter (fun x => x.1 ≠ q) = s.arrivalOrder.filter (fun x => x.1 ≠ q) ∧
      (moves = true → newTail ≠ s.queueTail q → newTail ≠ head → (∀ x ∈ s.arrivalOrder, x.1 ≠ q) →
        t.arrivalOrder = s.arrivalOrder ++ [(q, newTail)]) ∧
      (tooMany = false → t.events = s.events) ∧
      (tooMany = true → ∃ y, t.events = s.events ++ [y] ∧ y.kind = 6 ∧ y.queue = q ∧ y.part = t.queuePart q))) ∧
  (s.nextQueue ≠ some q → exec (.recordAccept q) s = .next s) ∧
  (s.nextQueue = some q → drained.2 = false → exec (.recordAccept q) s = .next b) ∧
  (s.nextQueue = some q → drained.2 = true →
    (record = none → exec (.recordAccept q) s = .next (taken.event
      { kind := 1, part := part, queue := q, launch := s.nextLaunch, info := BitVec.ofNat 64 (1 + 1 * 2 + 1 * 8) })) ∧
    (record = some r → taken.launchDetail part r = 0 → exec (.recordAccept q) s = .next { taken with grids := taken.grids ++
      [{ launch := s.nextLaunch, queue := q, part := part, system := s.queueSystem q, record := r, groups := recordBits r 0x10 0 32 }] }) ∧
    (record = some r → taken.launchDetail part r ≠ 0 → ∃ t info, exec (.recordAccept q) s = .next t ∧ t.grids = s.grids ∧
      t.events = s.events ++ [{ kind := 1, part := part, queue := q, launch := s.nextLaunch, info := info }])) ∧
  (s.gridOf launch = some x → s.gridEnded x = false → exec (.gridCompletion launch) s = .next s) ∧
  (s.gridOf launch = some x → s.gridEnded x = true → (∀ c ∈ s.cores, ∀ l ∈ c.2.l1, l.dirty = 0) → s.hostDirty = [] →
    ∃ t info,
    exec (.gridCompletion launch) s = .next t ∧ (∀ y ∈ t.grids, y.launch ≠ launch) ∧ (∀ y ∈ t.clusters, y.launch ≠ launch) ∧
    t.events = s.events ++ [{ kind := 1, part := x.part, queue := x.queue, launch := launch, info := info }]) ∧
  (s.ready = false → exec .eventGrant s = .next s) ∧
  (s.ready = true → s.faultBuffer = [] → s.events = [] → exec .eventGrant s = .next s.interrupts) ∧
  (s.ready = true → s.faultBuffer = [] → s.events = e :: rest →
    ∀ w, s.pushRing e.ring.1 e.ring.2 (e.bytes s.nextEvent) = (w, true) →
      w.regField (e.ring.1 + 16) 0 20 = (s.regField (e.ring.1 + 16) 0 20 + 1) % 2 ^ 20 ∧
      exec .eventGrant s = .next { w with events := rest, nextEvent := s.nextEvent + 1 }.interrupts)

/-- R133, R211, R220, R233, R330: an entry that an earlier one holds back does nothing; a load whose elements are all there is written
to its registers, lowers their holds and completes, or fails on poison; a plain store to core space writes its bytes, one to global
space its line of the L1, of which no clean byte stays that was read-shared, and completes (both aligned: a misaligned one goes byte by byte,
R250); `linclr` writes its line to memory and leaves no copy, once the host's is recalled (R385). An entry that a restore has to send again acts
as if it had been sent (R332). (Choices of the model that it uses: logs 18 and 46.) -/
def Obligations.AccessesPerform : Prop := ∀ (s : State) (ctx id : Nat) (e : Entry) (a : LaneAcc) (resp : Resp) (l : L1Line),
  let g := s.group ctx
  let va := a.va 0
  let n := Ptr.size a.ptr
  let bytes := valueBytes (a.data.getD 0 0) n
  let one : Prop := e.lanes = [a] ∧ e.elems a = 1 ∧ a.got = [] ∧ a.performed = false ∧ Ptr.sync a.ptr = false ∧ (Ptr.efmt a.ptr = 0x18 ∨ va % n = 0)
  let line := e.phys va / 128
  (s.entry ctx id = some e → e.done = true ∨ e.retryAt.isSome ∨ e.hostWait = true ∨ s.mayPerform g e = false →
    exec (.loadDataLands ctx id resp) s = .next s ∧ exec (.inFlightCompletion ctx id resp) s = .next s ∧
    exec (.atomicPerform ctx id resp) s = .next s ∧ exec (.syncAccessPerform ctx id resp) s = .next s ∧
    exec (.barrierArrivalApply ctx id) s = .next s ∧ exec (.barrierRemoteArrival ctx id) s = .next s) ∧
  (s.entry ctx id = some e → e.done = false → e.retryAt = none → e.hostWait = false → s.mayPerform g e = true → e.replay = true →
    let sent := s.putEntry ctx { e with replay := false }
    g.status ≠ .saved → exec (.loadDataLands ctx id resp) s = exec (.loadDataLands ctx id resp) sent ∧
    exec (.inFlightCompletion ctx id resp) s = exec (.inFlightCompletion ctx id resp) sent ∧
    exec (.atomicPerform ctx id resp) s = exec (.atomicPerform ctx id resp) sent ∧
    exec (.syncAccessPerform ctx id resp) s = exec (.syncAccessPerform ctx id resp) sent) ∧
  (Performable ctx id e s → e.kind = .load → e.lanes ≠ [] → (∀ x ∈ e.lanes, x.performed = true) →
    (∀ pchk, e.poison = some pchk → exec (.loadDataLands ctx id resp) s = .next (s.poisoned ctx e pchk)) ∧
    (e.poison = none → g.status = .resident → g.boundaryFaults = [] → e.dfile = .v → e.g = false → e.values = 1 →
      (∀ x ∈ e.lanes, e.laneStep x = 1) → e.dest < 256 → ∃ t, exec (.loadDataLands ctx id resp) s = .next t ∧ Completed ctx id g t ∧
      (∀ r < 256, ∀ k < 32, (t.group ctx).readV r k = match e.lanes.find? (fun x => x.lane = k) with
        | some x => if r = e.dest ∧ e.mask.getLsbD k = true then (e.regValue x 0).1.setWidth 32 else g.readV r k
        | none => g.readV r k) ∧
      (∀ r < 256, r ≠ e.dest → (t.group ctx).holdCount r = g.holdCount r) ∧ (t.group ctx).pc = g.pc ∧ t.mem = s.mem)) ∧
  (Performable ctx id e s → e.kind = .store → one → Ptr.space a.ptr = 1 → ∃ t,
    exec (.inFlightCompletion ctx id resp) s = .next t ∧ Completed ctx id g t ∧
    t.teams = modifyFirst (fun x => x.isOf g) (fun x => { x with core_ := scratchWrite x.core_ va bytes }) s.teams ∧
    t.mem = s.mem ∧ t.cores = s.cores) ∧
  (Performable ctx id e s → e.kind = .store → one → Ptr.space a.ptr = 4 → 0 < n → va % 128 + n ≤ 128 → (e.page va).tso = false →
    s.uncached g.core line = false → s.l1Find g.core (globalKey line) = some l → l.valid ≠ 0 → ∃ t,
    exec (.inFlightCompletion ctx id resp) s = .next t ∧ Completed ctx id g t ∧ t.mem = s.mem ∧ t.clines = s.clines ∧
    t.l1Find g.core (globalKey line) = some { l with
      data := mergeLine l.data (placeBytes (va % 128) bytes) (byteRange (va % 128) n)
      valid := (if l.shared then l.dirty else l.valid) ||| byteRange (va % 128) n
      dirty := l.dirty ||| byteRange (va % 128) n, colours := l.colours ||| BitVec.ofNat 8 (2 ^ (Ptr.colour a.ptr % 8)), shared := false }) ∧
  (Performable ctx id e s → e.kind = .linclr → e.lanes = [a] → Ptr.sync a.ptr = false → s.kept e.tag 0 0 = none →
    s.biFilter.contains line = false → s.tableFull (s.lineReceiver line) = false → a.data.length = 32 → ∃ t, exec (.inFlightCompletion ctx id resp) s = .next t ∧
    Completed ctx id g t ∧ t.mem = memWrite s.mem (128 * line) ((a.data.map (fun x => valueBytes x 4)).flatten) ∧
    line ∉ t.poison ∧ (∀ c ∈ t.clines, c.line ≠ line) ∧ (∀ h ∈ t.homeLines, h.line ≠ line) ∧
    (∀ c ∈ t.cores, ∀ y ∈ c.2.l1, ¬(y.peer = none ∧ y.line = line)) ∧ (t.kept e.tag 0 0).isSome) ∧
  (Performable ctx id e s → e.kind = .linclr → e.lanes = [a] → s.kept e.tag 0 0 = none → s.biFilter.contains line = true →
    exec (.inFlightCompletion ctx id resp) s = .next (s.biSnoop line false))

/-- R229, R230, R241, R302, R304, R330, R331: an atomic on core space writes its new value, but a failed `cas` nothing, and keeps its
old one; a synchronising load and store of core space read and write the bytes; an arrival releases every colour, is counted at the
barrier that it names (of a team whose cluster is not saved), and completes; a retry is made after its delay; a retired tag leaves the tables and may be used again. (Choices
of the model that it uses: logs 49 and 55.) -/
def Obligations.SynchronisingAccesses : Prop := ∀ (s b : State) (ctx id : Nat) (e : Entry) (a : LaneAcc) (resp : Resp) (tag : BitVec 64) (x : Nat),
  let g := s.group ctx
  let va := a.va 0
  let n := Ptr.size a.ptr
  let old := scratchRead ((s.teamOf g).alloc + 1) (s.teamOf g).core_ va n
  let operand (i : Nat) : Nat := (a.data.getD i 0).toNat % 2 ^ (8 * n)
  let new := atomicNew (e.mod.toNat % 16) e.type (8 * n) (leNat old) (operand 0) (operand 1)
  let core (bs : List Byte) : List Team := modifyFirst (fun x => x.isOf g) (fun x => { x with core_ := scratchWrite x.core_ va bs }) s.teams
  let fresh : Prop := e.lanes = [a] ∧ e.elems a = 1 ∧ a.got = [] ∧ a.performed = false ∧ Ptr.space a.ptr = 1 ∧ s.kept e.tag a.lane 0 = none
  let settle (x : Barrier) : Barrier := if x.init ∧ x.arr = x.expArr ∧ x.tx = 0 then { x with phase := !x.phase, arr := 0 } else x
  let team := g.id.team / (g.id.width * g.id.height * g.id.perCore) * (g.id.width * g.id.height * g.id.perCore) + e.work
  let arrives (i : Instr) : Prop := s.kept e.tag 0 0 = none → s.releaseLines g.core 3 0xFF = (b, true) →
    (∀ y, b.teams.find? (fun y => y.launch = g.id.launch && y.team = team) = some y → b.barriersSaved y = false) → ∃ t,
    exec i s = .next t ∧ Completed ctx id g t ∧ t.mem = b.mem ∧
    t.teams = (s.modBarrier g.id.launch team e.imm (fun x => settle { x with arr := (x.arr + 1) % 1024 })).teams
  (Performable ctx id e s → e.kind = .atomic → fresh → Ptr.sync a.ptr = false → s.undef = [] → ∃ t, exec (.atomicPerform ctx id resp) s = .next t ∧
    t.teams = (if e.mod.toNat % 16 = 8 ∧ leNat old ≠ operand 0 then s.teams else core (leBytes n new)) ∧ t.mem = s.mem ∧
    t.entry ctx id = some { e with lanes := [{ a with got := [BitVec.ofNat 128 (leNat old)], performed := true }] }) ∧
  (Performable ctx id e s → e.kind = .load → fresh → Ptr.sync a.ptr = true → Ptr.scope a.ptr = 0 → s.wrote = [] → s.undef = [] → e.drained = [] →
    ∃ t, exec (.syncAccessPerform ctx id resp) s = .next t ∧ t.teams = s.teams ∧ t.mem = s.mem ∧
    t.entry ctx id = some { e with lanes := [{ a with got := [bytesValue old], performed := true }] }) ∧
  (Performable ctx id e s → e.kind = .store → fresh → Ptr.sync a.ptr = true → Ptr.scope a.ptr = 0 →
    ∃ t, exec (.syncAccessPerform ctx id resp) s = .next t ∧ t.teams = core (valueBytes (a.data.getD 0 0) n) ∧ t.mem = s.mem ∧
    t.entry ctx id = some { e with lanes := [{ a with got := [0], performed := true }] }) ∧
  (Performable ctx id e s → e.kind = .localArrival → arrives (.barrierArrivalApply ctx id)) ∧
  (Performable ctx id e s → e.kind = .remoteArrival →
    (∀ y, s.teams.find? (fun y => y.launch = g.id.launch && y.team = team) = some y →
      s.tableFull (3, y.core.die * 100 + y.core.site, 256) = false) → arrives (.barrierRemoteArrival ctx id)) ∧
  (s.entry ctx id = some e → g.status ≠ .saved → e.retryAt = some x →
    (s.time < x → exec (.suppressionRetry ctx id) s = .next s) ∧
    (x ≤ s.time → ∃ t, exec (.suppressionRetry ctx id) s = .next t ∧ t.entry ctx id = some { e with retryAt := none } ∧ t.mem = s.mem)) ∧
  ((∃ h ∈ s.groups, ∃ y ∈ h.entries, y.cls = .d ∧ y.tag = tag ∧ y.done = false) → exec (.retireNotice tag) s = .next s) ∧
  ((∀ h ∈ s.groups, ∀ y ∈ h.entries, ¬(y.cls = .d ∧ y.tag = tag ∧ y.done = false)) →
    (∀ x ∈ s.works, x.tag ≠ tag ∧ ∀ y ∈ x.sends, y.2 ≠ tag) → ∃ t, exec (.retireNotice tag) s = .next t ∧
    (∀ y ∈ t.suppress, y.tag ≠ tag) ∧ (tagPackage tag = s.package % 2 ^ 18 → tag ∉ (t.group (tagCtx tag)).liveTags) ∧ t.mem = s.mem)

/-- R360, R362 to R365, R372, R380: what answers do at their requester: a notice restarts the limit of 1 s, whose end fails the access
with cause 19 and cancels it; the combined acknowledgement, or a member's refusal, ends the multicast part of a store; the outcome of a
regs store completes it, sends it again after a delay, or fails it with cause 14, the dead name's slot and generation and the lane that used it,
under DNT, and cause 18 for a lost home. (Choices of
the model that it uses: logs 20 and 57.) -/
def Obligations.AnswersArrive : Prop := ∀ (s : State) (ctx id : Nat) (e : Entry) (register : Bool) (k slot gen : Nat) (extra : BitVec 64),
  let g := s.group ctx
  let waits : Prop := e.path = 4 ∧ e.asks = true
  let base := ((e.lanes.head?).map (fun a => Ptr.base a.ptr)).getD 0
  let lost := BitVec.ofNat 64 e.anchor
  let sees (o r : RegsOutcome) : Prop := if e.anchor = s.package then s.ownOutcome e o = some r else o = r
  let answered (a : State) (o : RegsOutcome) (y : BitVec 64) : Prop :=
    (a.group ctx).status = .resident → (a.group ctx).boundaryFaults = [] → e.dest < 64 → ∃ t,
      exec (.regsAck ctx id o) s = .next t ∧ Completed ctx id (a.group ctx) t ∧
      ((a.group ctx).stall = .uniform e.id → (a.group ctx).request = false ∨ s.time < (a.group ctx).deadline → (t.group ctx).stall = .none) ∧
      (e.handler = true ∧ e.dest < 8 → rd 0 (t.group ctx).hs e.dest = y) ∧
      (e.handler = false ∨ 8 ≤ e.dest → rd 0 (t.group ctx).s e.dest = y)
  s.entry ctx id = some e → e.done = false → g.status ≠ .saved →
  (waits → e.anchor = s.package → exec (.keepWaitingNotice ctx id) s = .next s) ∧
  (waits → e.anchor ≠ s.package → ∃ t, exec (.keepWaitingNotice ctx id) s = .next t ∧ t.mem = s.mem ∧
    t.entry ctx id = some { e with sentAt := some s.time, heardAt := s.time }) ∧
  (∀ x, waits → e.sentAt = some x →
    (s.time < x + 10 ^ 6 * 940 → exec (.remoteFaultTimeout ctx id) s = .next s) ∧
    (x + 10 ^ 6 * 940 ≤ s.time → exec (.remoteFaultTimeout ctx id) s = .next (State.failEntry ctx e 19 lost
      (if e.anchor = s.package then { s with parked := s.parked.filter (fun p => !(p.own.any (fun x => x.ctx = ctx && x.entry = e.id))) }
       else { s with out := .cancel (s.route e.anchor 0) e.anchor e.tag :: s.out })))) ∧
  (e.treeSent = true → (∀ p ∈ s.packets, ¬(p.req.tag = e.tag ∧ p.group = k)) →
    (∀ h ∈ s.groups, ∀ y ∈ h.entries, y.tag = e.tag → y.treeSent = true → y.done = false → h.status ≠ .saved → h.id.ctx = ctx ∧ y = e) →
    let ends (status : Nat) : Instr := .multicastAck e.tag { group := k, child := none, status := status, extra := extra }
    let taken : Entry := { e with lanes := e.lanes.map fun a => if a.tree then { a with performed := true } else a }
    (∀ c, c ≠ 0 → exec (ends c) s = .next (s.failEntry ctx e c extra)) ∧
    (taken.performed = true → ∃ t, exec (ends 0) s = .next t ∧ Completed ctx id g t ∧ t.mem = s.mem) ∧
    (taken.performed = false → ∃ t, exec (ends 0) s = .next t ∧ t.entry ctx id = some taken ∧ t.mem = s.mem)) ∧
  (e.kind = .regsStore → e.sentAt.isSome → ∀ o,
    (sees o .delivered → ∃ t, exec (.regsAck ctx id o) s = .next t ∧ Completed ctx id g t ∧ t.mem = s.mem) ∧
    (sees o .retry → ∃ t, exec (.regsAck ctx id o) s = .next t ∧
      t.entry ctx id = some { e with sentAt := none, everSent := true, retryAt := some (s.time + 32) }) ∧
    (sees o .lost → exec (.regsAck ctx id o) s = .next (s.failEntry ctx e 18 lost)) ∧
    (∀ w, sees o (.deadName slot gen register) → e.words.find? (fun w => w.slot = slot && w.gen = gen) = some w →
      (fmtDNT e.fmt = true → ∃ f, exec (.regsAck ctx id o) s = .next (s.failPartAs ctx e f) ∧ f.cause = 14 ∧
        f.extra = BitVec.ofNat 64 (gen % 2 ^ 16 + slot % 2 ^ 20 * 2 ^ 16 + (if register then 2 ^ 36 else 0)) ∧
        f.lane = (if e.g then e.lane0 else w.lane)) ∧
      (fmtDNT e.fmt = false → ∃ t, exec (.regsAck ctx id o) s = .next t ∧ Completed ctx id g t)) ∧
    (e.anchor = s.package → s.ownOutcome e o = none → exec (.regsAck ctx id o) s = .next s)) ∧
  (e.kind = .nameInfo → e.sentAt.isSome → e.anchor ≠ s.package →
    exec (.regsAck ctx id .lost) s = .next (s.failEntry ctx e 18 lost) ∧ ∀ y, answered s (.info y) y) ∧
  (e.kind = .nameInfo → e.sentAt.isSome → e.anchor = s.package → ∀ o,
    let a := s.settled (base / 2 ^ 32) (base / 2 ^ 16 % 2 ^ 16)
    answered a o (a.nameAnswer (base / 2 ^ 32) (base / 2 ^ 16 % 2 ^ 16) e.anchor))

/-- R255, R256, R258: the home serves a request that can reach its directory: what it sends, and what the directory becomes, by the
directory's state and the requester. Data that the home reads from memory take a line of its array where there is a way (R263: what
that replaces is `State.homeTouch`); poison stays with the line (R214). A retiring slice answers with retry, and what it gives up
itself goes on to memory (R208); a request that waits there keeps its order of arrival. Of a page that is being flipped to host bias no copy is
given (R387). -/
def Obligations.DirectoryServes : Prop := ∀ (s : State) (line : Nat) (x : Agent) (m : Msg) (rest : List Msg),
  let d := s.dir line
  let arrives (k : MsgKind) : Prop := s.arriving (fun n => n.kind = k && n.line = line && n.src = x && n.dst = .home) = some (m, rest)
  let room : Prop := x = .home ∨ (∃ y ∈ s.snoops, y.line = line) ∨ (s.filterSet line).length < 16
  let open_ : Prop := s.retiring (s.homeSlice line) = false ∧ (∀ y ∈ s.snoops, ¬(y.line = line ∧ y.freeing = true)) ∧
    (∀ n ∈ s.msgs, n.arrived.isSome = true → n ≠ m → s.sameFilterSet n.line line = false)
  let home (k : MsgKind) (dst : Agent) (n : Nat) : Msg :=
    { kind := k, line := line, src := .home, dst := dst, n := n, data := (s.homeData line).1, poison := (s.homeData line).2 }
  let fwd (k : MsgKind) (dst : Agent) (n : Nat) : Msg := { kind := k, line := line, src := .home, dst := dst, req := x, n := n }
  let others := d.sharers.filter (fun a => a ≠ x)
  let added := if d.sharers.contains x then d.sharers else d.sharers ++ [x]
  let does (i : Instr) (msgs : List Msg) (dir : Dir) : Prop :=
    ∃ t, exec i s = .next t ∧ t.msgs = rest ++ msgs ∧ t.dir line = dir ∧ t.clines = s.clines ∧ t.mem = s.mem
  let used := State.useEntry m { s with msgs := rest }
  let touched := used.homeTouch line
  let answers (i : Instr) (msgs : List Msg) (dir : Dir) : Prop :=
    ∃ t, exec i s = .next t ∧ t.msgs = touched.msgs ++ msgs ∧ t.dir line = dir ∧ t.clines = touched.clines ∧ t.mem = touched.mem
  let mine : Dir := { line := line, st := .M, owner := x }
  let invs := others.map (fun a => fwd .inv a 0)
  let fromOwner : Prop := d.owner = x ∧ (d.st = .E ∨ d.st = .M ∨ d.st = .O)
  let leaves : Bool := s.retiring (s.stop x line)
  let puts (i : Instr) (k : MsgKind) : Prop := arrives k → open_ → ∃ t, exec i s = .next t ∧
    (leaves = true → ∀ h ∈ t.homeLines, h.line ≠ line) ∧
    t.msgs.getLast? = some { kind := .putAck, line := line, src := .home, dst := x } ∧
    (s.mem.wf = true → fromOwner → k ≠ .putE → leaves = false → t.homeData line = (m.data, (s.homeData line).2 || m.poison)) ∧
    (¬fromOwner ∨ k = .putE → leaves = false → t.homeData line = s.homeData line) ∧
    t.dir line = if fromOwner then (if d.st = .O ∧ d.sharers ≠ [] then { d with st := .S, owner := .home } else { line := line })
      else if d.st = .S then (if others = [] then { line := line } else { d with sharers := others })
      else if d.st = .O then { d with sharers := others } else d
  let flipping : Prop := x ≠ .home ∧ s.flushing line = true
  (arrives .getS → open_ → room → ¬flipping →
    (d.st = .I → answers (.gets line x) [home .dataE x 0] { d with st := .E, owner := x, sharers := [] }) ∧
    (d.st = .S → answers (.gets line x) [home .data x 0] { d with sharers := added }) ∧
    (d.st = .E ∨ d.st = .M → does (.gets line x) [fwd .fwdGetS d.owner 0] { d with st := .O, sharers := [x] }) ∧
    (d.st = .O → does (.gets line x) [fwd .fwdGetS d.owner 0] { d with sharers := added })) ∧
  (arrives .getS → open_ → room → flipping →
    (d.st = .I → answers (.gets line x) [home .data x 0] { line := line }) ∧
    (d.st = .S → answers (.gets line x) [home .data x 0] d) ∧
    (d.st = .E ∨ d.st = .M → does (.gets line x) [fwd .fwdGetS d.owner 0] { d with st := .O, sharers := [] }) ∧
    (d.st = .O → does (.gets line x) [fwd .fwdGetS d.owner 0] d)) ∧
  (arrives .getS → s.retiring (s.homeSlice line) = false → (∃ y ∈ s.snoops, y.line = line ∧ y.freeing = true) → m.arrived = none →
    exec (.gets line x) s = .next { s with
      nextArrival := s.nextArrival + 1
      msgs := modifyFirst (fun n => n = m) (fun n => { n with arrived := some s.nextArrival }) s.msgs }) ∧
  (arrives .getM → open_ → room →
    (d.st = .I → answers (.getm line x) [home .data x 0] mine) ∧
    (d.st = .S → answers (.getm line x) (home .data x others.length :: invs) mine) ∧
    (d.st = .E ∨ d.st = .M → does (.getm line x) [fwd .fwdGetM d.owner 0] mine) ∧
    (d.st = .O → d.owner = x → does (.getm line x)
      ({ kind := .cnt, line := line, src := .home, dst := x, n := others.length } :: invs) mine) ∧
    (d.st = .O → d.owner ≠ x → does (.getm line x) (fwd .fwdGetM d.owner others.length :: invs) mine)) ∧
  ((∃ h ∈ s.homeLines, h.line = line) → touched.msgs = rest ∧ touched.clines = s.clines ∧ touched.mem = s.mem ∧
    touched.homeData line = s.homeData line) ∧
  ((used.slotFor (s.homeSlice line) line).2 = true → ∃ h ∈ touched.homeLines, h.line = line) ∧
  puts (.putm line x) .putM ∧ puts (.puto line x) .putO ∧ puts (.pute line x) .putE ∧
  (arrives .getS → s.retiring (s.homeSlice line) = true → exec (.gets line x) s = .next
    { s with msgs := modifyFirst (fun n => n = m) (fun n => { n with retryAt := some (s.time + 32), arrived := none }) s.msgs }) ∧
  (s.arriving (fun n => n.kind = .backAck && n.line = line && n.src = x) = some (m, rest) → m.withData = false → ∀ y,
    s.snoops.find? (fun y => y.line = line && y.freeing) = some y →
    ∃ t, exec (.backack line x) s = .next t ∧ t.msgs = rest ∧ t.mem = s.mem ∧
      (y.awaiting.erase x = [] → (∀ z ∈ t.snoops, z.line ≠ line) ∧ t.dir line = { line := line }) ∧
      (y.awaiting.erase x ≠ [] → t.dir line = d ∧ ∃ z ∈ t.snoops, z = { y with awaiting := y.awaiting.erase x })) ∧
  (s.msgs.find? (fun n => n.line = line && n.src = x && n.retryAt.any (· ≤ s.time)) = some m → ∃ t l r,
    exec (.retirementRetry line x) s = .next t ∧ s.msgs = l ++ m :: r ∧ t.msgs = l ++ { m with retryAt := none, arrived := none } :: r ∧
    { t with msgs := s.msgs } = s) ∧
  ((∀ n ∈ s.msgs, ¬(n.line = line ∧ n.src = x ∧ n.retryAt.any (· ≤ s.time) = true)) → exec (.retirementRetry line x) s = .next s)

/-- R255, R257: what a cache of the protocol does with a forward that arrives while none is kept, and with a response, by its line's
state, where nothing is held for the line to become stable. A slice keeps nothing of a page that is being flipped to host bias (R387). (Choices of
the model that it uses: log 45.) -/
def Obligations.CacheReacts : Prop := ∀ (s : State) (line : Nat) (at_ : Agent) (m : Msg) (rest : List Msg),
  let c := s.cline at_ line
  let arrives (k : MsgKind) : Prop := s.arriving (fun n => n.kind = k && n.line = line && n.dst = at_) = some (m, rest)
  let data (n : Nat) : Msg := { kind := .data, line := line, src := at_, dst := m.req, n := n, data := c.data, poison := c.poison }
  let ack : Msg := { kind := .invAck, line := line, src := at_, dst := m.req }
  let back (withData : Bool) : Msg :=
    { kind := .backAck, line := line, src := at_, dst := .home, data := c.data, poison := c.poison, withData := withData }
  let goes (i : Instr) (st : CState) (msgs : List Msg) : Prop := c.deferred = [] → ∃ t, exec i s = .next t ∧
    (t.cline at_ line).st = st ∧ (t.cline at_ line).deferred = [] ∧ t.msgs = rest ++ msgs ∧ t.dirs = s.dirs ∧ t.mem = s.mem
  let defers (i : Instr) : Prop := ∃ t, exec i s = .next t ∧ (t.cline at_ line).deferred = c.deferred ++ [m] ∧
    (t.cline at_ line).st = c.st ∧ t.msgs = rest
  let still : Prop := at_ = .home ∨ (c.deferred = [] ∧ c.fills = [] ∧ c.writers = [])
  let flipping : Prop := at_ ≠ .home ∧ s.flushing line = true
  let becomes (i : Instr) (st : CState) (P : CLine → Prop) : Prop := (st.stable = true → still) → ∃ t, exec i s = .next t ∧ (t.cline at_ line).st = st ∧
    t.msgs = rest ∧ t.mem = s.mem ∧ (st ≠ .I → P (t.cline at_ line))
  let counted (i : Instr) (part : CState) : Prop :=
    becomes i (if c.need = some (c.acks + 1) then .M else part) (fun y => y.acks = c.acks + 1)
  (arrives .fwdGetS →
    (c.st = .E ∨ c.st = .M ∨ c.st = .O → goes (.fwdgets line at_) .O [data 0]) ∧
    (c.st = .MI_A ∨ c.st = .OI_A → goes (.fwdgets line at_) .OI_A [data 0]) ∧
    (c.st = .OM_A → c.counted = false → goes (.fwdgets line at_) .OM_A [data 0]) ∧
    (c.st = .IS_D ∨ c.st = .IM_AD ∨ c.st = .IM_A ∨ c.st = .SM_AD ∨ c.st = .SM_A ∨ (c.st = .OM_A ∧ c.counted = true) →
      defers (.fwdgets line at_))) ∧
  (arrives .fwdGetM →
    (c.st = .E ∨ c.st = .M ∨ c.st = .O → goes (.fwdgetm line at_) .I [data m.n]) ∧
    (c.st = .MI_A ∨ c.st = .OI_A → goes (.fwdgetm line at_) .II_A [data m.n]) ∧
    (c.st = .OM_A → c.counted = false → goes (.fwdgetm line at_) .IM_AD [data m.n]) ∧
    (c.st = .IS_D ∨ c.st = .IM_AD ∨ c.st = .IM_A ∨ c.st = .SM_AD ∨ c.st = .SM_A ∨ (c.st = .OM_A ∧ c.counted = true) →
      defers (.fwdgetm line at_))) ∧
  (arrives .inv →
    (c.st = .I ∨ c.st = .S → goes (.inv line at_) .I [ack]) ∧ (c.st = .IM_AD ∨ c.st = .SM_AD → goes (.inv line at_) .IM_AD [ack]) ∧
    (c.st = .IS_D → defers (.inv line at_))) ∧
  (arrives .backInv →
    (c.st = .I ∨ c.st = .S ∨ c.st = .E → goes (.backinv line at_) .I [back false]) ∧
    (c.st = .M ∨ c.st = .O → goes (.backinv line at_) .I [back true]) ∧
    (c.st = .MI_A ∨ c.st = .OI_A → goes (.backinv line at_) .II_A [back true]) ∧
    (c.st = .II_A → goes (.backinv line at_) .II_A [back false]) ∧
    (c.st = .IS_D ∨ c.st = .IM_AD ∨ c.st = .IM_A ∨ c.st = .SM_AD ∨ c.st = .SM_A ∨ c.st = .OM_A → defers (.backinv line at_))) ∧
  (arrives .data →
    (c.st = .IS_D → ¬flipping → becomes (.data line at_) .S (fun y => y.data = m.data ∧ y.poison = m.poison)) ∧
    (c.st = .IS_D → flipping → becomes (.data line at_) .I (fun _ => True)) ∧
    (c.st = .IM_AD → becomes (.data line at_) (if m.n = c.acks then .M else .IM_A)
      (fun y => y.data = m.data ∧ y.poison = m.poison ∧ y.need = some m.n)) ∧
    (c.st = .SM_AD → becomes (.data line at_) (if m.n = c.acks then .M else .SM_A)
      (fun y => y.data = m.data ∧ y.poison = m.poison ∧ y.need = some m.n))) ∧
  (arrives .dataE → c.st = .IS_D → ¬flipping → becomes (.datae line at_) .E (fun y => y.data = m.data ∧ y.poison = m.poison)) ∧
  (arrives .cnt → c.st = .OM_A → becomes (.cnt line at_) (if m.n = c.acks then .M else .OM_A)
    (fun y => y.need = some m.n ∧ y.counted = true ∧ y.data = c.data)) ∧
  (arrives .invAck →
    (c.st = .IM_AD ∨ c.st = .SM_AD → becomes (.invack line at_) c.st (fun y => y.acks = c.acks + 1)) ∧
    (c.st = .IM_A ∨ c.st = .SM_A ∨ c.st = .OM_A → counted (.invack line at_) c.st)) ∧
  (arrives .putAck → c.st = .MI_A ∨ c.st = .OI_A ∨ c.st = .II_A → becomes (.putack line at_) .I (fun _ => True))

/-- R200, R202, R208, R213, R216, R249, R273, R339: a walk that finds a translation fills the core's TLB, a fault fills nothing; a
drain writes back, and its acknowledgement frees the record; a retiring slice drains its records and, when nothing is left of its
lines, deals its buckets; correctable errors are counted, uncorrectable ones poison, drop, kill, or lose a core, a slice
or a die; a failed slice's dirty lines are poisoned where its tags can be read. (Choices of the model that it uses: logs 39, 41, 73 and 74.) -/
def Obligations.CachesAndErrors : Prop := ∀ (s b : State) (c : CoreId) (part va line word ctx d n : Nat) (t : Translation) (size : Nat) (f : WalkFault)
    (r : Releaser) (l : L1Line) (ok : Bool) (peer : Option (Nat × Nat)) (z : Nat × Nat),
  let k := s.core c
  let fetched (e : TlbEntry) : Bool := e.part = part && e.base ≤ va && va < e.base + e.size
  let home (x : Nat) : Bool := s.homeSlice x = (d, n)
  let x := s.slice d n
  let column := (List.range 8).map (fun i => n / 8 * 8 + i)
  let dealt (u : State) : Prop := (u.slice d n).retired = true ∧
    ((∃ i ∈ column, i ≠ n ∧ (s.slice d i).retired = false) → ∀ j < 1024, s.sliceOf d j = n → u.sliceOf d j ∈ column ∧ u.sliceOf d j ≠ n ∧
      (s.slice d (u.sliceOf d j)).retired = false) ∧
    (∀ j, s.sliceOf d j ≠ n → u.sliceOf d j = s.sliceOf d j)
  let counts (i : Instr) : Prop :=
    (s.siteEnabled c = true → ∃ u, exec i s = .next u ∧ (u.core c).corece = min (2 ^ 32 - 1) (k.corece + 1) ∧
      { u with cores := s.cores } = s) ∧ (s.siteEnabled c = false → exec i s = .next s)
  let sliceCounts (i : Instr) : Prop := x.cecnt < 65535 → x.cecnt + 1 ≠ x.cethr → ∃ u, exec i s = .next u ∧
    u.slice d n = { x with cecnt := x.cecnt + 1 } ∧ { u with slices := s.slices } = s
  -- walks, drains
  (c.die < 9 → c.site < 100 → part < 16 → va < 2 ^ 52 →
    (k.tlb.any fetched = true → exec (.translationWalk c part va) s = .next s) ∧
    (k.tlb.any fetched = false → (∀ e ∈ s.tlb2, e.1 = c.die → fetched e.2 = false) →
      (s.walk part va .read = .error f → exec (.translationWalk c part va) s = .next s) ∧
      (s.walk part va .read = .ok (t, size) → ∃ u e, exec (.translationWalk c part va) s = .next u ∧
        { u with cores := s.cores, tlb2 := s.tlb2 } = s ∧ e ∈ (u.core c).tlb ∧ fetched e = true ∧ e.size = size ∧ e.base = va / size * size ∧
        e.t = { t with frame := t.frame / size * size }))) ∧
  (s.releasers.find? (fun r => r.line = line && r.core = c && r.draining && !r.drained) = some r →
    s.writeBackAll c (fun l => l.peer.isNone && l.colours &&& r.mask ≠ 0) = (b, ok) →
    exec (.drain line c) s = .next (if ok then
      { b with releasers := modifyFirst (fun y => y = r) (fun y => { y with drained := true }) b.releasers } else b)) ∧
  (∀ before after, s.releasers = before ++ r :: after → r.line = line → r.core = c → r.draining = true → r.drained = true →
    (∀ y ∈ before, ¬(y.line = line ∧ y.core = c ∧ y.draining = true ∧ y.drained = true)) →
    exec (.drainack line c) s = .next { s with releasers := before ++ after }) ∧
  -- retirement
  (s.retiring (d, n) = false → exec (.sliceRetire d n) s = .next s) ∧
  (s.retiring (d, n) = true → (∃ r ∈ s.releasers, home r.line = true ∧ r.draining = false) → exec (.sliceRetire d n) s = .next
    { s with releasers := s.releasers.map (fun r => if home r.line then { r with draining := true } else r) }) ∧
  (s.retiring (d, n) = true → (∀ r ∈ s.releasers, home r.line = true → r.draining = true) →
    (∀ y ∈ s.snoops, home y.line = false ∨ y.freeing = false) → (∀ y ∈ s.dirs, home y.line = false ∨ y.holders = []) →
    (∀ m ∈ s.msgs, home m.line = false ∨ m.retryAt.isSome ∨ m.kind.network = 0) →
    (∀ y, s.clines.find? (s.copyIn d n) = some y → exec (.sliceRetire d n) s = .next (s.evictCopy y).1) ∧
    (s.clines.find? (s.copyIn d n) = none → ∃ u, exec (.sliceRetire d n) s = .next u ∧ dealt u ∧
      (∀ h ∈ u.homeLines, home h.line = false) ∧ (∀ y ∈ u.peerCopies, ¬(y.die = d ∧ s.copySlice d y.number = (d, n))) ∧
      ∃ e, u.events = s.events ++ [e] ∧ e.kind = 6)) ∧
  -- correctable errors
  counts (.correctableError (.vectorFile c ctx)) ∧ counts (.correctableError (.scratch c ctx ok)) ∧
  counts (.correctableError (.l1Data c peer line word)) ∧ counts (.correctableError (.l1Tags c ok)) ∧
  (d < 9 → n < 16 → sliceCounts (.correctableError (.l2Tags d n ok))) ∧
  (d < 9 → n = s.sliceOf d (homeBucket line) → sliceCounts (.correctableError (.l2Data d none line))) ∧
  exec (.correctableError (.chip d n)) s = .next s ∧ exec (.correctableError (.memory line)) s = .next s ∧
  exec (.correctableError (.instrCache c line)) s = .next s ∧ exec (.correctableError (.tlb c part va)) s = .next s ∧
  exec (.correctableError (.tlb2 d part va)) s = .next s ∧ exec (.patrolScrub line) s = .next s ∧
  -- uncorrectable errors
  ((s.group ctx).core = c → (s.group ctx).status = .resident →
    exec (.uncorrectableError (.vectorFile c ctx)) s = .next (s.killCtx ctx 1)) ∧
  ((s.group ctx).core = c → exec (.uncorrectableError (.scratch c ctx true)) s = .next (s.killCtx ctx 1)) ∧
  exec (.uncorrectableError (.scratch c ctx false)) s = .next s ∧
  (d < 9 → n < 2 ^ 23 → ∃ u, exec (.uncorrectableError (.chip d n)) s = .next u ∧ d * 2 ^ 23 + n ∈ u.chipPoison ∧
    { u with chipPoison := s.chipPoison } = s) ∧
  (k.l1.find? (fun y => y.line = line && (match peer with | some x => y.peer = some x.1 && y.stamp = x.2 | none => y.peer.isNone)) = some l →
    l.dirty &&& byteRange (8 * word) 8 = 0 → ∃ u, exec (.uncorrectableError (.l1Data c peer line word)) s = .next u ∧ { u with cores := s.cores } = s ∧
      u.l1Find c l.key = if l.dirty = 0 then none else some { l with valid := l.dirty }) ∧
  (k.l1.find? (fun y => y.line = line && (match peer with | some x => y.peer = some x.1 && y.stamp = x.2 | none => y.peer.isNone)) = some l →
    l.dirty &&& byteRange (8 * word) 8 ≠ 0 → let bad := { l.dropClean with poison := true }
    State.writeBack c bad (s.l1Set c bad) = (b, ok) → exec (.uncorrectableError (.l1Data c peer line word)) s =
      .next (if ok then b.l1Set c { bad with valid := 0 } else b)) ∧
  (s.siteEnabled c = true → ∃ u, exec (.uncorrectableError (.l1Tags c ok)) s = .next u ∧ (u.core c).dead = true ∧ (u.core c).l1 = [] ∧
    ∀ g ∈ u.groups, ∀ y ∈ s.teams, y.core = c → g.inCluster y.launch y.cluster = false) ∧
  (∃ u, exec (.uncorrectableError (.l2Data d (some z) line)) s = .next u ∧ { u with peerCopies := s.peerCopies } = s ∧
    ∀ y, y ∈ u.peerCopies ↔ y ∈ s.peerCopies ∧ ¬(y.die = d ∧ y.package = z.1 ∧ y.part = z.2 ∧ y.vline = line)) ∧
  (∃ u, exec (.uncorrectableError (.l2Data d none line)) s = .next u ∧ u.mem = s.mem ∧
    u.clines = s.clines.map (fun y => if y.line = line ∧ y.agent = agentOf d line ∧ y.modified = true then { y with poison := true } else y)) ∧
  (d < 9 → n < 16 → x.retired = false → ∃ u, exec (.uncorrectableError (.l2Tags d n ok)) s = .next u ∧ dealt u ∧
    (∀ h ∈ u.homeLines, home h.line = false) ∧
    (ok = true → ∀ h ∈ s.homeLines, home h.line = true → h.dirty = true → (∀ y ∈ s.clines, y.line ≠ h.line) → h.line ∈ u.poison)) ∧
  (∃ u, exec (.uncorrectableError (.instrCache c line)) s = .next u ∧ (u.core c).icache = k.icache.filter (fun y => y.line ≠ line) ∧
    (u.core c).tlb = k.tlb ∧ (u.core c).l1 = k.l1 ∧ { u with cores := s.cores } = s) ∧
  (∃ u, exec (.uncorrectableError (.tlb c part va)) s = .next u ∧ (u.core c).tlb = k.tlb.filter (fun e => !fetched e) ∧
    (u.core c).l1 = k.l1 ∧ { u with cores := s.cores } = s) ∧
  (∃ u, exec (.uncorrectableError (.tlb2 d part va)) s = .next u ∧ (∀ e, e ∈ u.tlb2 ↔ e ∈ s.tlb2 ∧ ¬(e.1 = d ∧ fetched e.2 = true)) ∧
    { u with tlb2 := s.tlb2 } = s) ∧
  (line / 2 ^ 45 < 2 → line % 2 ^ 45 * 128 < s.tierLimit (line / 2 ^ 45) → ∃ u, exec (.uncorrectableError (.memory line)) s = .next u ∧
    line ∈ u.poison ∧ { u with poison := s.poison } = s) ∧
  -- flits
  exec (.meshFlitError (.corrected d)) s = .next s ∧ exec (.meshFlitError (.payload ctx)) s = .next (s.killCtx ctx 4) ∧
  (d < 9 → exec (.meshFlitError (.header d)) s = .next (State.moduleError { s with fatal := true }))

/-- R58, R266, R268, R270, R272 to R276, R281, R283, R285, R288, R366: the start of a copy, gather or collective that its channel
accepts becomes the channel's next command with what was captured; an offset write sets its register; one chunk or bag of the running
command is read once, written and done, its bytes counted at the barrier; the oldest staged matrix operation is performed, once more after a failed check, and
a second failure kills. (Choices of the model that it uses: logs 53, 67, 68 and 71.) -/
def Obligations.EngineEvents : Prop := ∀ (s b : State) (ctx id ch i : Nat) (e : Entry) (a : LaneAcc) (off : Nat) (v : BitVec 64) (x : Work)
    (c : CoreId) (o : MatrixOp),
  let g := s.group ctx
  let core := g.core
  let ready : Prop := Performable ctx id e s ∧ e.kind = .engineStart ∧ e.nextWrite = some (a, off, v) ∧
    ((s.kept e.tag 0 0).isSome ∨ s.tableFull (startTable core) = false)
  let words := (a.data.drop (e.elems a)).dropLast
  let checked (r : Except StartFault Captured) (kind : WorkKind) (ch : Nat) (i : Instr) (good : Captured → Prop) : Prop :=
    (∀ ws, r = .ok ws → good ws) ∧
    (∀ f, r = .error f → s.canAccept ctx kind core ch = true → exec i s = .next (s.failStart ctx e f))
  let number := ((a.data.drop (e.elems a)).getLastD 0).toNat
  let word (i : Nat) : BitVec 64 := (words.getD i 0).setWidth 64
  let accepts (i : Instr) (kind : WorkKind) (ch : Nat) (w : Work) : Prop :=
    (s.canAccept ctx kind core ch = true → ∃ t, exec i s = .next t ∧ t.works = s.works ++ [{ w with entry := g.nextId }] ∧
      (t.kept e.tag 0 0).isSome ∧ t.mem = s.mem ∧ (t.group ctx).nextId = g.nextId + 1) ∧
    (s.canAccept ctx kind core ch = false → exec i s = .next s)
  let t := templateOf x.block
  let plan := t.chunk x.srcOff.toInt x.dstOff.toInt x.count.toNat x.next
  let left (y : Work) : State := { b with works := modifyFirst (fun z => z.id = x.id) (fun _ => y) b.works }
  let bytes : Int := ((plan.length * Ptr.size t.dst : Nat) : Int)
  let y : Work := { x with next := x.next + 1, begun := false, pages := [], wpages := [], read := false, data := [] }
  let moved := (s.copyAcquire x t).moveChunk (s.group x.ctx) x t plan
  let z := x.beginBag s.free
  let performed (u : State) : Prop := (∀ z ∈ u.ops, z.id ≠ o.id) ∧ u.mem = s.mem ∧
    u.teams = modifyFirst (fun t => t.launch = o.launch && t.team = o.team) (fun t => o.after.foldl Team.writeTile (o.perform t)) s.teams
  (ready → ∀ k, apertureAt off = .offset ch k → 1 ≤ k → k ≤ 3 → ch < 8 →
    (s.startPending ctx core ch = true → exec (.apertureRegisterWrite ctx id) s = .next s) ∧
    (s.startPending ctx core ch = false → ∃ t, exec (.apertureRegisterWrite ctx id) s = .next t ∧ t.mem = s.mem ∧
      (t.channels core).getD ch {} = (let z := (s.channels core).getD ch {}
        if k = 1 then { z with src := v } else if k = 2 then { z with dst := v } else { z with count := v }) ∧
      ∀ j < 8, j ≠ ch → (t.channels core).getD j {} = (s.channels core).getD j {})) ∧
  (ready → apertureAt off = .copy ch → accepts (.copyStart ctx id) .copy ch
    { id := number, kind := .copy, core := core, channel := ch, ctx := ctx, block := unpackWords (words.take 8), srcOff := word 8
      dstOff := word 9, count := word 10, tag := e.tag, lane := a.lane }) ∧
  (ready → apertureAt off = .gather ch → checked ((s.focus ctx).gatherStart ch v) .gather ch (.gatherStart ctx id) (fun ws =>
    accepts (.gatherStart ctx id) .gather ch { id := number, kind := .gather, core := core, channel := ch, ctx := ctx, block := unpackWords ws
                                               off := v.toNat, tag := e.tag, lane := a.lane })) ∧
  (ready → apertureAt off = .collective → checked ((s.focus ctx).collectiveStart v) .collective 0 (.collectiveStart ctx id) (fun ws =>
    accepts (.collectiveStart ctx id) .collective 0 { id := number, kind := .collective, core := core, channel := 0, ctx := ctx
                                                      block := unpackWords (ws.take 4), off := v.toNat, tag := e.tag, lane := a.lane })) ∧
  (s.runningWork .copy c ch = none → exec (.copyChunk c ch) s = .next s) ∧
  (s.runningWork .copy c ch = some x → y.next < t.chunks x.count.toNat →
    (∀ h, moved = (b, some (some h)) → exec (.copyChunk c ch) s = .next (b.haltWork x h)) ∧
    (moved = (b, some none) → exec (.copyChunk c ch) s = .next b) ∧
    (moved = (b, none) → t.barrier = none → exec (.copyChunk c ch) s = .next (left y)) ∧
    (∀ k, moved = (b, none) → t.barrier = some k → (∀ z, b.teams.find? (fun z => z.launch = (s.group x.ctx).id.launch && z.team = (s.group x.ctx).id.team) = some z →
        b.barriersSaved z = false) → ∃ u, exec (.copyChunk c ch) s = .next u ∧
      u.works = (left y).works ∧ u.mem = b.mem ∧
      u.teams = (b.modBarrier (s.group x.ctx).id.launch (s.group x.ctx).id.team k (Barrier.addTx (-bytes))).teams)) ∧
  (s.runningWork .copy c ch = some x → x.next < t.chunks x.count.toNat → t.chunks x.count.toNat ≤ y.next →
    moved = (b, none) → t.barrier = none → exec (.copyChunk c ch) s = .next ((left y).endCopy y t)) ∧
  (s.runningWork .gather c ch = some x → gatherBags x.block ≤ x.next → exec (.gatherBag c ch) s = .next (s.endGather x)) ∧
  (s.runningWork .gather c ch = none → exec (.gatherBag c ch) s = .next s) ∧
  (x.begun = false → x.landed = [] → gatherOp x.block ≠ 3 → x.next < gatherBags x.block → ∀ k, z.cur = x.next ∧
    (z.endBag k).next = x.next + 1 ∧ (z.endBag k).missed = x.missed + k) ∧
  (s.runningWork .gather c ch = some x → x.next < gatherBags x.block → gatherScatters x.block = false → x.read = false →
    ∀ vs rows b', (s.putWork z).bagIndices (s.group x.ctx) z = (b', .ok vs) →
      State.tableRows (s.group x.ctx) z (vs.map (·.toNat)) b' = (b, .ok rows) →
      let missed := ((vs.map (·.toNat)).filter (rowMissing x.block)).length
      let read := (b.haveRead z ((rowElems (gatherRow x.block) z.cur).zip (bagRow x.block rows))).modWork z.id
        (fun y => { y with missed := y.missed + missed })
      ∀ b'', read.writeDense (s.group x.ctx) z = (b'', .ok ()) →
      let ended := (b''.workNow z).endBag 0
      ended.next < gatherBags x.block → ∃ u, exec (.gatherBag c ch) s = .next u ∧ u.mem = b''.mem ∧
        u.works = modifyFirst (fun w => w.id = x.id) (fun _ => ended) b''.works) ∧
  (s.ops.find? (fun o => o.core = c) = none → exec (.matrixOperation c i) s = .next s) ∧
  (s.ops.find? (fun o => o.core = c) = some o → o.staged = false ∨ s.awaitedBy o = true → exec (.matrixOperation c i) s = .next s) ∧
  (s.ops.find? (fun o => o.core = c) = some o → o.staged = true → s.awaitedBy o = false →
    (∃ u, exec (.matrixOperation c 0) s = .next u ∧ performed u ∧ u.cores = s.cores) ∧
    (∃ u, exec (.matrixOperation c 1) s = .next u ∧ performed u ∧ (u.core c).corece = min (2 ^ 32 - 1) ((s.core c).corece + 1)) ∧
    (∀ z, 2 ≤ i → s.teams.find? (fun t => t.launch = o.launch && t.team = o.team) = some z → ∃ u, exec (.matrixOperation c i) s = .next u ∧
      (∀ h ∈ u.groups, h.inCluster o.launch z.cluster = false) ∧ ∃ e ∈ u.events, e.kind = 3 ∧ e.launch = o.launch ∧
        e.info = BitVec.ofNat 64 (z.cluster + 5 * 2 ^ 32)))

/-- R356, R357, R359 to R363, R403: a flit failure counts and after 16 in a row takes the port down, what it had not passed leaves by
the port that its target now has, EN enables it, and training brings it up; a package is declared lost by the host or after 2 s of
silence, and the requests to it fail with cause 18; a request of another module is refused, parked, or served and answered; a parked
one sends a notice every 64 µs and, in hardware mode, walks again, this module's own going back to its entry; a cancel drops it. R250: one
of misaligned elements goes byte by byte. R375, R380: another module asks about a name, or tells that it ended or moved on. (Choices of the model
that it uses: logs 20, 33, 37, 49, 57, 72 and 106.) -/
def Obligations.PortsAndPeers : Prop := ∀ (s b : State) (j i n p : Nat) (v : BitVec 64) (req : PeerReq) (l : List PeerSpot) (x : PeerSpot)
    (f : WalkFault) (va k : Nat) (bytes : List Byte) (w : Parked),
  let port := s.port j
  let outside (u : State) : Prop := req.source ≠ u.package ∧ u.packets.any (McPacket.of req) = false
  let still : Prop := ∀ o ∈ s.out, o.leftBy j = false
  let becomes (i : Instr) (y : Port) : Prop :=
    ∃ t, exec i s = .next t ∧ t.port j = y ∧ (∀ k, k ≠ j → t.port k = s.port k) ∧ { t with ports := s.ports } = s
  let lost : Event := { kind := 6, part := 0xFFFF, queue := 0xFFFFFFFF, launch := 0, info := BitVec.ofNat 64 p }
  let gone (t : State) : Prop := t.events = s.events ++ [lost] ∧ (∀ c ∈ t.cores, ∀ l ∈ c.2.l1, l.peer ≠ some p) ∧
    (∀ y ∈ t.peerCopies, y.package ≠ p) ∧ t.mem = s.mem ∧ t.g = s.g ∧ t.gs = s.gs
  let silent : Prop := p ≠ s.package ∧ ∃ g ∈ s.groups, g.status ≠ .saved ∧ ∃ e ∈ g.entries, e.asks = true ∧
    e.anchor = p ∧ e.heardAt + 2 * (10 ^ 6 * 940) ≤ s.time
  let answer (u : State) (status : Nat) (data : List (BitVec 128)) : State := State.answer req status data u
  let open_ : Prop := req.part < 16 ∧ (s.reg (partBlock req.part + 0xA0)).getLsbD 0 = true
  -- a request to memory, and the name of which another module's directory asks or tells
  let memory : Prop := req.kind < 3
  let named : PeerLane := req.lanes.headD { lane := 0, va := 0, size := 0, data := 0, data2 := 0 }
  let slot := named.va / 2 ^ 32 % 2 ^ 20
  let gen := named.va / 2 ^ 16 % 2 ^ 16
  let moved := s.settled slot gen
  let parks : Parked := { req := req, since := s.time, cause := f.cause, extra := f.extra, addr := va, assisted := false }
  let again := { w with since := s.time }
  let kept : State := { s with parked := s.parked.set i again }
  let a := kept.noticeParked again
  -- ports
  (j < 36 → port.up = true → port.en = true → n < 16 ∨ still →
    becomes (.flitResend j n) { port with resends := min 65535 (port.resends + min n 15), up := decide (n < 16) }) ∧
  (j < 36 → port.up = true → port.en = true → 16 ≤ n → exec (.flitResend j n) s =
    .next ((s.setPort { port with resends := min 65535 (port.resends + 15), up := false }).resend j)) ∧
  (∀ q, (State.route s p 0 = some k → (Out.request j p q).again s = { s with out := .request k p q :: s.out }) ∧
    (State.route s p 0 = none → (Out.request j p q).again s = s.noteLost p)) ∧
  (port.up = false ∨ port.en = false → exec (.flitResend j n) s = .next s) ∧
  (s.ready = true → j < 36 → port.up = true → v.getLsbD 1 = false → exec (.portStatusWrite j v) s = .next ((s.writePort j v).resend j)) ∧
  (s.ready = true → j < 36 → port.resends < 65536 → port.up = false ∨ v.getLsbD 1 = true ∨ still →
    (bitsAt 16 16 v.toNat = 0 → becomes (.portStatusWrite j v) { port with en := v.getLsbD 1, up := port.up && v.getLsbD 1 }) ∧
    (bitsAt 16 16 v.toNat = 65535 →
      becomes (.portStatusWrite j v) { port with en := v.getLsbD 1, up := port.up && v.getLsbD 1, resends := 0 })) ∧
  (s.ready = true → j < 36 → port.en = true → becomes (.linkTrained j) { port with up := true }) ∧
  (port.en = false → exec (.linkTrained j) s = .next s) ∧
  (s.ready = false → exec (.portStatusWrite j v) s = .next s ∧ exec (.linkTrained j) s = .next s ∧
    exec (.lostHomeTableWrite i v) s = .next s) ∧
  -- lost homes
  (s.ready = true → i < 256 → p = bitsAt 0 18 v.toNat → ∃ t,
    exec (.lostHomeTableWrite i v) s = .next (if v.getLsbD 63 = true ∧ s.inLostTable p = false then t.failRequests p else t) ∧
    (t.reg (lostEntry i)).toNat = p + (if v.getLsbD 63 then 2 ^ 63 else 0) ∧
    (∀ k < 256, k ≠ i → t.reg (lostEntry k) = s.reg (lostEntry k)) ∧
    (v.getLsbD 63 = true → s.inLostTable p = false → gone t) ∧
    (v.getLsbD 63 = false ∨ s.inLostTable p = true → t.events = s.events ∧ t.cores = s.cores ∧ t.mem = s.mem)) ∧
  (silent → s.inLostTable p = false → p < 2 ^ 18 → ∃ t, exec (.lostHomeTimeout p) s = .next (t.failRequests p) ∧ gone t ∧
    ((∃ k < 256, (s.reg (lostEntry k)).getLsbD 63 = false) → t.inLostTable p = true)) ∧
  (∀ ctx id e, s.requestsTo p = [(ctx, id)] → s.entry ctx id = some e → e.done = false →
    s.failRequests p = s.failPart ctx e 18 (BitVec.ofNat 64 p)) ∧
  (¬silent ∨ s.inLostTable p = true → exec (.lostHomeTimeout p) s = .next s) ∧
  -- requests
  (outside s → ∀ status data, answer s status data =
    { s with out := .answer (State.route s req.source 2) req.source req.tag status data :: s.out }) ∧
  (memory → ¬open_ → exec (.peerRequest req) s = .next (answer s 9 [0])) ∧
  (memory → open_ → s.walkPeer req = .error (f, va) → (req.kind = 0 ∨ ∀ y ∈ s.parked, ¬(y.req.tag = req.tag ∧ y.req.kind ≠ 0)) →
    (s.parkFull = true → exec (.peerRequest req) s = .next (answer s f.cause [BitVec.ofNat 128 f.extra])) ∧
    (s.parkFull = false → s.hostMode 0 = false → exec (.peerRequest req) s = .next { s with parked := s.parked ++ [parks] }) ∧
    (s.parkFull = false → s.hostMode 0 = true → ∃ y, exec (.peerRequest req) s = .next { s with
      parked := s.parked ++ [{ parks with assisted := true }], faultBuffer := s.faultBuffer ++ [y] } ∧
      y.part = req.part ∧ y.ctx = tagCtx req.tag ∧ y.source = .parked req.tag ∧ y.addr = BitVec.ofNat 64 va)) ∧
  (memory → open_ → s.walkPeer req = .ok l → s.tagsFull req l = false → outside s → s.obtain req (peerLines l) = (b, .ok false) →
    exec (.peerRequest req) s = .next b) ∧
  (memory → open_ → s.walkPeer req = .ok l → s.tagsFull req l = false → outside s → s.obtain req (peerLines l) = (b, .error n) →
    exec (.peerRequest req) s = .next (answer b n [BitVec.ofNat 128 b.package])) ∧
  (memory → open_ → s.walkPeer req = .ok l → s.tagsFull req l = false → s.obtain req (peerLines l) = (b, .ok true) → b.splits req = true →
    exec (.peerRequest req) s = .next (b.peerStep req l).1) ∧
  (memory → open_ → s.walkPeer req = .ok l → s.tagsFull req l = false → outside s → s.obtain req (peerLines l) = (b, .ok true) → outside b → l = [x] →
    req.sync = false → (req.kind = 0 → ∀ z ∈ req.lanes, laneSplit z = false) →
    (∀ pchk, b.peerBytes x.pieces = (bytes, some pchk) → req.kind = 0 →
      exec (.peerRequest req) s = .next (answer b 10 [if pchk then 0 else 1])) ∧
    (b.peerBytes x.pieces = (bytes, none) →
      (req.kind = 0 → exec (.peerRequest req) s = .next (answer b 0 [bytesValue (b.blurBytes x.addr bytes)])) ∧
      (req.kind = 1 → b.kept req.tag x.lane.lane x.lane.va = none →
        exec (.peerRequest req) s = .next (answer ((State.peerMerge req.poison x.pieces (valueBytes x.lane.data x.lane.size) b).notePlain
          (x.bytes.map (·.1))) 0 [0])) ∧
      (req.kind = 2 → b.kept req.tag x.lane.lane x.lane.va = none → ∃ t q o, exec (.peerRequest req) s = .next t ∧
        t.out = .answer q req.source req.tag 0 [BitVec.ofNat 128 (leNat (b.blurBytes x.addr bytes))] :: o ∧
        (t.kept req.tag x.lane.lane x.lane.va).isSome) ∧
      (req.kind ≠ 0 → ∀ k, b.kept req.tag x.lane.lane x.lane.va = some k → ∃ d, exec (.peerRequest req) s = .next (answer b 0 [d])))) ∧
  -- names of this module that are elsewhere
  (req.kind = 4 → exec (.peerRequest req) s = .next (answer moved 0 [(moved.nameAnswer slot gen s.package).setWidth 128])) ∧
  (req.kind = 5 → ∃ t, exec (.peerRequest req) s = .next t ∧ { t with pegs := s.pegs } = s ∧ ∀ before y after, s.pegs = before ++ y :: after →
    y.slot = slot → y.gen = gen → y.st ≠ 0 → (∀ z ∈ before, ¬(z.slot = slot ∧ z.gen = gen ∧ z.st ≠ 0)) →
    t.pegs = before ++ { slot := slot, gen := (gen + 1) % 65536 } :: after) ∧
  (req.kind = 6 → ∃ t, exec (.peerRequest req) s = .next t ∧ { t with pegs := s.pegs } = s ∧ ∀ before y after, s.pegs = before ++ y :: after →
    y.slot = slot → y.gen = gen → y.st = 3 ∨ y.st = 4 → (∀ z ∈ before, ¬(z.slot = slot ∧ z.gen = gen ∧ (z.st = 3 ∨ z.st = 4))) →
    t.pegs = before ++ { y with fwd := named.data.toNat % 2 ^ 18 } :: after) ∧
  -- waiting
  (s.parked[i]? = some w → s.time < w.since + 64 * 940 → exec (.parkRewalk i) s = .next s) ∧
  (s.parked[i]? = some w → w.since + 64 * 940 ≤ s.time →
    (w.own = none → w.req.source ≠ s.package → a =
      { kept with out := .notice (State.route s w.req.source 2) w.req.source w.req.tag :: s.out }) ∧
    (∀ y, w.own = some y → a =
      if (kept.entry y.ctx y.entry).any (fun e => e.round = y.round || e.cls = .d) then State.heard y.ctx y.entry kept else kept) ∧
    (w.assisted = true → exec (.parkRewalk i) s = .next a) ∧
    (w.assisted = false → a.walkPeer w.req = .error (f, va) → exec (.parkRewalk i) s = .next { a with
      parked := a.parked.set i { again with cause := f.cause, extra := f.extra, addr := va } }) ∧
    (w.assisted = false → a.walkPeer w.req = .ok l → w.own.isSome → exec (.parkRewalk i) s = .next { a with parked := a.parked.eraseIdx i }) ∧
    (w.assisted = false → a.walkPeer w.req = .ok l → w.own = none → a.servePeer w.req l = (b, true) →
      exec (.parkRewalk i) s = .next { b with parked := b.parked.eraseIdx i })) ∧
  (∃ t, exec (.cancel v) s = .next t ∧ (∀ y, y ∈ t.parked ↔ y ∈ s.parked ∧ ¬(y.req.tag = v ∧ y.req.source ≠ s.package)) ∧ { t with parked := s.parked } = s)

/-- R60, R364, R365, R367 to R369, R372: a multicast packet is taken by the free branches that no earlier packet waits for, and a
member performs and acknowledges it; a reduction slot adds its contributions in their fixed order, sends its partial up or its total
down, and aborts; a word of a regs store is applied, parked, forwarded or dropped by the state of its name, and answered. (Choices of
the model that it uses: logs 32, 34, 37 and 101.) -/
def Obligations.FabricTraffic : Prop := ∀ (s b : State) (req : PeerReq) (group : Nat) (offer : TreeOffer) (l : List PeerSpot) (spot : PeerSpot)
    (c : Contribution) (r : RedSlot) (chunk : Nat) (sequence : BitVec 64) (total : List (BitVec 64)) (x : Work) (w : RegsWord) (at_ : NameAt)
    (p : Peg) (first : Bool × Nat) (h : Halt) (tag : BitVec 64),
  let m := s.multicastEntry group
  let all : BitVec 36 := BitVec.ofNat 36 m
  let taken := s.packets.foldl (fun b q => b &&& ~~~q.branches) (all &&& offer.free)
  let up := m / 2 ^ 37 % 64
  let offered : State := { s with
    packets := s.packets ++ [{ req := req, group := group, branches := all &&& ~~~taken, local_ := m.testBit 36, awaiting := taken }]
    treeTags := if s.treeTags.contains (req.tag, group) then s.treeTags else (req.tag, group) :: s.treeTags
    out := (portsOf taken).map (fun j => Out.multicast j group req) ++ s.out }
  let fresh_ : Prop := ∀ q ∈ s.packets, ¬(q.req.tag = req.tag ∧ q.group = group)
  let order := s.redOrder c.group
  let root := (s.multicastEntry c.group).testBit 43
  let contributes (P : RedSlot → List Out → Prop) : Prop := ∃ t y o, exec (.reductionContribution c) s = .next t ∧
    t.redSlots.find? (fun r => r.is c.group c.sequence c.chunk) = some y ∧ t.out = o ++ s.out ∧ t.mem = s.mem ∧ P y o
  let mine := s.collectives group sequence
  let vals := if m.testBit 43 then r.partial_ else total
  let whole : Prop := r.added.length = (s.redOrder group).length ∧ (m.testBit 43 = true ∨ r.sentUp = true)
  let totalled (u : State) : State := State.drainBuffer { u with
    redSlots := dropFirst (fun r => r.is group sequence chunk) u.redSlots
    out := (portsOf all).map (fun j => Out.totalDown j group sequence chunk vals) ++ u.out }
  let aborting := s.abortCollective (group, sequence)
  let abortions : Prop := s.multicastValid group = true ∨ s.aborts.contains (group, sequence) = true
  let settledAbort (u : State) : State := State.drainBuffer { u with aborts := u.aborts.filter (· ≠ (group, sequence)) }
  let dead (bit : Nat) : BitVec 128 := BitVec.ofNat 128 (w.slot % 2 ^ 20 * 2 ^ 16 + w.gen % 2 ^ 16 + bit * 2 ^ 36)
  let back (u : State) (status : Nat) (data : List (BitVec 128)) : Out :=
    .answer (State.route u (tagPackage w.tag) 2) (tagPackage w.tag) w.tag status data
  let a := s.settled w.slot w.gen
  let g := a.group p.ctx
  let fresh : Prop := tagPackage w.tag ≠ s.package % 2 ^ 18 ∧ s.keptWord w.tag w.lane w.ord = none ∧ s.tableFull (nameTable w.slot) = false
  let answered (u : State) (status : Nat) (data : List (BitVec 128)) (code : BitVec 128) : Prop := exec (.regsWordDelivery w) s = .next
    { u with suppress := { table := 1, site := w.slot % 9, tag := w.tag, lane := w.lane, ord := w.ord, old := code } :: u.suppress
             out := back u status data :: u.out }
  -- multicast
  (s.multicastValid group = false → exec (.multicastStore req group offer) s = .next s) ∧
  (s.multicastValid group = true → fresh_ →
    (offer.up = true → m.testBit 43 = false → exec (.multicastStore req group offer) s =
      .next { s with out := .multicast up group req :: s.out }) ∧
    (offer.up = false → m.testBit 43 = true → exec (.multicastStore req group offer) s = .next s) ∧
    (offer.up = m.testBit 43 → m.testBit 36 = false → all ≠ 0 → exec (.multicastStore req group offer) s = .next offered) ∧
    (offer.up = m.testBit 43 → m.testBit 36 = true → (∀ q ∈ s.packets, q.local_ = false) → (∀ q ∈ s.parked, q.req ≠ req) →
      exec (.multicastStore req group offer) s = .next ((State.peerRequest req offered).closePacket req.tag group) ∧
      (all = 0 → m.testBit 43 = false → req.kind = 1 → req.sync = false → req.part < 16 → (s.reg (partBlock req.part + 0xA0)).getLsbD 0 = true →
        (∀ z ∈ req.lanes, laneSplit z = false) → offered.walkPeer req = .ok l → l = [spot] → offered.tagsFull req l = false → offered.obtain req (peerLines l) = (b, .ok true) →
        b.packets = offered.packets → b.kept req.tag spot.lane.lane spot.lane.va = none →
        ∃ t, exec (.multicastStore req group offer) s = .next t ∧ t.packets = s.packets ∧ t.out = .multicastAck up req.tag 0 0 :: b.out ∧
          (let z := State.peerMerge req.poison spot.pieces (valueBytes spot.lane.data spot.lane.size) b
           t.mem = z.mem ∧ t.clines = z.clines) ∧ (t.kept req.tag spot.lane.lane spot.lane.va).isSome))) ∧
  -- contributions
  (s.multicastValid c.group = false → exec (.reductionContribution c) s = .next s) ∧
  (s.multicastValid c.group = true → c.localSource = false → s.aborts.contains (c.group, c.sequence) = true →
    exec (.reductionContribution c) s = .next s) ∧
  (s.multicastValid c.group = true → c.localSource = false → (false, c.source) ∈ order → s.aborts.contains (c.group, c.sequence) = false →
    (s.redSlots.find? (fun r => r.is c.group c.sequence c.chunk) = none →
      (256 ≤ s.redSlots.length → c ∉ s.redBuffer → exec (.reductionContribution c) s = .next { s with redBuffer := s.redBuffer ++ [c] }) ∧
      (s.redSlots.length < 256 → order.head? = some first →
        (first ≠ (false, c.source) → contributes (fun y o => y.waiting = [c] ∧ y.added = [] ∧ o = [])) ∧
        (first = (false, c.source) → contributes (fun y o => y.waiting = [] ∧ y.added = [first] ∧ y.partial_ = c.values ∧
          (1 < order.length ∨ root = true → o = []) ∧ (order.length = 1 → root = false →
            o = [.partialUp (s.multicastEntry c.group / 2 ^ 37 % 64) c.group c.sequence c.chunk c.values]))))) ∧
    (s.redSlots.find? (fun r => r.is c.group c.sequence c.chunk) = some r → (false, c.source) ∉ r.added → r.waiting = [] → r.added ≠ [] →
      order[r.added.length]? = some (false, c.source) → contributes (fun y o => y.added = r.added ++ [(false, c.source)] ∧ y.waiting = [] ∧
        y.partial_ = (r.partial_.zip c.values).map (fun z => redCombine r.double r.op z.1 z.2) ∧
        (root = true → o = [])))) ∧
  (s.multicastValid c.group = true → c.localSource = true → s.contributor c.group c.sequence c.source = some x →
    (x.maySend c.chunk = false ∨ s.sendTag (s.group x.ctx) = none → exec (.reductionContribution c) s = .next s) ∧
    (x.maySend c.chunk = true → s.sendTag (s.group x.ctx) = some tag →
      ∀ rs u vs, s.workPages (s.group x.ctx) x .read (collSource x.block) (collElems x.block c.chunk) = (u, .ok rs) →
        State.engineLoads (s.group x.ctx) x.entry rs (collSource x.block) (collElems x.block c.chunk) u = (b, .ok vs) →
        exec (.reductionContribution c) s = .next (State.contribute { c with
          double := collDouble x.block, op := collOp x.block, tag := tag, values := vs.map (fun v => v.setWidth 64) }
          ((b.modGroup x.ctx (fun g => { g with liveTags := tag :: g.liveTags, seqD := g.seqD + 1 })).modWork x.id
            (fun y => { y with next := y.next + 1, sends := (c.chunk, tag) :: y.sends, pages := [] }))))) ∧
  -- totals and aborts
  (s.redSlots.find? (fun r => r.is group sequence chunk) = none → exec (.reductionTotal group sequence chunk total) s = .next s) ∧
  (s.redSlots.find? (fun r => r.is group sequence chunk) = some r →
    (¬whole ∨ (∃ y ∈ mine, y.frozen = true) → exec (.reductionTotal group sequence chunk total) s = .next s) ∧
    (whole → mine = [] → exec (.reductionTotal group sequence chunk total) s = .next (totalled s)) ∧
    (whole → mine = [x] → x.frozen = false → chunk ∈ x.landed → exec (.reductionTotal group sequence chunk total) s = .next (totalled s)) ∧
    (whole → mine = [x] → x.frozen = false → chunk ∉ x.landed →
      (State.landChunk x chunk vals s = (b, some none) → exec (.reductionTotal group sequence chunk total) s = .next b) ∧
      (State.landChunk x chunk vals s = (b, some (some h)) → exec (.reductionTotal group sequence chunk total) s = .next (totalled (b.haltWork x h))) ∧
      (State.landChunk x chunk vals s = (b, none) →
        let u := State.landed chunk x b
        u.mem = b.mem ∧ ∀ y, u.works.find? (fun z => z.id = x.id) = some y → exec (.reductionTotal group sequence chunk total) s = .next (totalled
          (if collChunks y.block ≤ y.landed.length then u.endCollective y false else u))))) ∧
  (¬abortions → exec (.reductionAbort group sequence) s = .next s) ∧
  (s.aborts.contains (group, sequence) = false → aborting.mem = s.mem ∧ aborting.works = s.works ∧
    (∀ y ∈ aborting.redSlots, ¬(y.group = group ∧ y.sequence = sequence)) ∧ (∀ y ∈ aborting.redBuffer, ¬(y.group = group ∧ y.sequence = sequence)) ∧
    aborting.out = (s.treePorts group).map (fun j => Out.abort j group sequence) ++ s.out) ∧
  (abortions → mine = [] → exec (.reductionAbort group sequence) s = .next (settledAbort aborting)) ∧
  (abortions → mine = [x] →
    (x.frozen = true → exec (.reductionAbort group sequence) s = .next aborting) ∧
    (x.frozen = false → ∀ y, State.spoil ((List.range (collChunks x.block)).filter (fun k => !x.landed.contains k)) x aborting = (b, true) →
      b.works.find? (fun z => z.id = x.id) = some y → (b.endCollective y true).collectives group sequence = [] →
      exec (.reductionAbort group sequence) s = .next (settledAbort (b.endCollective y true)))) ∧
  -- words of regs stores
  (fresh → a.findName w.slot w.gen = none → answered a 14 [dead 0] 1) ∧
  (fresh → a.findName w.slot w.gen = some (at_, p) →
    (p.st = 4 → exec (.regsWordDelivery w) s = .next { a with
      suppress := { table := 1, site := w.slot % 9, tag := w.tag, lane := w.lane, ord := w.ord, old := 3 } :: a.suppress
      out := .regsForward (State.route a p.fwd 1) p.fwd w :: a.out }) ∧
    (p.st ≠ 4 → g.alloc ≤ w.reg → answered a 14 [dead 1] 2) ∧
    (p.st ≠ 4 → p.st = 3 ∨ p.rst = true → w.reg < g.alloc →
      (p.parked.length < 4095 → answered (a.putName at_ { p with parked := p.parked ++ [w] }) 0 [] 0) ∧
      (4095 ≤ p.parked.length → exec (.regsWordDelivery w) s = .next { a with out := back a 256 [] :: a.out })) ∧
    (p.st = 2 → p.rst = false → w.reg < g.alloc → answered (a.storeWord p.ctx w) 0 [] 0) ∧
    (p.st = 1 → p.rst = false → w.reg < g.alloc → g.running = true → exec (.regsWordDelivery w) s = .next a) ∧
    (p.st = 1 → p.rst = false → w.reg < g.alloc → w.reg < 256 → w.rlane < 32 → g.running = false → a.has p.ctx = true → g.pending = .none →
      ∃ t, exec (.regsWordDelivery w) s = .next t ∧ (t.group p.ctx).readV w.reg w.rlane = w.value ∧
        (t.group p.ctx).holdCount w.reg = g.holdCount w.reg - (if g.holdArm w.reg then 1 else 0) ∧
        (∀ n < 256, ∀ k < 32, ¬(n = w.reg ∧ k = w.rlane) → (t.group p.ctx).readV n k = g.readV n k) ∧ t.mem = a.mem)) ∧
  (tagPackage w.tag ≠ s.package % 2 ^ 18 → (s.keptWord w.tag w.lane w.ord).isSome → ∃ t, exec (.regsWordDelivery w) s = .next t ∧
    t.groups = s.groups ∧ t.mem = s.mem) ∧
  (tagPackage w.tag = s.package % 2 ^ 18 → (s.ownWord w = none → exec (.regsWordDelivery w) s = .next s) ∧
    ∀ y, s.ownWord w = some y → exec (.regsWordDelivery w) s = .next (s.deliverWord y).1)

/-- R381, R382, R385 to R388, R396: the host's reads and writes of a line are served by its home once its releaser records have drained
and the flush of its page is over, those of one line in their order of arrival, and beyond memory read zero and are dropped; a snoop of
tier 2 is answered by the home; a bias command flips a page after each core has walked its L1 and every line is in memory, or after the
host has given up its copies. (Choices of the model that it uses: logs 16, 38, 47, 48, 86, 87 and 88.) -/
def Obligations.HostAccesses : Prop := ∀ (s b : State) (off line page : Nat) (bytes : List Byte) (exclusive : Bool) (d : LineData × Bool)
    (old : Nat) (c : CoreId) (f : Flip) (v : BitVec 64) (h : HomeLine),
  let say (u : State) (o : Out) : State := { u with out := o :: u.out }
  let mask := byteRange (off % 128) bytes.length
  let put := placeBytes (off % 128) bytes
  let read := HostReq.read off exclusive
  let write := HostReq.write off bytes
  let held (r : HostReq) : State := { s with hostReqs := [r] }
  let answered (u : State) (o : Out) : State := say { u with hostReqs := [] } o
  let alone : Prop := s.ready = true ∧ s.hostReqs = []
  let plain (t : State) : Prop := ∀ k < 128, mask.getLsbD k = true →
    (∃ x ∈ s.wrote, x.addr ≤ 128 * line + k ∧ 128 * line + k < x.addr + x.size) → 128 * line + k ∉ t.undef
  let free : Prop := s.flushing line = false ∧ ∀ r ∈ s.releasers, r.line ≠ line
  let mine := s.biFilter.filter (fun l => s.homeSlice l = s.homeSlice line)
  let idle : Prop := (s.dir line).holders = [] ∧ ∀ m ∈ s.msgs, m.line ≠ line
  let command (v : BitVec 64) : Prop := s.ready = true ∧ v.getLsbD 31 = true ∧ bitsAt 0 30 v.toNat = page ∧ (s.reg 0x1008).getLsbD 31 = false
  let word (dir go bias err : Nat) : BitVec 64 := BitVec.ofNat 64 (page + dir * 2 ^ 30 + go * 2 ^ 31 + bias * 2 ^ 32 + err * 2 ^ 33)
  let was := bitsAt 32 1 (s.reg 0x1008).toNat
  let flips (i : Instr) (dir : Nat) : Prop :=
    (hdmPages ≤ page → exec i s = .next (s.setReg 0x1008 (word dir 0 was 1))) ∧
    (page < hdmPages → (page ∈ s.hostPages ↔ dir = 1) → exec i s = .next (s.setReg 0x1008 (word dir 0 dir 0)))
  let ofPage := s.biFilter.filter (fun l => hdmPage l = some page)
  let asked : Prop := line ∈ s.biAsked ∨ line ∈ s.biDataAsked
  let told : State := { s with biFilter := s.biFilter.filter (· ≠ line), biAsked := s.biAsked.filter (· ≠ line), biDataAsked := s.biDataAsked.filter (· ≠ line) }
  let settledBias (t : State) (dir : Nat) : Prop := t.flip = none ∧ t.reg 0x1008 = word dir 0 dir 0 ∧ (page ∈ t.hostPages ↔ dir = 1) ∧
    (∀ p, p ≠ page → (p ∈ t.hostPages ↔ p ∈ s.hostPages)) ∧ t.mem = s.mem
  -- reads
  (s.ready = false → exec (.hostMemrd off exclusive) s = .next s ∧ exec (.hostMemwr off bytes) s = .next s ∧
    exec (.hostSnoop line exclusive) s = .next s ∧ exec (.biasFlipToHost v) s = .next s ∧ exec (.biasFlipToDevice v) s = .next s) ∧
  (alone → hostLine off = none → exec (.hostMemrd off exclusive) s = .next (say s (.memData off 0))) ∧
  (alone → hostLine off = some line → s.inHostBias line = true →
    (exclusive = false ∨ (∃ x, s.flip = some x ∧ hdmPage line = some x.page) →
      exec (.hostMemrd off exclusive) s = .next (say s (.memData off (s.blur line (s.homeData line).1)))) ∧
    (exclusive = true → s.flip = none → line ∈ s.biFilter ∨ mine.length < 16384 → exec (.hostMemrd off exclusive) s = .next
      (say { s with biFilter := line :: s.biFilter.filter (· ≠ line) } (.memData off (s.blur line (s.homeData line).1)))) ∧
    (exclusive = true → s.flip = none → line ∉ s.biFilter → 16384 ≤ mine.length → mine.getLast? = some old → old ∉ s.biAsked →
      exec (.hostMemrd off exclusive) s = .next (say { s with biAsked := old :: s.biAsked, hostReqs := [read] } (.biSnp old false)))) ∧
  (alone → hostLine off = some line → s.inHostBias line = false →
    (free → (held read).homeRead line = (b, some d) →
      exec (.hostMemrd off exclusive) s = .next (answered b (.memData off (b.blur line d.1)))) ∧
    (free → (held read).homeRead line = (b, none) → exec (.hostMemrd off exclusive) s = .next { b with hostReqs := [read] }) ∧
    (s.flushing line = false → (∃ r ∈ s.releasers, r.line = line ∧ (s.core r.core).dead = false) → ∃ t,
      exec (.hostMemrd off exclusive) s = .next t ∧ t.out = s.out ∧ t.mem = s.mem ∧ t.hostReqs = [read] ∧
        ∀ r ∈ t.releasers, r.line = line → r.draining = true)) ∧
  -- accesses of a line that wait stay in their order of arrival
  (s.ready = true → hostLine off = some line → s.inHostBias line = false → s.flushing line = true →
    (∀ r ∈ s.hostReqs, hostLine r.offset = some line) →
    exec (.hostMemrd off exclusive) s = .next { s with hostReqs := s.hostReqs ++ [read] } ∧
    (off % 128 + bytes.length ≤ 128 → exec (.hostMemwr off bytes) s = .next { s with hostReqs := s.hostReqs ++ [write] })) ∧
  -- writes
  (alone → off % 128 + bytes.length ≤ 128 →
    (hostLine off = none → exec (.hostMemwr off bytes) s = .next (say s (.memCmp off))) ∧
    (hostLine off = some line → s.inHostBias line = true → ∃ t, exec (.hostMemwr off bytes) s = .next t ∧ t.out = .memCmp off :: s.out ∧
      t.mem = memPutLine s.mem line (mergeLine (s.homeData line).1 put mask) allBytes ∧ t.clines = s.clines ∧ plain t ∧
      t.hostReqs = [] ∧ ∀ y ∈ t.homeLines, y.line ≠ line) ∧
    (hostLine off = some line → s.inHostBias line = false → free → (held write).homeOwn line = (b, false) →
      exec (.hostMemwr off bytes) s = .next { b with hostReqs := [write] }) ∧
    (hostLine off = some line → s.inHostBias line = false → free → (s.cline .home line).st = .M → ∃ t, exec (.hostMemwr off bytes) s = .next t ∧
      t.out = .memCmp off :: s.out ∧ t.mem = s.mem ∧ plain t ∧ t.hostReqs = [] ∧ (t.cline .home line).st = .M ∧
      (t.cline .home line).data = mergeLine (s.cline .home line).data put mask)) ∧
  -- snoops of tier 2
  (line / 2 ^ 45 ≠ 2 → exec (.hostSnoop line exclusive) s = .next s) ∧
  (s.ready = true → line / 2 ^ 45 = 2 →
    (idle → (∀ y ∈ s.homeLines, y.line ≠ line) → exec (.hostSnoop line exclusive) s = .next (say s (.snoopResp line none))) ∧
    (¬idle ∨ (∃ y ∈ s.homeLines, y.line = line) → exclusive = false → s.homeRead line = (b, some d) → exec (.hostSnoop line exclusive) s = .next (say b (.snoopResp line (some (b.blur line d.1))))) ∧
    ((s.dir line).holders ≠ [] → exclusive = true → (∀ y ∈ s.snoops, ¬(y.line = line ∧ y.freeing = true)) →
      exec (.hostSnoop line exclusive) s = .next (s.freeEntry line)) ∧
    (idle → exclusive = true → (∀ y ∈ s.snoops, ¬(y.line = line ∧ y.freeing = true)) → s.homeLines.find? (fun y => y.line = line) = some h →
      h.dirty = true → ∃ t, exec (.hostSnoop line exclusive) s = .next t ∧ t.out = .snoopResp line (some (s.blur line h.data)) :: s.out ∧
        (∀ y ∈ t.homeLines, y.line ≠ line) ∧ t.mem = memPutLine s.mem line h.data allBytes)) ∧
  -- bias
  (command v → v.getLsbD 30 = true → flips (.biasFlipToHost v) 1 ∧ (page < hdmPages → page ∉ s.hostPages → ∃ t,
    exec (.biasFlipToHost v) s = .next t ∧ t.reg 0x1008 = word 1 1 was 0 ∧ t.flip = some
      { page := page, toHost := true, cores := s.enabledCores, acks := s.enabledCores } ∧ t.hostPages = s.hostPages ∧ t.mem = s.mem)) ∧
  (command v → v.getLsbD 30 = false → flips (.biasFlipToDevice v) 0 ∧ (page < hdmPages → page ∈ s.hostPages →
    (s.hostMode 3 = true → ∃ t, exec (.biasFlipToDevice v) s = .next t ∧ settledBias t 0 ∧ ∀ l ∈ t.biFilter, hdmPage l ≠ some page) ∧
    (s.hostMode 3 = false → ofPage = [] → ∃ t, exec (.biasFlipToDevice v) s = .next t ∧ settledBias t 0) ∧
    (s.hostMode 3 = false → ofPage ≠ [] → ∃ t, exec (.biasFlipToDevice v) s = .next t ∧ t.reg 0x1008 = word 0 1 was 0 ∧ (∀ l ∈ ofPage, l ∈ t.biAsked ∧ (l ∉ s.biAsked → .biSnp l false ∈ t.out)) ∧
      t.hostPages = s.hostPages ∧ t.mem = s.mem))) ∧
  ((s.reg 0x1008).getLsbD 31 = true → exec (.biasFlipToHost v) s = .next s ∧ exec (.biasFlipToDevice v) s = .next s) ∧
  -- the flip's course
  (s.flip = none ∨ (∃ x, s.flip = some x ∧ c ∉ x.cores) → exec (.pageflush c) s = .next s) ∧
  (s.flip = some f → c ∈ f.cores → s.writeBackAll c (s.onPage f.page) = (b, true) → exec (.pageflush c) s = .next
    { b.dropCleanAll c (s.onPage f.page) with flip := some { f with cores := f.cores.erase c } }) ∧
  (s.flip = some f → c ∈ f.cores → s.writeBackAll c (s.onPage f.page) = (b, false) → exec (.pageflush c) s = .next b) ∧
  (s.flip = none ∨ (∃ x, s.flip = some x ∧ (x.toHost = false ∨ c ∈ x.cores)) → exec (.flushack c) s = .next s) ∧
  (s.flip = some f → f.toHost = true → c ∉ f.cores →
    (f.acks.erase c ≠ [] → exec (.flushack c) s = .next { s with flip := some { f with acks := f.acks.erase c } }) ∧
    (f.acks.erase c = [] → f.page = page → s.hostReqs = [] → (∀ l ∈ pageLines page, (s.dir l).holders = [] ∧ (∀ m ∈ s.msgs, m.line ≠ l) ∧
        (∀ y ∈ s.homeLines, y.line ≠ l) ∧ (∀ r ∈ s.releasers, r.line ≠ l) ∧ ∀ y ∈ s.snoops, y.line ≠ l) →
      ∃ t, exec (.flushack c) s = .next t ∧ settledBias t 1)) ∧
  -- back-invalidation
  (line ∈ s.biFilter → line ∉ s.biAsked →
    exec (.bisnpinv line) s = .next { s with biAsked := line :: s.biAsked, out := .biSnp line false :: s.out } ∧
    (line ∉ s.biDataAsked → exec (.bisnpdata line) s = .next { s with biDataAsked := line :: s.biDataAsked, out := .biSnp line true :: s.out }) ∧
    (line ∈ s.biDataAsked → exec (.bisnpdata line) s = .next s)) ∧
  (line ∉ s.biFilter ∨ line ∈ s.biAsked → exec (.bisnpinv line) s = .next s ∧ exec (.bisnpdata line) s = .next s) ∧
  (¬asked → exec (.birspi line) s = .next s) ∧
  (asked → s.flip = none ∨ (∃ x, s.flip = some x ∧ x.toHost = true) → exec (.birspi line) s = .next told) ∧
  (asked → s.flip = some f → f.toHost = false → f.page = page →
    ((∃ l ∈ ofPage, l ≠ line) → exec (.birspi line) s = .next told) ∧
    ((∀ l ∈ ofPage, l = line) → ∃ t, exec (.birspi line) s = .next t ∧ settledBias t 0 ∧ line ∉ t.biFilter))

/-- R195, R399 to R404, R406, R407, R410 to R412: a write of a management register takes its writable fields, and does nothing until
READY or at an offset that is not a register's; windows, table bases, the cap and the deadline keep to their limits; a period boundary
makes the allowances take effect within the cap; a report is written where its register says, with the measurements of this reset; a
reset leaves the module as bring-up does. (Choices of the model that it uses: logs 42, 75, 76, 85 and 93: GO of these registers reads 0
after each step, so that 0x1010 and 0x1018 take every write.) -/
def Obligations.ManagementRegisters : Prop := ∀ (s : State) (v : BitVec 64) (off p d j : Nat) (watts : List Nat),
  let n := v.toNat
  let only (i : Instr) (off : Nat) (x : Nat) : Prop := ∃ t, exec i s = .next t ∧ (t.reg off).toNat = x ∧
    (∀ o, o ≠ off → t.reg o = s.reg o) ∧ { t with regs := s.regs } = s
  let takes (off lo w : Nat) : Prop := only (.managementRegisterWrite off v) off (n / 2 ^ lo % 2 ^ w * 2 ^ lo)
  let x := s.slice d j
  let base := n % 2 ^ 10
  let size := n / 2 ^ 16 % 2 ^ 10
  let window (p : Nat) : Nat := 0x10000 + 0x1000 * p + 0xC0 + 8 * d
  let field (off lo w : Nat) : Nat := (s.reg off).toNat / 2 ^ lo % 2 ^ w
  let refused : Prop := 1023 < base + size ∨
    (∃ q < 16, q ≠ p ∧ 0 < size ∧ 0 < field (window q) 16 10 ∧ base < field (window q) 0 10 + field (window q) 16 10 ∧
      field (window q) 0 10 < base + size) ∨
    (¬((s.reg (window p)).toNat = base + size * 2 ^ 16) ∧ ∃ g ∈ s.groups, g.id.ctx ≠ 2 ^ 24 ∧ g.id.monitor = false ∧ g.id.part = p ∧ g.place.die = d)
  let cap := field 0x20 0 13
  let allowance (d : Nat) : Nat := field (0x100 + 8 * d) 0 13
  let sum := ((List.range 9).map allowance).foldl (· + ·) 0
  let period (P : List Nat → Prop) : Prop := ∃ t, exec (.powerPeriod watts) s = .next t ∧ P (t.power.map (·.1)) ∧
    (∀ d < 9, t.power[d]?.map (·.2) = (t.power[d]?.map (·.1)).map (s.coreShare d)) ∧
    (t.reg 0x20).toNat = cap + min 8191 (watts.foldl (· + ·) 0) * 2 ^ 16 ∧ (∀ o, o ≠ 0x20 → t.reg o = s.reg o) ∧
    { t with power := s.power, regs := s.regs } = s
  let tier := n / 2 ^ 52 % 4
  let addr := n / 2 ^ 8 % 2 ^ 44 * 2 ^ 8
  let allowed : Prop := tier = 2 ∨ (tier = 0 ∧ addr + 29936 ≤ Config.reservedBase)
  let up (i : Instr) : Prop := ∃ t, exec i s = .next t ∧ t.resets = s.resets + 1 ∧ t.clines = [] ∧ t.cores = [] ∧ t.homeLines = [] ∧ t.msgs = [] ∧
    t.dirs = [] ∧ t.hostPages = [] ∧ t.grids = [] ∧ t.teams = [] ∧ t.chip = [] ∧ t.g = .blank ∧ (∀ o, o ≠ 0 → t.reg o = regReset o) ∧
    (∀ a < 2 * 2 ^ 52, memGet t.mem a = 0) ∧ (s.mem.wf = true → ∀ a, 2 * 2 ^ 52 ≤ a → memGet t.mem a = memGet s.mem a) ∧
    (s.flash.firmwareOk = false → (t.reg 0).toNat = 2 ^ 2 + 1 * 2 ^ 8 ∧ t.gs = []) ∧
    (s.flash.firmwareOk = true → s.flash.accepted = false → (t.reg 0).toNat = 2 + 2 * 2 ^ 8 ∧ t.gs = []) ∧
    (s.flash.firmwareOk = true → s.flash.accepted = true → (t.reg 0).toNat = 1 + 10 * 2 ^ 8 ∧ t.gs.length = 9 ∧
      ∀ d < 9, ∃ g ∈ t.gs, g.id.ctx = 0xFFFF00 + d ∧ g.id.monitor = true ∧ g.place.die = d ∧ g.status = .resident)
  -- the registers
  (s.ready = false ∨ off % 8 ≠ 0 → exec (.managementRegisterWrite off v) s = .next s) ∧
  (s.ready = true → takes 0x10 0 7 ∧ takes 0x28 12 40 ∧ takes 0x1010 0 54 ∧ takes 0x1018 0 17 ∧
    (j < 9 → takes (0x100 + 8 * j) 0 13) ∧ (j < 4 → takes (0x200 + 8 * j) 0 64) ∧
    (p < 16 → let block := 0x10000 + 0x1000 * p
      (j < 9 → takes (block + 16 * j) 0 64 ∧ takes (block + 16 * j + 8) 0 36) ∧ takes (block + 0x90) 0 42 ∧ takes (block + 0xA0) 0 1 ∧
      only (.managementRegisterWrite (block + 0x98) v) (block + 0x98) (n % 4 + n / 2 ^ 17 % 2 ^ 35 * 2 ^ 17 + n / 2 ^ 63 * 2 ^ 63) ∧
      takes (block + 0x110) 0 52 ∧ takes (block + 0x118) 0 52)) ∧
  (∀ o ∈ [0, 0x18, 0x30, 0x60, 0x148, 0x228, 0x2010, 0x3800, 0x20120, 0x20680, 0x140000], exec (.managementRegisterWrite o v) s = .next s) ∧
  -- one register, one behaviour
  (s.ready = true → (j < 36 → exec (.managementRegisterWrite (0x20000 + 8 * j) v) s = exec (.portStatusWrite j v) s) ∧
    (j < 256 → exec (.managementRegisterWrite (0x3000 + 8 * j) v) s = exec (.lostHomeTableWrite j v) s) ∧
    (p < 8192 → j < 4 → exec (.managementRegisterWrite (0x100000 + 32 * p + 8 * j) v) s = exec (.workQueueWrite p j v) s)) ∧
  (s.ready = true → d < 9 → j < 16 → n / 2 ^ 32 % 2 = 0 → x.cecnt < 65536 →
    (n % 2 ^ 16 = 0 → ∃ t, exec (.managementRegisterWrite (0x20200 + 8 * (16 * d + j)) v) s = .next t ∧
      t.slice d j = { x with cethr := n / 2 ^ 16 % 2 ^ 16 } ∧ { t with slices := s.slices } = s) ∧
    (n % 2 ^ 16 = 65535 → ∃ t, exec (.managementRegisterWrite (0x20200 + 8 * (16 * d + j)) v) s = .next t ∧
      t.slice d j = { x with cecnt := 0, cethr := n / 2 ^ 16 % 2 ^ 16 } ∧ { t with slices := s.slices } = s)) ∧
  -- dispatch control, fabric bases, chip windows, power
  (s.ready = true → only (.dispatchControlWrite v) 0x1000 (n % 8 + max 1024 (n / 2 ^ 8 % 2 ^ 24) * 2 ^ 8)) ∧
  (s.ready = true → (n / 2 ^ 21 % 2 ^ 31 * 2 ^ 21 + 2 ^ 21 ≤ Config.reservedBase →
      only (.fabricBaseWrite false v) 0x2000 (n / 2 ^ 21 % 2 ^ 31 * 2 ^ 21 + n % 2)) ∧
    (Config.reservedBase < n / 2 ^ 21 % 2 ^ 31 * 2 ^ 21 + 2 ^ 21 → exec (.fabricBaseWrite false v) s = .next s) ∧
    (n / 2 ^ 22 % 2 ^ 30 * 2 ^ 22 + 2 ^ 22 ≤ Config.reservedBase → only (.fabricBaseWrite true v) 0x2008 (n / 2 ^ 22 % 2 ^ 30 * 2 ^ 22 + n % 2)) ∧
    (Config.reservedBase < n / 2 ^ 22 % 2 ^ 30 * 2 ^ 22 + 2 ^ 22 → exec (.fabricBaseWrite true v) s = .next s)) ∧
  (s.ready = true → p < 16 → d < 9 → (refused → exec (.chipWindowWrite p d v) s = .next s) ∧
    (¬refused → only (.chipWindowWrite p d v) (window p) (base + size * 2 ^ 16))) ∧
  (s.ready = true → only (.powerWrite v) 0x20 (min 5000 (max 1000 (n % 2 ^ 13)) + field 0x20 16 13 * 2 ^ 16)) ∧
  (s.ready = true → (s.hostMode 5 = true → sum ≤ cap → period (fun l => l = (List.range 9).map allowance)) ∧
    (s.hostMode 5 = true → cap < sum → period (fun l => l = (List.range 9).map (fun d => allowance d * cap / sum))) ∧
    (s.hostMode 5 = false → period (fun l => l.length = 9 ∧ l.foldl (· + ·) 0 ≤ cap))) ∧
  (s.ready = false → exec (.powerPeriod watts) s = .next s ∧ exec (.powerWrite v) s = .next s ∧ exec (.attestation v) s = .next s ∧
    exec (.reset v) s = .next s ∧ exec (.dispatchControlWrite v) s = .next s) ∧
  -- attestation
  (s.ready = true → (¬allowed → exec (.attestation v) s = .next s) ∧
    (allowed → n / 2 ^ 63 = 0 → only (.attestation v) 0x220 (addr + tier * 2 ^ 52)) ∧
    (allowed → n / 2 ^ 63 = 1 → ∃ t : State, exec (.attestation v) s = .next (t.physWrite (addr + tier * 2 ^ 52) t.report) ∧
      (t.reg 0x220).toNat = addr + tier * 2 ^ 52 ∧ (∀ o, o ≠ 0x220 → t.reg o = s.reg o) ∧ { t with regs := s.regs } = s ∧
      t.report.length = 29936 ∧ leNat (t.report.take 8) = 1 ∧
      (∀ i < 4, leNat ((t.report.drop (8 + 8 * i)).take 8) = (s.reg (0x200 + 8 * i)).toNat) ∧
      leNat ((t.report.drop 0x88).take 8) = s.resets % 2 ^ 64 ∧
      ∀ u : State, u.resets = s.resets → (u.report.drop 0x28).take 96 = (t.report.drop 0x28).take 96)) ∧
  -- reset and power-on
  (s.ready = true → (v.getLsbD 0 = true → up (.reset v)) ∧ (v.getLsbD 0 = false → exec (.reset v) s = .next s)) ∧ up .powerOn

/-- R203, R333, R360, R375, R391, R402, R405: a context request saves, resumes or kills the cluster of the context it names, or sets
ERR; the host's reply restarts or faults a waiting group, lets a replayed entry or a parked request go on, or refuses it; a migration
command makes a saved name moving, or admits one, and a refused command changes nothing but its error code. (Choices of the model that
it uses: logs 33, 35, 37 and 93.) -/
def Obligations.HostCommands : Prop := ∀ (s : State) (part ctx e slot gen : Nat) (v : BitVec 64) (f : FaultRec) (x : Entry) (q : Parked) (at_ : NameAt)
    (p : Peg) (o : OwnRequest),
  let g := s.group ctx
  let off := 0x10000 + 0x1000 * part + 0xA8
  let here : Prop := s.ready = true ∧ part < 16 ∧ ctx < 2 ^ 24
  let free : Prop := here ∧ s.requestBusy part = false
  let known : Prop := s.has ctx = true ∧ g.id.monitor = false ∧ g.id.part = part
  let cluster (h : Group) : Bool := h.inCluster g.id.launch g.id.cluster
  let only (i : Instr) (off : Nat) (w : Nat) : Prop :=
    ∃ t, exec i s = .next t ∧ (t.reg off).toNat = w ∧ (∀ o, o ≠ off → t.reg o = s.reg o) ∧ { t with regs := s.regs } = s
  let word (act err go : Nat) : Nat := ctx + act * 2 ^ 24 + err * 2 ^ 62 + go * 2 ^ 63
  let told (t : State) (act : Nat) : Prop := (t.reg off).toNat = word act 0 0
  let waits (src : FaultSource) : Prop := here ∧ known ∧ s.entryWaits part ctx src = false
  let resume := Instr.faultReplyResume part ctx
  let refuse := Instr.faultReplyRefuse part ctx
  let parks : Prop := here ∧ s.entryWaits part ctx (.parked q.req.tag) = false ∧ s.has ctx = false ∧ s.parked = [q] ∧ q.assisted = true ∧ q.req.part = part ∧ tagCtx q.req.tag = ctx
  let n := v.toNat
  let named : Prop := s.regField 0x1010 0 20 = slot ∧ s.regField 0x1010 20 16 = gen
  let own : Prop := s.regField 0x1010 36 18 = s.package
  let go (op : Nat) : Prop := s.ready = true ∧ v.getLsbD 63 = true ∧ n % 4 = op
  let peg : Option Peg := s.pegs.find? (fun p => p.slot = slot && p.gen = gen && p.st ≠ 0)
  let m := s.group p.ctx
  let command (err : Nat) : Nat := n % 2 ^ 48 + err * 2 ^ 57
  -- context requests
  (here → s.requestBusy part = true → exec (.contextSave part ctx) s = .next s ∧ exec (.contextResume part ctx) s = .next s ∧
    exec (.contextKill part ctx) s = .next s) ∧
  (free → known → g.status = .resident → ∃ t, exec (.contextSave part ctx) s = .next t ∧ (t.mgmtRead off).toNat = word 0 0 1 ∧ t.mem = s.mem ∧
    t.saveAsked = s.saveAsked ++ [{ part := part, launch := g.id.launch, cluster := g.id.cluster }] ∧ t.groups = s.groups.map (fun h => if cluster h && h.status = .resident then
      (if h.request then { h with hostSave := true }
       else { h with request := true, deadline := s.time + s.regField 0x1000 8 24, hostSave := true })
      else if cluster h && h.status = .saved then { h with hostSave := true } else h)) ∧
  (free → ¬(known ∧ g.status = .resident) → only (.contextSave part ctx) off (word 0 1 0)) ∧
  (free → known → g.status = .saved → g.saving = false → g.restoring = false → (s.clusterAt g.id.launch g.id.cluster).state = .saved → ∃ t,
    exec (.contextResume part ctx) s = .next t ∧ told t 1 ∧ t.mem = s.mem ∧
    (∀ h ∈ t.groups, cluster h = true → h.status = .saved → h.saving = false → h.hostSave = false) ∧
    t.clusters = modifyFirst (fun c => c.launch = g.id.launch && c.cluster = g.id.cluster) (fun c => { c with candidate := true }) s.clusters) ∧
  (free → ¬(known ∧ g.status = .saved ∧ g.saving = false ∧ g.restoring = false) → only (.contextResume part ctx) off (word 1 1 0)) ∧
  (free → known → g.status = .resident ∨ g.status = .saved → ∃ t, exec (.contextKill part ctx) s = .next t ∧ told t 2 ∧
    (∀ h ∈ t.groups, cluster h = false) ∧ ∃ y ∈ t.events, y.kind = 3 ∧ y.launch = g.id.launch ∧
      y.info = BitVec.ofNat 64 (g.id.cluster + 9 * 2 ^ 32)) ∧
  (free → ¬(known ∧ (g.status = .resident ∨ g.status = .saved)) → only (.contextKill part ctx) off (word 2 1 0)) ∧
  -- fault replies
  (here → (known → (∀ y, g.pending = .host y → s.entryWaits part ctx .group = true) ∧
      ∀ y ∈ g.entries, y.hostWait = true → s.entryWaits part ctx (.entry y.id) = true) →
    (∀ y ∈ s.parked, y.assisted = true → y.req.part = part → y.ctx = ctx → s.entryWaits part ctx (.parked y.req.tag) = true) →
    g.id.monitor = false → exec resume s = .next s ∧ exec refuse s = .next s) ∧
  (waits .group → g.pending = .host f → g.status = .resident →
    exec resume s = .next (s.onCtx ctx (fun a => { a with g := { a.g.stopRun with pending := .none, pc := a.g.regionPc } })) ∧
    exec refuse s = .next (s.onCtx ctx (fun a => State.deliver f a.g.pc { a with g := { a.g with pending := .none } }))) ∧
  (waits .group → g.pending = .host f → g.status = .saved → exec refuse s = .next
    (s.onCtx ctx (fun a => { a with g := { a.g with pending := .none, boundaryFaults := a.g.boundaryFaults ++ [f] } }))) ∧
  (waits (.entry x.id) → (∀ y, g.pending ≠ .host y) → g.entries.find? (fun y => y.hostWait) = some x → x.cls = .c → ∀ z r,
    s.works.find? (fun y => y.ctx = ctx && y.entry = x.id) = some z → z.held = some r →
    let u := s.putEntry ctx { x with hostWait := false }
    exec resume s = .next (u.putWork { z with held := none }) ∧ exec refuse s = .next (u.abandonWork z r)) ∧
  (waits (.entry x.id) → (∀ y, g.pending ≠ .host y) → g.entries.find? (fun y => y.hostWait) = some x → x.cls ≠ .c →
    (g.status ≠ .saved → exec resume s = .next (s.recheck ctx { x with hostWait := false })) ∧ (g.status = .saved → exec resume s = .next s) ∧ exec refuse s = .next (s.killCtx ctx 8)) ∧
  (parks → q.own = none → exec refuse s = .next (State.answer q.req q.cause [BitVec.ofNat 128 q.extra] { s with parked := [] })) ∧
  (parks → q.own = none → ∀ l u, s.walkPeer q.req = .ok l → s.servePeer q.req l = (u, true) →
    exec resume s = .next { u with parked := u.parked.eraseIdx 0 }) ∧
  (parks → q.own = none → s.faultsFull = false → ∀ h a, s.walkPeer q.req = .error (h, a) →
    exec resume s = .next (State.parkAs true q.req h a none { s with parked := [] })) ∧
  (here → s.entryWaits part ctx (.parked q.req.tag) = false → s.has ctx = true → (∀ y, g.pending ≠ .host y) → (∀ y ∈ g.entries, y.hostWait = false) →
    s.parked = [q] → q.assisted = true → q.req.part = part → q.own = some o → o.ctx = ctx → ∀ l, s.walkPeer q.req = .ok l → exec resume s = .next { s with parked := [] }) ∧
  -- migration
  (s.ready = false ∨ v.getLsbD 63 = false → exec (.migrate v) s = .next s ∧ exec (.admitName v) s = .next s) ∧
  (go 1 → s.migrateName = .error e → e < 16 → only (.migrate v) 0x1020 (command e)) ∧
  (named → own →
    (peg = none → s.migrateName = .error 1) ∧ (peg = some p → p.st = 4 → s.migrateName = .error 5) ∧
    (peg = some p → p.st ≠ 4 → p.st ≠ 2 ∨ p.rst = true → s.migrateName = .error 2) ∧
    (peg = some p → p.st = 2 → p.rst = false → m.saving = true ∨ (s.clusterAt m.id.launch m.id.cluster).state ≠ .saved → s.migrateName = .error 5) ∧
    (peg = some p → p.st = 2 → p.rst = false → m.saving = false → (s.clusterAt m.id.launch m.id.cluster).state = .saved →
      ((∃ y ∈ m.recordEntries, y.cls ≠ .i) → s.migrateName = .error 3) ∧
      ((∀ y ∈ m.recordEntries, y.cls = .i) → s.migrateName = .ok (.own, p)))) ∧
  (go 1 → s.migrateName = .ok (at_, p) → at_ = .own → ∃ t, exec (.migrate v) s = .next t ∧ (t.reg 0x1020).toNat = command 0 ∧
    t.pegs = (s.setPeg { p with st := 3, fwd := n / 4 % 2 ^ 18 }).pegs ∧ t.mem = s.mem ∧ t.groups = s.groups ∧
    t.clusters = modifyFirst (fun c => c.launch = m.id.launch && c.cluster = m.id.cluster) (fun c => { c with candidate := false }) s.clusters) ∧
  (go 2 → let package := s.regField 0x1010 36 18
    let dest := n / 2 ^ 44 % 16
    named → ((s.comesBack package slot gen).1.admitError package slot gen dest (n / 2 ^ 20 % 2 ^ 24) = e →
      (e ≠ 0 → e ≠ 4 → only (.admitName v) 0x1020 (command e)) ∧
      (e = 0 → (∀ b y, s.nameEntry package slot gen = some (b, y) → y.st ≠ 3) → (s.vaddrs dest .write 4 (s.regField (0x10000 + 0x1000 * dest + 0x110) 16 36 * 65536 + 49152 * (n / 2 ^ 20 % 2 ^ 24) + 0x28)).isSome →
        ∃ t, exec (.admitName v) s = .next t ∧ (t.reg 0x1020).toNat = command 0 ∧ t.has (n / 2 ^ 20 % 2 ^ 24) = true ∧
        (¬own → t.guests = s.guests ++ [{ package := package, peg :=
          { slot := slot, gen := gen, st := 2, part := n / 2 ^ 44 % 16, ctx := n / 2 ^ 20 % 2 ^ 24 } }] ∧ t.pegs = s.pegs))))

/-- R325, R341, R342: a die's monitor answers the message at its inbound head: with status 1 for a command it does not know or that
cannot be done and 2 for an unknown context; a suspend is answered once the context is saved, a resume makes it a candidate, images and
memory are read and written; the reply stands at the outbound tail. The host writes its own parts of the mailbox. (Choices of the model
that it uses: logs 79 and 80.) -/
def Obligations.MonitorService : Prop := ∀ (s b : State) (die : Nat) (mon g : Group) (raw bytes : List Byte) (off : Nat) (i : Instr),
  let all := [Instr.monitorSuspend die, .monitorResume die, .readImage die, .writeImage die, .readMemory die, .writeMemory die]
  let m := messageOf raw
  let asked : Prop := s.monitorOf die = some mon ∧ s.nextMail die = some raw ∧ s.mailRoom die = true
  let does (n : Nat) : Prop := asked ∧ m.command = n ∧ m.length ≤ 32
  let answers (i : Instr) (u : State) (status : Nat) (data : List Byte) : Prop :=
    exec i s = .next (State.sendMail die (m.reply status data) (State.takeMail die u))
  let moves : Prop := g.saving = true ∨ g.restoring = true
  let live : Prop := s.liveContext m.arg1 = some g
  let image := s.imageAddr g + m.arg2
  let reply (status : Nat) (data : List Byte) : State := State.sendMail die (m.reply status data) (State.takeMail die s)
  let head := s.mailPointer die 0
  let tail := s.mailPointer die 0x18
  let mine : Bool := (8 ≤ off && off + bytes.length ≤ 0x18) || (0x40 ≤ off && off + bytes.length ≤ 0x40 + 32704)
  -- what is not served
  (s.monitorOf die = none ∨ s.nextMail die = none ∨ s.mailRoom die = false → ∀ i ∈ all, exec i s = .next s) ∧
  (asked → m.command = 0 ∨ 6 < m.command → ∀ i ∈ all, answers i s 1 []) ∧
  (asked → all[m.command - 1]? = some i → 0 < m.command → 32 < m.length → answers i s 1 []) ∧
  (asked → 0 < m.command → m.command ≤ 6 → i ∈ all → all[m.command - 1]? ≠ some i → exec i s = .next s) ∧
  (s.liveContext m.arg1 = none → (does 1 → answers (.monitorSuspend die) s 2 []) ∧ (does 2 → answers (.monitorResume die) s 2 []) ∧
    (does 3 → answers (.readImage die) s 2 []) ∧ (does 4 → answers (.writeImage die) s 2 [])) ∧
  -- suspend and resume
  (does 1 → live → g.id.monitor = false →
    (g.status = .resident → ∃ t, exec (.monitorSuspend die) s = .next t ∧ t.mem = s.mem ∧ t.chip = s.chip ∧
      t.groups = s.groups.map (fun h => if h.id.ctx = g.id.ctx ∧ h.status = .resident then
        (if h.request then { h with hostSave := true }
         else { h with request := true, deadline := s.time + s.regField 0x1000 8 24, hostSave := true }) else h)) ∧
    (g.status = .saved → moves → exec (.monitorSuspend die) s = .next s) ∧
    (g.status = .saved → ¬moves → answers (.monitorSuspend die) s 0 [])) ∧
  (does 2 → live →
    (g.status ≠ .saved ∨ moves → answers (.monitorResume die) s 1 []) ∧
    (g.status = .saved → ¬moves → g.id.monitor = false →
      answers (.monitorResume die) (s.resumeContext g) 0 []) ∧
    (g.status = .saved → ¬moves → g.id.monitor = true → ∃ t, exec (.monitorResume die) s = .next t ∧
      (t.group g.id.ctx).status = .resident)) ∧
  -- images
  (does 3 → live → g.id.monitor = false →
    (49152 < m.arg2 + m.length → answers (.readImage die) s 1 []) ∧
    (m.arg2 + m.length ≤ 49152 → ∀ data, s.coreRead mon.core g.id.part image m.length = some data → answers (.readImage die) s 0 data)) ∧
  (does 4 → live → g.id.monitor = false →
    (g.status ≠ .saved ∨ moves → answers (.writeImage die) s 1 []) ∧
    ((∃ k < m.length, m.arg2 + k < 8 ∨ (0x24 ≤ m.arg2 + k ∧ m.arg2 + k < 0x40) ∨ (0x80 ≤ m.arg2 + k ∧ m.arg2 + k < 0x100) ∨
        (0x446 ≤ m.arg2 + k ∧ m.arg2 + k < 0x480) ∨ (0x780 ≤ m.arg2 + k ∧ m.arg2 + k < 0x880) ∨ (0x8A0 ≤ m.arg2 + k ∧ m.arg2 + k < 0x4000) ∨ 0xC000 ≤ m.arg2 + k) →
      answers (.writeImage die) s 1 []) ∧
    (g.status = .saved → ¬moves → (∀ k < m.length, imageWritable (m.arg2 + k) = true) →
      s.virtWrite (some mon.core) g.id.part image (m.data.take m.length) = some b → answers (.writeImage die) b 0 [])) ∧
  -- memory
  (does 5 → (2 ^ 52 < m.arg2 + m.length ∨ s.coreRead mon.core (m.arg1 % 16) m.arg2 m.length = none →
      answers (.readMemory die) s 1 []) ∧
    (m.arg2 + m.length ≤ 2 ^ 52 → ∀ data, s.coreRead mon.core (m.arg1 % 16) m.arg2 m.length = some data →
      answers (.readMemory die) s 0 data)) ∧
  (does 6 → (2 ^ 52 < m.arg2 + m.length → answers (.writeMemory die) s 1 []) ∧
    (m.arg2 + m.length ≤ 2 ^ 52 → s.releaseLines mon.core 3 0xFF = (b, false) → exec (.writeMemory die) s = .next b) ∧
    (m.arg2 + m.length ≤ 2 ^ 52 → s.releaseLines mon.core 3 0xFF = (b, true) →
      (b.virtWrite (some mon.core) (m.arg1 % 16) m.arg2 (m.data.take m.length) = none → answers (.writeMemory die) b 1 []) ∧
      ∀ u, b.virtWrite (some mon.core) (m.arg1 % 16) m.arg2 (m.data.take m.length) = some u → answers (.writeMemory die) u 0 [])) ∧
  -- the mailbox
  (s.chip.wf = true → ∀ status data, data.length ≤ 32 → let t := reply status data
    t.mailPointer die 0 = (head + 1) % 2 ^ 64 ∧ t.mailPointer die 0x18 = (tail + 1) % 2 ^ 64 ∧
    memRead t.chip (mailbox die + 0x8000 + 64 * (tail % 511)) 64 = m.reply status data ∧ (m.reply status data).length = 64 ∧
    leNat ((m.reply status data).take 2) = m.command % 2 ^ 16 ∧ leNat (((m.reply status data).drop 4).take 2) = status % 2 ^ 16 ∧
    ((m.reply status data).drop 0x18).take data.length = data) ∧
  (s.ready = false ∨ 9 ≤ die ∨ mine = false → exec (.hostMailboxWrite die off bytes) s = .next s) ∧
  (s.chip.wf = true → s.ready = true → die < 9 → mine = true → ∃ t, exec (.hostMailboxWrite die off bytes) s = .next t ∧
    memRead t.chip (mailbox die + off) bytes.length = bytes ∧
    (∀ a, a < mailbox die + off ∨ mailbox die + off + bytes.length ≤ a → memGet t.chip a = memGet s.chip a) ∧ { t with chip := s.chip } = s)
end

