-- ==== Sys2Proof/Laws/Bank.lean ====
section
/-! SUPPORT. Banks of registers: what a read gives after a write, for `rd` and `wr` and for each register file of a group. -/
namespace Sys2Proof.Machine
open Sys2Proof

theorem rd_eq {α : Type} {n : Nat} (d : α) (v : Vector α n) (i : Nat) : rd d v i = v[i]?.getD d := by
  unfold rd Vector.getD
  by_cases h : i < n <;> simp [Array.getD, h]

theorem rd_wr {α : Type} {n : Nat} (d : α) (v : Vector α n) (i j : Nat) (a : α) :
    rd d (wr v i a) j = if j = i ∧ i < n then a else rd d v j := by
  simp only [rd_eq, wr, Vector.getElem?_setIfInBounds]
  by_cases hij : i = j
  · subst hij
    by_cases h : i < n <;> simp [h]
  · simp [hij, Ne.symm hij]

theorem rd_ofFn {α : Type} {n : Nat} (d : α) (f : Fin n → α) (j : Nat) :
    rd d (Vector.ofFn f) j = if h : j < n then f ⟨j, h⟩ else d := by
  by_cases hj : j < n <;> simp [rd_eq, hj]

theorem rd_replicate {α : Type} {n : Nat} (d a : α) (j : Nat) :
    rd d (Vector.replicate n a) j = if j < n then a else d := by
  by_cases hj : j < n <;> simp [rd_eq, hj]

theorem Group.readV_writeVMask (g : Group) (n : Nat) (m : Mask) (f : Nat → Lane32) (j l : Nat) (hj : j < 256) (hl : l < 32) :
    (g.writeVMask n m f).readV j l = if j = n ∧ m.getLsbD l = true then f l else g.readV j l := by
  unfold Group.writeVMask Group.readV
  simp only [rd_wr]
  by_cases h : j = n
  · subst h
    simp [hj, putLanes, rd_ofFn, hl]
  · simp [h]

theorem Group.readS_writeS (g : Group) (n j : Nat) (a : Word64) (hn : n < 64) :
    (g.writeS n a).readS j = if j = n then a else g.readS j := by
  unfold Group.writeS
  split
  · next hb =>
    unfold Group.readS
    by_cases hj : 0 < g.depth ∧ j < 8
    · simp [hj, rd_wr, hb.2]
    · have hjn : j ≠ n := by rintro rfl; exact hj hb
      rw [if_neg hj, if_neg hj, if_neg hjn]
  · next hb =>
    unfold Group.readS
    by_cases hj : 0 < g.depth ∧ j < 8
    · have hjn : j ≠ n := by rintro rfl; exact hb hj
      rw [if_pos hj, if_pos hj, if_neg hjn]
    · rw [if_neg hj, if_neg hj]
      simp [rd_wr, hn]

theorem Group.readK_writeK (g : Group) (n j : Nat) (a : Mask) (hn : n < 16) :
    (g.writeK n a).readK j = if j = n ∧ n ≠ 0 then a else g.readK j := by
  unfold Group.writeK Group.readK
  by_cases h0 : n = 0
  · simp [h0]
  · by_cases hj : j = 0
    · have : j ≠ n := by omega
      simp [h0, hj, Ne.symm h0]
    · simp [h0, hj, rd_wr, hn]

theorem Group.readP_writeP (g : Group) (n j : Nat) (a : Ptr) (hn : n < 16) :
    (g.writeP n a).readP j = if j = n then a else g.readP j := by
  simp [Group.writeP, Group.readP, rd_wr, hn]

theorem Group.readX_writeX (g : Group) (n j : Nat) (a : BitVec 16) (hn : n < 4) :
    (g.writeX n a).readX j = if j = n ∧ n ≠ 0 then a.toNat else g.readX j := by
  unfold Group.writeX Group.readX
  by_cases h0 : n = 0
  · simp [h0]
  · by_cases hj : j = 0
    · simp [h0, hj, Ne.symm h0]
    · simp only [h0, hj, if_false, rd_wr, hn, and_true, ne_eq, not_false_eq_true]
      split <;> rfl

end Sys2Proof.Machine
end

