-- ==== Sys2Proof/Laws/Host.lean ====
section
/-! SUPPORT. The host attach: what a back-invalidate snoop can do, and the order of the host accesses that wait. -/
namespace Sys2Proof.Machine
open Sys2Proof

/-- A back-invalidate snoop changes nothing, or notes and sends one of the two kinds. -/
theorem State.biSnoop_cases (line : Nat) (data : Bool) (s : State) :
    s.biSnoop line data = s ∨
    (line ∈ s.biFilter ∧ line ∉ s.biAsked ∧ line ∉ s.biDataAsked ∧ data = true ∧
      s.biSnoop line data = { s with biDataAsked := line :: s.biDataAsked, out := .biSnp line true :: s.out }) ∨
    (line ∈ s.biFilter ∧ line ∉ s.biAsked ∧ data = false ∧
      s.biSnoop line data = { s with biAsked := line :: s.biAsked, out := .biSnp line false :: s.out }) := by
  unfold State.biSnoop
  split
  · exact .inl rfl
  · next h =>
    simp only [Bool.or_eq_true, Bool.not_eq_true', Bool.and_eq_true, List.contains_iff_mem, not_or, not_and,
      Bool.not_eq_false] at h
    split
    · next d => exact .inr (.inl ⟨by simpa using h.1.1, h.1.2, h.2 d, d, rfl⟩)
    · next d => exact .inr (.inr ⟨by simpa using h.1.1, h.1.2, by simpa using d, rfl⟩)

@[simp] theorem State.biSnoop_mem (line : Nat) (data : Bool) (s : State) : (s.biSnoop line data).mem = s.mem := by
  rcases s.biSnoop_cases line data with h | ⟨_, _, _, _, h⟩ | ⟨_, _, _, h⟩ <;> rw [h]

@[simp] theorem State.biSnoop_biFilter (line : Nat) (data : Bool) (s : State) : (s.biSnoop line data).biFilter = s.biFilter := by
  rcases s.biSnoop_cases line data with h | ⟨_, _, _, _, h⟩ | ⟨_, _, _, h⟩ <;> rw [h]

@[simp] theorem State.biSnoop_hostPages (line : Nat) (data : Bool) (s : State) : (s.biSnoop line data).hostPages = s.hostPages := by
  rcases s.biSnoop_cases line data with h | ⟨_, _, _, _, h⟩ | ⟨_, _, _, h⟩ <;> rw [h]

/-- Accesses of lines for which an older one waits all go on waiting, in their order (R382). -/
theorem State.serveHost_blocked : ∀ (l : List HostReq) (blocked : List (Option Nat)) (s : State),
    (∀ r ∈ l, hostLine r.offset ∈ blocked) → State.serveHost l blocked s = (s, l)
  | [], _, _, _ => rfl
  | r :: rest, blocked, s, h => by
    have i := serveHost_blocked rest blocked s (fun x m => h x (List.mem_cons_of_mem _ m))
    simp only [State.serveHost, List.contains_iff_mem, h r List.mem_cons_self, if_true, i]

/-- With no host access waiting nothing is tried. -/
theorem State.retryHost_none {s : State} (h : s.hostReqs = []) : s.retryHost = s := by
  unfold State.retryHost
  simp [h]

end Sys2Proof.Machine
end

