-- ==== Sys2Proof/Laws/State.lean ====
section
/-! SUPPORT. What each update of a group and of the state leaves unchanged, field by field, for `simp`. -/
namespace Sys2Proof.Machine
open Sys2Proof

variable (g : Group) (s : State)

@[simp] theorem Group.writeVMask_id (n : Nat) (m : Mask) (f : Nat → Lane32) : (g.writeVMask n m f).id = g.id := rfl
@[simp] theorem Group.writeVMask_place (n : Nat) (m : Mask) (f : Nat → Lane32) : (g.writeVMask n m f).place = g.place := rfl
@[simp] theorem Group.writeVMask_status (n : Nat) (m : Mask) (f : Nat → Lane32) : (g.writeVMask n m f).status = g.status := rfl
@[simp] theorem Group.writeVMask_alloc (n : Nat) (m : Mask) (f : Nat → Lane32) : (g.writeVMask n m f).alloc = g.alloc := rfl
@[simp] theorem Group.writeVMask_s (n : Nat) (m : Mask) (f : Nat → Lane32) : (g.writeVMask n m f).s = g.s := rfl
@[simp] theorem Group.writeVMask_hs (n : Nat) (m : Mask) (f : Nat → Lane32) : (g.writeVMask n m f).hs = g.hs := rfl
@[simp] theorem Group.writeVMask_p (n : Nat) (m : Mask) (f : Nat → Lane32) : (g.writeVMask n m f).p = g.p := rfl
@[simp] theorem Group.writeVMask_k (n : Nat) (m : Mask) (f : Nat → Lane32) : (g.writeVMask n m f).k = g.k := rfl
@[simp] theorem Group.writeVMask_x (n : Nat) (m : Mask) (f : Nat → Lane32) : (g.writeVMask n m f).x = g.x := rfl
@[simp] theorem Group.writeVMask_fmt (n : Nat) (m : Mask) (f : Nat → Lane32) : (g.writeVMask n m f).fmt = g.fmt := rfl
@[simp] theorem Group.writeVMask_flags (n : Nat) (m : Mask) (f : Nat → Lane32) : (g.writeVMask n m f).flags = g.flags := rfl
@[simp] theorem Group.writeVMask_pc (n : Nat) (m : Mask) (f : Nat → Lane32) : (g.writeVMask n m f).pc = g.pc := rfl
@[simp] theorem Group.writeVMask_regionPc (n : Nat) (m : Mask) (f : Nat → Lane32) : (g.writeVMask n m f).regionPc = g.regionPc := rfl
@[simp] theorem Group.writeVMask_regionCount (n : Nat) (m : Mask) (f : Nat → Lane32) : (g.writeVMask n m f).regionCount = g.regionCount := rfl
@[simp] theorem Group.writeVMask_active (n : Nat) (m : Mask) (f : Nat → Lane32) : (g.writeVMask n m f).active = g.active := rfl
@[simp] theorem Group.writeVMask_live (n : Nat) (m : Mask) (f : Nat → Lane32) : (g.writeVMask n m f).live = g.live := rfl
@[simp] theorem Group.writeVMask_stack (n : Nat) (m : Mask) (f : Nat → Lane32) : (g.writeVMask n m f).stack = g.stack := rfl
@[simp] theorem Group.writeVMask_holds (n : Nat) (m : Mask) (f : Nat → Lane32) : (g.writeVMask n m f).holds = g.holds := rfl
@[simp] theorem Group.writeVMask_depth (n : Nat) (m : Mask) (f : Nat → Lane32) : (g.writeVMask n m f).depth = g.depth := rfl
@[simp] theorem Group.writeVMask_lat (n : Nat) (m : Mask) (f : Nat → Lane32) : (g.writeVMask n m f).lat = g.lat := rfl
@[simp] theorem Group.writeVMask_running (n : Nat) (m : Mask) (f : Nat → Lane32) : (g.writeVMask n m f).running = g.running := rfl
@[simp] theorem Group.writeVMask_issued (n : Nat) (m : Mask) (f : Nat → Lane32) : (g.writeVMask n m f).issued = g.issued := rfl
@[simp] theorem Group.writeVMask_ibuf (n : Nat) (m : Mask) (f : Nat → Lane32) : (g.writeVMask n m f).ibuf = g.ibuf := rfl
@[simp] theorem Group.writeVMask_stall (n : Nat) (m : Mask) (f : Nat → Lane32) : (g.writeVMask n m f).stall = g.stall := rfl
@[simp] theorem Group.writeVMask_pending (n : Nat) (m : Mask) (f : Nat → Lane32) : (g.writeVMask n m f).pending = g.pending := rfl
@[simp] theorem Group.writeVMask_entries (n : Nat) (m : Mask) (f : Nat → Lane32) : (g.writeVMask n m f).entries = g.entries := rfl
@[simp] theorem Group.writeVMask_boundaryFaults (n : Nat) (m : Mask) (f : Nat → Lane32) : (g.writeVMask n m f).boundaryFaults = g.boundaryFaults := rfl
@[simp] theorem Group.writeVMask_shadow (n : Nat) (m : Mask) (f : Nat → Lane32) : (g.writeVMask n m f).shadow = g.shadow := rfl
@[simp] theorem Group.writeVMask_halted (n : Nat) (m : Mask) (f : Nat → Lane32) : (g.writeVMask n m f).halted = g.halted := rfl
@[simp] theorem Group.writeVMask_restoring (n : Nat) (m : Mask) (f : Nat → Lane32) : (g.writeVMask n m f).restoring = g.restoring := rfl

@[simp] theorem Group.writeV_id (n l : Nat) (a : Lane32) : (g.writeV n l a).id = g.id := rfl
@[simp] theorem Group.writeV_place (n l : Nat) (a : Lane32) : (g.writeV n l a).place = g.place := rfl
@[simp] theorem Group.writeV_status (n l : Nat) (a : Lane32) : (g.writeV n l a).status = g.status := rfl
@[simp] theorem Group.writeV_alloc (n l : Nat) (a : Lane32) : (g.writeV n l a).alloc = g.alloc := rfl
@[simp] theorem Group.writeV_s (n l : Nat) (a : Lane32) : (g.writeV n l a).s = g.s := rfl
@[simp] theorem Group.writeV_hs (n l : Nat) (a : Lane32) : (g.writeV n l a).hs = g.hs := rfl
@[simp] theorem Group.writeV_p (n l : Nat) (a : Lane32) : (g.writeV n l a).p = g.p := rfl
@[simp] theorem Group.writeV_k (n l : Nat) (a : Lane32) : (g.writeV n l a).k = g.k := rfl
@[simp] theorem Group.writeV_x (n l : Nat) (a : Lane32) : (g.writeV n l a).x = g.x := rfl
@[simp] theorem Group.writeV_fmt (n l : Nat) (a : Lane32) : (g.writeV n l a).fmt = g.fmt := rfl
@[simp] theorem Group.writeV_flags (n l : Nat) (a : Lane32) : (g.writeV n l a).flags = g.flags := rfl
@[simp] theorem Group.writeV_pc (n l : Nat) (a : Lane32) : (g.writeV n l a).pc = g.pc := rfl
@[simp] theorem Group.writeV_regionPc (n l : Nat) (a : Lane32) : (g.writeV n l a).regionPc = g.regionPc := rfl
@[simp] theorem Group.writeV_regionCount (n l : Nat) (a : Lane32) : (g.writeV n l a).regionCount = g.regionCount := rfl
@[simp] theorem Group.writeV_active (n l : Nat) (a : Lane32) : (g.writeV n l a).active = g.active := rfl
@[simp] theorem Group.writeV_live (n l : Nat) (a : Lane32) : (g.writeV n l a).live = g.live := rfl
@[simp] theorem Group.writeV_stack (n l : Nat) (a : Lane32) : (g.writeV n l a).stack = g.stack := rfl
@[simp] theorem Group.writeV_holds (n l : Nat) (a : Lane32) : (g.writeV n l a).holds = g.holds := rfl
@[simp] theorem Group.writeV_depth (n l : Nat) (a : Lane32) : (g.writeV n l a).depth = g.depth := rfl
@[simp] theorem Group.writeV_lat (n l : Nat) (a : Lane32) : (g.writeV n l a).lat = g.lat := rfl
@[simp] theorem Group.writeV_running (n l : Nat) (a : Lane32) : (g.writeV n l a).running = g.running := rfl
@[simp] theorem Group.writeV_issued (n l : Nat) (a : Lane32) : (g.writeV n l a).issued = g.issued := rfl
@[simp] theorem Group.writeV_ibuf (n l : Nat) (a : Lane32) : (g.writeV n l a).ibuf = g.ibuf := rfl
@[simp] theorem Group.writeV_stall (n l : Nat) (a : Lane32) : (g.writeV n l a).stall = g.stall := rfl
@[simp] theorem Group.writeV_pending (n l : Nat) (a : Lane32) : (g.writeV n l a).pending = g.pending := rfl
@[simp] theorem Group.writeV_entries (n l : Nat) (a : Lane32) : (g.writeV n l a).entries = g.entries := rfl
@[simp] theorem Group.writeV_boundaryFaults (n l : Nat) (a : Lane32) : (g.writeV n l a).boundaryFaults = g.boundaryFaults := rfl
@[simp] theorem Group.writeV_shadow (n l : Nat) (a : Lane32) : (g.writeV n l a).shadow = g.shadow := rfl
@[simp] theorem Group.writeV_halted (n l : Nat) (a : Lane32) : (g.writeV n l a).halted = g.halted := rfl
@[simp] theorem Group.writeV_restoring (n l : Nat) (a : Lane32) : (g.writeV n l a).restoring = g.restoring := rfl

@[simp] theorem Group.writeK_id (n : Nat) (a : Mask) : (g.writeK n a).id = g.id := by
  unfold Group.writeK
  split <;> rfl
@[simp] theorem Group.writeK_place (n : Nat) (a : Mask) : (g.writeK n a).place = g.place := by
  unfold Group.writeK
  split <;> rfl
@[simp] theorem Group.writeK_status (n : Nat) (a : Mask) : (g.writeK n a).status = g.status := by
  unfold Group.writeK
  split <;> rfl
@[simp] theorem Group.writeK_v (n : Nat) (a : Mask) : (g.writeK n a).v = g.v := by
  unfold Group.writeK
  split <;> rfl
@[simp] theorem Group.writeK_alloc (n : Nat) (a : Mask) : (g.writeK n a).alloc = g.alloc := by
  unfold Group.writeK
  split <;> rfl
@[simp] theorem Group.writeK_s (n : Nat) (a : Mask) : (g.writeK n a).s = g.s := by
  unfold Group.writeK
  split <;> rfl
@[simp] theorem Group.writeK_hs (n : Nat) (a : Mask) : (g.writeK n a).hs = g.hs := by
  unfold Group.writeK
  split <;> rfl
@[simp] theorem Group.writeK_p (n : Nat) (a : Mask) : (g.writeK n a).p = g.p := by
  unfold Group.writeK
  split <;> rfl
@[simp] theorem Group.writeK_x (n : Nat) (a : Mask) : (g.writeK n a).x = g.x := by
  unfold Group.writeK
  split <;> rfl
@[simp] theorem Group.writeK_fmt (n : Nat) (a : Mask) : (g.writeK n a).fmt = g.fmt := by
  unfold Group.writeK
  split <;> rfl
@[simp] theorem Group.writeK_flags (n : Nat) (a : Mask) : (g.writeK n a).flags = g.flags := by
  unfold Group.writeK
  split <;> rfl
@[simp] theorem Group.writeK_pc (n : Nat) (a : Mask) : (g.writeK n a).pc = g.pc := by
  unfold Group.writeK
  split <;> rfl
@[simp] theorem Group.writeK_regionPc (n : Nat) (a : Mask) : (g.writeK n a).regionPc = g.regionPc := by
  unfold Group.writeK
  split <;> rfl
@[simp] theorem Group.writeK_regionCount (n : Nat) (a : Mask) : (g.writeK n a).regionCount = g.regionCount := by
  unfold Group.writeK
  split <;> rfl
@[simp] theorem Group.writeK_active (n : Nat) (a : Mask) : (g.writeK n a).active = g.active := by
  unfold Group.writeK
  split <;> rfl
@[simp] theorem Group.writeK_live (n : Nat) (a : Mask) : (g.writeK n a).live = g.live := by
  unfold Group.writeK
  split <;> rfl
@[simp] theorem Group.writeK_stack (n : Nat) (a : Mask) : (g.writeK n a).stack = g.stack := by
  unfold Group.writeK
  split <;> rfl
@[simp] theorem Group.writeK_holds (n : Nat) (a : Mask) : (g.writeK n a).holds = g.holds := by
  unfold Group.writeK
  split <;> rfl
@[simp] theorem Group.writeK_depth (n : Nat) (a : Mask) : (g.writeK n a).depth = g.depth := by
  unfold Group.writeK
  split <;> rfl
@[simp] theorem Group.writeK_lat (n : Nat) (a : Mask) : (g.writeK n a).lat = g.lat := by
  unfold Group.writeK
  split <;> rfl
@[simp] theorem Group.writeK_running (n : Nat) (a : Mask) : (g.writeK n a).running = g.running := by
  unfold Group.writeK
  split <;> rfl
@[simp] theorem Group.writeK_issued (n : Nat) (a : Mask) : (g.writeK n a).issued = g.issued := by
  unfold Group.writeK
  split <;> rfl
@[simp] theorem Group.writeK_ibuf (n : Nat) (a : Mask) : (g.writeK n a).ibuf = g.ibuf := by
  unfold Group.writeK
  split <;> rfl
@[simp] theorem Group.writeK_stall (n : Nat) (a : Mask) : (g.writeK n a).stall = g.stall := by
  unfold Group.writeK
  split <;> rfl
@[simp] theorem Group.writeK_pending (n : Nat) (a : Mask) : (g.writeK n a).pending = g.pending := by
  unfold Group.writeK
  split <;> rfl
@[simp] theorem Group.writeK_entries (n : Nat) (a : Mask) : (g.writeK n a).entries = g.entries := by
  unfold Group.writeK
  split <;> rfl
@[simp] theorem Group.writeK_boundaryFaults (n : Nat) (a : Mask) : (g.writeK n a).boundaryFaults = g.boundaryFaults := by
  unfold Group.writeK
  split <;> rfl
@[simp] theorem Group.writeK_shadow (n : Nat) (a : Mask) : (g.writeK n a).shadow = g.shadow := by
  unfold Group.writeK
  split <;> rfl
@[simp] theorem Group.writeK_halted (n : Nat) (a : Mask) : (g.writeK n a).halted = g.halted := by
  unfold Group.writeK
  split <;> rfl
@[simp] theorem Group.writeK_restoring (n : Nat) (a : Mask) : (g.writeK n a).restoring = g.restoring := by
  unfold Group.writeK
  split <;> rfl

@[simp] theorem Group.writeS_id (n : Nat) (a : Word64) : (g.writeS n a).id = g.id := by
  unfold Group.writeS
  split <;> rfl
@[simp] theorem Group.writeS_place (n : Nat) (a : Word64) : (g.writeS n a).place = g.place := by
  unfold Group.writeS
  split <;> rfl
@[simp] theorem Group.writeS_status (n : Nat) (a : Word64) : (g.writeS n a).status = g.status := by
  unfold Group.writeS
  split <;> rfl
@[simp] theorem Group.writeS_v (n : Nat) (a : Word64) : (g.writeS n a).v = g.v := by
  unfold Group.writeS
  split <;> rfl
@[simp] theorem Group.writeS_alloc (n : Nat) (a : Word64) : (g.writeS n a).alloc = g.alloc := by
  unfold Group.writeS
  split <;> rfl
@[simp] theorem Group.writeS_p (n : Nat) (a : Word64) : (g.writeS n a).p = g.p := by
  unfold Group.writeS
  split <;> rfl
@[simp] theorem Group.writeS_k (n : Nat) (a : Word64) : (g.writeS n a).k = g.k := by
  unfold Group.writeS
  split <;> rfl
@[simp] theorem Group.writeS_x (n : Nat) (a : Word64) : (g.writeS n a).x = g.x := by
  unfold Group.writeS
  split <;> rfl
@[simp] theorem Group.writeS_fmt (n : Nat) (a : Word64) : (g.writeS n a).fmt = g.fmt := by
  unfold Group.writeS
  split <;> rfl
@[simp] theorem Group.writeS_flags (n : Nat) (a : Word64) : (g.writeS n a).flags = g.flags := by
  unfold Group.writeS
  split <;> rfl
@[simp] theorem Group.writeS_pc (n : Nat) (a : Word64) : (g.writeS n a).pc = g.pc := by
  unfold Group.writeS
  split <;> rfl
@[simp] theorem Group.writeS_regionPc (n : Nat) (a : Word64) : (g.writeS n a).regionPc = g.regionPc := by
  unfold Group.writeS
  split <;> rfl
@[simp] theorem Group.writeS_regionCount (n : Nat) (a : Word64) : (g.writeS n a).regionCount = g.regionCount := by
  unfold Group.writeS
  split <;> rfl
@[simp] theorem Group.writeS_active (n : Nat) (a : Word64) : (g.writeS n a).active = g.active := by
  unfold Group.writeS
  split <;> rfl
@[simp] theorem Group.writeS_live (n : Nat) (a : Word64) : (g.writeS n a).live = g.live := by
  unfold Group.writeS
  split <;> rfl
@[simp] theorem Group.writeS_stack (n : Nat) (a : Word64) : (g.writeS n a).stack = g.stack := by
  unfold Group.writeS
  split <;> rfl
@[simp] theorem Group.writeS_holds (n : Nat) (a : Word64) : (g.writeS n a).holds = g.holds := by
  unfold Group.writeS
  split <;> rfl
@[simp] theorem Group.writeS_depth (n : Nat) (a : Word64) : (g.writeS n a).depth = g.depth := by
  unfold Group.writeS
  split <;> rfl
@[simp] theorem Group.writeS_lat (n : Nat) (a : Word64) : (g.writeS n a).lat = g.lat := by
  unfold Group.writeS
  split <;> rfl
@[simp] theorem Group.writeS_running (n : Nat) (a : Word64) : (g.writeS n a).running = g.running := by
  unfold Group.writeS
  split <;> rfl
@[simp] theorem Group.writeS_issued (n : Nat) (a : Word64) : (g.writeS n a).issued = g.issued := by
  unfold Group.writeS
  split <;> rfl
@[simp] theorem Group.writeS_ibuf (n : Nat) (a : Word64) : (g.writeS n a).ibuf = g.ibuf := by
  unfold Group.writeS
  split <;> rfl
@[simp] theorem Group.writeS_stall (n : Nat) (a : Word64) : (g.writeS n a).stall = g.stall := by
  unfold Group.writeS
  split <;> rfl
@[simp] theorem Group.writeS_pending (n : Nat) (a : Word64) : (g.writeS n a).pending = g.pending := by
  unfold Group.writeS
  split <;> rfl
@[simp] theorem Group.writeS_entries (n : Nat) (a : Word64) : (g.writeS n a).entries = g.entries := by
  unfold Group.writeS
  split <;> rfl
@[simp] theorem Group.writeS_boundaryFaults (n : Nat) (a : Word64) : (g.writeS n a).boundaryFaults = g.boundaryFaults := by
  unfold Group.writeS
  split <;> rfl
@[simp] theorem Group.writeS_shadow (n : Nat) (a : Word64) : (g.writeS n a).shadow = g.shadow := by
  unfold Group.writeS
  split <;> rfl
@[simp] theorem Group.writeS_halted (n : Nat) (a : Word64) : (g.writeS n a).halted = g.halted := by
  unfold Group.writeS
  split <;> rfl
@[simp] theorem Group.writeS_restoring (n : Nat) (a : Word64) : (g.writeS n a).restoring = g.restoring := by
  unfold Group.writeS
  split <;> rfl

@[simp] theorem Group.writeP_id (n : Nat) (a : Ptr) : (g.writeP n a).id = g.id := rfl
@[simp] theorem Group.writeP_place (n : Nat) (a : Ptr) : (g.writeP n a).place = g.place := rfl
@[simp] theorem Group.writeP_status (n : Nat) (a : Ptr) : (g.writeP n a).status = g.status := rfl
@[simp] theorem Group.writeP_v (n : Nat) (a : Ptr) : (g.writeP n a).v = g.v := rfl
@[simp] theorem Group.writeP_alloc (n : Nat) (a : Ptr) : (g.writeP n a).alloc = g.alloc := rfl
@[simp] theorem Group.writeP_s (n : Nat) (a : Ptr) : (g.writeP n a).s = g.s := rfl
@[simp] theorem Group.writeP_hs (n : Nat) (a : Ptr) : (g.writeP n a).hs = g.hs := rfl
@[simp] theorem Group.writeP_k (n : Nat) (a : Ptr) : (g.writeP n a).k = g.k := rfl
@[simp] theorem Group.writeP_x (n : Nat) (a : Ptr) : (g.writeP n a).x = g.x := rfl
@[simp] theorem Group.writeP_fmt (n : Nat) (a : Ptr) : (g.writeP n a).fmt = g.fmt := rfl
@[simp] theorem Group.writeP_flags (n : Nat) (a : Ptr) : (g.writeP n a).flags = g.flags := rfl
@[simp] theorem Group.writeP_pc (n : Nat) (a : Ptr) : (g.writeP n a).pc = g.pc := rfl
@[simp] theorem Group.writeP_regionPc (n : Nat) (a : Ptr) : (g.writeP n a).regionPc = g.regionPc := rfl
@[simp] theorem Group.writeP_regionCount (n : Nat) (a : Ptr) : (g.writeP n a).regionCount = g.regionCount := rfl
@[simp] theorem Group.writeP_active (n : Nat) (a : Ptr) : (g.writeP n a).active = g.active := rfl
@[simp] theorem Group.writeP_live (n : Nat) (a : Ptr) : (g.writeP n a).live = g.live := rfl
@[simp] theorem Group.writeP_stack (n : Nat) (a : Ptr) : (g.writeP n a).stack = g.stack := rfl
@[simp] theorem Group.writeP_holds (n : Nat) (a : Ptr) : (g.writeP n a).holds = g.holds := rfl
@[simp] theorem Group.writeP_depth (n : Nat) (a : Ptr) : (g.writeP n a).depth = g.depth := rfl
@[simp] theorem Group.writeP_lat (n : Nat) (a : Ptr) : (g.writeP n a).lat = g.lat := rfl
@[simp] theorem Group.writeP_running (n : Nat) (a : Ptr) : (g.writeP n a).running = g.running := rfl
@[simp] theorem Group.writeP_issued (n : Nat) (a : Ptr) : (g.writeP n a).issued = g.issued := rfl
@[simp] theorem Group.writeP_ibuf (n : Nat) (a : Ptr) : (g.writeP n a).ibuf = g.ibuf := rfl
@[simp] theorem Group.writeP_stall (n : Nat) (a : Ptr) : (g.writeP n a).stall = g.stall := rfl
@[simp] theorem Group.writeP_pending (n : Nat) (a : Ptr) : (g.writeP n a).pending = g.pending := rfl
@[simp] theorem Group.writeP_entries (n : Nat) (a : Ptr) : (g.writeP n a).entries = g.entries := rfl
@[simp] theorem Group.writeP_boundaryFaults (n : Nat) (a : Ptr) : (g.writeP n a).boundaryFaults = g.boundaryFaults := rfl
@[simp] theorem Group.writeP_shadow (n : Nat) (a : Ptr) : (g.writeP n a).shadow = g.shadow := rfl
@[simp] theorem Group.writeP_halted (n : Nat) (a : Ptr) : (g.writeP n a).halted = g.halted := rfl
@[simp] theorem Group.writeP_restoring (n : Nat) (a : Ptr) : (g.writeP n a).restoring = g.restoring := rfl

@[simp] theorem Group.writeX_id (n : Nat) (a : BitVec 16) : (g.writeX n a).id = g.id := by
  unfold Group.writeX
  split <;> rfl
@[simp] theorem Group.writeX_place (n : Nat) (a : BitVec 16) : (g.writeX n a).place = g.place := by
  unfold Group.writeX
  split <;> rfl
@[simp] theorem Group.writeX_status (n : Nat) (a : BitVec 16) : (g.writeX n a).status = g.status := by
  unfold Group.writeX
  split <;> rfl
@[simp] theorem Group.writeX_v (n : Nat) (a : BitVec 16) : (g.writeX n a).v = g.v := by
  unfold Group.writeX
  split <;> rfl
@[simp] theorem Group.writeX_alloc (n : Nat) (a : BitVec 16) : (g.writeX n a).alloc = g.alloc := by
  unfold Group.writeX
  split <;> rfl
@[simp] theorem Group.writeX_s (n : Nat) (a : BitVec 16) : (g.writeX n a).s = g.s := by
  unfold Group.writeX
  split <;> rfl
@[simp] theorem Group.writeX_hs (n : Nat) (a : BitVec 16) : (g.writeX n a).hs = g.hs := by
  unfold Group.writeX
  split <;> rfl
@[simp] theorem Group.writeX_p (n : Nat) (a : BitVec 16) : (g.writeX n a).p = g.p := by
  unfold Group.writeX
  split <;> rfl
@[simp] theorem Group.writeX_k (n : Nat) (a : BitVec 16) : (g.writeX n a).k = g.k := by
  unfold Group.writeX
  split <;> rfl
@[simp] theorem Group.writeX_fmt (n : Nat) (a : BitVec 16) : (g.writeX n a).fmt = g.fmt := by
  unfold Group.writeX
  split <;> rfl
@[simp] theorem Group.writeX_flags (n : Nat) (a : BitVec 16) : (g.writeX n a).flags = g.flags := by
  unfold Group.writeX
  split <;> rfl
@[simp] theorem Group.writeX_pc (n : Nat) (a : BitVec 16) : (g.writeX n a).pc = g.pc := by
  unfold Group.writeX
  split <;> rfl
@[simp] theorem Group.writeX_regionPc (n : Nat) (a : BitVec 16) : (g.writeX n a).regionPc = g.regionPc := by
  unfold Group.writeX
  split <;> rfl
@[simp] theorem Group.writeX_regionCount (n : Nat) (a : BitVec 16) : (g.writeX n a).regionCount = g.regionCount := by
  unfold Group.writeX
  split <;> rfl
@[simp] theorem Group.writeX_active (n : Nat) (a : BitVec 16) : (g.writeX n a).active = g.active := by
  unfold Group.writeX
  split <;> rfl
@[simp] theorem Group.writeX_live (n : Nat) (a : BitVec 16) : (g.writeX n a).live = g.live := by
  unfold Group.writeX
  split <;> rfl
@[simp] theorem Group.writeX_stack (n : Nat) (a : BitVec 16) : (g.writeX n a).stack = g.stack := by
  unfold Group.writeX
  split <;> rfl
@[simp] theorem Group.writeX_holds (n : Nat) (a : BitVec 16) : (g.writeX n a).holds = g.holds := by
  unfold Group.writeX
  split <;> rfl
@[simp] theorem Group.writeX_depth (n : Nat) (a : BitVec 16) : (g.writeX n a).depth = g.depth := by
  unfold Group.writeX
  split <;> rfl
@[simp] theorem Group.writeX_lat (n : Nat) (a : BitVec 16) : (g.writeX n a).lat = g.lat := by
  unfold Group.writeX
  split <;> rfl
@[simp] theorem Group.writeX_running (n : Nat) (a : BitVec 16) : (g.writeX n a).running = g.running := by
  unfold Group.writeX
  split <;> rfl
@[simp] theorem Group.writeX_issued (n : Nat) (a : BitVec 16) : (g.writeX n a).issued = g.issued := by
  unfold Group.writeX
  split <;> rfl
@[simp] theorem Group.writeX_ibuf (n : Nat) (a : BitVec 16) : (g.writeX n a).ibuf = g.ibuf := by
  unfold Group.writeX
  split <;> rfl
@[simp] theorem Group.writeX_stall (n : Nat) (a : BitVec 16) : (g.writeX n a).stall = g.stall := by
  unfold Group.writeX
  split <;> rfl
@[simp] theorem Group.writeX_pending (n : Nat) (a : BitVec 16) : (g.writeX n a).pending = g.pending := by
  unfold Group.writeX
  split <;> rfl
@[simp] theorem Group.writeX_entries (n : Nat) (a : BitVec 16) : (g.writeX n a).entries = g.entries := by
  unfold Group.writeX
  split <;> rfl
@[simp] theorem Group.writeX_boundaryFaults (n : Nat) (a : BitVec 16) : (g.writeX n a).boundaryFaults = g.boundaryFaults := by
  unfold Group.writeX
  split <;> rfl
@[simp] theorem Group.writeX_shadow (n : Nat) (a : BitVec 16) : (g.writeX n a).shadow = g.shadow := by
  unfold Group.writeX
  split <;> rfl
@[simp] theorem Group.writeX_halted (n : Nat) (a : BitVec 16) : (g.writeX n a).halted = g.halted := by
  unfold Group.writeX
  split <;> rfl
@[simp] theorem Group.writeX_restoring (n : Nat) (a : BitVec 16) : (g.writeX n a).restoring = g.restoring := by
  unfold Group.writeX
  split <;> rfl

@[simp] theorem Group.setHold_id (n : Nat) (b : Bool) (c : Nat) : (g.setHold n b c).id = g.id := rfl
@[simp] theorem Group.setHold_place (n : Nat) (b : Bool) (c : Nat) : (g.setHold n b c).place = g.place := rfl
@[simp] theorem Group.setHold_status (n : Nat) (b : Bool) (c : Nat) : (g.setHold n b c).status = g.status := rfl
@[simp] theorem Group.setHold_v (n : Nat) (b : Bool) (c : Nat) : (g.setHold n b c).v = g.v := rfl
@[simp] theorem Group.setHold_alloc (n : Nat) (b : Bool) (c : Nat) : (g.setHold n b c).alloc = g.alloc := rfl
@[simp] theorem Group.setHold_s (n : Nat) (b : Bool) (c : Nat) : (g.setHold n b c).s = g.s := rfl
@[simp] theorem Group.setHold_hs (n : Nat) (b : Bool) (c : Nat) : (g.setHold n b c).hs = g.hs := rfl
@[simp] theorem Group.setHold_p (n : Nat) (b : Bool) (c : Nat) : (g.setHold n b c).p = g.p := rfl
@[simp] theorem Group.setHold_k (n : Nat) (b : Bool) (c : Nat) : (g.setHold n b c).k = g.k := rfl
@[simp] theorem Group.setHold_x (n : Nat) (b : Bool) (c : Nat) : (g.setHold n b c).x = g.x := rfl
@[simp] theorem Group.setHold_fmt (n : Nat) (b : Bool) (c : Nat) : (g.setHold n b c).fmt = g.fmt := rfl
@[simp] theorem Group.setHold_flags (n : Nat) (b : Bool) (c : Nat) : (g.setHold n b c).flags = g.flags := rfl
@[simp] theorem Group.setHold_pc (n : Nat) (b : Bool) (c : Nat) : (g.setHold n b c).pc = g.pc := rfl
@[simp] theorem Group.setHold_regionPc (n : Nat) (b : Bool) (c : Nat) : (g.setHold n b c).regionPc = g.regionPc := rfl
@[simp] theorem Group.setHold_regionCount (n : Nat) (b : Bool) (c : Nat) : (g.setHold n b c).regionCount = g.regionCount := rfl
@[simp] theorem Group.setHold_active (n : Nat) (b : Bool) (c : Nat) : (g.setHold n b c).active = g.active := rfl
@[simp] theorem Group.setHold_live (n : Nat) (b : Bool) (c : Nat) : (g.setHold n b c).live = g.live := rfl
@[simp] theorem Group.setHold_stack (n : Nat) (b : Bool) (c : Nat) : (g.setHold n b c).stack = g.stack := rfl
@[simp] theorem Group.setHold_depth (n : Nat) (b : Bool) (c : Nat) : (g.setHold n b c).depth = g.depth := rfl
@[simp] theorem Group.setHold_lat (n : Nat) (b : Bool) (c : Nat) : (g.setHold n b c).lat = g.lat := rfl
@[simp] theorem Group.setHold_running (n : Nat) (b : Bool) (c : Nat) : (g.setHold n b c).running = g.running := rfl
@[simp] theorem Group.setHold_issued (n : Nat) (b : Bool) (c : Nat) : (g.setHold n b c).issued = g.issued := rfl
@[simp] theorem Group.setHold_ibuf (n : Nat) (b : Bool) (c : Nat) : (g.setHold n b c).ibuf = g.ibuf := rfl
@[simp] theorem Group.setHold_stall (n : Nat) (b : Bool) (c : Nat) : (g.setHold n b c).stall = g.stall := rfl
@[simp] theorem Group.setHold_pending (n : Nat) (b : Bool) (c : Nat) : (g.setHold n b c).pending = g.pending := rfl
@[simp] theorem Group.setHold_entries (n : Nat) (b : Bool) (c : Nat) : (g.setHold n b c).entries = g.entries := rfl
@[simp] theorem Group.setHold_boundaryFaults (n : Nat) (b : Bool) (c : Nat) : (g.setHold n b c).boundaryFaults = g.boundaryFaults := rfl
@[simp] theorem Group.setHold_shadow (n : Nat) (b : Bool) (c : Nat) : (g.setHold n b c).shadow = g.shadow := rfl
@[simp] theorem Group.setHold_halted (n : Nat) (b : Bool) (c : Nat) : (g.setHold n b c).halted = g.halted := rfl
@[simp] theorem Group.setHold_restoring (n : Nat) (b : Bool) (c : Nat) : (g.setHold n b c).restoring = g.restoring := rfl

@[simp] theorem Group.raiseHold_id (n : Nat) : (g.raiseHold n).id = g.id := rfl
@[simp] theorem Group.raiseHold_place (n : Nat) : (g.raiseHold n).place = g.place := rfl
@[simp] theorem Group.raiseHold_status (n : Nat) : (g.raiseHold n).status = g.status := rfl
@[simp] theorem Group.raiseHold_v (n : Nat) : (g.raiseHold n).v = g.v := rfl
@[simp] theorem Group.raiseHold_alloc (n : Nat) : (g.raiseHold n).alloc = g.alloc := rfl
@[simp] theorem Group.raiseHold_s (n : Nat) : (g.raiseHold n).s = g.s := rfl
@[simp] theorem Group.raiseHold_hs (n : Nat) : (g.raiseHold n).hs = g.hs := rfl
@[simp] theorem Group.raiseHold_p (n : Nat) : (g.raiseHold n).p = g.p := rfl
@[simp] theorem Group.raiseHold_k (n : Nat) : (g.raiseHold n).k = g.k := rfl
@[simp] theorem Group.raiseHold_x (n : Nat) : (g.raiseHold n).x = g.x := rfl
@[simp] theorem Group.raiseHold_fmt (n : Nat) : (g.raiseHold n).fmt = g.fmt := rfl
@[simp] theorem Group.raiseHold_flags (n : Nat) : (g.raiseHold n).flags = g.flags := rfl
@[simp] theorem Group.raiseHold_pc (n : Nat) : (g.raiseHold n).pc = g.pc := rfl
@[simp] theorem Group.raiseHold_regionPc (n : Nat) : (g.raiseHold n).regionPc = g.regionPc := rfl
@[simp] theorem Group.raiseHold_regionCount (n : Nat) : (g.raiseHold n).regionCount = g.regionCount := rfl
@[simp] theorem Group.raiseHold_active (n : Nat) : (g.raiseHold n).active = g.active := rfl
@[simp] theorem Group.raiseHold_live (n : Nat) : (g.raiseHold n).live = g.live := rfl
@[simp] theorem Group.raiseHold_stack (n : Nat) : (g.raiseHold n).stack = g.stack := rfl
@[simp] theorem Group.raiseHold_depth (n : Nat) : (g.raiseHold n).depth = g.depth := rfl
@[simp] theorem Group.raiseHold_lat (n : Nat) : (g.raiseHold n).lat = g.lat := rfl
@[simp] theorem Group.raiseHold_running (n : Nat) : (g.raiseHold n).running = g.running := rfl
@[simp] theorem Group.raiseHold_issued (n : Nat) : (g.raiseHold n).issued = g.issued := rfl
@[simp] theorem Group.raiseHold_ibuf (n : Nat) : (g.raiseHold n).ibuf = g.ibuf := rfl
@[simp] theorem Group.raiseHold_stall (n : Nat) : (g.raiseHold n).stall = g.stall := rfl
@[simp] theorem Group.raiseHold_pending (n : Nat) : (g.raiseHold n).pending = g.pending := rfl
@[simp] theorem Group.raiseHold_entries (n : Nat) : (g.raiseHold n).entries = g.entries := rfl
@[simp] theorem Group.raiseHold_boundaryFaults (n : Nat) : (g.raiseHold n).boundaryFaults = g.boundaryFaults := rfl
@[simp] theorem Group.raiseHold_shadow (n : Nat) : (g.raiseHold n).shadow = g.shadow := rfl
@[simp] theorem Group.raiseHold_halted (n : Nat) : (g.raiseHold n).halted = g.halted := rfl
@[simp] theorem Group.raiseHold_restoring (n : Nat) : (g.raiseHold n).restoring = g.restoring := rfl

@[simp] theorem Group.lowerHold_id (n : Nat) : (g.lowerHold n).id = g.id := by
  unfold Group.lowerHold
  split <;> rfl
@[simp] theorem Group.lowerHold_place (n : Nat) : (g.lowerHold n).place = g.place := by
  unfold Group.lowerHold
  split <;> rfl
@[simp] theorem Group.lowerHold_status (n : Nat) : (g.lowerHold n).status = g.status := by
  unfold Group.lowerHold
  split <;> rfl
@[simp] theorem Group.lowerHold_v (n : Nat) : (g.lowerHold n).v = g.v := by
  unfold Group.lowerHold
  split <;> rfl
@[simp] theorem Group.lowerHold_alloc (n : Nat) : (g.lowerHold n).alloc = g.alloc := by
  unfold Group.lowerHold
  split <;> rfl
@[simp] theorem Group.lowerHold_s (n : Nat) : (g.lowerHold n).s = g.s := by
  unfold Group.lowerHold
  split <;> rfl
@[simp] theorem Group.lowerHold_hs (n : Nat) : (g.lowerHold n).hs = g.hs := by
  unfold Group.lowerHold
  split <;> rfl
@[simp] theorem Group.lowerHold_p (n : Nat) : (g.lowerHold n).p = g.p := by
  unfold Group.lowerHold
  split <;> rfl
@[simp] theorem Group.lowerHold_k (n : Nat) : (g.lowerHold n).k = g.k := by
  unfold Group.lowerHold
  split <;> rfl
@[simp] theorem Group.lowerHold_x (n : Nat) : (g.lowerHold n).x = g.x := by
  unfold Group.lowerHold
  split <;> rfl
@[simp] theorem Group.lowerHold_fmt (n : Nat) : (g.lowerHold n).fmt = g.fmt := by
  unfold Group.lowerHold
  split <;> rfl
@[simp] theorem Group.lowerHold_flags (n : Nat) : (g.lowerHold n).flags = g.flags := by
  unfold Group.lowerHold
  split <;> rfl
@[simp] theorem Group.lowerHold_pc (n : Nat) : (g.lowerHold n).pc = g.pc := by
  unfold Group.lowerHold
  split <;> rfl
@[simp] theorem Group.lowerHold_regionPc (n : Nat) : (g.lowerHold n).regionPc = g.regionPc := by
  unfold Group.lowerHold
  split <;> rfl
@[simp] theorem Group.lowerHold_regionCount (n : Nat) : (g.lowerHold n).regionCount = g.regionCount := by
  unfold Group.lowerHold
  split <;> rfl
@[simp] theorem Group.lowerHold_active (n : Nat) : (g.lowerHold n).active = g.active := by
  unfold Group.lowerHold
  split <;> rfl
@[simp] theorem Group.lowerHold_live (n : Nat) : (g.lowerHold n).live = g.live := by
  unfold Group.lowerHold
  split <;> rfl
@[simp] theorem Group.lowerHold_stack (n : Nat) : (g.lowerHold n).stack = g.stack := by
  unfold Group.lowerHold
  split <;> rfl
@[simp] theorem Group.lowerHold_depth (n : Nat) : (g.lowerHold n).depth = g.depth := by
  unfold Group.lowerHold
  split <;> rfl
@[simp] theorem Group.lowerHold_lat (n : Nat) : (g.lowerHold n).lat = g.lat := by
  unfold Group.lowerHold
  split <;> rfl
@[simp] theorem Group.lowerHold_running (n : Nat) : (g.lowerHold n).running = g.running := by
  unfold Group.lowerHold
  split <;> rfl
@[simp] theorem Group.lowerHold_issued (n : Nat) : (g.lowerHold n).issued = g.issued := by
  unfold Group.lowerHold
  split <;> rfl
@[simp] theorem Group.lowerHold_ibuf (n : Nat) : (g.lowerHold n).ibuf = g.ibuf := by
  unfold Group.lowerHold
  split <;> rfl
@[simp] theorem Group.lowerHold_stall (n : Nat) : (g.lowerHold n).stall = g.stall := by
  unfold Group.lowerHold
  split <;> rfl
@[simp] theorem Group.lowerHold_pending (n : Nat) : (g.lowerHold n).pending = g.pending := by
  unfold Group.lowerHold
  split <;> rfl
@[simp] theorem Group.lowerHold_entries (n : Nat) : (g.lowerHold n).entries = g.entries := by
  unfold Group.lowerHold
  split <;> rfl
@[simp] theorem Group.lowerHold_boundaryFaults (n : Nat) : (g.lowerHold n).boundaryFaults = g.boundaryFaults := by
  unfold Group.lowerHold
  split <;> rfl
@[simp] theorem Group.lowerHold_shadow (n : Nat) : (g.lowerHold n).shadow = g.shadow := by
  unfold Group.lowerHold
  split <;> rfl
@[simp] theorem Group.lowerHold_halted (n : Nat) : (g.lowerHold n).halted = g.halted := by
  unfold Group.lowerHold
  split <;> rfl
@[simp] theorem Group.lowerHold_restoring (n : Nat) : (g.lowerHold n).restoring = g.restoring := by
  unfold Group.lowerHold
  split <;> rfl

@[simp] theorem Group.raiseFlags_id (m : Mask) (f : Nat → FlagBits) : (g.raiseFlags m f).id = g.id := rfl
@[simp] theorem Group.raiseFlags_place (m : Mask) (f : Nat → FlagBits) : (g.raiseFlags m f).place = g.place := rfl
@[simp] theorem Group.raiseFlags_status (m : Mask) (f : Nat → FlagBits) : (g.raiseFlags m f).status = g.status := rfl
@[simp] theorem Group.raiseFlags_v (m : Mask) (f : Nat → FlagBits) : (g.raiseFlags m f).v = g.v := rfl
@[simp] theorem Group.raiseFlags_alloc (m : Mask) (f : Nat → FlagBits) : (g.raiseFlags m f).alloc = g.alloc := rfl
@[simp] theorem Group.raiseFlags_s (m : Mask) (f : Nat → FlagBits) : (g.raiseFlags m f).s = g.s := rfl
@[simp] theorem Group.raiseFlags_hs (m : Mask) (f : Nat → FlagBits) : (g.raiseFlags m f).hs = g.hs := rfl
@[simp] theorem Group.raiseFlags_p (m : Mask) (f : Nat → FlagBits) : (g.raiseFlags m f).p = g.p := rfl
@[simp] theorem Group.raiseFlags_k (m : Mask) (f : Nat → FlagBits) : (g.raiseFlags m f).k = g.k := rfl
@[simp] theorem Group.raiseFlags_x (m : Mask) (f : Nat → FlagBits) : (g.raiseFlags m f).x = g.x := rfl
@[simp] theorem Group.raiseFlags_fmt (m : Mask) (f : Nat → FlagBits) : (g.raiseFlags m f).fmt = g.fmt := rfl
@[simp] theorem Group.raiseFlags_pc (m : Mask) (f : Nat → FlagBits) : (g.raiseFlags m f).pc = g.pc := rfl
@[simp] theorem Group.raiseFlags_regionPc (m : Mask) (f : Nat → FlagBits) : (g.raiseFlags m f).regionPc = g.regionPc := rfl
@[simp] theorem Group.raiseFlags_regionCount (m : Mask) (f : Nat → FlagBits) : (g.raiseFlags m f).regionCount = g.regionCount := rfl
@[simp] theorem Group.raiseFlags_active (m : Mask) (f : Nat → FlagBits) : (g.raiseFlags m f).active = g.active := rfl
@[simp] theorem Group.raiseFlags_live (m : Mask) (f : Nat → FlagBits) : (g.raiseFlags m f).live = g.live := rfl
@[simp] theorem Group.raiseFlags_stack (m : Mask) (f : Nat → FlagBits) : (g.raiseFlags m f).stack = g.stack := rfl
@[simp] theorem Group.raiseFlags_holds (m : Mask) (f : Nat → FlagBits) : (g.raiseFlags m f).holds = g.holds := rfl
@[simp] theorem Group.raiseFlags_depth (m : Mask) (f : Nat → FlagBits) : (g.raiseFlags m f).depth = g.depth := rfl
@[simp] theorem Group.raiseFlags_lat (m : Mask) (f : Nat → FlagBits) : (g.raiseFlags m f).lat = g.lat := rfl
@[simp] theorem Group.raiseFlags_running (m : Mask) (f : Nat → FlagBits) : (g.raiseFlags m f).running = g.running := rfl
@[simp] theorem Group.raiseFlags_issued (m : Mask) (f : Nat → FlagBits) : (g.raiseFlags m f).issued = g.issued := rfl
@[simp] theorem Group.raiseFlags_ibuf (m : Mask) (f : Nat → FlagBits) : (g.raiseFlags m f).ibuf = g.ibuf := rfl
@[simp] theorem Group.raiseFlags_stall (m : Mask) (f : Nat → FlagBits) : (g.raiseFlags m f).stall = g.stall := rfl
@[simp] theorem Group.raiseFlags_pending (m : Mask) (f : Nat → FlagBits) : (g.raiseFlags m f).pending = g.pending := rfl
@[simp] theorem Group.raiseFlags_entries (m : Mask) (f : Nat → FlagBits) : (g.raiseFlags m f).entries = g.entries := rfl
@[simp] theorem Group.raiseFlags_boundaryFaults (m : Mask) (f : Nat → FlagBits) : (g.raiseFlags m f).boundaryFaults = g.boundaryFaults := rfl
@[simp] theorem Group.raiseFlags_shadow (m : Mask) (f : Nat → FlagBits) : (g.raiseFlags m f).shadow = g.shadow := rfl
@[simp] theorem Group.raiseFlags_halted (m : Mask) (f : Nat → FlagBits) : (g.raiseFlags m f).halted = g.halted := rfl
@[simp] theorem Group.raiseFlags_restoring (m : Mask) (f : Nat → FlagBits) : (g.raiseFlags m f).restoring = g.restoring := rfl

@[simp] theorem Group.enterRegion_id : (g.enterRegion).id = g.id := rfl
@[simp] theorem Group.enterRegion_place : (g.enterRegion).place = g.place := rfl
@[simp] theorem Group.enterRegion_status : (g.enterRegion).status = g.status := rfl
@[simp] theorem Group.enterRegion_v : (g.enterRegion).v = g.v := rfl
@[simp] theorem Group.enterRegion_alloc : (g.enterRegion).alloc = g.alloc := rfl
@[simp] theorem Group.enterRegion_s : (g.enterRegion).s = g.s := rfl
@[simp] theorem Group.enterRegion_hs : (g.enterRegion).hs = g.hs := rfl
@[simp] theorem Group.enterRegion_p : (g.enterRegion).p = g.p := rfl
@[simp] theorem Group.enterRegion_k : (g.enterRegion).k = g.k := rfl
@[simp] theorem Group.enterRegion_x : (g.enterRegion).x = g.x := rfl
@[simp] theorem Group.enterRegion_fmt : (g.enterRegion).fmt = g.fmt := rfl
@[simp] theorem Group.enterRegion_flags : (g.enterRegion).flags = g.flags := rfl
@[simp] theorem Group.enterRegion_pc : (g.enterRegion).pc = g.pc := rfl
@[simp] theorem Group.enterRegion_active : (g.enterRegion).active = g.active := rfl
@[simp] theorem Group.enterRegion_live : (g.enterRegion).live = g.live := rfl
@[simp] theorem Group.enterRegion_stack : (g.enterRegion).stack = g.stack := rfl
@[simp] theorem Group.enterRegion_holds : (g.enterRegion).holds = g.holds := rfl
@[simp] theorem Group.enterRegion_depth : (g.enterRegion).depth = g.depth := rfl
@[simp] theorem Group.enterRegion_lat : (g.enterRegion).lat = g.lat := rfl
@[simp] theorem Group.enterRegion_running : (g.enterRegion).running = g.running := rfl
@[simp] theorem Group.enterRegion_issued : (g.enterRegion).issued = g.issued := rfl
@[simp] theorem Group.enterRegion_ibuf : (g.enterRegion).ibuf = g.ibuf := rfl
@[simp] theorem Group.enterRegion_stall : (g.enterRegion).stall = g.stall := rfl
@[simp] theorem Group.enterRegion_pending : (g.enterRegion).pending = g.pending := rfl
@[simp] theorem Group.enterRegion_entries : (g.enterRegion).entries = g.entries := rfl
@[simp] theorem Group.enterRegion_boundaryFaults : (g.enterRegion).boundaryFaults = g.boundaryFaults := rfl
@[simp] theorem Group.enterRegion_shadow : (g.enterRegion).shadow = g.shadow := rfl
@[simp] theorem Group.enterRegion_halted : (g.enterRegion).halted = g.halted := rfl
@[simp] theorem Group.enterRegion_restoring : (g.enterRegion).restoring = g.restoring := rfl

@[simp] theorem Group.stopRun_id : (g.stopRun).id = g.id := rfl
@[simp] theorem Group.stopRun_place : (g.stopRun).place = g.place := rfl
@[simp] theorem Group.stopRun_status : (g.stopRun).status = g.status := rfl
@[simp] theorem Group.stopRun_v : (g.stopRun).v = g.v := rfl
@[simp] theorem Group.stopRun_alloc : (g.stopRun).alloc = g.alloc := rfl
@[simp] theorem Group.stopRun_s : (g.stopRun).s = g.s := rfl
@[simp] theorem Group.stopRun_hs : (g.stopRun).hs = g.hs := rfl
@[simp] theorem Group.stopRun_p : (g.stopRun).p = g.p := rfl
@[simp] theorem Group.stopRun_k : (g.stopRun).k = g.k := rfl
@[simp] theorem Group.stopRun_x : (g.stopRun).x = g.x := rfl
@[simp] theorem Group.stopRun_fmt : (g.stopRun).fmt = g.fmt := rfl
@[simp] theorem Group.stopRun_flags : (g.stopRun).flags = g.flags := rfl
@[simp] theorem Group.stopRun_pc : (g.stopRun).pc = g.pc := rfl
@[simp] theorem Group.stopRun_regionPc : (g.stopRun).regionPc = g.regionPc := rfl
@[simp] theorem Group.stopRun_regionCount : (g.stopRun).regionCount = g.regionCount := rfl
@[simp] theorem Group.stopRun_active : (g.stopRun).active = g.active := rfl
@[simp] theorem Group.stopRun_live : (g.stopRun).live = g.live := rfl
@[simp] theorem Group.stopRun_stack : (g.stopRun).stack = g.stack := rfl
@[simp] theorem Group.stopRun_holds : (g.stopRun).holds = g.holds := rfl
@[simp] theorem Group.stopRun_depth : (g.stopRun).depth = g.depth := rfl
@[simp] theorem Group.stopRun_pending : (g.stopRun).pending = g.pending := rfl
@[simp] theorem Group.stopRun_boundaryFaults : (g.stopRun).boundaryFaults = g.boundaryFaults := rfl
@[simp] theorem Group.stopRun_shadow : (g.stopRun).shadow =
    (g.entries.find? (fun e => e.kind = .gridgrow)).elim g.shadow (fun e => g.shadow.map (Shadow.forget e.id)) := rfl

@[simp] theorem Group.completeRun_id : (g.completeRun).id = g.id := rfl
@[simp] theorem Group.completeRun_place : (g.completeRun).place = g.place := rfl
@[simp] theorem Group.completeRun_status : (g.completeRun).status = g.status := rfl
@[simp] theorem Group.completeRun_v : (g.completeRun).v = g.v := rfl
@[simp] theorem Group.completeRun_alloc : (g.completeRun).alloc = g.alloc := rfl
@[simp] theorem Group.completeRun_s : (g.completeRun).s = g.s := rfl
@[simp] theorem Group.completeRun_hs : (g.completeRun).hs = g.hs := rfl
@[simp] theorem Group.completeRun_p : (g.completeRun).p = g.p := rfl
@[simp] theorem Group.completeRun_k : (g.completeRun).k = g.k := rfl
@[simp] theorem Group.completeRun_x : (g.completeRun).x = g.x := rfl
@[simp] theorem Group.completeRun_fmt : (g.completeRun).fmt = g.fmt := rfl
@[simp] theorem Group.completeRun_flags : (g.completeRun).flags = g.flags := rfl
@[simp] theorem Group.completeRun_pc : (g.completeRun).pc = g.pc := rfl
@[simp] theorem Group.completeRun_regionPc : (g.completeRun).regionPc = g.regionPc := rfl
@[simp] theorem Group.completeRun_regionCount : (g.completeRun).regionCount = g.regionCount := rfl
@[simp] theorem Group.completeRun_active : (g.completeRun).active = g.active := rfl
@[simp] theorem Group.completeRun_live : (g.completeRun).live = g.live := rfl
@[simp] theorem Group.completeRun_stack : (g.completeRun).stack = g.stack := rfl
@[simp] theorem Group.completeRun_holds : (g.completeRun).holds = g.holds := rfl
@[simp] theorem Group.completeRun_depth : (g.completeRun).depth = g.depth := rfl
@[simp] theorem Group.completeRun_pending : (g.completeRun).pending = g.pending := rfl
@[simp] theorem Group.completeRun_entries : (g.completeRun).entries = g.entries := rfl
@[simp] theorem Group.completeRun_boundaryFaults : (g.completeRun).boundaryFaults = g.boundaryFaults := rfl
@[simp] theorem Group.completeRun_shadow : (g.completeRun).shadow = g.shadow := rfl
@[simp] theorem Group.completeRun_halted : (g.completeRun).halted = g.halted := rfl
@[simp] theorem Group.completeRun_restoring : (g.completeRun).restoring = g.restoring := rfl

@[simp] theorem Group.enterRegion_regionPc : g.enterRegion.regionPc = g.pc := rfl
@[simp] theorem Group.enterRegion_regionCount : g.enterRegion.regionCount = (g.regionCount + 1) % 2 ^ 32 := rfl
@[simp] theorem Group.stopRun_running : g.stopRun.running = false := rfl
@[simp] theorem Group.stopRun_issued : g.stopRun.issued = 0 := rfl
@[simp] theorem Group.stopRun_ibuf : g.stopRun.ibuf = [] := rfl
@[simp] theorem Group.stopRun_stall : g.stopRun.stall = .none := rfl
@[simp] theorem Group.stopRun_lat : g.stopRun.lat = Vector.replicate 4 (Vector.replicate 32 none) := rfl
@[simp] theorem Group.completeRun_running : g.completeRun.running = false := rfl
@[simp] theorem Group.completeRun_issued : g.completeRun.issued = 0 := rfl
@[simp] theorem Group.completeRun_ibuf : g.completeRun.ibuf = [] := rfl
@[simp] theorem Group.completeRun_stall : g.completeRun.stall = .none := rfl
@[simp] theorem Group.completeRun_lat : g.completeRun.lat = Vector.replicate 4 (Vector.replicate 32 none) := rfl

@[simp] theorem State.event_agenda (e : Event) : (s.event e).agenda = s.agenda := rfl
@[simp] theorem State.event_free (e : Event) : (s.event e).free = s.free := rfl
@[simp] theorem State.event_g (e : Event) : (s.event e).g = s.g := rfl
@[simp] theorem State.event_gs (e : Event) : (s.event e).gs = s.gs := rfl
@[simp] theorem State.event_teams (e : Event) : (s.event e).teams = s.teams := rfl
@[simp] theorem State.event_clusters (e : Event) : (s.event e).clusters = s.clusters := rfl
@[simp] theorem State.event_grids (e : Event) : (s.event e).grids = s.grids := rfl
@[simp] theorem State.event_held (e : Event) : (s.event e).held = s.held := rfl
@[simp] theorem State.event_cores (e : Event) : (s.event e).cores = s.cores := rfl
@[simp] theorem State.event_works (e : Event) : (s.event e).works = s.works := rfl
@[simp] theorem State.event_ops (e : Event) : (s.event e).ops = s.ops := rfl
@[simp] theorem State.event_mem (e : Event) : (s.event e).mem = s.mem := rfl
@[simp] theorem State.event_poison (e : Event) : (s.event e).poison = s.poison := rfl
@[simp] theorem State.event_chip (e : Event) : (s.event e).chip = s.chip := rfl
@[simp] theorem State.event_homeLines (e : Event) : (s.event e).homeLines = s.homeLines := rfl
@[simp] theorem State.event_dirs (e : Event) : (s.event e).dirs = s.dirs := rfl
@[simp] theorem State.event_clines (e : Event) : (s.event e).clines = s.clines := rfl
@[simp] theorem State.event_msgs (e : Event) : (s.event e).msgs = s.msgs := rfl
@[simp] theorem State.event_releasers (e : Event) : (s.event e).releasers = s.releasers := rfl
@[simp] theorem State.event_suppress (e : Event) : (s.event e).suppress = s.suppress := rfl
@[simp] theorem State.event_undef (e : Event) : (s.event e).undef = s.undef := rfl
@[simp] theorem State.event_nextArrival (e : Event) : (s.event e).nextArrival = s.nextArrival := rfl
@[simp] theorem State.event_hostReqs (e : Event) : (s.event e).hostReqs = s.hostReqs := rfl
@[simp] theorem State.event_biFilter (e : Event) : (s.event e).biFilter = s.biFilter := rfl
@[simp] theorem State.event_biAsked (e : Event) : (s.event e).biAsked = s.biAsked := rfl
@[simp] theorem State.event_biDataAsked (e : Event) : (s.event e).biDataAsked = s.biDataAsked := rfl
@[simp] theorem State.event_peerJobs (e : Event) : (s.event e).peerJobs = s.peerJobs := rfl
@[simp] theorem State.event_treeTags (e : Event) : (s.event e).treeTags = s.treeTags := rfl
@[simp] theorem State.event_saveAsked (e : Event) : (s.event e).saveAsked = s.saveAsked := rfl
@[simp] theorem State.event_flip (e : Event) : (s.event e).flip = s.flip := rfl
@[simp] theorem State.event_pegs (e : Event) : (s.event e).pegs = s.pegs := rfl
@[simp] theorem State.event_regs (e : Event) : (s.event e).regs = s.regs := rfl
@[simp] theorem State.event_out (e : Event) : (s.event e).out = s.out := rfl
@[simp] theorem State.event_time (e : Event) : (s.event e).time = s.time := rfl
@[simp] theorem State.event_fatal (e : Event) : (s.event e).fatal = s.fatal := rfl
@[simp] theorem State.event_package (e : Event) : (s.event e).package = s.package := rfl

@[simp] theorem State.moduleError_agenda : (s.moduleError).agenda = s.agenda := rfl
@[simp] theorem State.moduleError_free : (s.moduleError).free = s.free := rfl
@[simp] theorem State.moduleError_g : (s.moduleError).g = s.g := rfl
@[simp] theorem State.moduleError_gs : (s.moduleError).gs = s.gs := rfl
@[simp] theorem State.moduleError_teams : (s.moduleError).teams = s.teams := rfl
@[simp] theorem State.moduleError_clusters : (s.moduleError).clusters = s.clusters := rfl
@[simp] theorem State.moduleError_grids : (s.moduleError).grids = s.grids := rfl
@[simp] theorem State.moduleError_held : (s.moduleError).held = s.held := rfl
@[simp] theorem State.moduleError_cores : (s.moduleError).cores = s.cores := rfl
@[simp] theorem State.moduleError_works : (s.moduleError).works = s.works := rfl
@[simp] theorem State.moduleError_ops : (s.moduleError).ops = s.ops := rfl
@[simp] theorem State.moduleError_mem : (s.moduleError).mem = s.mem := rfl
@[simp] theorem State.moduleError_poison : (s.moduleError).poison = s.poison := rfl
@[simp] theorem State.moduleError_chip : (s.moduleError).chip = s.chip := rfl
@[simp] theorem State.moduleError_homeLines : (s.moduleError).homeLines = s.homeLines := rfl
@[simp] theorem State.moduleError_dirs : (s.moduleError).dirs = s.dirs := rfl
@[simp] theorem State.moduleError_clines : (s.moduleError).clines = s.clines := rfl
@[simp] theorem State.moduleError_msgs : (s.moduleError).msgs = s.msgs := rfl
@[simp] theorem State.moduleError_releasers : (s.moduleError).releasers = s.releasers := rfl
@[simp] theorem State.moduleError_suppress : (s.moduleError).suppress = s.suppress := rfl
@[simp] theorem State.moduleError_undef : (s.moduleError).undef = s.undef := rfl
@[simp] theorem State.moduleError_nextArrival : (s.moduleError).nextArrival = s.nextArrival := rfl
@[simp] theorem State.moduleError_hostReqs : (s.moduleError).hostReqs = s.hostReqs := rfl
@[simp] theorem State.moduleError_biFilter : (s.moduleError).biFilter = s.biFilter := rfl
@[simp] theorem State.moduleError_biAsked : (s.moduleError).biAsked = s.biAsked := rfl
@[simp] theorem State.moduleError_biDataAsked : (s.moduleError).biDataAsked = s.biDataAsked := rfl
@[simp] theorem State.moduleError_peerJobs : (s.moduleError).peerJobs = s.peerJobs := rfl
@[simp] theorem State.moduleError_treeTags : (s.moduleError).treeTags = s.treeTags := rfl
@[simp] theorem State.moduleError_saveAsked : (s.moduleError).saveAsked = s.saveAsked := rfl
@[simp] theorem State.moduleError_flip : (s.moduleError).flip = s.flip := rfl
@[simp] theorem State.moduleError_pegs : (s.moduleError).pegs = s.pegs := rfl
@[simp] theorem State.moduleError_regs : (s.moduleError).regs = s.regs := rfl
@[simp] theorem State.moduleError_out : (s.moduleError).out = s.out := rfl
@[simp] theorem State.moduleError_time : (s.moduleError).time = s.time := rfl
@[simp] theorem State.moduleError_fatal : (s.moduleError).fatal = s.fatal := rfl
@[simp] theorem State.moduleError_package : (s.moduleError).package = s.package := rfl

@[simp] theorem State.stalls_agenda (r : Stall) : (State.stalls r s).agenda = s.agenda := rfl
@[simp] theorem State.stalls_free (r : Stall) : (State.stalls r s).free = s.free := rfl
@[simp] theorem State.stalls_gs (r : Stall) : (State.stalls r s).gs = s.gs := rfl
@[simp] theorem State.stalls_teams (r : Stall) : (State.stalls r s).teams = s.teams := rfl
@[simp] theorem State.stalls_clusters (r : Stall) : (State.stalls r s).clusters = s.clusters := rfl
@[simp] theorem State.stalls_grids (r : Stall) : (State.stalls r s).grids = s.grids := rfl
@[simp] theorem State.stalls_held (r : Stall) : (State.stalls r s).held = s.held := rfl
@[simp] theorem State.stalls_cores (r : Stall) : (State.stalls r s).cores = s.cores := rfl
@[simp] theorem State.stalls_works (r : Stall) : (State.stalls r s).works = s.works := rfl
@[simp] theorem State.stalls_ops (r : Stall) : (State.stalls r s).ops = s.ops := rfl
@[simp] theorem State.stalls_mem (r : Stall) : (State.stalls r s).mem = s.mem := rfl
@[simp] theorem State.stalls_poison (r : Stall) : (State.stalls r s).poison = s.poison := rfl
@[simp] theorem State.stalls_chip (r : Stall) : (State.stalls r s).chip = s.chip := rfl
@[simp] theorem State.stalls_homeLines (r : Stall) : (State.stalls r s).homeLines = s.homeLines := rfl
@[simp] theorem State.stalls_dirs (r : Stall) : (State.stalls r s).dirs = s.dirs := rfl
@[simp] theorem State.stalls_clines (r : Stall) : (State.stalls r s).clines = s.clines := rfl
@[simp] theorem State.stalls_msgs (r : Stall) : (State.stalls r s).msgs = s.msgs := rfl
@[simp] theorem State.stalls_releasers (r : Stall) : (State.stalls r s).releasers = s.releasers := rfl
@[simp] theorem State.stalls_suppress (r : Stall) : (State.stalls r s).suppress = s.suppress := rfl
@[simp] theorem State.stalls_undef (r : Stall) : (State.stalls r s).undef = s.undef := rfl
@[simp] theorem State.stalls_nextArrival (r : Stall) : (State.stalls r s).nextArrival = s.nextArrival := rfl
@[simp] theorem State.stalls_hostReqs (r : Stall) : (State.stalls r s).hostReqs = s.hostReqs := rfl
@[simp] theorem State.stalls_biFilter (r : Stall) : (State.stalls r s).biFilter = s.biFilter := rfl
@[simp] theorem State.stalls_biAsked (r : Stall) : (State.stalls r s).biAsked = s.biAsked := rfl
@[simp] theorem State.stalls_biDataAsked (r : Stall) : (State.stalls r s).biDataAsked = s.biDataAsked := rfl
@[simp] theorem State.stalls_peerJobs (r : Stall) : (State.stalls r s).peerJobs = s.peerJobs := rfl
@[simp] theorem State.stalls_treeTags (r : Stall) : (State.stalls r s).treeTags = s.treeTags := rfl
@[simp] theorem State.stalls_saveAsked (r : Stall) : (State.stalls r s).saveAsked = s.saveAsked := rfl
@[simp] theorem State.stalls_flip (r : Stall) : (State.stalls r s).flip = s.flip := rfl
@[simp] theorem State.stalls_pegs (r : Stall) : (State.stalls r s).pegs = s.pegs := rfl
@[simp] theorem State.stalls_regs (r : Stall) : (State.stalls r s).regs = s.regs := rfl
@[simp] theorem State.stalls_events (r : Stall) : (State.stalls r s).events = s.events := rfl
@[simp] theorem State.stalls_out (r : Stall) : (State.stalls r s).out = s.out := rfl
@[simp] theorem State.stalls_time (r : Stall) : (State.stalls r s).time = s.time := rfl
@[simp] theorem State.stalls_fatal (r : Stall) : (State.stalls r s).fatal = s.fatal := rfl
@[simp] theorem State.stalls_package (r : Stall) : (State.stalls r s).package = s.package := rfl

@[simp] theorem State.waitsAt_agenda (r : Pending) : (State.waitsAt r s).agenda = s.agenda := rfl
@[simp] theorem State.waitsAt_free (r : Pending) : (State.waitsAt r s).free = s.free := rfl
@[simp] theorem State.waitsAt_gs (r : Pending) : (State.waitsAt r s).gs = s.gs := rfl
@[simp] theorem State.waitsAt_teams (r : Pending) : (State.waitsAt r s).teams = s.teams := rfl
@[simp] theorem State.waitsAt_clusters (r : Pending) : (State.waitsAt r s).clusters = s.clusters := rfl
@[simp] theorem State.waitsAt_grids (r : Pending) : (State.waitsAt r s).grids = s.grids := rfl
@[simp] theorem State.waitsAt_held (r : Pending) : (State.waitsAt r s).held = s.held := rfl
@[simp] theorem State.waitsAt_cores (r : Pending) : (State.waitsAt r s).cores = s.cores := rfl
@[simp] theorem State.waitsAt_works (r : Pending) : (State.waitsAt r s).works = s.works := rfl
@[simp] theorem State.waitsAt_ops (r : Pending) : (State.waitsAt r s).ops = s.ops := rfl
@[simp] theorem State.waitsAt_mem (r : Pending) : (State.waitsAt r s).mem = s.mem := rfl
@[simp] theorem State.waitsAt_poison (r : Pending) : (State.waitsAt r s).poison = s.poison := rfl
@[simp] theorem State.waitsAt_chip (r : Pending) : (State.waitsAt r s).chip = s.chip := rfl
@[simp] theorem State.waitsAt_homeLines (r : Pending) : (State.waitsAt r s).homeLines = s.homeLines := rfl
@[simp] theorem State.waitsAt_dirs (r : Pending) : (State.waitsAt r s).dirs = s.dirs := rfl
@[simp] theorem State.waitsAt_clines (r : Pending) : (State.waitsAt r s).clines = s.clines := rfl
@[simp] theorem State.waitsAt_msgs (r : Pending) : (State.waitsAt r s).msgs = s.msgs := rfl
@[simp] theorem State.waitsAt_releasers (r : Pending) : (State.waitsAt r s).releasers = s.releasers := rfl
@[simp] theorem State.waitsAt_suppress (r : Pending) : (State.waitsAt r s).suppress = s.suppress := rfl
@[simp] theorem State.waitsAt_undef (r : Pending) : (State.waitsAt r s).undef = s.undef := rfl
@[simp] theorem State.waitsAt_nextArrival (r : Pending) : (State.waitsAt r s).nextArrival = s.nextArrival := rfl
@[simp] theorem State.waitsAt_hostReqs (r : Pending) : (State.waitsAt r s).hostReqs = s.hostReqs := rfl
@[simp] theorem State.waitsAt_biFilter (r : Pending) : (State.waitsAt r s).biFilter = s.biFilter := rfl
@[simp] theorem State.waitsAt_biAsked (r : Pending) : (State.waitsAt r s).biAsked = s.biAsked := rfl
@[simp] theorem State.waitsAt_biDataAsked (r : Pending) : (State.waitsAt r s).biDataAsked = s.biDataAsked := rfl
@[simp] theorem State.waitsAt_peerJobs (r : Pending) : (State.waitsAt r s).peerJobs = s.peerJobs := rfl
@[simp] theorem State.waitsAt_treeTags (r : Pending) : (State.waitsAt r s).treeTags = s.treeTags := rfl
@[simp] theorem State.waitsAt_saveAsked (r : Pending) : (State.waitsAt r s).saveAsked = s.saveAsked := rfl
@[simp] theorem State.waitsAt_flip (r : Pending) : (State.waitsAt r s).flip = s.flip := rfl
@[simp] theorem State.waitsAt_pegs (r : Pending) : (State.waitsAt r s).pegs = s.pegs := rfl
@[simp] theorem State.waitsAt_regs (r : Pending) : (State.waitsAt r s).regs = s.regs := rfl
@[simp] theorem State.waitsAt_events (r : Pending) : (State.waitsAt r s).events = s.events := rfl
@[simp] theorem State.waitsAt_out (r : Pending) : (State.waitsAt r s).out = s.out := rfl
@[simp] theorem State.waitsAt_time (r : Pending) : (State.waitsAt r s).time = s.time := rfl
@[simp] theorem State.waitsAt_fatal (r : Pending) : (State.waitsAt r s).fatal = s.fatal := rfl
@[simp] theorem State.waitsAt_package (r : Pending) : (State.waitsAt r s).package = s.package := rfl

@[simp] theorem State.captureUniform_agenda (w : Fields) (a : BitVec 64) : (State.captureUniform w a s).agenda = s.agenda := rfl
@[simp] theorem State.captureUniform_free (w : Fields) (a : BitVec 64) : (State.captureUniform w a s).free = s.free := rfl
@[simp] theorem State.captureUniform_gs (w : Fields) (a : BitVec 64) : (State.captureUniform w a s).gs = s.gs := rfl
@[simp] theorem State.captureUniform_teams (w : Fields) (a : BitVec 64) : (State.captureUniform w a s).teams = s.teams := rfl
@[simp] theorem State.captureUniform_clusters (w : Fields) (a : BitVec 64) : (State.captureUniform w a s).clusters = s.clusters := rfl
@[simp] theorem State.captureUniform_grids (w : Fields) (a : BitVec 64) : (State.captureUniform w a s).grids = s.grids := rfl
@[simp] theorem State.captureUniform_held (w : Fields) (a : BitVec 64) : (State.captureUniform w a s).held = s.held := rfl
@[simp] theorem State.captureUniform_cores (w : Fields) (a : BitVec 64) : (State.captureUniform w a s).cores = s.cores := rfl
@[simp] theorem State.captureUniform_works (w : Fields) (a : BitVec 64) : (State.captureUniform w a s).works = s.works := rfl
@[simp] theorem State.captureUniform_ops (w : Fields) (a : BitVec 64) : (State.captureUniform w a s).ops = s.ops := rfl
@[simp] theorem State.captureUniform_mem (w : Fields) (a : BitVec 64) : (State.captureUniform w a s).mem = s.mem := rfl
@[simp] theorem State.captureUniform_poison (w : Fields) (a : BitVec 64) : (State.captureUniform w a s).poison = s.poison := rfl
@[simp] theorem State.captureUniform_chip (w : Fields) (a : BitVec 64) : (State.captureUniform w a s).chip = s.chip := rfl
@[simp] theorem State.captureUniform_homeLines (w : Fields) (a : BitVec 64) : (State.captureUniform w a s).homeLines = s.homeLines := rfl
@[simp] theorem State.captureUniform_dirs (w : Fields) (a : BitVec 64) : (State.captureUniform w a s).dirs = s.dirs := rfl
@[simp] theorem State.captureUniform_clines (w : Fields) (a : BitVec 64) : (State.captureUniform w a s).clines = s.clines := rfl
@[simp] theorem State.captureUniform_msgs (w : Fields) (a : BitVec 64) : (State.captureUniform w a s).msgs = s.msgs := rfl
@[simp] theorem State.captureUniform_releasers (w : Fields) (a : BitVec 64) : (State.captureUniform w a s).releasers = s.releasers := rfl
@[simp] theorem State.captureUniform_suppress (w : Fields) (a : BitVec 64) : (State.captureUniform w a s).suppress = s.suppress := rfl
@[simp] theorem State.captureUniform_undef (w : Fields) (a : BitVec 64) : (State.captureUniform w a s).undef = s.undef := rfl
@[simp] theorem State.captureUniform_nextArrival (w : Fields) (a : BitVec 64) : (State.captureUniform w a s).nextArrival = s.nextArrival := rfl
@[simp] theorem State.captureUniform_hostReqs (w : Fields) (a : BitVec 64) : (State.captureUniform w a s).hostReqs = s.hostReqs := rfl
@[simp] theorem State.captureUniform_biFilter (w : Fields) (a : BitVec 64) : (State.captureUniform w a s).biFilter = s.biFilter := rfl
@[simp] theorem State.captureUniform_biAsked (w : Fields) (a : BitVec 64) : (State.captureUniform w a s).biAsked = s.biAsked := rfl
@[simp] theorem State.captureUniform_biDataAsked (w : Fields) (a : BitVec 64) : (State.captureUniform w a s).biDataAsked = s.biDataAsked := rfl
@[simp] theorem State.captureUniform_peerJobs (w : Fields) (a : BitVec 64) : (State.captureUniform w a s).peerJobs = s.peerJobs := rfl
@[simp] theorem State.captureUniform_treeTags (w : Fields) (a : BitVec 64) : (State.captureUniform w a s).treeTags = s.treeTags := rfl
@[simp] theorem State.captureUniform_saveAsked (w : Fields) (a : BitVec 64) : (State.captureUniform w a s).saveAsked = s.saveAsked := rfl
@[simp] theorem State.captureUniform_flip (w : Fields) (a : BitVec 64) : (State.captureUniform w a s).flip = s.flip := rfl
@[simp] theorem State.captureUniform_pegs (w : Fields) (a : BitVec 64) : (State.captureUniform w a s).pegs = s.pegs := rfl
@[simp] theorem State.captureUniform_regs (w : Fields) (a : BitVec 64) : (State.captureUniform w a s).regs = s.regs := rfl
@[simp] theorem State.captureUniform_events (w : Fields) (a : BitVec 64) : (State.captureUniform w a s).events = s.events := rfl
@[simp] theorem State.captureUniform_out (w : Fields) (a : BitVec 64) : (State.captureUniform w a s).out = s.out := rfl
@[simp] theorem State.captureUniform_time (w : Fields) (a : BitVec 64) : (State.captureUniform w a s).time = s.time := rfl
@[simp] theorem State.captureUniform_fatal (w : Fields) (a : BitVec 64) : (State.captureUniform w a s).fatal = s.fatal := rfl
@[simp] theorem State.captureUniform_package (w : Fields) (a : BitVec 64) : (State.captureUniform w a s).package = s.package := rfl

@[simp] theorem State.captureLanes_agenda (w : Fields) (b : Bool) (m : Mask) (f : Nat → BitVec 64) : (State.captureLanes w b m f s).agenda = s.agenda := rfl
@[simp] theorem State.captureLanes_free (w : Fields) (b : Bool) (m : Mask) (f : Nat → BitVec 64) : (State.captureLanes w b m f s).free = s.free := rfl
@[simp] theorem State.captureLanes_gs (w : Fields) (b : Bool) (m : Mask) (f : Nat → BitVec 64) : (State.captureLanes w b m f s).gs = s.gs := rfl
@[simp] theorem State.captureLanes_teams (w : Fields) (b : Bool) (m : Mask) (f : Nat → BitVec 64) : (State.captureLanes w b m f s).teams = s.teams := rfl
@[simp] theorem State.captureLanes_clusters (w : Fields) (b : Bool) (m : Mask) (f : Nat → BitVec 64) : (State.captureLanes w b m f s).clusters = s.clusters := rfl
@[simp] theorem State.captureLanes_grids (w : Fields) (b : Bool) (m : Mask) (f : Nat → BitVec 64) : (State.captureLanes w b m f s).grids = s.grids := rfl
@[simp] theorem State.captureLanes_held (w : Fields) (b : Bool) (m : Mask) (f : Nat → BitVec 64) : (State.captureLanes w b m f s).held = s.held := rfl
@[simp] theorem State.captureLanes_cores (w : Fields) (b : Bool) (m : Mask) (f : Nat → BitVec 64) : (State.captureLanes w b m f s).cores = s.cores := rfl
@[simp] theorem State.captureLanes_works (w : Fields) (b : Bool) (m : Mask) (f : Nat → BitVec 64) : (State.captureLanes w b m f s).works = s.works := rfl
@[simp] theorem State.captureLanes_ops (w : Fields) (b : Bool) (m : Mask) (f : Nat → BitVec 64) : (State.captureLanes w b m f s).ops = s.ops := rfl
@[simp] theorem State.captureLanes_mem (w : Fields) (b : Bool) (m : Mask) (f : Nat → BitVec 64) : (State.captureLanes w b m f s).mem = s.mem := rfl
@[simp] theorem State.captureLanes_poison (w : Fields) (b : Bool) (m : Mask) (f : Nat → BitVec 64) : (State.captureLanes w b m f s).poison = s.poison := rfl
@[simp] theorem State.captureLanes_chip (w : Fields) (b : Bool) (m : Mask) (f : Nat → BitVec 64) : (State.captureLanes w b m f s).chip = s.chip := rfl
@[simp] theorem State.captureLanes_homeLines (w : Fields) (b : Bool) (m : Mask) (f : Nat → BitVec 64) : (State.captureLanes w b m f s).homeLines = s.homeLines := rfl
@[simp] theorem State.captureLanes_dirs (w : Fields) (b : Bool) (m : Mask) (f : Nat → BitVec 64) : (State.captureLanes w b m f s).dirs = s.dirs := rfl
@[simp] theorem State.captureLanes_clines (w : Fields) (b : Bool) (m : Mask) (f : Nat → BitVec 64) : (State.captureLanes w b m f s).clines = s.clines := rfl
@[simp] theorem State.captureLanes_msgs (w : Fields) (b : Bool) (m : Mask) (f : Nat → BitVec 64) : (State.captureLanes w b m f s).msgs = s.msgs := rfl
@[simp] theorem State.captureLanes_releasers (w : Fields) (b : Bool) (m : Mask) (f : Nat → BitVec 64) : (State.captureLanes w b m f s).releasers = s.releasers := rfl
@[simp] theorem State.captureLanes_suppress (w : Fields) (b : Bool) (m : Mask) (f : Nat → BitVec 64) : (State.captureLanes w b m f s).suppress = s.suppress := rfl
@[simp] theorem State.captureLanes_undef (w : Fields) (b : Bool) (m : Mask) (f : Nat → BitVec 64) : (State.captureLanes w b m f s).undef = s.undef := rfl
@[simp] theorem State.captureLanes_nextArrival (w : Fields) (b : Bool) (m : Mask) (f : Nat → BitVec 64) : (State.captureLanes w b m f s).nextArrival = s.nextArrival := rfl
@[simp] theorem State.captureLanes_hostReqs (w : Fields) (b : Bool) (m : Mask) (f : Nat → BitVec 64) : (State.captureLanes w b m f s).hostReqs = s.hostReqs := rfl
@[simp] theorem State.captureLanes_biFilter (w : Fields) (b : Bool) (m : Mask) (f : Nat → BitVec 64) : (State.captureLanes w b m f s).biFilter = s.biFilter := rfl
@[simp] theorem State.captureLanes_biAsked (w : Fields) (b : Bool) (m : Mask) (f : Nat → BitVec 64) : (State.captureLanes w b m f s).biAsked = s.biAsked := rfl
@[simp] theorem State.captureLanes_biDataAsked (w : Fields) (b : Bool) (m : Mask) (f : Nat → BitVec 64) : (State.captureLanes w b m f s).biDataAsked = s.biDataAsked := rfl
@[simp] theorem State.captureLanes_peerJobs (w : Fields) (b : Bool) (m : Mask) (f : Nat → BitVec 64) : (State.captureLanes w b m f s).peerJobs = s.peerJobs := rfl
@[simp] theorem State.captureLanes_treeTags (w : Fields) (b : Bool) (m : Mask) (f : Nat → BitVec 64) : (State.captureLanes w b m f s).treeTags = s.treeTags := rfl
@[simp] theorem State.captureLanes_saveAsked (w : Fields) (b : Bool) (m : Mask) (f : Nat → BitVec 64) : (State.captureLanes w b m f s).saveAsked = s.saveAsked := rfl
@[simp] theorem State.captureLanes_flip (w : Fields) (b : Bool) (m : Mask) (f : Nat → BitVec 64) : (State.captureLanes w b m f s).flip = s.flip := rfl
@[simp] theorem State.captureLanes_pegs (w : Fields) (b : Bool) (m : Mask) (f : Nat → BitVec 64) : (State.captureLanes w b m f s).pegs = s.pegs := rfl
@[simp] theorem State.captureLanes_regs (w : Fields) (b : Bool) (m : Mask) (f : Nat → BitVec 64) : (State.captureLanes w b m f s).regs = s.regs := rfl
@[simp] theorem State.captureLanes_events (w : Fields) (b : Bool) (m : Mask) (f : Nat → BitVec 64) : (State.captureLanes w b m f s).events = s.events := rfl
@[simp] theorem State.captureLanes_out (w : Fields) (b : Bool) (m : Mask) (f : Nat → BitVec 64) : (State.captureLanes w b m f s).out = s.out := rfl
@[simp] theorem State.captureLanes_time (w : Fields) (b : Bool) (m : Mask) (f : Nat → BitVec 64) : (State.captureLanes w b m f s).time = s.time := rfl
@[simp] theorem State.captureLanes_fatal (w : Fields) (b : Bool) (m : Mask) (f : Nat → BitVec 64) : (State.captureLanes w b m f s).fatal = s.fatal := rfl
@[simp] theorem State.captureLanes_package (w : Fields) (b : Bool) (m : Mask) (f : Nat → BitVec 64) : (State.captureLanes w b m f s).package = s.package := rfl

@[simp] theorem State.setCore_agenda (c : CoreId) (k : Core) : (s.setCore c k).agenda = s.agenda := rfl
@[simp] theorem State.setCore_free (c : CoreId) (k : Core) : (s.setCore c k).free = s.free := rfl
@[simp] theorem State.setCore_g (c : CoreId) (k : Core) : (s.setCore c k).g = s.g := rfl
@[simp] theorem State.setCore_gs (c : CoreId) (k : Core) : (s.setCore c k).gs = s.gs := rfl
@[simp] theorem State.setCore_teams (c : CoreId) (k : Core) : (s.setCore c k).teams = s.teams := rfl
@[simp] theorem State.setCore_clusters (c : CoreId) (k : Core) : (s.setCore c k).clusters = s.clusters := rfl
@[simp] theorem State.setCore_grids (c : CoreId) (k : Core) : (s.setCore c k).grids = s.grids := rfl
@[simp] theorem State.setCore_held (c : CoreId) (k : Core) : (s.setCore c k).held = s.held := rfl
@[simp] theorem State.setCore_works (c : CoreId) (k : Core) : (s.setCore c k).works = s.works := rfl
@[simp] theorem State.setCore_ops (c : CoreId) (k : Core) : (s.setCore c k).ops = s.ops := rfl
@[simp] theorem State.setCore_mem (c : CoreId) (k : Core) : (s.setCore c k).mem = s.mem := rfl
@[simp] theorem State.setCore_poison (c : CoreId) (k : Core) : (s.setCore c k).poison = s.poison := rfl
@[simp] theorem State.setCore_chip (c : CoreId) (k : Core) : (s.setCore c k).chip = s.chip := rfl
@[simp] theorem State.setCore_homeLines (c : CoreId) (k : Core) : (s.setCore c k).homeLines = s.homeLines := rfl
@[simp] theorem State.setCore_dirs (c : CoreId) (k : Core) : (s.setCore c k).dirs = s.dirs := rfl
@[simp] theorem State.setCore_clines (c : CoreId) (k : Core) : (s.setCore c k).clines = s.clines := rfl
@[simp] theorem State.setCore_msgs (c : CoreId) (k : Core) : (s.setCore c k).msgs = s.msgs := rfl
@[simp] theorem State.setCore_releasers (c : CoreId) (k : Core) : (s.setCore c k).releasers = s.releasers := rfl
@[simp] theorem State.setCore_suppress (c : CoreId) (k : Core) : (s.setCore c k).suppress = s.suppress := rfl
@[simp] theorem State.setCore_undef (c : CoreId) (k : Core) : (s.setCore c k).undef = s.undef := rfl
@[simp] theorem State.setCore_nextArrival (c : CoreId) (k : Core) : (s.setCore c k).nextArrival = s.nextArrival := rfl
@[simp] theorem State.setCore_hostReqs (c : CoreId) (k : Core) : (s.setCore c k).hostReqs = s.hostReqs := rfl
@[simp] theorem State.setCore_biFilter (c : CoreId) (k : Core) : (s.setCore c k).biFilter = s.biFilter := rfl
@[simp] theorem State.setCore_biAsked (c : CoreId) (k : Core) : (s.setCore c k).biAsked = s.biAsked := rfl
@[simp] theorem State.setCore_biDataAsked (c : CoreId) (k : Core) : (s.setCore c k).biDataAsked = s.biDataAsked := rfl
@[simp] theorem State.setCore_peerJobs (c : CoreId) (k : Core) : (s.setCore c k).peerJobs = s.peerJobs := rfl
@[simp] theorem State.setCore_treeTags (c : CoreId) (k : Core) : (s.setCore c k).treeTags = s.treeTags := rfl
@[simp] theorem State.setCore_saveAsked (c : CoreId) (k : Core) : (s.setCore c k).saveAsked = s.saveAsked := rfl
@[simp] theorem State.setCore_flip (c : CoreId) (k : Core) : (s.setCore c k).flip = s.flip := rfl
@[simp] theorem State.setCore_pegs (c : CoreId) (k : Core) : (s.setCore c k).pegs = s.pegs := rfl
@[simp] theorem State.setCore_regs (c : CoreId) (k : Core) : (s.setCore c k).regs = s.regs := rfl
@[simp] theorem State.setCore_events (c : CoreId) (k : Core) : (s.setCore c k).events = s.events := rfl
@[simp] theorem State.setCore_out (c : CoreId) (k : Core) : (s.setCore c k).out = s.out := rfl
@[simp] theorem State.setCore_time (c : CoreId) (k : Core) : (s.setCore c k).time = s.time := rfl
@[simp] theorem State.setCore_fatal (c : CoreId) (k : Core) : (s.setCore c k).fatal = s.fatal := rfl
@[simp] theorem State.setCore_package (c : CoreId) (k : Core) : (s.setCore c k).package = s.package := rfl

@[simp] theorem State.modTeam_agenda (g : Group) (f : Team → Team) : (State.modTeam g f s).agenda = s.agenda := rfl
@[simp] theorem State.modTeam_free (g : Group) (f : Team → Team) : (State.modTeam g f s).free = s.free := rfl
@[simp] theorem State.modTeam_g (g : Group) (f : Team → Team) : (State.modTeam g f s).g = s.g := rfl
@[simp] theorem State.modTeam_gs (g : Group) (f : Team → Team) : (State.modTeam g f s).gs = s.gs := rfl
@[simp] theorem State.modTeam_clusters (g : Group) (f : Team → Team) : (State.modTeam g f s).clusters = s.clusters := rfl
@[simp] theorem State.modTeam_grids (g : Group) (f : Team → Team) : (State.modTeam g f s).grids = s.grids := rfl
@[simp] theorem State.modTeam_held (g : Group) (f : Team → Team) : (State.modTeam g f s).held = s.held := rfl
@[simp] theorem State.modTeam_cores (g : Group) (f : Team → Team) : (State.modTeam g f s).cores = s.cores := rfl
@[simp] theorem State.modTeam_works (g : Group) (f : Team → Team) : (State.modTeam g f s).works = s.works := rfl
@[simp] theorem State.modTeam_ops (g : Group) (f : Team → Team) : (State.modTeam g f s).ops = s.ops := rfl
@[simp] theorem State.modTeam_mem (g : Group) (f : Team → Team) : (State.modTeam g f s).mem = s.mem := rfl
@[simp] theorem State.modTeam_poison (g : Group) (f : Team → Team) : (State.modTeam g f s).poison = s.poison := rfl
@[simp] theorem State.modTeam_chip (g : Group) (f : Team → Team) : (State.modTeam g f s).chip = s.chip := rfl
@[simp] theorem State.modTeam_homeLines (g : Group) (f : Team → Team) : (State.modTeam g f s).homeLines = s.homeLines := rfl
@[simp] theorem State.modTeam_dirs (g : Group) (f : Team → Team) : (State.modTeam g f s).dirs = s.dirs := rfl
@[simp] theorem State.modTeam_clines (g : Group) (f : Team → Team) : (State.modTeam g f s).clines = s.clines := rfl
@[simp] theorem State.modTeam_msgs (g : Group) (f : Team → Team) : (State.modTeam g f s).msgs = s.msgs := rfl
@[simp] theorem State.modTeam_releasers (g : Group) (f : Team → Team) : (State.modTeam g f s).releasers = s.releasers := rfl
@[simp] theorem State.modTeam_suppress (g : Group) (f : Team → Team) : (State.modTeam g f s).suppress = s.suppress := rfl
@[simp] theorem State.modTeam_undef (g : Group) (f : Team → Team) : (State.modTeam g f s).undef = s.undef := rfl
@[simp] theorem State.modTeam_nextArrival (g : Group) (f : Team → Team) : (State.modTeam g f s).nextArrival = s.nextArrival := rfl
@[simp] theorem State.modTeam_hostReqs (g : Group) (f : Team → Team) : (State.modTeam g f s).hostReqs = s.hostReqs := rfl
@[simp] theorem State.modTeam_biFilter (g : Group) (f : Team → Team) : (State.modTeam g f s).biFilter = s.biFilter := rfl
@[simp] theorem State.modTeam_biAsked (g : Group) (f : Team → Team) : (State.modTeam g f s).biAsked = s.biAsked := rfl
@[simp] theorem State.modTeam_biDataAsked (g : Group) (f : Team → Team) : (State.modTeam g f s).biDataAsked = s.biDataAsked := rfl
@[simp] theorem State.modTeam_peerJobs (g : Group) (f : Team → Team) : (State.modTeam g f s).peerJobs = s.peerJobs := rfl
@[simp] theorem State.modTeam_treeTags (g : Group) (f : Team → Team) : (State.modTeam g f s).treeTags = s.treeTags := rfl
@[simp] theorem State.modTeam_saveAsked (g : Group) (f : Team → Team) : (State.modTeam g f s).saveAsked = s.saveAsked := rfl
@[simp] theorem State.modTeam_flip (g : Group) (f : Team → Team) : (State.modTeam g f s).flip = s.flip := rfl
@[simp] theorem State.modTeam_pegs (g : Group) (f : Team → Team) : (State.modTeam g f s).pegs = s.pegs := rfl
@[simp] theorem State.modTeam_regs (g : Group) (f : Team → Team) : (State.modTeam g f s).regs = s.regs := rfl
@[simp] theorem State.modTeam_events (g : Group) (f : Team → Team) : (State.modTeam g f s).events = s.events := rfl
@[simp] theorem State.modTeam_out (g : Group) (f : Team → Team) : (State.modTeam g f s).out = s.out := rfl
@[simp] theorem State.modTeam_time (g : Group) (f : Team → Team) : (State.modTeam g f s).time = s.time := rfl
@[simp] theorem State.modTeam_fatal (g : Group) (f : Team → Team) : (State.modTeam g f s).fatal = s.fatal := rfl
@[simp] theorem State.modTeam_package (g : Group) (f : Team → Team) : (State.modTeam g f s).package = s.package := rfl

@[simp] theorem State.event_events (e : Event) : (s.event e).events = s.events ++ [e] := rfl

end Sys2Proof.Machine
end

