-- ==== Sys2Proof/Laws/Issue.lean ====
section
/-! SUPPORT. The issue of an instruction that executes normally, and what `finish` does: said once, for every program instruction. -/
namespace Sys2Proof.Machine
open Sys2Proof Sys2Proof.Safety

theorem badEncoding_of_wellFormed {i : Instr} {w : Fields} (hf : i.fields = some w) (h : i.WellFormed = true) :
    badEncoding i w = none := by
  unfold Instr.WellFormed at h
  unfold badEncoding
  rw [hf] at h
  split at h
  · next f w' hform hw =>
    cases hw
    simp only [hform]
    simp only [Bool.and_eq_true, Option.isNone_iff_eq_none] at h
    exact h.2
  · cases h

theorem heldRegs_eq_nil {g : Group} {uses : List RegUse}
    (h : ∀ u ∈ uses, u.file = .v → ∀ r < u.count, g.holdCount (u.num + r) = 0) : heldRegs g uses = [] := by
  unfold heldRegs
  rw [List.filter_eq_nil_iff]
  intro n hn
  simp only [List.mem_flatten, List.mem_map, List.mem_filter] at hn
  obtain ⟨l, ⟨u, ⟨hu, hv⟩, rfl⟩, hl⟩ := hn
  simp only [List.mem_map, List.mem_range] at hl
  obtain ⟨r, hr, rfl⟩ := hl
  simpa using h u hu (by simpa using hv) r hr

theorem firstArmed_eq_none {g : Group} {uses : List RegUse}
    (h : ∀ u ∈ uses, u.file = .v → ∀ r < u.count, g.holdCount (u.num + r) = 0) : firstArmed g uses = none := by
  unfold firstArmed
  rw [List.findSome?_eq_none_iff]
  intro u hu
  have : heldRegs g [u] = [] :=
    heldRegs_eq_nil (by
      intro x hx
      rw [List.mem_singleton] at hx
      subst hx
      exact h x (List.mem_filter.mp hu).1)
  simp [this]

theorem firstOutOfBounds_eq_none {g : Group} {uses : List RegUse} (h : ∀ u ∈ uses, g.outOfBounds u = false) :
    firstOutOfBounds g uses = none := by
  unfold firstOutOfBounds
  rw [List.find?_eq_none]
  intro u hu
  simp [h u hu]

/-- An instruction that is ready runs its own effect. -/
theorem issueWith_ready {i : Instr} {w : Fields} {uses : List RegUse} {s : State} (system : Bool) (idle body : State → State)
    (hf : i.fields = some w) (hs : system = true → s.g.id.system = true) (h : Ready i w uses s) :
    s.issueWith i w system uses idle body = .next (body s) := by
  obtain ⟨hw, he, -, hm, hc, ho, hl, hh, -⟩ := h
  unfold State.issueWith
  rw [badEncoding_of_wellFormed hf hw]
  have h1 : ¬(s.g.issued = 23 ∧ (!w.e) = true) := by
    rintro ⟨a, b⟩
    simp [he a] at b
  have h2 : ¬((system = true ∧ (!s.g.id.system) = true) ∨ (monitorOnly i = true ∧ (!s.g.id.monitor) = true)) := by
    rintro (⟨a, b⟩ | ⟨a, b⟩)
    · simp [hs a] at b
    · simp [hm a] at b
  have h3 : ¬(waitClass i = true ∧ s.g.issued ≠ 0) := by
    rintro ⟨a, b⟩
    exact b (hc a)
  have h4 : heldRegs s.g (if stallsOnHolds i = true then uses else []) = [] := by
    split
    · exact heldRegs_eq_nil hh
    · rfl
  simp only [if_neg h1, if_neg h2, if_neg h3, firstOutOfBounds_eq_none ho, if_neg hl, firstArmed_eq_none hh, h4]

/-- The ordinary issue of an instruction that is ready. -/
theorem issue_ready {i : Instr} {w : Fields} {uses : List RegUse} {s : State} (body : State → State)
    (hf : i.fields = some w) (h : Ready i w uses s) : s.issue i w uses body = .next (body s) :=
  issueWith_ready _ _ body hf h.2.2.1 h

/-- The group after an instruction is done, before its run ends (R76, R317). -/
def Group.stepped (g : Group) (closes : Bool) : Group :=
  let g := { g with pc := (g.pc + 16) % 2 ^ 52, issued := g.issued + 1, stall := .none, ibuf := g.ibuf.drop 1 }
  if closes then g.enterRegion else g

theorem Group.stepped_boundaryFaults (g : Group) (c : Bool) : (g.stepped c).boundaryFaults = g.boundaryFaults := by cases c <;> rfl

/-- `finish` with no fault waiting at the boundary. -/
theorem finish_eq {w : Fields} {s : State} (c : Bool) (h : w.e = true → s.g.boundaryFaults = []) :
    s.finish w c = { s with g := if w.e then (s.g.stepped c).completeRun else s.g.stepped c } := by
  unfold State.finish
  cases he : w.e
  · rfl
  · simp only [if_true]
    unfold State.boundary
    split
    · rfl
    · next f l hf =>
      exfalso
      have : s.g.boundaryFaults = f :: l := (s.g.stepped_boundaryFaults c).symm.trans hf
      rw [h he] at this
      cases this

/-- What `finish` leaves of the group: all but the run's bookkeeping, when no region closes. -/
theorem still_finish {w : Fields} {s : State} (h : w.e = true → s.g.boundaryFaults = []) :
    still (s.finish w false).g = still s.g := by
  rw [finish_eq false h]
  cases he : w.e <;> rfl

theorem finish_rest {w : Fields} {s : State} (c : Bool) (h : w.e = true → s.g.boundaryFaults = []) (g : Group) :
    { s.finish w c with g := g } = { s with g := g } := by
  rw [finish_eq c h]

theorem finish_advanced {w : Fields} {s : State} (c : Bool) (h : w.e = true → s.g.boundaryFaults = []) :
    Advanced w s (s.finish w c) := by
  rw [finish_eq c h]
  unfold Advanced
  cases c <;> cases he : w.e <;> exact ⟨rfl, rfl, rfl, rfl, rfl⟩

end Sys2Proof.Machine
end

