-- ==== Sys2Proof/Laws/Results.lean ====
section
/-! SUPPORT. Synchronous results: what `putResult` and the shapes `laneResult`, `laneMask`, `flaggedResult` and `floatMask` do, said
once for every instruction that writes its result through them. -/
namespace Sys2Proof.Machine
open Sys2Proof Sys2Proof.Safety

/-- The group has other result registers, flags and latches than `g`, and is `g` in all else. -/
def Group.OnlyRegs (g h : Group) : Prop := ∃ v s hs k lat, h = { g with v := v, s := s, hs := hs, k := k, lat := lat }

theorem Group.OnlyRegs.refl (g : Group) : g.OnlyRegs g := ⟨_, _, _, _, _, rfl⟩

theorem Group.OnlyRegs.trans {g h k : Group} (a : g.OnlyRegs h) (b : h.OnlyRegs k) : g.OnlyRegs k := by
  obtain ⟨_, _, _, _, _, rfl⟩ := a
  obtain ⟨_, _, _, _, _, rfl⟩ := b
  exact ⟨_, _, _, _, _, rfl⟩

theorem Group.writeS_onlyRegs (g : Group) (n : Nat) (a : Word64) : g.OnlyRegs (g.writeS n a) := by
  unfold Group.writeS
  split <;> exact ⟨_, _, _, _, _, rfl⟩

theorem Group.writeK_onlyRegs (g : Group) (n : Nat) (a : Mask) : g.OnlyRegs (g.writeK n a) := by
  unfold Group.writeK
  split
  · exact .refl g
  · exact ⟨_, _, _, _, _, rfl⟩

theorem Group.writeLanes_onlyRegs (g : Group) (n : Nat) (b : Bool) (m : Mask) (f : Nat → BitVec 64) :
    g.OnlyRegs (g.writeLanes n b m f) := by
  unfold Group.writeLanes
  split <;> exact ⟨_, _, _, _, _, rfl⟩

theorem Group.readV_writeLanes (g : Group) (n : Nat) (b : Bool) (m : Mask) (f : Nat → BitVec 64) (j l : Nat) (hj : j < 256)
    (hl : l < 32) :
    (g.writeLanes n b m f).readV j l =
      if m.getLsbD l = true ∧ j = n then (f l).setWidth 32
      else if m.getLsbD l = true ∧ b = true ∧ j = n + 1 then (f l >>> 32).setWidth 32 else g.readV j l := by
  unfold Group.writeLanes
  cases b
  · simp only [Bool.false_eq_true, if_false, Group.readV_writeVMask _ _ _ _ _ _ hj hl, false_and, and_false, and_comm]
  · simp only [if_true, Group.readV_writeVMask _ _ _ _ _ _ hj hl, true_and]
    by_cases h1 : m.getLsbD l = true
    · by_cases h2 : j = n
      · have h3 : ¬ j = n + 1 := by omega
        simp [h1, h2]
      · simp [h1, h2]
    · simp [h1]

theorem captureUniform_onlyRegs (w : Fields) (x : BitVec 64) (s : State) :
    ∃ g, s.captureUniform w x = { s with g := g } ∧ s.g.OnlyRegs g := ⟨_, rfl, _, _, _, _, _, rfl⟩

theorem captureLanes_onlyRegs (w : Fields) (b : Bool) (m : Mask) (f : Nat → BitVec 64) (s : State) :
    ∃ g, s.captureLanes w b m f = { s with g := g } ∧ s.g.OnlyRegs g := ⟨_, rfl, _, _, _, _, _, rfl⟩

/-- `putResult` changes only result registers and latches. -/
theorem putResult_onlyRegs (w : Fields) (b : Bool) (f : Nat → BitVec 64) (s : State) :
    ∃ g, s.putResult w b f = { s with g := g } ∧ s.g.OnlyRegs g := by
  unfold State.putResult
  cases w.g
  · simp only [Bool.false_eq_true, if_false]
    cases w.n <;> cases w.dfile <;> simp only [Bool.or_true, Bool.or_false, decide_true, Bool.true_or, Bool.false_or, if_true,
      Bool.false_eq_true, if_false, reduceCtorEq, decide_false]
    case false.v => exact ⟨_, rfl, Group.OnlyRegs.trans ⟨_, _, _, _, _, rfl⟩ (Group.writeLanes_onlyRegs _ _ _ _ _)⟩
    case false.s => exact ⟨_, rfl, (Group.writeS_onlyRegs s.g _ _).trans ⟨_, _, _, _, _, rfl⟩⟩
    case false.k => exact ⟨_, rfl, (Group.writeK_onlyRegs s.g _ _).trans ⟨_, _, _, _, _, rfl⟩⟩
    all_goals exact ⟨_, rfl, _, _, _, _, _, rfl⟩
  · simp only [if_true]
    cases w.n <;> cases w.dfile <;> simp only [if_true, Bool.false_eq_true, if_false]
    case false.v => exact ⟨_, rfl, (Group.writeLanes_onlyRegs s.g _ _ _ _).trans ⟨_, _, _, _, _, rfl⟩⟩
    case false.s => exact ⟨_, rfl, (Group.writeS_onlyRegs s.g _ _).trans ⟨_, _, _, _, _, rfl⟩⟩
    case false.k => exact ⟨_, rfl, (Group.writeK_onlyRegs s.g _ _).trans ⟨_, _, _, _, _, rfl⟩⟩
    all_goals exact ⟨_, rfl, _, _, _, _, _, rfl⟩

@[simp] theorem Group.readV_writeS (g : Group) (n : Nat) (a : Word64) (j l : Nat) : (g.writeS n a).readV j l = g.readV j l := by
  simp [Group.readV]
@[simp] theorem Group.readV_writeK (g : Group) (n : Nat) (a : Mask) (j l : Nat) : (g.writeK n a).readV j l = g.readV j l := by
  simp [Group.readV]
@[simp] theorem Group.readK_writeS (g : Group) (n : Nat) (a : Word64) (j : Nat) : (g.writeS n a).readK j = g.readK j := by
  simp [Group.readK]
@[simp] theorem Group.readS_writeK (g : Group) (n : Nat) (a : Mask) (j : Nat) : (g.writeK n a).readS j = g.readS j := by
  simp [Group.readS]
@[simp] theorem Group.readS_writeLanes (g : Group) (n : Nat) (b : Bool) (m : Mask) (f : Nat → BitVec 64) (j : Nat) :
    (g.writeLanes n b m f).readS j = g.readS j := by
  unfold Group.writeLanes
  split <;> rfl
@[simp] theorem Group.readK_writeLanes (g : Group) (n : Nat) (b : Bool) (m : Mask) (f : Nat → BitVec 64) (j : Nat) :
    (g.writeLanes n b m f).readK j = g.readK j := by
  unfold Group.writeLanes
  split <;> rfl
@[simp] theorem Group.readV_lat (g : Group) (a : Vector (Vector (Option (BitVec 64)) 32) 4) (j l : Nat) :
    Group.readV { g with lat := a } j l = g.readV j l := rfl
@[simp] theorem Group.readS_lat (g : Group) (a : Vector (Vector (Option (BitVec 64)) 32) 4) (j : Nat) :
    Group.readS { g with lat := a } j = g.readS j := rfl
@[simp] theorem Group.readK_lat (g : Group) (a : Vector (Vector (Option (BitVec 64)) 32) 4) (j : Nat) :
    Group.readK { g with lat := a } j = g.readK j := rfl

/-- What the registers hold after `putResult` (R66). -/
theorem putResult_written (w : Fields) (b : Bool) (f : Nat → BitVec 64) (s : State)
    (hs : w.n = false → w.dfile = .s → s.g.dnum w < 64) (hk : w.n = false → w.dfile = .k → s.g.dnum w < 16) :
    Written w b f s (s.putResult w b f) := by
  unfold Written State.putResult
  cases hg : w.g
  · simp only [Bool.false_eq_true, if_false]
    cases hn : w.n
    · cases hd : w.dfile
      · simp only [decide_true, Bool.or_true, if_true, Bool.false_eq_true, if_false, State.captureLanes, reduceCtorEq, false_and,
          and_false, implies_true, and_true, true_and, Group.readS_writeLanes, Group.readK_writeLanes, Group.readS_lat,
          Group.readK_lat]
        intro n hn l hl
        rw [Group.readV_writeLanes _ _ _ _ _ _ _ hn hl]
        simp [rd_ofFn, hl, laneVal, cutTo, hg]
      · simp only [State.captureUniform, reduceCtorEq, decide_false, Bool.or_false, Bool.false_eq_true, if_false, and_false, false_and,
          true_and, and_true, Group.readV_lat, Group.readS_lat, Group.readK_lat, Group.readV_writeS, Group.readK_writeS,
          Group.readS_writeS _ _ _ _ (hs hn hd), implies_true]
        intro n _
        by_cases h : n = s.g.dnum w <;> simp [h, uniVal, cutTo, hg]
      · simp [State.captureUniform]
      · simp only [State.captureUniform, reduceCtorEq, decide_false, Bool.or_false, Bool.false_eq_true, if_false, and_false, false_and,
          Group.readV_lat, Group.readS_lat, Group.readK_lat, Group.readV_writeK, Group.readS_writeK, implies_true, true_and]
        intro n _
        rw [Group.readK_writeK _ _ _ _ (hk hn hd)]
        by_cases h : n = s.g.dnum w <;> simp [h, uniVal, cutTo, hg]
    · simp [State.captureLanes]
  · simp only [if_true]
    cases hn : w.n
    · cases hd : w.dfile
      · simp only [State.captureUniform, Bool.false_eq_true, if_false, reduceCtorEq, false_and,
          and_false, implies_true, and_true, true_and, Group.readS_writeLanes, Group.readK_writeLanes, Group.readS_lat,
          Group.readK_lat, Group.readV_lat]
        intro n hn l hl
        rw [Group.readV_writeLanes _ _ _ _ _ _ _ hn hl]
        simp [laneVal, cutTo, hg]
      · simp only [State.captureUniform, reduceCtorEq, decide_false, Bool.or_false, Bool.false_eq_true, if_false, and_false, false_and,
          true_and, and_true, Group.readV_lat, Group.readS_lat, Group.readK_lat, Group.readV_writeS, Group.readK_writeS,
          Group.readS_writeS _ _ _ _ (hs hn hd), implies_true]
        intro n _
        by_cases h : n = s.g.dnum w <;> simp [h, uniVal, cutTo, hg]
      · simp [State.captureUniform]
      · simp only [State.captureUniform, reduceCtorEq, Bool.false_eq_true, if_false, and_false, false_and,
          Group.readV_lat, Group.readS_lat, Group.readK_lat, Group.readV_writeK, Group.readS_writeK, implies_true, true_and]
        intro n _
        rw [Group.readK_writeK _ _ _ _ (hk hn hd)]
        by_cases h : n = s.g.dnum w <;> simp [h, uniVal, cutTo, hg]
    · simp [State.captureUniform]

/-- The bank of uniform registers that is not selected keeps its values. -/
theorem putResult_bankKept (w : Fields) (b : Bool) (f : Nat → BitVec 64) (s : State) : BankKept w s (s.putResult w b f) := by
  unfold BankKept State.putResult
  cases hg : w.g <;> cases hn : w.n <;> cases hd : w.dfile <;>
    simp only [State.captureUniform, State.captureLanes, Group.writeLanes, Group.writeS, Group.writeK, reduceCtorEq, decide_false,
      decide_true, Bool.or_false, Bool.or_true, Bool.false_eq_true, if_false, if_true, and_false, and_true] <;>
    (repeat' split) <;> simp_all [Group.writeVMask]

/-- The latches after `putResult`. -/
theorem putResult_lat (w : Fields) (b : Bool) (f : Nat → BitVec 64) (s : State) :
    (s.putResult w b f).g.lat =
      if w.g || (!w.n && w.dfile ≠ .v) then wr s.g.lat w.cap.toNat (Vector.replicate 32 (some (uniVal w b f s)))
      else wr s.g.lat w.cap.toNat (latchLanes s b w.cap.toNat (s.g.lanes w) (laneVal w b f)
        (rd (Vector.replicate 32 none) s.g.lat w.cap.toNat)) := by
  have hc : ∀ (b : Bool) (g g' : Nat → BitVec 64), (∀ l < 32, g l = g' l) → latchLanes s b w.cap.toNat (s.g.lanes w) g
      (rd (Vector.replicate 32 none) s.g.lat w.cap.toNat) = latchLanes s b w.cap.toNat (s.g.lanes w) g'
      (rd (Vector.replicate 32 none) s.g.lat w.cap.toNat) := by
    intro b g g' h
    unfold latchLanes
    congr 1
    funext l
    rw [h l.1 l.2]
  unfold State.putResult uniVal laneVal
  cases hg : w.g <;> cases hn : w.n <;> cases hd : w.dfile <;> cases b <;>
    simp only [State.captureUniform, State.captureLanes, Group.writeLanes, reduceCtorEq, decide_false, decide_true, Bool.or_false,
      Bool.or_true, Bool.true_or, Bool.false_or, Bool.not_false, Bool.not_true, Bool.and_true, Bool.false_and, Bool.and_false, ne_eq,
      not_true_eq_false, not_false_eq_true, Bool.false_eq_true, if_false, if_true, cutTo, Group.writeVMask_lat, Group.writeS_lat,
      Group.writeK_lat, rd_ofFn]
  all_goals
    congr 1
    exact hc _ _ _ fun l hl => by simp [hl]

theorem low_append (x : BitVec 32) (y : BitVec 64) : (x ++ y.setWidth 32).setWidth 32 = y.setWidth 32 := by
  ext i hi
  rw [BitVec.getElem_setWidth, BitVec.getLsbD_append, if_pos hi, BitVec.getElem_setWidth, BitVec.getLsbD_setWidth]
  simp [hi]

/-- What latch CAP holds after `putResult` (R72). -/
theorem putResult_latched (w : Fields) (b : Bool) (f : Nat → BitVec 64) (s : State) :
    Latched w b f s (s.putResult w b f) := by
  intro _ n hn l hl
  simp only [latchLane, putResult_lat]
  generalize (w.g || !w.n && decide (w.dfile ≠ .v)) = u
  by_cases hc : n = w.cap.toNat
  · have hn' : w.cap.toNat < 4 := hc ▸ hn
    cases u
    · simp only [rd_wr, latchLanes, rd_ofFn, hl, hn', hc, dite_true, and_self, if_true, ne_eq, not_true_eq_false, if_false, Bool.false_eq_true]
      cases (s.g.lanes w).getLsbD l
      · simp
      · cases b
        · exact ⟨_, rfl, low_append _ _⟩
        · exact ⟨_, rfl, rfl⟩
    · simp [rd_wr, rd_replicate, hl, hn', hc]
  · cases u <;> simp [rd_wr, hc]

/-- From the bounds check of the destination: its number, by file. -/
theorem dest_in_range {w : Fields} {b : Bool} {g : Group} {uses : List RegUse} (hu : ∀ u ∈ uses, g.outOfBounds u = false)
    (hd : ∀ u ∈ g.useDest w b, u ∈ uses) :
    (w.n = false → w.dfile = .s → g.dnum w < 64) ∧ (w.n = false → w.dfile = .k → g.dnum w < 16) ∧
      (w.n = false → w.dfile = .p → g.dnum w < 16) := by
  refine ⟨fun hn hf => ?_, fun hn hf => ?_, fun hn hf => ?_⟩ <;>
  · have := hu _ (hd { pos := 0, file := w.dfile, num := g.dnum w, write := true } (by simp [Group.useDest, hn, hf]))
    simp [Group.outOfBounds, Group.limit, hf] at this
    omega

/-- Memory does not depend on the issuing group. -/
theorem physRead_group (s : State) (g : Group) : ∀ a n, State.physRead { s with g := g } a n = s.physRead a n
  | _, 0 => rfl
  | a, n + 1 => congrArg (lineByte (s.newest (a / 128)).1 (a % 128) :: ·) (physRead_group s g (a + 1) n)

/-- The rest of the state after a group-only change and `finish`. -/
theorem only_finish {w : Fields} {s : State} (g : Group) (h : w.e = true → g.boundaryFaults = []) :
    Only s (State.finish w false { s with g := g }) g := by
  refine ⟨still_finish h, ?_, ?_⟩
  · rw [finish_rest (s := { s with g := g }) false h]
  · intro a n
    rw [finish_eq (s := { s with g := g }) false h]
    exact physRead_group s _ a n

theorem still_fields {g h : Group} (e : still g = still h) :
    g.v = h.v ∧ g.s = h.s ∧ g.hs = h.hs ∧ g.k = h.k ∧ g.depth = h.depth ∧ g.flags = h.flags := by
  refine ⟨?_, ?_, ?_, ?_, ?_, ?_⟩
  · have := congrArg Group.v e; exact this
  · have := congrArg Group.s e; exact this
  · have := congrArg Group.hs e; exact this
  · have := congrArg Group.k e; exact this
  · have := congrArg Group.depth e; exact this
  · have := congrArg Group.flags e; exact this

/-- `Written` depends on the registers only. -/
theorem written_congr {w : Fields} {b : Bool} {f : Nat → BitVec 64} {s t u : State} (h : Written w b f s t)
    (e : still u.g = still t.g) : Written w b f s u := by
  obtain ⟨hv, hs, hhs, hk, hd, -⟩ := still_fields e
  obtain ⟨a, b, c⟩ := h
  refine ⟨fun n hn l hl => ?_, fun n hn => ?_, fun n hn => ?_⟩
  · rw [← a n hn l hl]; simp [Group.readV, hv]
  · rw [← b n hn]; simp [Group.readS, hs, hhs, hd]
  · rw [← c n hn]; simp [Group.readK, hk]

/-- A synchronous result and the end of the instruction: the whole effect. -/
theorem yields_finish {w : Fields} {b : Bool} {f : Nat → BitVec 64} {s : State} (he : w.e = true → s.g.boundaryFaults = [])
    (hs : w.n = false → w.dfile = .s → s.g.dnum w < 64) (hk : w.n = false → w.dfile = .k → s.g.dnum w < 16) :
    Yields w b f s ((s.putResult w b f).finish w false) := by
  obtain ⟨g, hg, v, sx, hx, k, lat, rfl⟩ := putResult_onlyRegs w b f s
  have hw := putResult_written w b f s hs hk
  have hl := putResult_latched w b f s
  have hb := putResult_bankKept w b f s
  rw [hg] at hw hl hb ⊢
  have hst := still_finish (s := { s with g := { s.g with v := v, s := sx, hs := hx, k := k, lat := lat } }) (w := w) he
  obtain ⟨e1, e2, e3, e4, e5, -⟩ := still_fields hst
  refine ⟨written_congr hw hst, ?_, ?_, ?_, ?_⟩
  · intro hE n hn l hl'
    have := hl hE n hn l hl'
    have e : ∀ x : State, w.e = false → (x.finish w false).g.lat = x.g.lat := fun x h => by simp [State.finish, h]
    simpa only [latchLane, e _ hE] using this
  · revert hb
    unfold BankKept
    rw [e2, e3]
    exact id
  · exact finish_advanced (s := { s with g := { s.g with v := v, s := sx, hs := hx, k := k, lat := lat } }) false he
  · have := only_finish (s := s) (w := w) { s.g with v := v, s := sx, hs := hx, k := k, lat := lat } he
    refine ⟨this.1.trans ?_, this.2⟩
    unfold regsOf
    rw [e1, e2, e3, e4]
    rfl

/-- What `laneResult` answers when the instruction is ready: the result is written, and nothing else happens. -/
theorem laneResult_yields {i : Instr} {w : Fields} {uses : List RegUse} {f : State → Nat → BitVec 64} {s : State}
    (hf : i.fields = some w) (h : Ready i w uses s) (hd : ∀ u ∈ s.g.useDest w w.type.wide, u ∈ uses) :
    ∃ t, laneResult i w uses f s = .next t ∧ Yields w w.type.wide (f s) s t := by
  have hr := dest_in_range h.2.2.2.2.2.1 hd
  exact ⟨_, issue_ready _ hf h, yields_finish h.2.2.2.2.2.2.2.2 hr.1 hr.2.1⟩

end Sys2Proof.Machine
end

