-- ==== Sys2Proof/Laws/Results2.lean ====
section
/-! SUPPORT. What a legal word tells of its destination, and the shapes of mask, flagged, partial and pointer results. -/
namespace Sys2Proof.Machine
open Sys2Proof Sys2Proof.Safety

theorem firstPosition_eq_none {d a b c : Bool} (h : firstPosition d a b c = none) : d = false ∧ a = false ∧ b = false ∧ c = false := by
  unfold firstPosition at h
  cases d <;> cases a <;> cases b <;> cases c <;> simp_all

/-- What a word that breaks no row of R82 tells. -/
theorem form_facts {f : Form} {w : Fields} (h : f.badPosition w = none) :
    (f.dst = [] → w.n = false ∧ w.dnum = 0 ∧ w.dfile = .v ∧ w.didx = 0 ∧ w.cap = 0) ∧
    (f.dst ≠ [] → w.n = false → w.dfile ∈ f.dst) ∧
    (w.n = true → w.dnum = 0 ∧ w.dfile = .v ∧ w.didx = 0) ∧
    (f.types ≠ [] → ∃ t ∈ f.types, Ty.ofCode w.ty = some t) ∧
    f.typeOk = true ∧ f.fieldsOk = true ∧ f.gOk = true ∧ (f.needE = true → w.e = true) ∧
    (f.late = true → w.n = false ∧ w.cap = 0) := by
  unfold Form.badPosition at h
  split at h
  · cases h
  next hz =>
  split at h
  · cases h
  next ht =>
  split at h
  · cases h
  next hf =>
  split at h
  · cases h
  next ho =>
  have hz' : firstPosition
      (f.dst.isEmpty && (w.dnum ≠ 0 || w.dfile ≠ .v || w.didx ≠ 0 || w.n || w.cap ≠ 0))
      (f.a.breaksZero w.a) (f.b.breaksZero w.b) (f.c.breaksZero w.c) = none := by
    unfold Form.zeroRow at hz
    split at hz
    · cases hz
    · assumption
  have z := (firstPosition_eq_none hz').1
  have d := (firstPosition_eq_none hf).1
  unfold Form.typeRow at ht
  unfold Form.lastRows at h
  rw [ite_eq_right_iff] at ht
  replace ht := fun c => Option.some_ne_none _ (ht c)
  split at h
  · cases h
  next hl =>
  split at h
  · cases h
  next hg =>
  simp only [Bool.or_eq_true, Bool.and_eq_true, Bool.not_eq_true', not_or, not_and, Bool.not_eq_false, Bool.not_eq_true,
    decide_eq_true_eq, ne_eq, imp_false, Decidable.not_not, Bool.and_eq_false_imp, Bool.or_eq_false_iff, decide_eq_false_iff_not, List.isEmpty_iff,
    List.isEmpty_eq_false_iff] at z d ht hl hg
  refine ⟨?_, ?_, ?_, ?_, ht.1.2, ht.2, hg.1, hg.2, hl.2⟩
  · intro he
    obtain ⟨⟨⟨⟨a, b⟩, c⟩, e⟩, g⟩ := z he
    exact ⟨e, a, b, c, g⟩
  · intro he hn
    simpa using d ⟨he, hn⟩
  · intro hn
    obtain ⟨⟨a, b⟩, c⟩ := hl.1 hn
    exact ⟨a, b, c⟩
  · intro he
    have := ht.1.1 he
    split at this
    · next t hty => exact ⟨t, by simpa using this, hty⟩
    · cases this

/-- A program instruction that is well formed has a form, which its word does not break. -/
theorem wellFormed_form {i : Instr} {w : Fields} {f : Form} (hf : i.fields = some w) (hi : i.form = some f)
    (h : i.WellFormed = true) : f.badPosition w = none := by
  unfold Instr.WellFormed at h
  rw [hf, hi] at h
  simpa using (Bool.and_eq_true_iff.mp h).2

/-! Masks. -/

theorem leNatBits_testBit : ∀ (bs : List Bool) (i : Nat), (State.putMask.leNatBits bs).testBit i = bs.getD i false
  | [], i => by simp [State.putMask.leNatBits]
  | b :: bs, 0 => by
    unfold State.putMask.leNatBits
    cases b <;> simp [Nat.testBit_zero]
  | b :: bs, i + 1 => by
    have h : ((if b then 1 else 0) + 2 * State.putMask.leNatBits bs) / 2 = State.putMask.leNatBits bs := by
      cases b <;> simp <;> omega
    rw [State.putMask.leNatBits, Nat.testBit_succ, h, leNatBits_testBit bs i]
    simp

/-- The mask that `putMask` writes. -/
def maskWord (m : Mask) (f : Nat → Bool) : Mask :=
  BitVec.ofNat 32 (State.putMask.leNatBits ((List.range 32).map (fun l => m.getLsbD l && f l)))

theorem maskWord_bit (m : Mask) (f : Nat → Bool) {l : Nat} (hl : l < 32) : (maskWord m f).getLsbD l = (m.getLsbD l && f l) := by
  unfold maskWord
  simp only [BitVec.getLsbD_ofNat, hl, decide_true, Bool.true_and, leNatBits_testBit]
  simp [List.getD, hl]

/-- A mask result and the end of the instruction, after flags `g₁` were raised. -/
theorem maskYields_finish {w : Fields} {f : Nat → Bool} {fl : Nat → FlagBits} {s : State}
    (he : w.e = true → s.g.boundaryFaults = []) (hk : w.n = false → s.g.dnum w < 16) :
    MaskYields w f fl s ((State.putMask w f { s with g := s.g.raiseFlags (s.g.lanes w) fl }).finish w false) := by
  have hflag : ∀ l < 32, rd 0 (orFlags s.g.flags (s.g.lanes w) fl) l =
      if (s.g.lanes w).getLsbD l then rd 0 s.g.flags l ||| fl l else rd 0 s.g.flags l := by
    intro l hl
    simp [orFlags, rd_ofFn, hl]
  unfold Group.raiseFlags
  generalize orFlags s.g.flags (s.g.lanes w) fl = F at hflag
  have key : ∀ k : Vector Mask 16,
      (∀ n < 16, Group.readK { s.g with k := k } n =
        if w.n = false ∧ n = s.g.dnum w ∧ n ≠ 0 then maskWord (s.g.lanes w) f else s.g.readK n) →
      MaskYields w f fl s (State.finish w false { s with g := { s.g with
        k := k, flags := F, lat := wr s.g.lat w.cap.toNat (Vector.replicate 32 (some ((maskWord (s.g.lanes w) f).setWidth 64))) } }) := by
    intro k h1
    have hst := still_finish (w := w) (s := { s with g := { s.g with
        k := k, flags := F, lat := wr s.g.lat w.cap.toNat (Vector.replicate 32 (some ((maskWord (s.g.lanes w) f).setWidth 64))) } }) he
    obtain ⟨-, -, -, e4, -, e6⟩ := still_fields hst
    refine ⟨⟨maskWord (s.g.lanes w) f, fun l hl => maskWord_bit _ _ hl, ?_, ?_⟩, ?_, finish_advanced false he, ?_⟩
    · intro n hn
      rw [← h1 n hn]
      simp [Group.readK, e4]
    · intro hE n hn l hl
      by_cases hc : n = w.cap.toNat
      · have hn' : w.cap.toNat < 4 := hc ▸ hn
        simp [latchLane, State.finish, hE, rd_wr, rd_replicate, hl, hc, hn']
      · simp [latchLane, State.finish, hE, rd_wr, hc]
    · intro l hl
      rw [e6]
      exact hflag l hl
    · have := only_finish (s := s) (w := w) { s.g with
        k := k, flags := F, lat := wr s.g.lat w.cap.toNat (Vector.replicate 32 (some ((maskWord (s.g.lanes w) f).setWidth 64))) } he
      refine ⟨this.1.trans ?_, this.2⟩
      rw [e4, e6]
      rfl
  unfold State.putMask
  change MaskYields w f fl s (State.finish w false (State.captureUniform w ((maskWord (s.g.lanes w) f).setWidth 64)
    { s with g := if w.n then { s.g with flags := F }
                  else Group.writeK { s.g with flags := F } (s.g.dnum w) (maskWord (s.g.lanes w) f) }))
  cases hn : w.n
  · by_cases h0 : s.g.dnum w = 0
    · rw [if_neg Bool.false_ne_true, show ∀ a, Group.writeK { s.g with flags := F } (s.g.dnum w) a = { s.g with flags := F } by
        intro a; simp [Group.writeK, h0]]
      refine key s.g.k fun n _ => ?_
      rw [if_neg (by rintro ⟨-, a, b⟩; exact b (a.trans h0))]
    · rw [if_neg Bool.false_ne_true, show ∀ a, Group.writeK { s.g with flags := F } (s.g.dnum w) a =
        { s.g with flags := F, k := wr s.g.k (s.g.dnum w) a } by intro a; simp [Group.writeK, h0]]
      refine key (wr s.g.k (s.g.dnum w) (maskWord (s.g.lanes w) f)) fun n _ => ?_
      have := Group.readK_writeK s.g (s.g.dnum w) n (maskWord (s.g.lanes w) f) (hk hn)
      simp only [Group.writeK, h0, if_false] at this
      rw [this]
      by_cases hd : n = s.g.dnum w <;> simp [hd, hn, h0]
  · rw [if_pos rfl]
    refine key s.g.k fun n _ => ?_
    rw [if_neg (by rintro ⟨a, -⟩; rw [hn] at a; cases a)]

/-- No flag raised is no change of the flags. -/
theorem raiseFlags_zero (g : Group) (m : Mask) : g.raiseFlags m (fun _ => 0) = g := by
  unfold Group.raiseFlags
  have : orFlags g.flags m (fun _ => 0) = g.flags := by
    ext i hi
    simp [orFlags, rd_eq, hi]
  rw [this]

/-- What `laneMask` answers when the instruction is ready. -/
theorem laneMask_yields {i : Instr} {w : Fields} {uses : List RegUse} {f : State → Nat → Bool} {s : State}
    (hf : i.fields = some w) (h : Ready i w uses s) (hk : w.n = false → s.g.dnum w < 16) :
    ∃ t, laneMask i w uses f s = .next t ∧ MaskYields w (f s) (fun _ => 0) s t := by
  refine ⟨_, issue_ready _ hf h, ?_⟩
  have := maskYields_finish (f := f s) (fl := fun _ => 0) h.2.2.2.2.2.2.2.2 hk
  rwa [raiseFlags_zero] at this

/-- What `floatMask` answers when the instruction is ready. -/
theorem floatMask_yields {i : Instr} {w : Fields} {uses : List RegUse} {f : State → Nat → Bool × FlagBits} {s : State}
    (hf : i.fields = some w) (h : Ready i w uses s) (hk : w.n = false → s.g.dnum w < 16) :
    ∃ t, floatMask i w uses f s = .next t ∧ MaskYields w (fun l => (f s l).1) (fun l => (f s l).2) s t := by
  refine ⟨_, issue_ready _ hf h, ?_⟩
  have := maskYields_finish (f := fun l => (rd (false, 0) (Vector.ofFn fun l : Fin 32 => f s l.1) l).1)
    (fl := fun l => (rd (false, 0) (Vector.ofFn fun l : Fin 32 => f s l.1) l).2) h.2.2.2.2.2.2.2.2 hk
  obtain ⟨⟨x, a, b, c⟩, d, e⟩ := this
  refine ⟨⟨x, fun l hl => ?_, b, c⟩, fun l hl => ?_, e⟩
  · simpa [rd_ofFn, hl] using a l hl
  · simpa [rd_ofFn, hl] using d l hl

/-! Results with flags. -/

/-- A result after flags were raised, and the end of the instruction. -/
theorem yieldsFlags_finish {w : Fields} {b : Bool} {f : Nat → BitVec 64} {fl : Nat → FlagBits} {s : State}
    (he : w.e = true → s.g.boundaryFaults = [])
    (hs : w.n = false → w.dfile = .s → s.g.dnum w < 64) (hk : w.n = false → w.dfile = .k → s.g.dnum w < 16) :
    YieldsFlags w b f fl s ((State.putResult w b f { s with g := s.g.raiseFlags (s.g.lanes w) fl }).finish w false) := by
  have hflag : ∀ l < 32, rd 0 (orFlags s.g.flags (s.g.lanes w) fl) l =
      if (s.g.lanes w).getLsbD l then rd 0 s.g.flags l ||| fl l else rd 0 s.g.flags l := by
    intro l hl
    simp [orFlags, rd_ofFn, hl]
  unfold Group.raiseFlags
  generalize orFlags s.g.flags (s.g.lanes w) fl = F at hflag
  obtain ⟨a, l, k, ad, ho1, ho2, ho3⟩ := yields_finish (w := w) (b := b) (f := f) (s := { s with g := { s.g with flags := F } }) he hs hk
  refine ⟨a, l, k, ?_, ad, ?_, congrArg (fun x : State => { x with g := s.g }) ho2, fun x y => (ho3 x y).trans (physRead_group s _ x y)⟩
  · intro l hl
    rw [(still_fields ho1).2.2.2.2.2]
    exact hflag l hl
  · refine ho1.trans ?_
    have := (still_fields ho1).2.2.2.2.2
    unfold regsOf at this ⊢
    rw [this]

theorem findFrom_lt {p : Nat → Bool} : ∀ {n i j : Nat}, findFrom p n i = some j → j < i + n
  | 0, _, _, h => by simp [findFrom] at h
  | n + 1, i, j, h => by
    unfold findFrom at h
    split at h
    · cases h; omega
    · have := findFrom_lt h; omega

theorem findFrom_none {p : Nat → Bool} : ∀ {n i : Nat}, findFrom p n i = none → ∀ j, i ≤ j → j < i + n → p j = false
  | 0, i, _, j, h1, h2 => by omega
  | n + 1, i, h, j, h1, h2 => by
    unfold findFrom at h
    split at h
    · cases h
    · next hp =>
      by_cases hj : j = i
      · subst hj; simpa using hp
      · exact findFrom_none h j (by omega) (by omega)

/-- The lowest lane of a mask that is not empty. -/
theorem lowestLane_lt {m : Mask} (h : m ≠ 0) : lowestLane m < 32 := by
  unfold lowestLane
  cases hf : findFrom (fun l => m.getLsbD l) 32 0 with
  | some j => exact findFrom_lt hf
  | none =>
    exfalso
    apply h
    apply BitVec.eq_of_getLsbD_eq
    intro i hi
    simpa using findFrom_none hf i (by omega) (by omega)

theorem yieldsFlags_congr {w : Fields} {b : Bool} {f f' : Nat → BitVec 64} {fl fl' : Nat → FlagBits} {s t : State}
    (hm : s.g.lanes w ≠ 0) (hf : ∀ l < 32, f l = f' l) (hfl : ∀ l < 32, fl l = fl' l) (h : YieldsFlags w b f fl s t) :
    YieldsFlags w b f' fl' s t := by
  have hu : uniVal w b f s = uniVal w b f' s := by
    unfold uniVal
    rw [hf]
    split
    · omega
    · exact lowestLane_lt hm
  have hl : ∀ l < 32, laneVal w b f l = laneVal w b f' l := by
    intro l hl
    unfold laneVal
    rw [hf]
    split
    · omega
    · exact hl
  obtain ⟨⟨a1, a2, a3⟩, l, k, fg, ad, o⟩ := h
  refine ⟨⟨fun n hn i hi => ?_, fun n hn => ?_, fun n hn => ?_⟩, fun hE n hn i hi => ?_, k, fun i hi => ?_, ad, o⟩
  · rw [← hl i hi]; exact a1 n hn i hi
  · rw [← hu]; exact a2 n hn
  · rw [← hu]; exact a3 n hn
  · rw [← hl i hi, ← hu]; exact l hE n hn i hi
  · rw [← hfl i hi]; exact fg i hi

/-- What `flaggedResult` answers when the instruction is ready. -/
theorem flaggedResult_yields {i : Instr} {w : Fields} {uses : List RegUse} {b : Bool} {f : State → Nat → BitVec 64 × FlagBits}
    {s : State} (hf : i.fields = some w) (h : Ready i w uses s) (hd : ∀ u ∈ s.g.useDest w b, u ∈ uses) :
    ∃ t, flaggedResult i w uses b f s = .next t ∧
      YieldsFlags w b (fun l => (f s (if w.g then 0 else l)).1) (fun l => (f s (if w.g then 0 else l)).2) s t := by
  have hr := dest_in_range h.2.2.2.2.2.1 hd
  refine ⟨_, issue_ready _ hf h, ?_⟩
  have := yieldsFlags_finish (b := b) (f := fun l => (rd (0, 0) (Vector.ofFn fun l : Fin 32 => f s (if w.g then 0 else l.1)) l).1)
    (fl := fun l => (rd (0, 0) (Vector.ofFn fun l : Fin 32 => f s (if w.g then 0 else l.1)) l).2) h.2.2.2.2.2.2.2.2 hr.1 hr.2.1
  exact yieldsFlags_congr h.2.2.2.2.2.2.1 (fun l hl => by simp [rd_ofFn, hl]) (fun l hl => by simp [rd_ofFn, hl]) this

/-- What `predResult` answers when the instruction is ready. -/
theorem predResult_yields {i : Instr} {w : Fields} {f : State → Mask} {s : State} (hf : i.fields = some w)
    (h : Ready i w (s.g.useDest w false ++ s.g.useOf 1 w.a false ++ (if w.b = {} then [] else s.g.useOf 2 w.b false)) s) :
    ∃ t, predResult i w f s = .next t ∧ Yields w false (fun _ => (f s).setWidth 64) s t := by
  have hr := dest_in_range (w := w) (b := false) h.2.2.2.2.2.1 (fun u hu => by simp [hu])
  exact ⟨_, issue_ready _ hf h, yields_finish h.2.2.2.2.2.2.2.2 hr.1 hr.2.1⟩

/-! Partial results. -/

theorem low_append' (x : BitVec 32) (y : BitVec 64) : (x ++ y.setWidth 32).setWidth 32 = y.setWidth 32 := low_append x y

theorem foldl_bits (p : Nat → Bool) : ∀ (n : Nat), ∀ l, ((List.range n).foldl (fun a i => if p i then a + 2 ^ i else a) 0).testBit l
      = (decide (l < n) && p l) ∧ (List.range n).foldl (fun a i => if p i then a + 2 ^ i else a) 0 < 2 ^ n
  | 0, l => by simp
  | n + 1, l => by
    have ih := foldl_bits p n
    have hlt := (ih 0).2
    rw [List.range_succ, List.foldl_append]
    simp only [List.foldl_cons, List.foldl_nil]
    generalize (List.range n).foldl (fun a i => if p i then a + 2 ^ i else a) 0 = x at ih hlt ⊢
    cases hp : p n
    · refine ⟨?_, ?_⟩
      · simp only [Bool.false_eq_true, if_false]
        rw [(ih l).1]
        by_cases h : l = n
        · subst h; simp [hp]
        · have : (decide (l < n)) = decide (l < n + 1) := by
            by_cases h' : l < n <;> simp [h'] <;> omega
          rw [this]
      · simp only [Bool.false_eq_true, if_false]
        have := Nat.pow_lt_pow_right (a := 2) (by omega) (Nat.lt_succ_self n)
        omega
    · simp only [if_true]
      refine ⟨?_, ?_⟩
      · rw [Nat.add_comm]
        rcases Nat.lt_trichotomy l n with h | h | h
        · rw [Nat.testBit_two_pow_add_gt h, (ih l).1]
          have h' : l < n + 1 := by omega
          simp [h, h']
        · subst h
          rw [Nat.testBit_two_pow_add_eq, (ih l).1]
          simp [hp]
        · have h' : ¬ l < n + 1 := by omega
          rw [Nat.testBit_lt_two_pow]
          · simp [h']
          · have := Nat.pow_le_pow_right (n := 2) (by omega) h
            rw [Nat.succ_eq_add_one, Nat.pow_succ] at this
            omega
      · have : 2 ^ (n + 1) = 2 ^ n + 2 ^ n := by rw [Nat.pow_succ]; omega
        omega

/-- What `putSome` and the end of the instruction do. -/
theorem partYields_finish {w : Fields} {b : Bool} {f : Nat → Option (BitVec 64)} {s : State}
    (he : w.e = true → s.g.boundaryFaults = []) (hm : s.g.lanes w ≠ 0) (hs : w.n = false → w.dfile ≠ .v → s.g.dnum w < 64) :
    PartYields w b f s ((s.putSome w b f).finish w false) := by
  let m := s.g.lanes w
  let at_ : Nat → Option (BitVec 64) := fun l => rd none (Vector.ofFn fun l : Fin 32 => if m.getLsbD l.1 then f l.1 else none) l
  have hat : ∀ l < 32, at_ l = if m.getLsbD l then f l else none := fun l hl => by simp [at_, rd_ofFn, hl]
  let m' : Mask := BitVec.ofNat 32 ((List.range 32).foldl (fun n l => if (at_ l).isSome then n + 2 ^ l else n) 0)
  have hm' : ∀ l < 32, m'.getLsbD l = (at_ l).isSome := by
    intro l hl
    simp only [m', BitVec.getLsbD_ofNat, hl, decide_true, Bool.true_and, (foldl_bits (fun l => (at_ l).isSome) 32 l).1]
  let val : Nat → BitVec 64 := fun l => (at_ l).getD 0
  have key : ∀ (v : Vector VReg 256) (sx : Vector Word64 64) (hx : Vector Word64 8) (lat : Vector (Vector (Option (BitVec 64)) 32) 4)
      (r : State), r = { s with g := { s.g with v := v, s := sx, hs := hx, lat := lat } } →
      (∀ n < 256, ∀ l < 32, r.g.readV n l =
        match f l with
        | some x =>
          if w.n = false ∧ w.dfile = .v ∧ m.getLsbD l = true ∧ n = s.g.dnum w then x.setWidth 32
          else if w.n = false ∧ w.dfile = .v ∧ m.getLsbD l = true ∧ b = true ∧ n = s.g.dnum w + 1 then (x >>> 32).setWidth 32
          else s.g.readV n l
        | none => s.g.readV n l) →
      (∀ n < 64, r.g.readS n =
        match f (lowestLane m) with
        | some x => if (w.n || w.dfile = .v) = false ∧ n = s.g.dnum w then x else s.g.readS n
        | none => s.g.readS n) →
      (∀ n < 4, ∀ l < 32,
        if n = w.cap.toNat then
          (if w.n || w.dfile = .v then
            (match (if m.getLsbD l then f l else none) with
             | some x => ∃ y, latchLane r.g n l = some y ∧ (if b then y = x else y.setWidth 32 = x.setWidth 32)
             | none => latchLane r.g n l = latchLane s.g n l)
           else latchLane r.g n l = (match f (lowestLane m) with | some x => some x | none => latchLane s.g n l))
        else latchLane r.g n l = latchLane s.g n l) →
      (if (w.n || w.dfile = .v) = true ∨ f (lowestLane m) = none then sx = s.g.s ∧ hx = s.g.hs
       else if 0 < s.g.depth ∧ s.g.dnum w < 8 then sx = s.g.s else hx = s.g.hs) →
      PartYields w b f s (r.finish w false) := by
    rintro v sx hx lat r rfl h1 h2 h3 h4
    have hst := still_finish (w := w) (s := { s with g := { s.g with v := v, s := sx, hs := hx, lat := lat } }) he
    obtain ⟨e1, e2, e3, -, e5, -⟩ := still_fields hst
    refine ⟨?_, ?_, ?_, ?_, finish_advanced false he, ?_⟩
    · intro n hn l hl
      exact Eq.trans (by simp [Group.readV, e1]) (h1 n hn l hl)
    · intro n hn
      exact Eq.trans (by simp [Group.readS, e2, e3, e5]) (h2 n hn)
    · intro hE n hn l hl
      have e : ∀ x : State, latchLane (x.finish w false).g n l = latchLane x.g n l :=
        fun x => by simp [latchLane, State.finish, hE]
      rw [e]
      exact h3 n hn l hl
    · rw [e2, e3]
      exact h4
    · have := only_finish (s := s) (w := w) { s.g with v := v, s := sx, hs := hx, lat := lat } he
      refine ⟨this.1.trans ?_, this.2⟩
      rw [e1, e2, e3]
      rfl
  have hlow : lowestLane m < 32 := lowestLane_lt hm
  unfold State.putSome
  by_cases hv : (w.n || decide (w.dfile = .v)) = true
  · rw [if_pos hv]
    have hlat : ∀ n < 4, ∀ l < 32, rd none (rd (Vector.replicate 32 none) (s.captureLanes w b m' val).g.lat n) l =
        if n = w.cap.toNat then
          (match (if m.getLsbD l then f l else none) with
           | some x => some (captured s b w.cap.toNat l x)
           | none => rd none (rd (Vector.replicate 32 none) s.g.lat n) l)
        else rd none (rd (Vector.replicate 32 none) s.g.lat n) l := by
      intro n hn l hl
      by_cases hc : n = w.cap.toNat
      · have hn' : w.cap.toNat < 4 := hc ▸ hn
        simp only [State.captureLanes, latchLanes, rd_wr, rd_ofFn, hl, hn', hc, dite_true, and_self, if_true, hm' l hl, hat l hl, val]
        cases (if m.getLsbD l = true then f l else none) <;> rfl
      · simp [State.captureLanes, rd_wr, hc]
    have hcap : s.captureLanes w b m' val = { s with g := { s.g with lat := (s.captureLanes w b m' val).g.lat } } := rfl
    have hlane : ∀ n < 4, ∀ l < 32,
        if n = w.cap.toNat then
          (match (if m.getLsbD l then f l else none) with
           | some x => ∃ y, rd none (rd (Vector.replicate 32 none) (s.captureLanes w b m' val).g.lat n) l = some y ∧
              (if b then y = x else y.setWidth 32 = x.setWidth 32)
           | none => rd none (rd (Vector.replicate 32 none) (s.captureLanes w b m' val).g.lat n) l = latchLane s.g n l)
        else rd none (rd (Vector.replicate 32 none) (s.captureLanes w b m' val).g.lat n) l = latchLane s.g n l := by
      intro n hn l hl
      rw [hlat n hn l hl]
      by_cases hc : n = w.cap.toNat
      · rw [if_pos hc, if_pos hc]
        cases (if m.getLsbD l = true then f l else none) with
        | none => rfl
        | some x =>
          refine ⟨_, rfl, ?_⟩
          cases b
          · exact low_append' _ _
          · rfl
      · rw [if_neg hc, if_neg hc]
        rfl
    have hS : ∀ n < 64, s.g.readS n =
        match f (lowestLane m) with
        | some x => if (w.n || decide (w.dfile = .v)) = false ∧ n = s.g.dnum w then x else s.g.readS n
        | none => s.g.readS n := by
      intro n _
      cases f (lowestLane m) with
      | none => rfl
      | some x => simp [hv]
    cases hn : w.n
    · have hd : w.dfile = .v := by simpa [hn] using hv
      simp only [Bool.false_eq_true, if_false]
      obtain ⟨gx, hx⟩ : ∃ v, (s.captureLanes w b m' val).g.writeLanes (s.g.dnum w) b m' val =
          { (s.captureLanes w b m' val).g with v := v } := by
        unfold Group.writeLanes
        split <;> exact ⟨_, rfl⟩
      refine key gx s.g.s s.g.hs (s.captureLanes w b m' val).g.lat _ (by
        show ({ s.captureLanes w b m' val with g := (s.captureLanes w b m' val).g.writeLanes (s.g.dnum w) b m' val } : State) = _
        rw [hx]; rfl) ?_ ?_ ?_ ?_
      · intro n hn' l hl
        show Group.readV ((s.captureLanes w b m' val).g.writeLanes (s.g.dnum w) b m' val) n l = _
        rw [Group.readV_writeLanes _ _ _ _ _ _ _ hn' hl, hm' l hl]
        have hr : (s.captureLanes w b m' val).g.readV n l = s.g.readV n l := rfl
        simp only [val, hat l hl, hr, hd, hn, true_and]
        cases hml : m.getLsbD l
        · cases f l <;> simp
        · cases f l <;> simp
      · intro n hn'
        show Group.readS ((s.captureLanes w b m' val).g.writeLanes (s.g.dnum w) b m' val) n = _
        rw [Group.readS_writeLanes]
        exact hS n hn'
      · intro n hn' l hl
        have := hlane n hn' l hl
        have hx' : ∀ j i, latchLane ((s.captureLanes w b m' val).g.writeLanes (s.g.dnum w) b m' val) j i =
            rd none (rd (Vector.replicate 32 none) (s.captureLanes w b m' val).g.lat j) i := by
          intro j i
          rw [hx]
          rfl
        rw [show ∀ x : State, (x = { s.captureLanes w b m' val with
            g := (s.captureLanes w b m' val).g.writeLanes (s.g.dnum w) b m' val }) →
            latchLane x.g n l = rd none (rd (Vector.replicate 32 none) (s.captureLanes w b m' val).g.lat n) l from
          fun x hxe => by rw [hxe]; exact hx' n l]
        · simp only [hd, decide_true, Bool.or_true, if_true]
          exact this
        · rfl
      · simp [hd]
    · simp only [if_true]
      refine key s.g.v s.g.s s.g.hs (s.captureLanes w b m' val).g.lat _ hcap ?_ ?_ ?_ ?_
      · intro n _ l _
        show s.g.readV n l = _
        cases f l <;> simp [hn]
      · intro n hn'
        exact hS n hn'
      · intro n hn' l hl
        have := hlane n hn' l hl
        simp only [hn, Bool.true_or, if_true]
        exact this
      · simp [hn]
  · rw [if_neg hv]
    have hv' : (w.n || decide (w.dfile = .v)) = false := by simpa using hv
    have hn : w.n = false := by
      cases h : w.n
      · rfl
      · simp [h] at hv'
    have hd : w.dfile ≠ .v := by
      intro h
      simp [h] at hv'
    have hV : ∀ n l, s.g.readV n l =
        match f l with
        | some x =>
          if w.n = false ∧ w.dfile = .v ∧ m.getLsbD l = true ∧ n = s.g.dnum w then x.setWidth 32
          else if w.n = false ∧ w.dfile = .v ∧ m.getLsbD l = true ∧ b = true ∧ n = s.g.dnum w + 1 then (x >>> 32).setWidth 32
          else s.g.readV n l
        | none => s.g.readV n l := by
      intro n l
      cases f l <;> simp [hd]
    cases hx : f (lowestLane (s.g.lanes w)) with
    | none =>
      refine key s.g.v s.g.s s.g.hs s.g.lat s rfl (fun n _ l _ => hV n l) ?_ ?_ ?_
      · intro n _
        rw [show f (lowestLane m) = none from hx]
      · intro n _ l _
        rw [show f (lowestLane m) = none from hx, if_neg hv]
        split <;> rfl
      · rw [if_pos (Or.inr hx)]
        exact ⟨rfl, rfl⟩
    | some x =>
      have hsx := Group.readS_writeS s.g (s.g.dnum w)
      obtain ⟨sx, hh, hw, hbank⟩ : ∃ sx hh, s.g.writeS (s.g.dnum w) x = { s.g with s := sx, hs := hh } ∧
          (if 0 < s.g.depth ∧ s.g.dnum w < 8 then sx = s.g.s else hh = s.g.hs) := by
        unfold Group.writeS
        split
        · exact ⟨_, _, rfl, by simp⟩
        · exact ⟨_, _, rfl, by simp⟩
      refine key s.g.v sx hh (wr s.g.lat w.cap.toNat (Vector.replicate 32 (some x))) _ ?_ ?_ ?_ ?_ ?_
      · show State.captureUniform w x { s with g := s.g.writeS (s.g.dnum w) x } = _
        rw [hw]
        rfl
      · intro n _ l _
        show Group.readV { s.g.writeS (s.g.dnum w) x with lat := _ } n l = _
        rw [Group.readV_lat, Group.readV_writeS]
        exact hV n l
      · intro n _
        show Group.readS { s.g.writeS (s.g.dnum w) x with lat := _ } n = _
        rw [Group.readS_lat, hsx n x (hs hn hd), show f (lowestLane m) = some x from hx]
        simp [hv']
      · intro n hn' l hl
        rw [show f (lowestLane m) = some x from hx, if_neg hv]
        by_cases hc : n = w.cap.toNat
        · have hc' : w.cap.toNat < 4 := hc ▸ hn'
          simp [latchLane, State.captureUniform, rd_wr, rd_replicate, hl, hc, hc']
        · simp [latchLane, State.captureUniform, rd_wr, hc]
      · rw [if_neg]
        · exact hbank
        · rintro (h | h)
          · exact hv h
          · rw [show f (lowestLane m) = some x from hx] at h
            cases h

/-- What `partialResult` answers when the instruction is ready. -/
theorem partialResult_yields {i : Instr} {w : Fields} {uses : List RegUse} {f : State → Nat → Option (BitVec 64)} {s : State}
    (hf : i.fields = some w) (h : Ready i w uses s) (hs : w.n = false → w.dfile ≠ .v → s.g.dnum w < 64) :
    ∃ t, partialResult i w uses f s = .next t ∧ PartYields w w.type.wide (f s) s t :=
  ⟨_, issue_ready _ hf h, partYields_finish h.2.2.2.2.2.2.2.2 h.2.2.2.2.2.2.1 hs⟩

end Sys2Proof.Machine
end

