-- ==== Sys2Proof/Laws/Integers.lean ====
section
/-! SUPPORT. Integer values: what `mapElems` writes into each element. -/
namespace Sys2Proof.Machine
open Sys2Proof Sys2Proof.Safety

theorem ofSigned_cast (e : Nat) (x : Int) : (ofSigned e x : Int) = x % 2 ^ e := by
  have h : (0 : Int) < 2 ^ e := Int.pow_pos (by decide)
  exact Int.toNat_of_nonneg (Int.emod_nonneg x (Int.ne_of_gt h))

theorem ofSigned_lt (e : Nat) (x : Int) : ofSigned e x < 2 ^ e := by
  have h : (0 : Int) < 2 ^ e := Int.pow_pos (by decide)
  have h1 := ofSigned_cast e x
  have h2 := Int.emod_lt_of_pos x h
  rw [← h1] at h2
  exact_mod_cast h2

/-- A number put together from elements of `e` bits holds each of them. -/
theorem packed_elems (e : Nat) (g : Nat → Nat) (hg : ∀ k, g k < 2 ^ e) (n : Nat) :
    (List.range n).foldl (fun x k => x + g k * 2 ^ (e * k)) 0 < 2 ^ (e * n) ∧
      ∀ k < n, bitsAt (e * k) e ((List.range n).foldl (fun x k => x + g k * 2 ^ (e * k)) 0) = g k := by
  induction n with
  | zero => simp
  | succ n ih =>
    obtain ⟨hlt, hk⟩ := ih
    rw [List.range_succ, List.foldl_append]
    generalize (List.range n).foldl (fun x k => x + g k * 2 ^ (e * k)) 0 = x at *
    show x + g n * 2 ^ (e * n) < 2 ^ (e * (n + 1)) ∧ ∀ k < n + 1, bitsAt (e * k) e (x + g n * 2 ^ (e * n)) = g k
    have hn := hg n
    have hp : 0 < 2 ^ (e * n) := Nat.pow_pos (by decide)
    refine ⟨?_, fun k hkn => ?_⟩
    · have h1 : (g n + 1) * 2 ^ (e * n) ≤ 2 ^ e * 2 ^ (e * n) := Nat.mul_le_mul_right _ hn
      rw [Nat.mul_add, Nat.pow_add, Nat.mul_one, Nat.mul_comm (2 ^ (e * n))]
      rw [Nat.add_mul, Nat.one_mul] at h1
      omega
    · simp only [bitsAt, Nat.shiftRight_eq_div_pow]
      rcases Nat.lt_succ_iff_lt_or_eq.mp hkn with h | rfl
      · have h2 := hk k h
        simp only [bitsAt, Nat.shiftRight_eq_div_pow] at h2
        obtain ⟨d, rfl⟩ : ∃ d, n = k + 1 + d := ⟨n - (k + 1), by omega⟩
        have h3 : g (k + 1 + d) * 2 ^ (e * (k + 1 + d)) = 2 ^ (e * k) * (2 ^ e * (g (k + 1 + d) * 2 ^ (e * d))) := by
          rw [Nat.mul_add, Nat.mul_add, Nat.pow_add, Nat.pow_add, Nat.mul_one]
          ac_rfl
        rw [h3, Nat.add_mul_div_left _ _ (Nat.pow_pos (by decide)), Nat.add_mul_mod_self_left, h2]
      · rw [Nat.add_mul_div_right _ _ hp, Nat.div_eq_of_lt hlt, Nat.zero_add, Nat.mod_eq_of_lt hn]

theorem Ty.elems_le (t : Ty) : (Ty.elems t).1 * (Ty.elems t).2 ≤ 64 := by cases t <;> decide

/-- Element `k` of an element-wise result is the exact result modulo 2^w. -/
theorem mapElems_bits (t : Ty) (f : Int → Int → Int → Int) (a b c : BitVec 64) (k : Nat) (hk : k < (Ty.elems t).2) :
    bitsAt ((Ty.elems t).1 * k) (Ty.elems t).1 (mapElems t f a b c).toNat =
      ofSigned (Ty.elems t).1 (f (elemValue t (Ty.elems t).1 (bitsAt ((Ty.elems t).1 * k) (Ty.elems t).1 a.toNat))
        (elemValue t (Ty.elems t).1 (bitsAt ((Ty.elems t).1 * k) (Ty.elems t).1 b.toNat))
        (elemValue t (Ty.elems t).1 (bitsAt ((Ty.elems t).1 * k) (Ty.elems t).1 c.toNat))) := by
  obtain ⟨hlt, hv⟩ := packed_elems (Ty.elems t).1 (fun k => ofSigned (Ty.elems t).1
    (f (elemValue t (Ty.elems t).1 (bitsAt ((Ty.elems t).1 * k) (Ty.elems t).1 a.toNat))
        (elemValue t (Ty.elems t).1 (bitsAt ((Ty.elems t).1 * k) (Ty.elems t).1 b.toNat))
        (elemValue t (Ty.elems t).1 (bitsAt ((Ty.elems t).1 * k) (Ty.elems t).1 c.toNat))))
    (fun k => ofSigned_lt _ _) (Ty.elems t).2
  have h64 := Nat.lt_of_lt_of_le hlt (Nat.pow_le_pow_right (by decide) (Ty.elems_le t))
  show bitsAt _ _ (BitVec.ofNat 64 _).toNat = _
  rw [BitVec.toNat_ofNat, Nat.mod_eq_of_lt h64]
  exact hv k hk

/-- An integer instruction built by `laneResult` and `mapElems` writes its exact results. -/
theorem laneResult_exact {i : Instr} {w : Fields} {uses : List RegUse} {s : State} (g : State → Nat → Int → Int → Int → Int)
    (x y z : State → Nat → BitVec 64) (hf : i.fields = some w) (hd : ∀ u ∈ s.g.useDest w w.type.wide, u ∈ uses)
    (he : exec i s = laneResult i w uses (fun s l => mapElems w.type (g s l) (x s l) (y s l) (z s l)) s) (f : Nat → Nat → Int)
    (hv : ∀ l k, g s l (elem w (x s l) k) (elem w (y s l) k) (elem w (z s l) k) = f l k) : IntResult i w uses s f := by
  intro h
  obtain ⟨t, ht, hy⟩ := laneResult_yields (f := fun s l => mapElems w.type (g s l) (x s l) (y s l) (z s l)) hf h hd
  refine ⟨t, he.trans ht, _, hy, fun l _ k hk => ?_⟩
  have := mapElems_bits w.type (g s l) (x s l) (y s l) (z s l) k hk
  rw [this, ofSigned_cast]
  congr 1
  exact hv l k

/-- A bit instruction built by `laneResult`. -/
theorem laneResult_bits {i : Instr} {w : Fields} {uses : List RegUse} {s : State} {v : State → Nat → BitVec 64}
    (hf : i.fields = some w) (hd : ∀ u ∈ s.g.useDest w w.type.wide, u ∈ uses)
    (he : exec i s = laneResult i w uses v s) {bit : Nat → Nat → Bool}
    (hb : Ready i w uses s → ∀ l < 32, ∀ j < w.type.width, (v s l).getLsbD j = bit l j) : BitResult i w uses s bit := by
  intro h
  obtain ⟨t, ht, hy⟩ := laneResult_yields (f := v) hf h hd
  exact ⟨t, he.trans ht, _, hy, hb h⟩

end Sys2Proof.Machine
end

