-- ==== Sys2Proof/Laws/Memory.lean ====
section
/-! SUPPORT. Memory: every operation keeps the canonical form, and a byte that was written reads back. -/
namespace Sys2Proof.Machine
open Sys2Proof Sys2Proof.Safety

theorem memWfFrom_mono {lo hi : Nat} (h : lo ≤ hi) : ∀ {m : Memory}, memWfFrom hi m = true → memWfFrom lo m = true
  | [], _ => rfl
  | (x, b) :: rest, w => by
    simp only [memWfFrom, Bool.and_eq_true, decide_eq_true_eq] at w ⊢
    exact ⟨⟨by omega, w.1.2⟩, w.2⟩

/-- Below the bound of the form nothing is listed. -/
theorem memGet_below {lo a : Nat} (h : a < lo) : ∀ {m : Memory}, memWfFrom lo m = true → memGet m a = 0
  | [], _ => rfl
  | (x, b) :: rest, w => by
    simp only [memWfFrom, Bool.and_eq_true, decide_eq_true_eq] at w
    simp only [memGet]
    rw [if_neg (by omega), if_pos (by omega)]

theorem memPut_wfFrom {lo a : Nat} {b : Byte} (ha : lo ≤ a) : ∀ {m : Memory}, memWfFrom lo m = true → memWfFrom lo (memPut m a b) = true
  | [], _ => by
    simp only [memPut]
    split
    · rfl
    · next hb => simp only [memWfFrom, Bool.and_eq_true, decide_eq_true_eq]; exact ⟨⟨ha, hb⟩, trivial⟩
  | (x, c) :: rest, w => by
    simp only [memWfFrom, Bool.and_eq_true, decide_eq_true_eq] at w
    simp only [memPut]
    split
    · next e =>
      subst e
      split
      · exact memWfFrom_mono (by omega) w.2
      · next hb => simp only [memWfFrom, Bool.and_eq_true, decide_eq_true_eq]; exact ⟨⟨ha, hb⟩, w.2⟩
    · split
      · split
        · simp only [memWfFrom, Bool.and_eq_true, decide_eq_true_eq]
          exact w
        · simp only [memWfFrom, Bool.and_eq_true, decide_eq_true_eq]
          exact ⟨⟨ha, ‹_›⟩, ⟨by omega, w.1.2⟩, w.2⟩
      · simp only [memWfFrom, Bool.and_eq_true, decide_eq_true_eq]
        exact ⟨w.1, memPut_wfFrom (by omega) w.2⟩

/-- A write of one byte keeps the canonical form. -/
theorem memPut_wf {m : Memory} (a : Nat) (b : Byte) (h : m.wf = true) : Memory.wf (memPut m a b) = true :=
  memPut_wfFrom (Nat.zero_le a) h

theorem memGet_memPut_from {lo : Nat} {a : Nat} {b : Byte} {i : Nat} : ∀ {m : Memory}, memWfFrom lo m = true →
    memGet (memPut m a b) i = if i = a then b else memGet m i
  | [], _ => by
    simp only [memPut]
    split
    · simp_all [memGet]
    · simp [memGet]
  | (x, c) :: rest, w => by
    simp only [memWfFrom, Bool.and_eq_true, decide_eq_true_eq] at w
    simp only [memPut]
    split
    · next e =>
      subst e
      split
      · next hb =>
        simp only [memGet]
        split
        · subst hb; simp_all [memGet_below (show a < a + 1 by omega) w.2]
        · split
          · exact memGet_below (by omega) w.2
          · rfl
      · simp only [memGet]
        split <;> rfl
    · split
      · split
        · next hx hb =>
          simp only [memGet]
          split
          · rw [if_neg (by omega)]
          · split
            · split <;> simp_all
            · rw [if_neg (by omega)]
        · simp only [memGet]
          split
          · rfl
          · split
            · rw [if_neg (by omega), if_pos (by omega)]
            · rfl
      · simp only [memGet]
        split
        · rw [if_neg (by omega)]
        · split
          · rw [if_neg (by omega)]
          · exact memGet_memPut_from w.2

/-- A byte reads as it was last written; every other byte is as before. -/
theorem memGet_memPut {m : Memory} (a i : Nat) (b : Byte) (h : m.wf = true) :
    memGet (memPut m a b) i = if i = a then b else memGet m i := memGet_memPut_from h

/-- A write of bytes keeps the canonical form. -/
theorem memWrite_wf : ∀ (bs : List Byte) {m : Memory} (a : Nat), m.wf = true → Memory.wf (memWrite m a bs) = true
  | [], _, _, h => h
  | b :: bs, _, a, h => memWrite_wf bs (a + 1) (memPut_wf a b h)

theorem memPutLine_wf {m : Memory} (line : Nat) (d : LineData) (mask : ByteMask) (h : m.wf = true) :
    Memory.wf (memPutLine m line d mask) = true := by
  unfold memPutLine
  generalize List.range 128 = l
  induction l generalizing m with
  | nil => exact h
  | cons i l ih =>
    simp only [List.foldl_cons]
    split
    · exact ih (memPut_wf _ _ h)
    · exact ih h

theorem filter_wfFrom (p : Host.Cell → Bool) : ∀ {m : Memory} {lo : Nat}, memWfFrom lo m = true → memWfFrom lo (m.filter p) = true
  | [], _, _ => rfl
  | (x, b) :: rest, lo, w => by
    simp only [memWfFrom, Bool.and_eq_true, decide_eq_true_eq] at w
    simp only [List.filter_cons]
    split
    · simp only [memWfFrom, Bool.and_eq_true, decide_eq_true_eq]
      exact ⟨w.1, filter_wfFrom p w.2⟩
    · exact memWfFrom_mono (by omega) (filter_wfFrom p w.2)

/-- Taking bytes out of memory, as a reset does (R411), keeps the canonical form. -/
theorem filter_wf {m : Memory} (p : Host.Cell → Bool) (h : m.wf = true) : Memory.wf (m.filter p) = true := filter_wfFrom p h

/-- A write of a line in every copy keeps the form of the memories. -/
theorem writeLine_canonical {s : State} (line : Nat) (d : LineData) (mask : ByteMask) (h : Canonical s) :
    Canonical (s.writeLine line d mask) := by
  have hm : (s.writeLine line d mask).mem = memPutLine s.mem line d mask := rfl
  have hc : (s.writeLine line d mask).chip = s.chip := rfl
  unfold Canonical at *
  rw [hm, hc]
  exact ⟨memPutLine_wf line d mask h.1, h.2⟩

/-- The recall of a line that the host caches keeps the form of the memories. -/
theorem recallHost_canonical {s : State} (line : Nat) (h : Canonical s) : Canonical (s.recallHost line) := by
  by_cases b : s.biFilter.contains line = true
  · rw [State.recallHost, if_pos b]
    unfold Canonical at *
    dsimp only
    exact ⟨memPutLine_wf line _ _ h.1, h.2⟩
  · rw [State.recallHost, if_neg b]
    exact h

/-- A write of bytes in every copy keeps the form of the memories. -/
theorem physWrite_canonical : ∀ (bs : List Byte) {s : State} (a : Nat), Canonical s → Canonical (s.physWrite a bs)
  | [], _, _, h => h
  | b :: bs, s, a, h => by
    rw [State.physWrite]
    exact physWrite_canonical bs (a + 1) (writeLine_canonical (a / 128) _ _ (recallHost_canonical (a / 128) h))

/-- A write of a mailbox keeps the form of the memories. -/
theorem mailWrite_canonical {s : State} (die off : Nat) (bs : List Byte) (h : Canonical s) : Canonical (s.mailWrite die off bs) :=
  ⟨h.1, memWrite_wf bs _ h.2⟩

/-- Only the two memories matter to the form. -/
theorem canonical_congr {s t : State} (hm : t.mem = s.mem) (hc : t.chip = s.chip) (h : Canonical s) : Canonical t := by
  unfold Canonical at *
  rw [hm, hc]
  exact h

/-- A scratchpad byte reads as it was last written. -/
theorem scratchGet_scratchPut_self (alloc : Nat) (a : Nat) (b : Byte) : ∀ m : Scratch, scratchGet alloc (scratchPut m a b) a = b
  | [] => by simp [scratchPut, scratchGet]
  | (x, c) :: rest => by
    simp only [scratchPut]
    split
    · simp [scratchGet]
    · split
      · simp [scratchGet]
      · simp only [scratchGet]
        rw [if_neg (by omega), if_neg (by omega)]
        exact scratchGet_scratchPut_self alloc a b rest

end Sys2Proof.Machine
end

