-- ==== Sys2Proof/Laws/PerInstr.lean ====
section
/-! SUPPORT. The coding of each constructor: an event has no word; a program instruction has an opcode and a form, and its opcode and its
fields lead the decoder's table back to it. -/
namespace Sys2Proof.Laws.Coding
open Sys2Proof

/-- An event has no word, opcode or form. A program instruction has all three, and when its constructor is the one that its fields
select, the decoder's table gives it for its opcode. -/
def Statement (i : Instr) : Prop :=
  (i.fields = none ∧ i.form = none ∧ i.opcode = none) ∨
  ∃ w op f, i.fields = some w ∧ i.opcode = some op ∧ i.form = some f ∧ (i.selected = true → Instr.ofOpcode op.toNat w = some i)

theorem iadd (w : Fields) : Statement (.iadd w) := Or.inr ⟨w, _, _, rfl, rfl, rfl, fun _ => rfl⟩
theorem isub (w : Fields) : Statement (.isub w) := Or.inr ⟨w, _, _, rfl, rfl, rfl, fun _ => rfl⟩
theorem imul (w : Fields) : Statement (.imul w) := Or.inr ⟨w, _, _, rfl, rfl, rfl, fun _ => rfl⟩
theorem imulh (w : Fields) : Statement (.imulh w) := Or.inr ⟨w, _, _, rfl, rfl, rfl, fun _ => rfl⟩
theorem imad (w : Fields) : Statement (.imad w) := Or.inr ⟨w, _, _, rfl, rfl, rfl, fun _ => rfl⟩
theorem iabs (w : Fields) : Statement (.iabs w) := Or.inr ⟨w, _, _, rfl, rfl, rfl, fun _ => rfl⟩
theorem imin (w : Fields) : Statement (.imin w) := Or.inr ⟨w, _, _, rfl, rfl, rfl, fun _ => rfl⟩
theorem imax (w : Fields) : Statement (.imax w) := Or.inr ⟨w, _, _, rfl, rfl, rfl, fun _ => rfl⟩
theorem idiv (w : Fields) : Statement (.idiv w) := Or.inr ⟨w, _, _, rfl, rfl, rfl, fun _ => rfl⟩
theorem irem (w : Fields) : Statement (.irem w) := Or.inr ⟨w, _, _, rfl, rfl, rfl, fun _ => rfl⟩
theorem and (w : Fields) : Statement (.and w) := Or.inr ⟨w, _, _, rfl, rfl, rfl, fun _ => rfl⟩
theorem or (w : Fields) : Statement (.or w) := Or.inr ⟨w, _, _, rfl, rfl, rfl, fun _ => rfl⟩
theorem xor (w : Fields) : Statement (.xor w) := Or.inr ⟨w, _, _, rfl, rfl, rfl, fun _ => rfl⟩
theorem andn (w : Fields) : Statement (.andn w) := Or.inr ⟨w, _, _, rfl, rfl, rfl, fun _ => rfl⟩
theorem shl (w : Fields) : Statement (.shl w) := Or.inr ⟨w, _, _, rfl, rfl, rfl, fun _ => rfl⟩
theorem shr (w : Fields) : Statement (.shr w) := Or.inr ⟨w, _, _, rfl, rfl, rfl, fun _ => rfl⟩
theorem sar (w : Fields) : Statement (.sar w) := Or.inr ⟨w, _, _, rfl, rfl, rfl, fun _ => rfl⟩
theorem rotl (w : Fields) : Statement (.rotl w) := Or.inr ⟨w, _, _, rfl, rfl, rfl, fun _ => rfl⟩
theorem bfx (w : Fields) : Statement (.bfx w) := Or.inr ⟨w, _, _, rfl, rfl, rfl, fun _ => rfl⟩
theorem bfi (w : Fields) : Statement (.bfi w) := Or.inr ⟨w, _, _, rfl, rfl, rfl, fun _ => rfl⟩
theorem bsel (w : Fields) : Statement (.bsel w) := Or.inr ⟨w, _, _, rfl, rfl, rfl, fun _ => rfl⟩
theorem popc (w : Fields) : Statement (.popc w) := Or.inr ⟨w, _, _, rfl, rfl, rfl, fun _ => rfl⟩
theorem clz (w : Fields) : Statement (.clz w) := Or.inr ⟨w, _, _, rfl, rfl, rfl, fun _ => rfl⟩
theorem ctz (w : Fields) : Statement (.ctz w) := Or.inr ⟨w, _, _, rfl, rfl, rfl, fun _ => rfl⟩
theorem brev (w : Fields) : Statement (.brev w) := Or.inr ⟨w, _, _, rfl, rfl, rfl, fun _ => rfl⟩
theorem iaddc (w : Fields) : Statement (.iaddc w) := Or.inr ⟨w, _, _, rfl, rfl, rfl, fun _ => rfl⟩
theorem iaddx (w : Fields) : Statement (.iaddx w) := Or.inr ⟨w, _, _, rfl, rfl, rfl, fun _ => rfl⟩
theorem icmp (w : Fields) : Statement (.icmp w) := Or.inr ⟨w, _, _, rfl, rfl, rfl, fun _ => rfl⟩
theorem sel (w : Fields) : Statement (.sel w) := Or.inr ⟨w, _, _, rfl, rfl, rfl, fun _ => rfl⟩
theorem mov (w : Fields) : Statement (.mov w) := Or.inr ⟨w, _, _, rfl, rfl, rfl, fun _ => rfl⟩
theorem ldi (w : Fields) : Statement (.ldi w) := Or.inr ⟨w, _, _, rfl, rfl, rfl, fun _ => rfl⟩
theorem ldih (w : Fields) : Statement (.ldih w) := Or.inr ⟨w, _, _, rfl, rfl, rfl, fun _ => rfl⟩
theorem fadd (w : Fields) : Statement (.fadd w) := Or.inr ⟨w, _, _, rfl, rfl, rfl, fun _ => rfl⟩
theorem fsub (w : Fields) : Statement (.fsub w) := Or.inr ⟨w, _, _, rfl, rfl, rfl, fun _ => rfl⟩
theorem fmul (w : Fields) : Statement (.fmul w) := Or.inr ⟨w, _, _, rfl, rfl, rfl, fun _ => rfl⟩
theorem ffma (w : Fields) : Statement (.ffma w) := Or.inr ⟨w, _, _, rfl, rfl, rfl, fun _ => rfl⟩
theorem fmin (w : Fields) : Statement (.fmin w) := Or.inr ⟨w, _, _, rfl, rfl, rfl, fun _ => rfl⟩
theorem fmax (w : Fields) : Statement (.fmax w) := Or.inr ⟨w, _, _, rfl, rfl, rfl, fun _ => rfl⟩
theorem frcp (w : Fields) : Statement (.frcp w) := Or.inr ⟨w, _, _, rfl, rfl, rfl, fun _ => rfl⟩
theorem frsq (w : Fields) : Statement (.frsq w) := Or.inr ⟨w, _, _, rfl, rfl, rfl, fun _ => rfl⟩
theorem fsqrt (w : Fields) : Statement (.fsqrt w) := Or.inr ⟨w, _, _, rfl, rfl, rfl, fun _ => rfl⟩
theorem fdiv (w : Fields) : Statement (.fdiv w) := Or.inr ⟨w, _, _, rfl, rfl, rfl, fun _ => rfl⟩
theorem fexp2 (w : Fields) : Statement (.fexp2 w) := Or.inr ⟨w, _, _, rfl, rfl, rfl, fun _ => rfl⟩
theorem flog2 (w : Fields) : Statement (.flog2 w) := Or.inr ⟨w, _, _, rfl, rfl, rfl, fun _ => rfl⟩
theorem fsin (w : Fields) : Statement (.fsin w) := Or.inr ⟨w, _, _, rfl, rfl, rfl, fun _ => rfl⟩
theorem fcos (w : Fields) : Statement (.fcos w) := Or.inr ⟨w, _, _, rfl, rfl, rfl, fun _ => rfl⟩
theorem fscale (w : Fields) : Statement (.fscale w) := Or.inr ⟨w, _, _, rfl, rfl, rfl, fun _ => rfl⟩
theorem fgetexp (w : Fields) : Statement (.fgetexp w) := Or.inr ⟨w, _, _, rfl, rfl, rfl, fun _ => rfl⟩
theorem fgetman (w : Fields) : Statement (.fgetman w) := Or.inr ⟨w, _, _, rfl, rfl, rfl, fun _ => rfl⟩
theorem frint (w : Fields) : Statement (.frint w) := Or.inr ⟨w, _, _, rfl, rfl, rfl, fun _ => rfl⟩
theorem fcmp (w : Fields) : Statement (.fcmp w) := Or.inr ⟨w, _, _, rfl, rfl, rfl, fun _ => rfl⟩
theorem fclass (w : Fields) : Statement (.fclass w) := Or.inr ⟨w, _, _, rfl, rfl, rfl, fun _ => rfl⟩
theorem fdot2 (w : Fields) : Statement (.fdot2 w) := Or.inr ⟨w, _, _, rfl, rfl, rfl, fun _ => rfl⟩
theorem cvt (w : Fields) : Statement (.cvt w) := Or.inr ⟨w, _, _, rfl, rfl, rfl, fun _ => rfl⟩
theorem cvtpk (w : Fields) : Statement (.cvtpk w) := Or.inr ⟨w, _, _, rfl, rfl, rfl, fun _ => rfl⟩
theorem cvtx (w : Fields) : Statement (.cvtx w) := Or.inr ⟨w, _, _, rfl, rfl, rfl, fun _ => rfl⟩
theorem nqdec (w : Fields) : Statement (.nqdec w) := Or.inr ⟨w, _, _, rfl, rfl, rfl, fun _ => rfl⟩
theorem nqenc (w : Fields) : Statement (.nqenc w) := Or.inr ⟨w, _, _, rfl, rfl, rfl, fun _ => rfl⟩
theorem setfmt (w : Fields) : Statement (.setfmt w) := Or.inr ⟨w, _, _, rfl, rfl, rfl, fun h => by simp_all [Instr.selected, Instr.ofOpcode]⟩
theorem setfmtImm (w : Fields) : Statement (.setfmtImm w) := Or.inr ⟨w, _, _, rfl, rfl, rfl, fun h => by simp_all [Instr.selected, Instr.ofOpcode]⟩
theorem getfmt (w : Fields) : Statement (.getfmt w) := Or.inr ⟨w, _, _, rfl, rfl, rfl, fun _ => rfl⟩
theorem getflg (w : Fields) : Statement (.getflg w) := Or.inr ⟨w, _, _, rfl, rfl, rfl, fun _ => rfl⟩
theorem clrflg (w : Fields) : Statement (.clrflg w) := Or.inr ⟨w, _, _, rfl, rfl, rfl, fun _ => rfl⟩
theorem kand (w : Fields) : Statement (.kand w) := Or.inr ⟨w, _, _, rfl, rfl, rfl, fun _ => rfl⟩
theorem kor (w : Fields) : Statement (.kor w) := Or.inr ⟨w, _, _, rfl, rfl, rfl, fun _ => rfl⟩
theorem kxor (w : Fields) : Statement (.kxor w) := Or.inr ⟨w, _, _, rfl, rfl, rfl, fun _ => rfl⟩
theorem kandn (w : Fields) : Statement (.kandn w) := Or.inr ⟨w, _, _, rfl, rfl, rfl, fun _ => rfl⟩
theorem knot (w : Fields) : Statement (.knot w) := Or.inr ⟨w, _, _, rfl, rfl, rfl, fun _ => rfl⟩
theorem kmov (w : Fields) : Statement (.kmov w) := Or.inr ⟨w, _, _, rfl, rfl, rfl, fun _ => rfl⟩
theorem kpop (w : Fields) : Statement (.kpop w) := Or.inr ⟨w, _, _, rfl, rfl, rfl, fun _ => rfl⟩
theorem kffs (w : Fields) : Statement (.kffs w) := Or.inr ⟨w, _, _, rfl, rfl, rfl, fun _ => rfl⟩
theorem vote (w : Fields) : Statement (.vote w) := Or.inr ⟨w, _, _, rfl, rfl, rfl, fun _ => rfl⟩
theorem shfl (w : Fields) : Statement (.shfl w) := Or.inr ⟨w, _, _, rfl, rfl, rfl, fun _ => rfl⟩
theorem shflu (w : Fields) : Statement (.shflu w) := Or.inr ⟨w, _, _, rfl, rfl, rfl, fun _ => rfl⟩
theorem iscan (w : Fields) : Statement (.iscan w) := Or.inr ⟨w, _, _, rfl, rfl, rfl, fun _ => rfl⟩
theorem fscan (w : Fields) : Statement (.fscan w) := Or.inr ⟨w, _, _, rfl, rfl, rfl, fun _ => rfl⟩
theorem ired (w : Fields) : Statement (.ired w) := Or.inr ⟨w, _, _, rfl, rfl, rfl, fun _ => rfl⟩
theorem fred (w : Fields) : Statement (.fred w) := Or.inr ⟨w, _, _, rfl, rfl, rfl, fun _ => rfl⟩
theorem matchLanes (w : Fields) : Statement (.matchLanes w) := Or.inr ⟨w, _, _, rfl, rfl, rfl, fun _ => rfl⟩
theorem compact (w : Fields) : Statement (.compact w) := Or.inr ⟨w, _, _, rfl, rfl, rfl, fun _ => rfl⟩
theorem expand (w : Fields) : Statement (.expand w) := Or.inr ⟨w, _, _, rfl, rfl, rfl, fun _ => rfl⟩
theorem bra (w : Fields) : Statement (.bra w) := Or.inr ⟨w, _, _, rfl, rfl, rfl, fun _ => rfl⟩
theorem brx (w : Fields) : Statement (.brx w) := Or.inr ⟨w, _, _, rfl, rfl, rfl, fun _ => rfl⟩
theorem call (w : Fields) : Statement (.call w) := Or.inr ⟨w, _, _, rfl, rfl, rfl, fun _ => rfl⟩
theorem callx (w : Fields) : Statement (.callx w) := Or.inr ⟨w, _, _, rfl, rfl, rfl, fun _ => rfl⟩
theorem ret (w : Fields) : Statement (.ret w) := Or.inr ⟨w, _, _, rfl, rfl, rfl, fun _ => rfl⟩
theorem mark (w : Fields) : Statement (.mark w) := Or.inr ⟨w, _, _, rfl, rfl, rfl, fun _ => rfl⟩
theorem join (w : Fields) : Statement (.join w) := Or.inr ⟨w, _, _, rfl, rfl, rfl, fun _ => rfl⟩
theorem exit (w : Fields) : Statement (.exit w) := Or.inr ⟨w, _, _, rfl, rfl, rfl, fun _ => rfl⟩
theorem nop (w : Fields) : Statement (.nop w) := Or.inr ⟨w, _, _, rfl, rfl, rfl, fun _ => rfl⟩
theorem yield (w : Fields) : Statement (.yield w) := Or.inr ⟨w, _, _, rfl, rfl, rfl, fun h => by simp_all [Instr.selected, Instr.ofOpcode]⟩
theorem yieldPause (w : Fields) : Statement (.yieldPause w) := Or.inr ⟨w, _, _, rfl, rfl, rfl, fun h => by simp_all [Instr.selected, Instr.ofOpcode]⟩
theorem ld (w : Fields) : Statement (.ld w) := Or.inr ⟨w, _, _, rfl, rfl, rfl, fun h => by simp_all [Instr.selected, Instr.ofOpcode]⟩
theorem ldLiteral (w : Fields) : Statement (.ldLiteral w) := Or.inr ⟨w, _, _, rfl, rfl, rfl, fun h => by simp_all [Instr.selected, Instr.ofOpcode]⟩
theorem st (w : Fields) : Statement (.st w) := Or.inr ⟨w, _, _, rfl, rfl, rfl, fun _ => rfl⟩
theorem atom (w : Fields) : Statement (.atom w) := Or.inr ⟨w, _, _, rfl, rfl, rfl, fun _ => rfl⟩
theorem narrow (w : Fields) : Statement (.narrow w) := Or.inr ⟨w, _, _, rfl, rfl, rfl, fun _ => rfl⟩
theorem widen (w : Fields) : Statement (.widen w) := Or.inr ⟨w, _, _, rfl, rfl, rfl, fun _ => rfl⟩
theorem linclr (w : Fields) : Statement (.linclr w) := Or.inr ⟨w, _, _, rfl, rfl, rfl, fun _ => rfl⟩
theorem pmake (w : Fields) : Statement (.pmake w) := Or.inr ⟨w, _, _, rfl, rfl, rfl, fun _ => rfl⟩
theorem pset (w : Fields) : Statement (.pset w) := Or.inr ⟨w, _, _, rfl, rfl, rfl, fun _ => rfl⟩
theorem padd (w : Fields) : Statement (.padd w) := Or.inr ⟨w, _, _, rfl, rfl, rfl, fun _ => rfl⟩
theorem psub (w : Fields) : Statement (.psub w) := Or.inr ⟨w, _, _, rfl, rfl, rfl, fun _ => rfl⟩
theorem pget (w : Fields) : Statement (.pget w) := Or.inr ⟨w, _, _, rfl, rfl, rfl, fun _ => rfl⟩
theorem pchk (w : Fields) : Statement (.pchk w) := Or.inr ⟨w, _, _, rfl, rfl, rfl, fun _ => rfl⟩
theorem pmov (w : Fields) : Statement (.pmov w) := Or.inr ⟨w, _, _, rfl, rfl, rfl, fun _ => rfl⟩
theorem mma (w : Fields) : Statement (.mma w) := Or.inr ⟨w, _, _, rfl, rfl, rfl, fun _ => rfl⟩
theorem roster (w : Fields) : Statement (.roster w) := Or.inr ⟨w, _, _, rfl, rfl, rfl, fun _ => rfl⟩
theorem acalloc (w : Fields) : Statement (.acalloc w) := Or.inr ⟨w, _, _, rfl, rfl, rfl, fun _ => rfl⟩
theorem acfree (w : Fields) : Statement (.acfree w) := Or.inr ⟨w, _, _, rfl, rfl, rfl, fun _ => rfl⟩
theorem aczero (w : Fields) : Statement (.aczero w) := Or.inr ⟨w, _, _, rfl, rfl, rfl, fun _ => rfl⟩
theorem acrd (w : Fields) : Statement (.acrd w) := Or.inr ⟨w, _, _, rfl, rfl, rfl, fun _ => rfl⟩
theorem acwr (w : Fields) : Statement (.acwr w) := Or.inr ⟨w, _, _, rfl, rfl, rfl, fun _ => rfl⟩
theorem sealm (w : Fields) : Statement (.sealm w) := Or.inr ⟨w, _, _, rfl, rfl, rfl, fun _ => rfl⟩
theorem waitp (w : Fields) : Statement (.waitp w) := Or.inr ⟨w, _, _, rfl, rfl, rfl, fun _ => rfl⟩
theorem waitm (w : Fields) : Statement (.waitm w) := Or.inr ⟨w, _, _, rfl, rfl, rfl, fun _ => rfl⟩
theorem waitc (w : Fields) : Statement (.waitc w) := Or.inr ⟨w, _, _, rfl, rfl, rfl, fun _ => rfl⟩
theorem waith (w : Fields) : Statement (.waith w) := Or.inr ⟨w, _, _, rfl, rfl, rfl, fun _ => rfl⟩
theorem sealc (w : Fields) : Statement (.sealc w) := Or.inr ⟨w, _, _, rfl, rfl, rfl, fun _ => rfl⟩
theorem arm (w : Fields) : Statement (.arm w) := Or.inr ⟨w, _, _, rfl, rfl, rfl, fun _ => rfl⟩
theorem barInit (w : Fields) : Statement (.barInit w) := Or.inr ⟨w, _, _, rfl, rfl, rfl, fun _ => rfl⟩
theorem barArrive (w : Fields) : Statement (.barArrive w) := Or.inr ⟨w, _, _, rfl, rfl, rfl, fun h => by simp_all [Instr.selected, Instr.ofOpcode]⟩
theorem barArriveRemote (w : Fields) : Statement (.barArriveRemote w) := Or.inr ⟨w, _, _, rfl, rfl, rfl, fun h => by simp_all [Instr.selected, Instr.ofOpcode]⟩
theorem barExpect (w : Fields) : Statement (.barExpect w) := Or.inr ⟨w, _, _, rfl, rfl, rfl, fun _ => rfl⟩
theorem barWait (w : Fields) : Statement (.barWait w) := Or.inr ⟨w, _, _, rfl, rfl, rfl, fun _ => rfl⟩
theorem barTry (w : Fields) : Statement (.barTry w) := Or.inr ⟨w, _, _, rfl, rfl, rfl, fun _ => rfl⟩
theorem rdid (w : Fields) : Statement (.rdid w) := Or.inr ⟨w, _, _, rfl, rfl, rfl, fun _ => rfl⟩
theorem rdclk (w : Fields) : Statement (.rdclk w) := Or.inr ⟨w, _, _, rfl, rfl, rfl, fun _ => rfl⟩
theorem vgrow (w : Fields) : Statement (.vgrow w) := Or.inr ⟨w, _, _, rfl, rfl, rfl, fun _ => rfl⟩
theorem vshrink (w : Fields) : Statement (.vshrink w) := Or.inr ⟨w, _, _, rfl, rfl, rfl, fun _ => rfl⟩
theorem gridgrow (w : Fields) : Statement (.gridgrow w) := Or.inr ⟨w, _, _, rfl, rfl, rfl, fun _ => rfl⟩
theorem xset (w : Fields) : Statement (.xset w) := Or.inr ⟨w, _, _, rfl, rfl, rfl, fun _ => rfl⟩
theorem xadd (w : Fields) : Statement (.xadd w) := Or.inr ⟨w, _, _, rfl, rfl, rfl, fun _ => rfl⟩
theorem xget (w : Fields) : Statement (.xget w) := Or.inr ⟨w, _, _, rfl, rfl, rfl, fun _ => rfl⟩
theorem myname (w : Fields) : Statement (.myname w) := Or.inr ⟨w, _, _, rfl, rfl, rfl, fun _ => rfl⟩
theorem nameinfo (w : Fields) : Statement (.nameinfo w) := Or.inr ⟨w, _, _, rfl, rfl, rfl, fun _ => rfl⟩
theorem pollpre (w : Fields) : Statement (.pollpre w) := Or.inr ⟨w, _, _, rfl, rfl, rfl, fun _ => rfl⟩
theorem region (w : Fields) : Statement (.region w) := Or.inr ⟨w, _, _, rfl, rfl, rfl, fun _ => rfl⟩
theorem trap (w : Fields) : Statement (.trap w) := Or.inr ⟨w, _, _, rfl, rfl, rfl, fun _ => rfl⟩
theorem brkpt (w : Fields) : Statement (.brkpt w) := Or.inr ⟨w, _, _, rfl, rfl, rfl, fun _ => rfl⟩
theorem hret (w : Fields) : Statement (.hret w) := Or.inr ⟨w, _, _, rfl, rfl, rfl, fun _ => rfl⟩
theorem hretr (w : Fields) : Statement (.hretr w) := Or.inr ⟨w, _, _, rfl, rfl, rfl, fun _ => rfl⟩
theorem rdsr (w : Fields) : Statement (.rdsr w) := Or.inr ⟨w, _, _, rfl, rfl, rfl, fun h => by simp_all [Instr.selected, Instr.ofOpcode]⟩
theorem rdsrMgmt (w : Fields) : Statement (.rdsrMgmt w) := Or.inr ⟨w, _, _, rfl, rfl, rfl, fun h => by simp_all [Instr.selected, Instr.ofOpcode]⟩
theorem wrsr (w : Fields) : Statement (.wrsr w) := Or.inr ⟨w, _, _, rfl, rfl, rfl, fun h => by simp_all [Instr.selected, Instr.ofOpcode]⟩
theorem wrsrMgmt (w : Fields) : Statement (.wrsrMgmt w) := Or.inr ⟨w, _, _, rfl, rfl, rfl, fun h => by simp_all [Instr.selected, Instr.ofOpcode]⟩
theorem tlbinv (w : Fields) : Statement (.tlbinv w) := Or.inr ⟨w, _, _, rfl, rfl, rfl, fun _ => rfl⟩
theorem mbxs (w : Fields) : Statement (.mbxs w) := Or.inr ⟨w, _, _, rfl, rfl, rfl, fun _ => rfl⟩
theorem mbxr (w : Fields) : Statement (.mbxr w) := Or.inr ⟨w, _, _, rfl, rfl, rfl, fun _ => rfl⟩
theorem ifread (w : Fields) : Statement (.ifread w) := Or.inr ⟨w, _, _, rfl, rfl, rfl, fun _ => rfl⟩
theorem halt (w : Fields) : Statement (.halt w) := Or.inr ⟨w, _, _, rfl, rfl, rfl, fun _ => rfl⟩
theorem runGrant (core : CoreId) (quarter : Nat) : Statement (.runGrant core quarter) := Or.inl ⟨rfl, rfl, rfl⟩
theorem runFetch (ctx : Nat) : Statement (.runFetch ctx) := Or.inl ⟨rfl, rfl, rfl⟩
theorem loadDataLands (ctx id : Nat) (resp : Resp) : Statement (.loadDataLands ctx id resp) := Or.inl ⟨rfl, rfl, rfl⟩
theorem inFlightCompletion (ctx id : Nat) (resp : Resp) : Statement (.inFlightCompletion ctx id resp) := Or.inl ⟨rfl, rfl, rfl⟩
theorem atomicPerform (ctx id : Nat) (resp : Resp) : Statement (.atomicPerform ctx id resp) := Or.inl ⟨rfl, rfl, rfl⟩
theorem syncAccessPerform (ctx id : Nat) (resp : Resp) : Statement (.syncAccessPerform ctx id resp) := Or.inl ⟨rfl, rfl, rfl⟩
theorem translationWalk (core : CoreId) (part : Nat) (va : Nat) : Statement (.translationWalk core part va) := Or.inl ⟨rfl, rfl, rfl⟩
theorem drain (line : Nat) (core : CoreId) : Statement (.drain line core) := Or.inl ⟨rfl, rfl, rfl⟩
theorem drainack (line : Nat) (core : CoreId) : Statement (.drainack line core) := Or.inl ⟨rfl, rfl, rfl⟩
theorem gets (line : Nat) (from_ : Agent) : Statement (.gets line from_) := Or.inl ⟨rfl, rfl, rfl⟩
theorem getm (line : Nat) (from_ : Agent) : Statement (.getm line from_) := Or.inl ⟨rfl, rfl, rfl⟩
theorem putm (line : Nat) (from_ : Agent) : Statement (.putm line from_) := Or.inl ⟨rfl, rfl, rfl⟩
theorem puto (line : Nat) (from_ : Agent) : Statement (.puto line from_) := Or.inl ⟨rfl, rfl, rfl⟩
theorem pute (line : Nat) (from_ : Agent) : Statement (.pute line from_) := Or.inl ⟨rfl, rfl, rfl⟩
theorem fwdgets (line : Nat) (at_ : Agent) : Statement (.fwdgets line at_) := Or.inl ⟨rfl, rfl, rfl⟩
theorem fwdgetm (line : Nat) (at_ : Agent) : Statement (.fwdgetm line at_) := Or.inl ⟨rfl, rfl, rfl⟩
theorem inv (line : Nat) (at_ : Agent) : Statement (.inv line at_) := Or.inl ⟨rfl, rfl, rfl⟩
theorem cnt (line : Nat) (at_ : Agent) : Statement (.cnt line at_) := Or.inl ⟨rfl, rfl, rfl⟩
theorem backinv (line : Nat) (at_ : Agent) : Statement (.backinv line at_) := Or.inl ⟨rfl, rfl, rfl⟩
theorem data (line : Nat) (at_ : Agent) : Statement (.data line at_) := Or.inl ⟨rfl, rfl, rfl⟩
theorem datae (line : Nat) (at_ : Agent) : Statement (.datae line at_) := Or.inl ⟨rfl, rfl, rfl⟩
theorem invack (line : Nat) (at_ : Agent) : Statement (.invack line at_) := Or.inl ⟨rfl, rfl, rfl⟩
theorem putack (line : Nat) (at_ : Agent) : Statement (.putack line at_) := Or.inl ⟨rfl, rfl, rfl⟩
theorem backack (line : Nat) (from_ : Agent) : Statement (.backack line from_) := Or.inl ⟨rfl, rfl, rfl⟩
theorem retireNotice (tag : BitVec 64) : Statement (.retireNotice tag) := Or.inl ⟨rfl, rfl, rfl⟩
theorem suppressionRetry (ctx id : Nat) : Statement (.suppressionRetry ctx id) := Or.inl ⟨rfl, rfl, rfl⟩
theorem sliceRetire (die slice : Nat) : Statement (.sliceRetire die slice) := Or.inl ⟨rfl, rfl, rfl⟩
theorem retirementRetry (line : Nat) (from_ : Agent) : Statement (.retirementRetry line from_) := Or.inl ⟨rfl, rfl, rfl⟩
theorem correctableError (err : ErrorSite) : Statement (.correctableError err) := Or.inl ⟨rfl, rfl, rfl⟩
theorem uncorrectableError (err : ErrorSite) : Statement (.uncorrectableError err) := Or.inl ⟨rfl, rfl, rfl⟩
theorem patrolScrub (line : Nat) : Statement (.patrolScrub line) := Or.inl ⟨rfl, rfl, rfl⟩
theorem meshFlitError (err : FlitError) : Statement (.meshFlitError err) := Or.inl ⟨rfl, rfl, rfl⟩
theorem congestionCounterReload (die quadrant flits : Nat) : Statement (.congestionCounterReload die quadrant flits) := Or.inl ⟨rfl, rfl, rfl⟩
theorem vgrowGrant (core : CoreId) (quarter : Nat) : Statement (.vgrowGrant core quarter) := Or.inl ⟨rfl, rfl, rfl⟩
theorem acallocGrant (core : CoreId) : Statement (.acallocGrant core) := Or.inl ⟨rfl, rfl, rfl⟩
theorem pauseExpiry (ctx : Nat) : Statement (.pauseExpiry ctx) := Or.inl ⟨rfl, rfl, rfl⟩
theorem workQueueWrite (queue word : Nat) (value : BitVec 64) : Statement (.workQueueWrite queue word value) := Or.inl ⟨rfl, rfl, rfl⟩
theorem recordAccept (queue : Nat) : Statement (.recordAccept queue) := Or.inl ⟨rfl, rfl, rfl⟩
theorem dispatch : Statement .dispatch := Or.inl ⟨rfl, rfl, rfl⟩
theorem heldCandidateReserve : Statement .heldCandidateReserve := Or.inl ⟨rfl, rfl, rfl⟩
theorem preemptionDeadline (ctx : Nat) : Statement (.preemptionDeadline ctx) := Or.inl ⟨rfl, rfl, rfl⟩
theorem save (ctx : Nat) : Statement (.save ctx) := Or.inl ⟨rfl, rfl, rfl⟩
theorem saveFinished (ctx : Nat) : Statement (.saveFinished ctx) := Or.inl ⟨rfl, rfl, rfl⟩
theorem resourceDeadlockSave (core : CoreId) : Statement (.resourceDeadlockSave core) := Or.inl ⟨rfl, rfl, rfl⟩
theorem gridgrowResult (ctx : Nat) : Statement (.gridgrowResult ctx) := Or.inl ⟨rfl, rfl, rfl⟩
theorem slotRelease (ctx : Nat) : Statement (.slotRelease ctx) := Or.inl ⟨rfl, rfl, rfl⟩
theorem teamEnd (launch team : Nat) : Statement (.teamEnd launch team) := Or.inl ⟨rfl, rfl, rfl⟩
theorem gridCompletion (launch : Nat) : Statement (.gridCompletion launch) := Or.inl ⟨rfl, rfl, rfl⟩
theorem eventGrant : Statement .eventGrant := Or.inl ⟨rfl, rfl, rfl⟩
theorem clusterKill (launch cluster reason : Nat) : Statement (.clusterKill launch cluster reason) := Or.inl ⟨rfl, rfl, rfl⟩
theorem shadowMismatch (ctx : Nat) (err : Option SilentError) : Statement (.shadowMismatch ctx err) := Or.inl ⟨rfl, rfl, rfl⟩
theorem matrixOperation (core : CoreId) (failedChecks : Nat) : Statement (.matrixOperation core failedChecks) := Or.inl ⟨rfl, rfl, rfl⟩
theorem barrierArrivalApply (ctx id : Nat) : Statement (.barrierArrivalApply ctx id) := Or.inl ⟨rfl, rfl, rfl⟩
theorem barrierRemoteArrival (ctx id : Nat) : Statement (.barrierRemoteArrival ctx id) := Or.inl ⟨rfl, rfl, rfl⟩
theorem copyStart (ctx id : Nat) : Statement (.copyStart ctx id) := Or.inl ⟨rfl, rfl, rfl⟩
theorem copyChunk (core : CoreId) (channel : Nat) : Statement (.copyChunk core channel) := Or.inl ⟨rfl, rfl, rfl⟩
theorem gatherStart (ctx id : Nat) : Statement (.gatherStart ctx id) := Or.inl ⟨rfl, rfl, rfl⟩
theorem gatherBag (core : CoreId) (channel : Nat) : Statement (.gatherBag core channel) := Or.inl ⟨rfl, rfl, rfl⟩
theorem collectiveStart (ctx id : Nat) : Statement (.collectiveStart ctx id) := Or.inl ⟨rfl, rfl, rfl⟩
theorem reductionContribution (part : Contribution) : Statement (.reductionContribution part) := Or.inl ⟨rfl, rfl, rfl⟩
theorem reductionTotal (group : Nat) (sequence : BitVec 64) (chunk : Nat) (total : List (BitVec 64)) : Statement (.reductionTotal group sequence chunk total) := Or.inl ⟨rfl, rfl, rfl⟩
theorem reductionAbort (group : Nat) (sequence : BitVec 64) : Statement (.reductionAbort group sequence) := Or.inl ⟨rfl, rfl, rfl⟩
theorem apertureRegisterWrite (ctx id : Nat) : Statement (.apertureRegisterWrite ctx id) := Or.inl ⟨rfl, rfl, rfl⟩
theorem flitResend (port : Nat) (failures : Nat) : Statement (.flitResend port failures) := Or.inl ⟨rfl, rfl, rfl⟩
theorem portStatusWrite (port : Nat) (value : BitVec 64) : Statement (.portStatusWrite port value) := Or.inl ⟨rfl, rfl, rfl⟩
theorem peerRequest (req : PeerReq) : Statement (.peerRequest req) := Or.inl ⟨rfl, rfl, rfl⟩
theorem parkRewalk (index : Nat) : Statement (.parkRewalk index) := Or.inl ⟨rfl, rfl, rfl⟩
theorem keepWaitingNotice (ctx id : Nat) : Statement (.keepWaitingNotice ctx id) := Or.inl ⟨rfl, rfl, rfl⟩
theorem remoteFaultTimeout (ctx id : Nat) : Statement (.remoteFaultTimeout ctx id) := Or.inl ⟨rfl, rfl, rfl⟩
theorem cancel (tag : BitVec 64) : Statement (.cancel tag) := Or.inl ⟨rfl, rfl, rfl⟩
theorem lostHomeTimeout (package : Nat) : Statement (.lostHomeTimeout package) := Or.inl ⟨rfl, rfl, rfl⟩
theorem lostHomeTableWrite (index : Nat) (value : BitVec 64) : Statement (.lostHomeTableWrite index value) := Or.inl ⟨rfl, rfl, rfl⟩
theorem multicastStore (req : PeerReq) (group : Nat) (offer : TreeOffer) : Statement (.multicastStore req group offer) := Or.inl ⟨rfl, rfl, rfl⟩
theorem multicastAck (tag : BitVec 64) (ack : TreeAck) : Statement (.multicastAck tag ack) := Or.inl ⟨rfl, rfl, rfl⟩
theorem regsWordDelivery (word : RegsWord) : Statement (.regsWordDelivery word) := Or.inl ⟨rfl, rfl, rfl⟩
theorem regsAck (ctx id : Nat) (outcome : RegsOutcome) : Statement (.regsAck ctx id outcome) := Or.inl ⟨rfl, rfl, rfl⟩
theorem migrate (command : BitVec 64) : Statement (.migrate command) := Or.inl ⟨rfl, rfl, rfl⟩
theorem admitName (command : BitVec 64) : Statement (.admitName command) := Or.inl ⟨rfl, rfl, rfl⟩
theorem hostMemrd (offset : Nat) (exclusive : Bool) : Statement (.hostMemrd offset exclusive) := Or.inl ⟨rfl, rfl, rfl⟩
theorem hostMemwr (offset : Nat) (bytes : List Byte) : Statement (.hostMemwr offset bytes) := Or.inl ⟨rfl, rfl, rfl⟩
theorem hostSnoop (line : Nat) (invalidate : Bool) : Statement (.hostSnoop line invalidate) := Or.inl ⟨rfl, rfl, rfl⟩
theorem biasFlipToHost (command : BitVec 64) : Statement (.biasFlipToHost command) := Or.inl ⟨rfl, rfl, rfl⟩
theorem biasFlipToDevice (command : BitVec 64) : Statement (.biasFlipToDevice command) := Or.inl ⟨rfl, rfl, rfl⟩
theorem pageflush (core : CoreId) : Statement (.pageflush core) := Or.inl ⟨rfl, rfl, rfl⟩
theorem flushack (core : CoreId) : Statement (.flushack core) := Or.inl ⟨rfl, rfl, rfl⟩
theorem bisnpinv (line : Nat) : Statement (.bisnpinv line) := Or.inl ⟨rfl, rfl, rfl⟩
theorem bisnpdata (line : Nat) : Statement (.bisnpdata line) := Or.inl ⟨rfl, rfl, rfl⟩
theorem birspi (line : Nat) : Statement (.birspi line) := Or.inl ⟨rfl, rfl, rfl⟩
theorem faultReplyResume (part ctx : Nat) : Statement (.faultReplyResume part ctx) := Or.inl ⟨rfl, rfl, rfl⟩
theorem faultReplyRefuse (part ctx : Nat) : Statement (.faultReplyRefuse part ctx) := Or.inl ⟨rfl, rfl, rfl⟩
theorem monitorSuspend (die : Nat) : Statement (.monitorSuspend die) := Or.inl ⟨rfl, rfl, rfl⟩
theorem monitorResume (die : Nat) : Statement (.monitorResume die) := Or.inl ⟨rfl, rfl, rfl⟩
theorem readImage (die : Nat) : Statement (.readImage die) := Or.inl ⟨rfl, rfl, rfl⟩
theorem writeImage (die : Nat) : Statement (.writeImage die) := Or.inl ⟨rfl, rfl, rfl⟩
theorem readMemory (die : Nat) : Statement (.readMemory die) := Or.inl ⟨rfl, rfl, rfl⟩
theorem writeMemory (die : Nat) : Statement (.writeMemory die) := Or.inl ⟨rfl, rfl, rfl⟩
theorem contextSave (part ctx : Nat) : Statement (.contextSave part ctx) := Or.inl ⟨rfl, rfl, rfl⟩
theorem contextResume (part ctx : Nat) : Statement (.contextResume part ctx) := Or.inl ⟨rfl, rfl, rfl⟩
theorem contextKill (part ctx : Nat) : Statement (.contextKill part ctx) := Or.inl ⟨rfl, rfl, rfl⟩
theorem chipWindowWrite (part die : Nat) (value : BitVec 64) : Statement (.chipWindowWrite part die value) := Or.inl ⟨rfl, rfl, rfl⟩
theorem dispatchControlWrite (value : BitVec 64) : Statement (.dispatchControlWrite value) := Or.inl ⟨rfl, rfl, rfl⟩
theorem fabricBaseWrite (multicast : Bool) (value : BitVec 64) : Statement (.fabricBaseWrite multicast value) := Or.inl ⟨rfl, rfl, rfl⟩
theorem powerWrite (value : BitVec 64) : Statement (.powerWrite value) := Or.inl ⟨rfl, rfl, rfl⟩
theorem powerPeriod (watts : List Nat) : Statement (.powerPeriod watts) := Or.inl ⟨rfl, rfl, rfl⟩
theorem attestation (value : BitVec 64) : Statement (.attestation value) := Or.inl ⟨rfl, rfl, rfl⟩
theorem reset (value : BitVec 64) : Statement (.reset value) := Or.inl ⟨rfl, rfl, rfl⟩
theorem powerOn : Statement .powerOn := Or.inl ⟨rfl, rfl, rfl⟩
theorem managementRegisterWrite (offset : Nat) (value : BitVec 64) : Statement (.managementRegisterWrite offset value) := Or.inl ⟨rfl, rfl, rfl⟩
theorem linkTrained (port : Nat) : Statement (.linkTrained port) := Or.inl ⟨rfl, rfl, rfl⟩
theorem hostMailboxWrite (die offset : Nat) (bytes : List Byte) : Statement (.hostMailboxWrite die offset bytes) := Or.inl ⟨rfl, rfl, rfl⟩
theorem relaunchOrder (launch cluster : Nat) : Statement (.relaunchOrder launch cluster) := Or.inl ⟨rfl, rfl, rfl⟩

end Sys2Proof.Laws.Coding
end

