-- ==== Sys2Proof/Laws/Pointers.lean ====
section
/-! SUPPORT. Pointer results: what `putPtr` and the shapes `ptrResult` and `ptrScalar` do. -/
namespace Sys2Proof.Machine
open Sys2Proof Sys2Proof.Safety

/-- The quad that `putPtr` writes. -/
def Group.writeQuad (g : Group) (d : Nat) (m : Mask) (f : Nat → Ptr) : Group :=
  (List.range 4).foldl (fun g i => g.writeVMask (d + i) m (fun l => (f l >>> (32 * i)).setWidth 32)) g

theorem Group.writeQuad_eq (g : Group) (d : Nat) (m : Mask) (f : Nat → Ptr) : ∃ v, g.writeQuad d m f = { g with v := v } := by
  have h : ∀ (l : List Nat) (g : Group), ∃ v,
      l.foldl (fun g i => g.writeVMask (d + i) m (fun l => (f l >>> (32 * i)).setWidth 32)) g = { g with v := v } := by
    intro l
    induction l with
    | nil => exact fun g => ⟨g.v, rfl⟩
    | cons i l ih =>
      intro g
      obtain ⟨v, hv⟩ := ih (g.writeVMask (d + i) m (fun l => (f l >>> (32 * i)).setWidth 32))
      exact ⟨v, by rw [List.foldl_cons, hv]; rfl⟩
  exact h _ g

theorem Group.readV_writeQuad (g : Group) (d : Nat) (m : Mask) (f : Nat → Ptr) (n l : Nat) (hn : n < 256) (hl : l < 32) :
    (g.writeQuad d m f).readV n l =
      if m.getLsbD l = true ∧ d ≤ n ∧ n < d + 4 then (f l >>> (32 * (n - d))).setWidth 32 else g.readV n l := by
  have h : g.writeQuad d m f = ((((g.writeVMask (d + 0) m (fun l => (f l >>> (32 * 0)).setWidth 32)).writeVMask (d + 1) m
    (fun l => (f l >>> (32 * 1)).setWidth 32)).writeVMask (d + 2) m (fun l => (f l >>> (32 * 2)).setWidth 32)).writeVMask (d + 3) m
    (fun l => (f l >>> (32 * 3)).setWidth 32)) := rfl
  rw [h]
  simp only [Group.readV_writeVMask _ _ _ _ _ _ hn hl]
  by_cases hm : m.getLsbD l = true
  · by_cases h0 : n = d
    · subst h0; simp [hm]
    · by_cases h1 : n = d + 1
      · subst h1; simp [hm]
      · by_cases h2 : n = d + 2
        · subst h2; simp [hm]
        · by_cases h3 : n = d + 3
          · subst h3; simp [hm]
          · have : ¬ (d ≤ n ∧ n < d + 4) := by omega
            simp [hm, h0, h1, h2, h3, this]
  · simp [hm]

/-- What `putPtr` and the end of the instruction do. -/
theorem ptrYields_finish {w : Fields} {f : Nat → Ptr} {s : State} (he : w.e = true → s.g.boundaryFaults = [])
    (hg : w.n = false → (w.dfile = .p ∧ w.g = true) ∨ (w.dfile = .v ∧ w.g = false)) (hp : w.n = false → w.dfile = .p → s.g.dnum w < 16) :
    PtrYields w f s ((s.putPtr w f).finish w false) := by
  have key : ∀ (v : Vector VReg 256) (p : Vector Ptr 16) (lat : Vector (Vector (Option (BitVec 64)) 32) 4) (r : State),
      r = { s with g := { s.g with v := v, p := p, lat := lat } } →
      (∀ n < 256, ∀ l < 32, r.g.readV n l =
        if w.n = false ∧ w.dfile = .v ∧ (s.g.lanes w).getLsbD l = true ∧ s.g.dnum w ≤ n ∧ n < s.g.dnum w + 4 then
          (f (if w.g then 0 else l) >>> (32 * (n - s.g.dnum w))).setWidth 32
        else s.g.readV n l) →
      (∀ n < 16, r.g.readP n = if w.n = false ∧ w.dfile = .p ∧ n = s.g.dnum w then f 0 else s.g.readP n) →
      (∀ n < 4, ∀ l < 32, latchLane r.g n l =
        if n = w.cap.toNat ∧ (w.g = true ∨ (s.g.lanes w).getLsbD l = true) then some ((f (if w.g then 0 else l)).setWidth 64)
        else latchLane s.g n l) →
      PtrYields w f s (r.finish w false) := by
    rintro v p lat r rfl h1 h2 h3
    have hst := still_finish (w := w) (s := { s with g := { s.g with v := v, p := p, lat := lat } }) he
    have e1 := (still_fields hst).1
    have e2 : (State.finish w false { s with g := { s.g with v := v, p := p, lat := lat } }).g.p = p := by
      have := congrArg Group.p hst; exact this
    refine ⟨?_, ?_, ?_, finish_advanced false he, ?_⟩
    · intro n hn l hl
      exact Eq.trans (by simp [Group.readV, e1]) (h1 n hn l hl)
    · intro n hn
      exact Eq.trans (by simp [Group.readP, e2]) (h2 n hn)
    · intro hE n hn l hl
      have e : ∀ x : State, latchLane (x.finish w false).g n l = latchLane x.g n l :=
        fun x => by simp [latchLane, State.finish, hE]
      rw [e]
      exact h3 n hn l hl
    · have := only_finish (s := s) (w := w) { s.g with v := v, p := p, lat := lat } he
      refine ⟨this.1.trans ?_, this.2⟩
      rw [e1, e2]
      rfl
  unfold State.putPtr
  cases hG : w.g
  · simp only [Bool.false_eq_true, if_false]
    have hlat : ∀ n < 4, ∀ l < 32,
        latchLane (s.captureLanes w true (s.g.lanes w) (fun l => (rd 0 (Vector.ofFn fun l : Fin 32 => f l.1) l).setWidth 64)).g n l =
        if n = w.cap.toNat ∧ (w.g = true ∨ (s.g.lanes w).getLsbD l = true) then some ((f (if w.g then 0 else l)).setWidth 64)
        else latchLane s.g n l := by
      intro n hn l hl
      by_cases hc : n = w.cap.toNat
      · have hc' : w.cap.toNat < 4 := hc ▸ hn
        by_cases hm : (s.g.lanes w).getLsbD l = true
        · simp only [latchLane, State.captureLanes, latchLanes, rd_wr, rd_ofFn, hl, hc', hc, hm, hG, captured, dite_true, and_self, if_true, or_true,
            Bool.false_eq_true, if_false]
        · simp only [latchLane, State.captureLanes, latchLanes, rd_wr, rd_ofFn, hl, hc', hc, hm, hG, dite_true, and_self, if_true, or_self,
            Bool.false_eq_true, if_false, and_false]
      · simp [latchLane, State.captureLanes, rd_wr, hc]
    cases hn : w.n
    · obtain ⟨h, h'⟩ | ⟨hd, -⟩ := hg hn
      · rw [hG] at h'; cases h'
      simp only [Bool.false_eq_true, if_false]
      obtain ⟨v, hv⟩ := (s.captureLanes w true (s.g.lanes w) (fun l => (rd 0 (Vector.ofFn fun l : Fin 32 => f l.1) l).setWidth 64)).g.writeQuad_eq
        (s.g.dnum w) (s.g.lanes w) (fun l => rd 0 (Vector.ofFn fun l : Fin 32 => f l.1) l)
      refine key v s.g.p _ _ (congrArg (fun g => { s.captureLanes w true (s.g.lanes w)
        (fun l => (rd 0 (Vector.ofFn fun l : Fin 32 => f l.1) l).setWidth 64) with g := g }) hv) ?_ ?_ ?_
      · intro n hn' l hl
        refine (Group.readV_writeQuad _ _ _ (fun l => rd 0 (Vector.ofFn fun l : Fin 32 => f l.1) l) _ _ hn' hl).trans ?_
        simp only [hn, hd, hG, true_and, Bool.false_eq_true, if_false, rd_ofFn, hl, dite_true]
        rfl
      · intro n _
        have := congrArg (fun g : Group => g.readP n) hv
        exact Eq.trans this (by simp [hd, State.captureLanes, Group.readP])
      · intro n hn' l hl
        have := congrArg (fun g : Group => latchLane g n l) hv
        exact Eq.trans this (hlat n hn' l hl)
    · simp only [if_true]
      refine key s.g.v s.g.p _ _ rfl ?_ ?_ ?_
      · intro n _ l _
        show s.g.readV n l = _
        simp [hn]
      · intro n _
        show s.g.readP n = _
        simp [hn]
      · intro n hn' l hl
        exact hlat n hn' l hl
  · simp only [if_true]
    have hlat : ∀ g : Group, g.lat = s.g.lat → ∀ n < 4, ∀ l < 32,
        latchLane (State.captureUniform w ((f 0).setWidth 64) { s with g := g }).g n l =
        if n = w.cap.toNat ∧ (w.g = true ∨ (s.g.lanes w).getLsbD l = true) then some ((f (if w.g then 0 else l)).setWidth 64)
        else latchLane s.g n l := by
      intro g hgl n hn l hl
      by_cases hc : n = w.cap.toNat
      · have hc' : w.cap.toNat < 4 := hc ▸ hn
        simp [latchLane, State.captureUniform, rd_wr, rd_replicate, hl, hc', hc, hG]
      · simp [latchLane, State.captureUniform, rd_wr, hc, hgl]
    cases hn : w.n
    · obtain ⟨hd, -⟩ | ⟨-, h⟩ := hg hn
      · simp only [hd, reduceCtorEq, Bool.false_eq_true, if_false]
        refine key s.g.v _ _ _ rfl ?_ ?_ ?_
        · intro n _ l _
          show s.g.readV n l = _
          simp [hd]
        · intro n _
          show Group.readP (s.g.writeP (s.g.dnum w) (f 0)) n = _
          rw [Group.readP_writeP _ _ _ _ (hp hn hd)]
          simp [hn, hd]
        · exact hlat _ rfl
      · rw [hG] at h; cases h
    · simp only [if_true]
      refine key s.g.v s.g.p _ _ rfl ?_ ?_ ?_
      · intro n _ l _
        show s.g.readV n l = _
        simp [hn]
      · intro n _
        show s.g.readP n = _
        simp [hn]
      · exact hlat _ rfl

/-- What `ptrResult` answers when the instruction is ready and its form has a pointer destination. -/
theorem ptrResult_yields {i : Instr} {w : Fields} {uses : List RegUse} {f : State → Nat → Ptr} {s : State} {fm : Form}
    (hf : i.fields = some w) (hi : i.form = some fm) (hd : fm.dst = [.p, .v])
    (hG : fm.gOk = (w.n || (decide (w.dfile = .p) = w.g : Bool)))
    (h : Ready i w (s.g.useDestPtr w ++ uses) s) : ∃ t, ptrResult i w uses f s = .next t ∧ PtrYields w (f s) s t := by
  obtain ⟨-, ff, -, -, -, -, fg, -, -⟩ := form_facts (wellFormed_form hf hi h.1)
  refine ⟨_, issue_ready _ hf h, ptrYields_finish h.2.2.2.2.2.2.2.2 ?_ ?_⟩
  · intro hn
    have := ff (by simp [hd]) hn
    rw [hd] at this
    rw [hG, hn] at fg
    simp at this fg
    rcases this with a | a
    · simp [a] at fg; exact Or.inl ⟨a, fg⟩
    · simp [a] at fg; exact Or.inr ⟨a, fg⟩
  · intro hn hp
    have := h.2.2.2.2.2.1 { pos := 0, file := .p, num := s.g.dnum w, write := true } (by simp [Group.useDestPtr, hn, hp])
    simp [Group.outOfBounds, Group.limit] at this
    first
      | omega
      | (have := of_decide_eq_false this.2; omega)

/-- What `ptrScalar` answers when the instruction is ready. -/
theorem ptrScalar_yields {i : Instr} {w : Fields} {uses : List RegUse} {f : State → Nat → BitVec 64} {s : State}
    (hf : i.fields = some w) (h : Ready i w (s.g.useDest w true ++ uses) s) :
    ∃ t, ptrScalar i w uses f s = .next t ∧ Yields w true (f s) s t := by
  have hr := dest_in_range (w := w) (b := true) h.2.2.2.2.2.1 (fun u hu => by simp [hu])
  exact ⟨_, issue_ready _ hf h, yields_finish h.2.2.2.2.2.2.2.2 hr.1 hr.2.1⟩

end Sys2Proof.Machine
end

