-- ==== Sys2Proof/Tests/Slice0.lean ====
section
/-! SUPPORT. The model's own tests: words written out from the spec's encodings and the instructions they decode to; for every
obligation, states and operands that meet its hypotheses; ill-formed terms that the check refuses; a few single steps. -/
namespace Sys2Proof.Tests
set_option Elab.async false
set_option synthInstance.maxSize 100000
set_option synthInstance.maxHeartbeats 400000
open Sys2Proof Sys2Proof.Machine Sys2Proof.Safety

def v (n : BitVec 8) : Operand := { num := n }
def sr (n : BitVec 8) : Operand := { num := n, file := .s }
def kr (n : BitVec 8) : Operand := { num := n, file := .k }
def pr (n : BitVec 8) : Operand := { num := n, file := .p }

/-- What the decoder reads from a word given as its bits 31:0, 63:32, 95:64 and 127:96. -/
def word (a b c d : BitVec 32) : Option Instr := decode (d ++ c ++ b ++ a)


/-! Decoding. -/

theorem decode_integer :
    word 0x61000 0x1400004 0 0 = some (.iadd { grd := 1, dnum := 3, a := v 4, b := v 5 }) ∧
    word 0x60001 0x1400004 0 0x9000000 = some (.isub { dnum := 3, a := v 4, b := v 5, ty := 9 }) ∧
    word 0x60002 4 0 0x183FFFC = some (.imul { dnum := 3, a := v 4, imm := 0xffff, mod := 0x20, ty := 1 }) ∧
    word 0x40003 0x1800004 0 0x2000000 = some (.imulh { dnum := 2, a := v 4, b := v 6, ty := 2 }) ∧
    word 0x60004 0x1400004 0x6000 0 = some (.imad { dnum := 3, a := v 4, b := v 5, c := v 6 }) ∧
    word 0x60005 4 0 0xA000000 = some (.iabs { dnum := 3, a := v 4, ty := 10 }) ∧
    word 0x60006 0x1400004 0 0 = some (.imin { dnum := 3, a := v 4, b := v 5 }) ∧
    word 0x2060407 0x41400104 0 0x3000000 = some (.imax { g := true, dnum := 3, dfile := .s, a := sr 4, b := sr 5, ty := 3 }) ∧
    word 0x60008 0x1400004 0 0 = some (.idiv { dnum := 3, a := v 4, b := v 5 }) ∧
    word 0x60009 0x1400004 0 0x1000000 = some (.irem { dnum := 3, a := v 4, b := v 5, ty := 1 }) ∧
    word 0x6040019 0x1400004 0 0x1000000 = some (.iaddc { dnum := 2, dfile := .k, a := v 4, b := v 5, ty := 1 }) ∧
    word 0x6001A 0x1400004 0x302000 0x1000000 = some (.iaddx { dnum := 3, a := v 4, b := v 5, c := kr 2, ty := 1 }) ∧
    word 0x604001B 4 0 0x880014 = some (.icmp { dnum := 2, dfile := .k, a := v 4, imm := 5, mod := 0x22 }) := by decide +kernel

theorem decode_bits :
    word 0x6000A 0x1400004 0 0xC000000 = some (.and { dnum := 3, a := v 4, b := v 5, ty := 12 }) ∧
    word 0x6000B 4 0 0xC820000 = some (.or { dnum := 3, a := v 4, imm := 0x8000, mod := 0x20, ty := 12 }) ∧
    word 0x4000C 0x1800004 0 0xD000000 = some (.xor { dnum := 2, a := v 4, b := v 6, ty := 13 }) ∧
    word 0x6000D 0x1400004 0 0xC000000 = some (.andn { dnum := 3, a := v 4, b := v 5, ty := 12 }) ∧
    word 0x6000E 0x1400004 0 0xC000000 = some (.shl { dnum := 3, a := v 4, b := v 5, ty := 12 }) ∧
    word 0x6000F 4 0 0x180007C = some (.shr { dnum := 3, a := v 4, imm := 0x1f, mod := 0x20, ty := 1 }) ∧
    word 0x60010 0x1400004 0 0 = some (.sar { dnum := 3, a := v 4, b := v 5 }) ∧
    word 0x60011 0x1400004 0 0xC000000 = some (.rotl { dnum := 3, a := v 4, b := v 5, ty := 12 }) ∧
    word 0x60012 4 0 0x2010 = some (.bfx { dnum := 3, a := v 4, imm := 0x804 }) ∧
    word 0x60013 0x1400004 0 0xC008000 = some (.bfi { dnum := 3, a := v 4, b := v 5, imm := 0x2000, ty := 12 }) ∧
    word 0x60014 0x1400004 0x6000 0xC000000 = some (.bsel { dnum := 3, a := v 4, b := v 5, c := v 6, ty := 12 }) ∧
    word 0x60015 4 0 0xC000000 = some (.popc { dnum := 3, a := v 4, ty := 12 }) ∧
    word 0x60016 4 0 0xC000000 = some (.clz { dnum := 3, a := v 4, ty := 12 }) ∧
    word 0x40017 4 0 0xD000000 = some (.ctz { dnum := 2, a := v 4, ty := 13 }) ∧
    word 0x60018 4 0 0xC000000 = some (.brev { dnum := 3, a := v 4, ty := 12 }) ∧
    word 0x6001C 0x1400004 0x302000 0xC000000 = some (.sel { dnum := 3, a := v 4, b := v 5, c := kr 2, ty := 12 }) ∧
    word 0x6001D 0x58004 0 0xC000000 = some (.mov { dnum := 3, a := { num := 4, pat := 4, parm := 5 }, ty := 12 }) ∧
    word 0x6001E 0 0 0x20004 = some (.ldi { dnum := 3, imm := 0x8001 }) ∧
    word 0x4001F 4 0 0xD0C48D0 = some (.ldih { dnum := 2, a := v 4, imm := 0x1234, mod := 3, ty := 13 }) := by decide +kernel

theorem decode_float :
    word 0x60080 0x1400004 0 0x4000000 = some (.fadd { dnum := 3, a := v 4, b := v 5, ty := 4 }) ∧
    word 0x60081 0x1600004 0 0x4000000 = some (.fsub { dnum := 3, a := { num := 4, neg := true }, b := v 5, ty := 4 }) ∧
    word 0x60082 0x1400004 0 0x6000000 = some (.fmul { dnum := 3, a := v 4, b := v 5, ty := 6 }) ∧
    word 0x60083 0x1400004 0x6000 0x4000000 = some (.ffma { dnum := 3, a := v 4, b := v 5, c := v 6, ty := 4 }) ∧
    word 0x60084 0x1400004 0 0x4000000 = some (.fmin { dnum := 3, a := v 4, b := v 5, ty := 4 }) ∧
    word 0x60085 0x1400004 0 0x4000000 = some (.fmax { dnum := 3, a := v 4, b := v 5, ty := 4 }) ∧
    word 0x60086 4 0 0x4000000 = some (.frcp { dnum := 3, a := v 4, ty := 4 }) ∧
    word 0x60087 4 0 0x4000000 = some (.frsq { dnum := 3, a := v 4, ty := 4 }) ∧
    word 0x60088 4 0 0x4000000 = some (.fsqrt { dnum := 3, a := v 4, ty := 4 }) ∧
    word 0x60089 0x1400004 0 0x4000000 = some (.fdiv { dnum := 3, a := v 4, b := v 5, ty := 4 }) ∧
    word 0x6008A 4 0 0x4000000 = some (.fexp2 { dnum := 3, a := v 4, ty := 4 }) ∧
    word 0x6008B 4 0 0x4000000 = some (.flog2 { dnum := 3, a := v 4, ty := 4 }) ∧
    word 0x6008C 4 0 0x4000000 = some (.fsin { dnum := 3, a := v 4, ty := 4 }) ∧
    word 0x6008D 4 0 0x4000000 = some (.fcos { dnum := 3, a := v 4, ty := 4 }) ∧
    word 0x6008E 0x1400004 0 0x4000000 = some (.fscale { dnum := 3, a := v 4, b := v 5, ty := 4 }) ∧
    word 0x6008F 4 0 0x4000000 = some (.fgetexp { dnum := 3, a := v 4, ty := 4 }) ∧
    word 0x60090 4 0 0x4000000 = some (.fgetman { dnum := 3, a := v 4, ty := 4 }) ∧
    word 0x60091 4 0 0x4000000 = some (.frint { dnum := 3, a := v 4, ty := 4 }) ∧
    word 0x6040092 0x1400004 0 0x41C0000 = some (.fcmp { dnum := 2, dfile := .k, a := v 4, b := v 5, mod := 7, ty := 4 }) ∧
    word 0x6060093 5 0 0x4000810 = some (.fclass { dnum := 3, dfile := .k, a := v 5, imm := 0x204, ty := 4 }) ∧
    word 0x60094 0x1400004 0x6000 0x7000000 = some (.fdot2 { dnum := 3, a := v 4, b := v 5, c := v 6, ty := 7 }) := by decide +kernel

theorem decode_conversion :
    word 0x60100 4 0 0x100000 = some (.cvt { dnum := 3, a := v 4, mod := 4 }) ∧
    word 0x60101 0x1400004 0 0x4180000 = some (.cvtpk { dnum := 3, a := v 4, b := v 5, mod := 6, ty := 4 }) ∧
    word 0x60102 4 0 0x1100030 = some (.cvtx { dnum := 3, a := v 4, imm := 0xc, mod := 4, ty := 1 }) ∧
    word 0x60103 0x1400004 0x6000 0x41C0000 = some (.nqdec { dnum := 3, a := v 4, b := v 5, c := v 6, mod := 7, ty := 4 }) ∧
    word 0x60104 0x1400004 0x6000 0x4000000 = some (.nqenc { dnum := 3, a := v 4, b := v 5, c := v 6, ty := 4 }) ∧
    word 0x505 0x104 0 0xCFC0000 = some (.setfmt { g := true, a := sr 4, mod := 0x3f, ty := 12 }) ∧
    word 0x505 0 0 0xC04000C = some (.setfmtImm { g := true, imm := 3, mod := 1, ty := 12 }) ∧
    word 0x2080506 0 0 0xC000000 = some (.getfmt { g := true, dnum := 4, dfile := .s, ty := 12 }) ∧
    word 0x60107 0 0 0xC000000 = some (.getflg { dnum := 3, ty := 12 }) ∧
    word 0x108 0 0 0x7C = some (.clrflg { imm := 0x1f }) := by decide +kernel

theorem decode_predicate :
    word 0x6020540 0xC0C00302 0 0xC000000 = some (.kand { g := true, dnum := 1, dfile := .k, a := kr 2, b := kr 3, ty := 12 }) ∧
    word 0x6020541 0xC0C00302 0 0xC000000 = some (.kor { g := true, dnum := 1, dfile := .k, a := kr 2, b := kr 3, ty := 12 }) ∧
    word 0x6020542 0xC0C00302 0 0xC000000 = some (.kxor { g := true, dnum := 1, dfile := .k, a := kr 2, b := kr 3, ty := 12 }) ∧
    word 0x6020543 0xC0C00302 0 0xC000000 = some (.kandn { g := true, dnum := 1, dfile := .k, a := kr 2, b := kr 3, ty := 12 }) ∧
    word 0x6020544 0x302 0 0xC000000 = some (.knot { g := true, dnum := 1, dfile := .k, a := kr 2, ty := 12 }) ∧
    word 0x6020545 0x104 0 0xC000000 = some (.kmov { g := true, dnum := 1, dfile := .k, a := sr 4, ty := 12 }) ∧
    word 0x2060546 0x302 0 0xC000000 = some (.kpop { g := true, dnum := 3, dfile := .s, a := kr 2, ty := 12 }) ∧
    word 0x2060547 0x30F 0 0xC000000 = some (.kffs { g := true, dnum := 3, dfile := .s, a := kr 15, ty := 12 }) ∧
    word 0x6020148 4 0 0xC0C0000 = some (.vote { dnum := 1, dfile := .k, a := v 4, mod := 3, ty := 12 }) := by decide +kernel

theorem decode_cross :
    word 0x60180 0x1400004 0 0xC000000 = some (.shfl { dnum := 3, a := v 4, b := v 5, ty := 12 }) ∧
    word 0x40181 0x1400004 0 0xD000000 = some (.shflu { dnum := 2, a := v 4, b := v 5, ty := 13 }) ∧
    word 0x60182 4 0 0x340000 = some (.iscan { dnum := 3, a := v 4, mod := 0xd }) ∧
    word 0x60183 4 0 0x4080000 = some (.fscan { dnum := 3, a := v 4, mod := 2, ty := 4 }) ∧
    word 0x60184 4 0 0x1140000 = some (.ired { dnum := 3, a := v 4, mod := 5, ty := 1 }) ∧
    word 0x2060185 4 0 0x4000000 = some (.fred { dnum := 3, dfile := .s, a := v 4, ty := 4 }) ∧
    word 0x60186 4 0 0xC000000 = some (.matchLanes { dnum := 3, a := v 4, ty := 12 }) ∧
    word 0x60187 0xC0800004 0 0xC000000 = some (.compact { dnum := 3, a := v 4, b := kr 2, ty := 12 }) ∧
    word 0x40188 0xC0800004 0 0xD000000 = some (.expand { dnum := 2, a := v 4, b := kr 2, ty := 13 }) := by decide +kernel

theorem decode_control :
    word 0x29C0 0 0 0x3FFF8 = some (.bra { e := true, grd := 2, imm := 0xfffe }) ∧
    word 0x9C1 0x104 0 0x80000 = some (.brx { e := true, a := sr 4, mod := 2 }) ∧
    word 0x2120DC2 0 0 0x10 = some (.call { g := true, e := true, dnum := 9, dfile := .s, imm := 4 }) ∧
    word 0x2120DC3 0x104 0 0 = some (.callx { g := true, e := true, dnum := 9, dfile := .s, a := sr 4 }) ∧
    word 0xDC4 0x109 0 0 = some (.ret { g := true, e := true, a := sr 9 }) ∧
    word 0x5C5 0 0 0x20 = some (.mark { g := true, imm := 8 }) ∧
    word 0xDC6 0 0 0 = some (.join { g := true, e := true }) ∧
    word 0x129C7 0 0 0 = some (.exit { e := true, grd := 2, gneg := true }) ∧
    word 0x1C8 0 0 0 = some (.nop {}) ∧
    word 0xDC9 0 0 0 = some (.yield { g := true, e := true }) ∧
    word 0xDC9 0 0 0x7FFFC = some (.yieldPause { g := true, e := true, imm := 0xffff, mod := 1 }) := by decide +kernel

theorem decode_memory :
    word 0x100200 0x1C00202 0 0x1440010 = some (.ld { dnum := 8, a := pr 2, b := v 7, imm := 4, mod := 0x11, ty := 1 }) ∧
    word 0x100200 0 0 0x1200010 = some (.ldLiteral { dnum := 8, imm := 4, mod := 8, ty := 1 }) ∧
    word 0x201 0x1C00202 0x8000 0x1400000 = some (.st { a := pr 2, b := v 7, c := v 8, mod := 0x10, ty := 1 }) ∧
    word 0x60202 0x203 0x8000 0x1800000 = some (.atom { dnum := 3, a := pr 3, c := v 8, mod := 0x20, ty := 1 }) ∧
    word 0x4080603 0x202 0 0 = some (.narrow { g := true, dnum := 4, dfile := .p, a := pr 2 }) ∧
    word 0x4080604 0x202 0 0x10 = some (.widen { g := true, dnum := 4, dfile := .p, a := pr 2, imm := 4 }) ∧
    word 0x605 0x202 0x8000 0xC000004 = some (.linclr { g := true, a := pr 2, c := v 8, imm := 1, ty := 12 }) := by decide +kernel

theorem decode_pointer :
    word 0x4080640 0x41400104 0 0xFC6404 = some (.pmake { g := true, dnum := 4, dfile := .p, a := sr 4, b := sr 5, imm := 0x1901, mod := 0x3f }) ∧
    word 0x4080641 0x202 0 0x68001C = some (.pset { g := true, dnum := 4, dfile := .p, a := pr 2, imm := 7, mod := 0x1a }) ∧
    word 0x4080642 0x41400202 0 0 = some (.padd { g := true, dnum := 4, dfile := .p, a := pr 2, b := sr 5 }) ∧
    word 0x40243 0x2000004 0 0 = some (.psub { dnum := 2, a := v 4, b := v 8 }) ∧
    word 0x2080644 0x202 0 0x280000 = some (.pget { g := true, dnum := 4, dfile := .s, a := pr 2, mod := 0xa }) ∧
    word 0x2080645 0x41400202 0 0x60000C = some (.pchk { g := true, dnum := 4, dfile := .s, a := pr 2, b := sr 5, imm := 3, mod := 0x18 }) ∧
    word 0x80246 8 0 0 = some (.pmov { dnum := 4, a := v 8 }) := by decide +kernel

theorem decode_matrix :
    word 0x680 0x4000008 0x18000 0x10 = some (.mma { g := true, a := v 8, b := v 16, c := v 24, imm := 4 }) ∧
    word 0x681 0 0 0xC = some (.roster { g := true, imm := 3 }) ∧
    word 0x2080682 0 0 0x10 = some (.acalloc { g := true, dnum := 4, dfile := .s, imm := 4 }) ∧
    word 0x683 0x104 0 0 = some (.acfree { g := true, a := sr 4 }) ∧
    word 0x684 0 0 0xC10 = some (.aczero { g := true, imm := 0x304 }) ∧
    word 0x100285 0 0 0x480FC00 = some (.acrd { dnum := 8, imm := 0x3f00, mod := 0x20, ty := 4 }) ∧
    word 0x286 0x41400000 0x8000 0x4000010 = some (.acwr { b := sr 5, c := v 8, imm := 4, ty := 4 }) ∧
    word 0x2080687 0 0 0x40000 = some (.sealm { g := true, dnum := 4, dfile := .s, mod := 1 }) := by decide +kernel

theorem decode_waits :
    word 0x6C0 0 0 0x80041C = some (.waitp { g := true, imm := 0x107, mod := 0x20 }) ∧
    word 0x6C1 0x104 0 0 = some (.waitm { g := true, a := sr 4 }) ∧
    word 0x6C2 0 0 0x800800 = some (.waitc { g := true, imm := 0x200, mod := 0x20 }) ∧
    word 0x6C3 0x28 0 0 = some (.waith { g := true, a := v 40 }) ∧
    word 0x6C4 0 0 0 = some (.sealc { g := true }) ∧
    word 0x6C5 0x28 0 4 = some (.arm { g := true, a := v 40, imm := 1 }) ∧
    word 0x6C6 0x41400104 0 0x40004 = some (.barInit { g := true, a := sr 4, b := sr 5, imm := 1, mod := 1 }) ∧
    word 0x6C7 0 0 4 = some (.barArrive { g := true, imm := 1 }) ∧
    word 0x6C7 0x104 0 0x400004 = some (.barArriveRemote { g := true, a := sr 4, imm := 1, mod := 0x10 }) ∧
    word 0x6C8 0x41400000 0 4 = some (.barExpect { g := true, b := sr 5, imm := 1 }) ∧
    word 0x6C9 0 0 0x104 = some (.barWait { g := true, imm := 0x41 }) ∧
    word 0x60406CA 0x104 0 4 = some (.barTry { g := true, dnum := 2, dfile := .k, a := sr 4, imm := 1 }) := by decide +kernel

theorem decode_groups :
    word 0x60300 0 0 0x1200000 = some (.rdid { dnum := 3, mod := 8, ty := 1 }) ∧
    word 0x2080701 0 0 0x3000000 = some (.rdclk { g := true, dnum := 4, dfile := .s, ty := 3 }) ∧
    word 0x702 0 0 0x80 = some (.vgrow { g := true, imm := 0x20 }) ∧
    word 0x703 0 0 0x40 = some (.vshrink { g := true, imm := 0x10 }) ∧
    word 0x20E0704 0 0 0x3800180 = some (.gridgrow { g := true, dnum := 7, dfile := .s, imm := 0x60, mod := 0x20, ty := 3 }) ∧
    word 0x705 0x104 0 0x80000 = some (.xset { g := true, a := sr 4, mod := 2 }) ∧
    word 0x706 0 0 0x87FFFC = some (.xadd { g := true, imm := 0xffff, mod := 0x21 }) ∧
    word 0x2140707 0 0 0x1040000 = some (.xget { g := true, dnum := 10, dfile := .s, mod := 1, ty := 1 }) ∧
    word 0x40A0708 0 0 0x3FC = some (.myname { g := true, dnum := 5, dfile := .p, imm := 0xff }) ∧
    word 0x2080709 0x205 0 0x3000000 = some (.nameinfo { g := true, dnum := 4, dfile := .s, a := pr 5, ty := 3 }) ∧
    word 0x604070A 0 0 0xC000000 = some (.pollpre { g := true, dnum := 2, dfile := .k, ty := 12 }) ∧
    word 0x70B 0 0 0 = some (.region { g := true }) := by decide +kernel

theorem decode_system :
    word 0xF40 0 0 0xA8 = some (.trap { g := true, e := true, imm := 0x2a }) ∧
    word 0x741 0 0 0 = some (.brkpt { g := true }) ∧
    word 0xF42 0 0 0 = some (.hret { g := true, e := true }) ∧
    word 0xF43 0 0 0 = some (.hretr { g := true, e := true }) ∧
    word 0x2080744 0 0 0x300000C = some (.rdsr { g := true, dnum := 4, dfile := .s, imm := 3, ty := 3 }) ∧
    word 0x2080744 0x41400000 0 0x3800000 = some (.rdsrMgmt { g := true, dnum := 4, dfile := .s, b := sr 5, mod := 0x20, ty := 3 }) ∧
    word 0x745 0x104 0 0xD00000C = some (.wrsr { g := true, a := sr 4, imm := 3, ty := 13 }) ∧
    word 0x745 0x41400104 0 0xD800000 = some (.wrsrMgmt { g := true, a := sr 4, b := sr 5, mod := 0x20, ty := 13 }) ∧
    word 0x746 0x41400104 0 0x440008 = some (.tlbinv { g := true, a := sr 4, b := sr 5, imm := 2, mod := 0x11 }) ∧
    word 0x6040347 0 0xC000 0xC000000 = some (.mbxs { dnum := 2, dfile := .k, c := v 12, ty := 12 }) ∧
    word 0x100348 0 0 0xC000000 = some (.mbxr { dnum := 8, ty := 12 }) ∧
    word 0x40C0749 0x104 0 0xD040000 = some (.ifread { g := true, dnum := 6, dfile := .p, a := sr 4, mod := 1, ty := 13 }) ∧
    word 0xF4A 0 0 0 = some (.halt { g := true, e := true }) := by decide +kernel

/-! Witnesses. -/

/-- A valid pointer with no colour, made of its fields. -/
def ptrTo (base anchor len efmt space cls scope : Nat) : Ptr :=
  BitVec.ofNat 128 (base + 2 ^ 52 * anchor + 2 ^ 70 * len + 2 ^ 104 * efmt + 2 ^ 110 * space + 2 ^ 113 * cls + 2 ^ 115 * scope + 2 ^ 127)

/-- A running group of a team of two on core 1 of die 0. -/
def grp : Group :=
  { id := { ctx := 1, launch := 7, teamSize := 2, laneBytes := 4096, coreBytes := 8192, barriers := 2 }
    place := { site := 1 }, status := .resident, running := true, alloc := 64, pc := 0x1000 }

def tm : Team :=
  { launch := 7, team := 0, cluster := 0, core := ⟨0, 1⟩, size := 2, roster := 3, units := 8
    barriers := [{}, { init := true, expArr := 2 }], arrivals := List.replicate 8 [] }

/-- A module that is ready, with one team on it. -/
def st : State := { State.reset with g := grp, teams := [tm], regs := [(0, 1)] }

/-- The same with another issuing group. -/
def on (g : Group) : State := { st with g := g }

/-- The state that a step leaves. -/
def after (s : State) : State := match step s with | .next t => t | _ => s

theorem runs_after {s : State} (h : (match step s with | .next _ => true | _ => false) = true) : Runs s (after s) := by
  unfold Runs after
  split at h
  · next t e => rw [e]
  · cases h

abbrev w1 : Fields := { dnum := 3, a := v 4 }
abbrev w2 : Fields := { dnum := 3, a := v 4, b := v 5 }
abbrev w3 : Fields := { dnum := 3, a := v 4, b := v 5, c := v 6 }

theorem witness_StepInvariant : Canonical (on { grp with ibuf := [.word 0x1C8] }) ∧
    Runs (on { grp with ibuf := [.word 0x1C8] }) (after (on { grp with ibuf := [.word 0x1C8] })) :=
  ⟨⟨by decide +kernel, by decide +kernel⟩, runs_after (by decide +kernel)⟩

theorem witness_MemoryReadsBack : Canonical State.reset ∧ Memory.wf [(3, 1)] = true ∧ (∀ i, memGet [(3, 1)] i = memGet [(3, 1)] i) ∧
    ([(3, 1), (4, 0)] : Scratch).Pairwise (fun p q => p.1 < q.1) :=
  ⟨⟨by decide +kernel, by decide +kernel⟩, by decide, fun _ => rfl, by decide⟩

theorem witness_DecodeEncode : (Instr.nop {}).WellFormed = true ∧ decode 0x1C8 = some (.nop {}) := by decide +kernel

theorem witness_StepRunsDecoded :
    (let s := on { grp with ibuf := [.word 0x1C8] }
     s.fatal = false ∧ s.agenda = [] ∧ s.g.deciding = false ∧ s.g.running = true ∧ s.g.stall = .none ∧ decode 0x1C8 = some (.nop {}) ∧
       s.g.shadow = none ∧ s.hostReqs = [] ∧ s.held = []) ∧
    (on { grp with shadow := some { slot := 1, quarter := 2, decider := some { regs := grp.side, skip := 0, queue := [] } } }).g.deciding = true ∧
    (on { grp with running := false }).g.deciding = false ∧
    decode 0xFFF = none ∧ Instr.isEvent .dispatch = true ∧ Instr.isEvent (.nop {}) = false ∧
    (match exec .dispatch { on grp with agenda := [] } with | .next _ => true | _ => false) = true ∧
    (let s := { st with fatal := true }
     s.fatal = true ∧ s.agenda.head? = none ∧ { s with agenda := [.event .dispatch] }.agenda.head? = some (.event .dispatch) ∧
       { s with agenda := [.event .eventGrant] }.agenda = .event .eventGrant :: [] ∧ Instr.isEvent .eventGrant = true) := by decide +kernel

theorem witness_RegisterFiles :
    (grp.depth = 0 ∧ 0 < { grp with depth := 1 }.depth) ∧ latchLane { grp with lat := wr grp.lat 2 (Vector.replicate 32 (some 5)) } 2 31 = some 5 ∧
    (∀ p : BitVec 3, p ≤ 6 → ({ num := 4, pat := p, parm := 1 } : Operand).neg = false) := by decide +kernel

theorem witness_IssueOrder :
    (Instr.form (.iadd { w2 with n := true })).bind (·.badPosition { w2 with n := true }) = some 0 ∧
    ((Instr.nop {}).WellFormed = true ∧ (on { grp with issued := 23 }).g.issued = 23) ∧
    ((∀ i ∈ [Instr.tlbinv { g := true, mod := 2 }, .halt { g := true, e := true }], i.WellFormed = true) ∧ st.g.id.system = false ∧
      st.g.id.monitor = false ∧ (Instr.mbxr { dnum := 8, ty := 12 }).WellFormed = true) ∧
    ((Instr.waitp { g := true, mod := 0x20 }).WellFormed = true ∧ (on { grp with issued := 1 }).g.issued ≠ 0) ∧
    (st.g.lanes { w2 with grd := 1 } = 0 ∧ waitClass (.iadd { w2 with grd := 1 }) = false ∧ privileged (.iadd { w2 with grd := 1 }) = false) ∧
    ((st.usesImm { w2 with dnum := 64 }).find? st.g.outOfBounds).isSome = true ∧
    (let s := on { grp with holds := wr grp.holds 3 0x41 }
     (Instr.iadd w2).WellFormed = true ∧ (∀ u ∈ s.usesImm w2, s.g.outOfBounds u = false) ∧ s.g.lanes w2 ≠ 0 ∧ w2.type.wide = false ∧
       s.g.holdCount (s.g.dnum w2) ≠ 0 ∧ s.g.holdArm (s.g.dnum w2) = true) ∧
    (let s := on { grp with holds := wr grp.holds 3 1 }
     s.g.holdCount (s.g.dnum w2) ≠ 0 ∧ s.g.holdArm (s.g.dnum w2) = false) ∧
    (let s := on { grp with holds := wr grp.holds 4 1 }
     let w : Fields := { n := true, a := v 4, b := v 5 }
     (Instr.iadd w).WellFormed = true ∧ (∀ u ∈ s.usesImm w, s.g.outOfBounds u = false) ∧ s.g.lanes w ≠ 0 ∧ s.g.holdCount (s.g.num w.a) ≠ 0) := by
  decide +kernel

theorem witness_IntegerArithmetic :
    (∀ i ∈ [Instr.iadd w2, .isub w2, .imul w2, .imin w2, .imax w2], Ready i w2 (st.usesImm w2) st) ∧
    (∀ i ∈ [Instr.imulh w2, .idiv w2, .irem w2], Ready i w2 (st.uses2 w2) st) ∧
    Ready (.imad w3) w3 (st.uses3 w3) st ∧ Ready (.iabs w1) w1 (st.uses1 w1) st ∧
    (let w := { w2 with c := kr 2, ty := 1 }
     Ready (.iaddx w) w (st.uses2 w ++ st.g.useOf 3 w.c false) st) := by decide +kernel

theorem witness_BitOperations :
    (let w := { w2 with ty := 12 }
     ∀ i ∈ [Instr.and w, .or w, .xor w, .andn w, .shl w, .shr w, .rotl w], Ready i w (st.usesImm w) st) ∧
    Ready (.sar w2) w2 (st.usesImm w2) st ∧
    (let w := { w3 with ty := 12 }
     Ready (.bsel w) w (st.uses3 w) st) ∧
    (let w := { w2 with c := kr 2, ty := 12 }
     Ready (.sel w) w (st.uses2 w ++ st.g.useOf 3 w.c false) st) ∧
    (let w := { w1 with ty := 12 }
     ∀ i ∈ [Instr.mov w, .brev w, .popc w, .clz w, .ctz w], Ready i w (st.uses1 w) st) ∧
    (let w := { w1 with imm := 0x2000 }
     Ready (.bfx w) w (st.uses1 w) st) ∧
    (let w := { w2 with imm := 0x011F, ty := 12 }
     Ready (.bfi w) w (st.uses2 w) st) ∧
    (let w : Fields := { dnum := 3, imm := 0x8000 }
     Ready (.ldi w) w (st.g.useDest w w.type.wide) st) ∧
    (let w := { w1 with mod := 1, ty := 12 }
     Ready (.ldih w) w (st.uses1 w) st) := by decide +kernel

theorem witness_LaneMasksAndPredicates :
    (let w : Fields := { dnum := 2, dfile := .k, a := v 4, b := v 5, ty := 1 }
     Ready (.iaddc w) w (st.uses2 w) st) ∧
    (∀ c : BitVec 6, c ≤ 5 →
     let w : Fields := { dnum := 2, dfile := .k, a := v 4, b := v 5, mod := c }
     Ready (.icmp w) w (st.usesImm w) st) ∧
    (∀ c : BitVec 6, c ≤ 3 →
     let w : Fields := { dnum := 2, dfile := .k, a := v 4, mod := c, ty := 12 }
     Ready (.vote w) w (st.uses1 w) st) ∧
    (let w : Fields := { g := true, dnum := 1, dfile := .k, a := kr 2, b := kr 3, ty := 12 }
     ∀ i ∈ [Instr.kand w, .kor w, .kxor w, .kandn w],
       Ready i w (st.g.useDest w false ++ st.g.useOf 1 w.a false ++ (if w.b = {} then [] else st.g.useOf 2 w.b false)) st) ∧
    (let w : Fields := { g := true, dnum := 1, dfile := .k, a := kr 2, ty := 12 }
     ∀ i ∈ [Instr.knot w, .kmov w],
       Ready i w (st.g.useDest w false ++ st.g.useOf 1 w.a false ++ (if w.b = {} then [] else st.g.useOf 2 w.b false)) st) ∧
    (let w : Fields := { g := true, dnum := 1, dfile := .s, a := kr 2, ty := 12 }
     ∀ i ∈ [Instr.kpop w, .kffs w],
       Ready i w (st.g.useDest w false ++ st.g.useOf 1 w.a false ++ (if w.b = {} then [] else st.g.useOf 2 w.b false)) st) := by
  decide +kernel

theorem witness_FloatInstructions :
    (let w := { w2 with ty := 4 }
     ∀ i ∈ [Instr.fadd w, .fsub w, .fmul w, .fmin w, .fmax w, .fdiv w, .fscale w], Ready i w (st.uses2 w) st) ∧
    (let w := { w3 with ty := 4 }
     Ready (.ffma w) w (st.uses3 w) st) ∧
    (let w := { w1 with ty := 4 }
     ∀ i ∈ [Instr.frcp w, .frsq w, .fsqrt w, .fexp2 w, .flog2 w, .fsin w, .fcos w, .fgetexp w, .fgetman w, .frint w], Ready i w (st.uses1 w) st) ∧
    (let w := { w2 with ty := 6 }
     Ready (.fadd w) w (st.uses2 w) st) ∧
    (let w := { w3 with ty := 7 }
     Ready (.fdot2 w) w (st.uses3 w) st) ∧
    (let w : Fields := { dnum := 2, dfile := .k, a := v 4, b := v 5, mod := 7, ty := 4 }
     Ready (.fcmp w) w (st.uses2 w) st) ∧
    (let w : Fields := { dnum := 2, dfile := .k, a := v 4, imm := 0x3FF, ty := 4 }
     Ready (.fclass w) w (st.uses1 w) st) := by decide +kernel

/-- Formats, NaNs, ordered and equal pairs, and both zeros. -/
theorem witness_MinMaxAndOrder : FFmt.f32 ≠ .e4m3 ∧ 0xFFC00001 < 2 ^ FFmt.f32.bits ∧ (FCtx.ofFmt 0).flushes .f32 = false ∧
    (FFmt.f32.decode 0x7FC00000).isNan = true ∧ (FFmt.f32.decode 0xFFC00001).isNan = true ∧
    (FFmt.f32.decode 0x7F800000).isNan = false ∧ (FFmt.f32.decode 1).isNan = false ∧ (fCmp .f32 (FCtx.ofFmt 0) 2 1 2).1 = true ∧
    (fCmp .f32 (FCtx.ofFmt 0) 4 2 1).1 = true ∧ (fCmp .f32 (FCtx.ofFmt 0) 0 (2 ^ 31) 0).1 = true ∧
    (2 ^ 31 : Nat).testBit (FFmt.f32.bits - 1) = true := by decide +kernel

theorem witness_RoundingAndOverflow : ∀ rm ≤ 4, (roundShift rm false 3 1).2 = true := by decide +kernel

theorem witness_SpecialResults : FFmt.f16 ≠ .e4m3 ∧ (FFmt.f16.decode 0x7D00).isSnan = true ∧ (FFmt.f16.decode 0x7E00).isNan = true ∧
    (FCtx.ofFmt 0).nanp = false ∧ (FCtx.ofFmt 0).flushes .f16 = false ∧ (FCtx.ofFmt 8).flushes .f16 = true := by decide +kernel

theorem witness_Conversions :
    (let w := { w1 with mod := 4 }
     Ready (.cvt w) w (st.usesCvt w) st ∧ Ready (.cvtx { w with imm := 0xC }) { w with imm := 0xC } (st.usesCvt { w with imm := 0xC }) st) ∧
    (let w := { w3 with mod := 7, ty := 4 }
     Ready (.nqdec w) w (st.uses3 w) st ∧ Ready (.nqenc w) w (st.uses3 w) st) ∧
    (let w := { w2 with mod := 6, ty := 4 }
     Ready (.cvtpk w) w (st.g.useDest w false ++ st.g.useOf 1 w.a w.type.wide ++ st.g.useOf 2 w.b w.type.wide) st) ∧
    (let w := { w3 with mod := 0x18, ty := 4 }
     (NumFmt.ofCode (w.modBits 0 4)).width = 8 ∧ Ready (.cvtpk w) w
       ((st.g.useDest w false ++ st.g.useOf 1 w.a w.type.wide ++ st.g.useOf 2 w.b w.type.wide) ++ st.g.useOf 3 w.c false) st) ∧
    ((FCtx.ofFmt 0).sat = false ∧ (FCtx.ofFmt 0x20).sat = true ∧ (FFmt.f32.decode 0x7FC00000).isNan = true) := by decide +kernel

theorem witness_FormatAndFlags :
    (let w : Fields := { g := true, a := sr 4, mod := 1, ty := 12 }
     Ready (.setfmt w) w (st.g.useOf 1 w.a false) st ∧ fmtLegal 0 = true ∧ fmtLegal 7 = false) ∧
    (let w : Fields := { g := true, imm := 4, mod := 1, ty := 12 }
     Ready (.setfmtImm w) w [] st ∧ fmtLegal 4 = true ∧ Ready (.setfmtImm { w with imm := 7 }) { w with imm := 7 } [] st) ∧
    (let w : Fields := { g := true, dnum := 63, dfile := .s, ty := 12 }
     Ready (.getfmt w) w (st.g.useDest w false) st ∧ Ready (.getflg w) w (st.g.useDest w false) st) ∧
    Ready (.clrflg { imm := 0x1F }) { imm := 0x1F } [] st := by decide +kernel

theorem witness_Shuffles :
    (let w := { w2 with ty := 12 }
     Ready (.shfl w) w (st.usesShfl w) st ∧ Ready (.shflu w) w (st.usesShfl w) st) ∧
    (let w := { w1 with ty := 12 }
     Ready (.matchLanes w) w (st.uses1 w) st) ∧
    (let w : Fields := { dnum := 2, a := v 4, b := kr 2, ty := 13 }
     Ready (.compact w) w (st.usesShfl w) st ∧ Ready (.expand w) w (st.usesShfl w) st) ∧
    (st.g.lanes {}).getLsbD 31 = true ∧ (st.readOp .n32 (v 5) false 31).toNat % 32 = 0 := by decide +kernel

theorem witness_Scans :
    (∀ c : BitVec 6, c ≤ 5 → (let w := { w1 with mod := c }
      Ready (.iscan w) w (st.uses1 w) st ∧ Ready (.ired w) w (st.uses1 w) st) ∧
      (let w := { w1 with mod := c + 8 }
       Ready (.iscan w) w (st.uses1 w) st)) ∧
    (∀ c : BitVec 6, c ≤ 2 → (let w := { w1 with mod := c, ty := 4 }
      Ready (.fscan w) w (st.uses1 w) st ∧ Ready (.fred w) w (st.uses1 w) st) ∧
      (let w := { w1 with mod := c + 8, ty := 4 }
       Ready (.fscan w) w (st.uses1 w) st)) := by decide +kernel

/-- Half of the lanes, through k1. -/
def half : Group := { grp with k := wr grp.k 1 0xFFFF }
/-- A full mark-join stack. -/
def deep : Group := { half with stack := List.replicate 32 { path := false, addr := 0x1000, mask := 1, fmt := 0 } }

theorem witness_ControlFlow :
    (let w : Fields := { e := true, imm := 0x8000 }
     st.g.lanes w = st.g.active ∧ Ready (.bra w) w [] st) ∧
    (∀ m : BitVec 6, m ≤ 2 → ∀ g ∈ [half, deep], let s := on g
      let w : Fields := { e := true, grd := 1, mod := m, imm := 0xFFFF }
      s.g.lanes w ≠ s.g.active ∧ Ready (.bra w) w [] s) ∧
    (let w : Fields := { e := true, a := sr 63 }
     Ready (.brx w) w (st.g.useOf 1 w.a true) st) ∧
    (∀ n : Bool, let w : Fields := { g := true, e := true, dnum := if n then 0 else 63, dfile := if n then .v else .s, n := n }
      Ready (.call w) w (st.g.useDest w true) st ∧
      Ready (.callx { w with a := sr 4 }) { w with a := sr 4 } (st.g.useDest { w with a := sr 4 } true ++ st.g.useOf 1 (sr 4) true) st) ∧
    (let w : Fields := { g := true, e := true, a := sr 9 }
     Ready (.ret w) w (st.g.useOf 1 w.a true) st) ∧
    ((on grp).g.stack.length < 32 ∧ 32 ≤ (on deep).g.stack.length ∧ Ready (.mark { g := true }) { g := true } [] (on deep)) ∧
    (let s := on { half with stack := [{ path := true, addr := 0, mask := 0, fmt := 0 }, { path := false, addr := 0x1000, mask := 3, fmt := 0 }] }
     let w : Fields := { g := true, e := true }
     (0 : Mask) &&& s.g.live = 0 ∧ (3 : Mask) &&& s.g.live ≠ 0 ∧ (s.g.stack.find? (fun e => !e.path)).map (·.addr) = some s.g.pc ∧
       Ready (.join w) w [] s ∧ (st.g.stack.find? (fun e => !e.path)).map (·.addr) ≠ some st.g.pc ∧ Ready (.join w) w [] st) ∧
    (let s := on half
     let w : Fields := { e := true, grd := 1 }
     s.g.lanes w ≠ s.g.active ∧ Ready (.exit w) w [] s) ∧
    (let s := on { half with active := 0xFFFF, stack := [{ path := true, addr := 0, mask := 0x10000, fmt := 0 }] }
     let w : Fields := { e := true }
     let live := s.g.live &&& ~~~(s.g.lanes w)
     s.g.lanes w = s.g.active ∧ (0x10000 : Mask) &&& live ≠ 0 ∧ Ready (.exit w) w [] s) ∧
    (let w : Fields := { e := true }
     st.g.lanes w = st.g.active ∧ st.g.stack = [] ∧ Ready (.exit w) w [] st) ∧
    (let s := on { grp with stack := [{ path := false, addr := 0x1000, mask := 1, fmt := 0 }], live := 2, active := 2 }
     (s.g.stack.find? (fun e => !e.path)).map (·.addr) = some s.g.pc ∧ (1 : Mask) &&& s.g.live = 0 ∧
       Ready (.join { g := true, e := true }) { g := true, e := true } [] s) := by decide +kernel

/-- A core whose TLB maps the lowest 2^30 bytes of partition 0 with every right, to the frames of the same addresses. -/
def mapped : Core :=
  { tlb := [{ part := 0, base := 0, size := 2 ^ 30, t := { vpn := 0, frame := 0, write := true, exec := true, tso := false, pchk := true } }] }
/-- The module with a mapped core, full quotas and a page table that maps 2^29 bytes for partition 0, and a system group. -/
def sys (g : Group) : State :=
  { st with g := { g with id := { g.id with system := true } }, cores := [(⟨0, 1⟩, mapped)]
            regs := [(0, 1), (0x10090, BitVec.allOnes 64), (0x10098, BitVec.ofNat 64 (2 ^ 63 + 2 ^ 17))]
            clines := [{ agent := .home, line := 0x400, st := .M, data := 0x40001 }, { agent := .home, line := 0x800, st := .M, data := 0x87 }] }
theorem pair_true {α : Type} {x : α × Bool} (h : x.2 = true) : x = (x.1, true) := by rw [← h]
theorem pair_false {α : Type} {x : α × Bool} (h : x.2 = false) : x = (x.1, false) := by rw [← h]

def okOf {ε α : Type} (d : α) : Except ε α → α
  | .ok a => a
  | .error _ => d
theorem ok_pair {σ ε α : Type} {x : σ × Except ε α} (d : α) (h : (match x.2 with | .ok _ => true | .error _ => false) = true) :
    x = (x.1, .ok (okOf d x.2)) := by
  obtain ⟨a, b⟩ := x
  cases b with
  | ok b => rfl
  | error b => cases h

abbrev ww : Fields := { g := true, e := true }

theorem witness_RunControl :
    Ready (.nop {}) {} [] st ∧ Ready (.yield ww) ww [] st ∧
    (let w := { ww with imm := 0xFFFF, mod := 1 }
     Ready (.yieldPause w) w [] (on { grp with request := true }) ∧ Ready (.yieldPause w) w [] st ∧ st.g.request = false ∧
       st.g.status = .resident ∧ st.g.pending = .none) ∧
    (let w := { ww with imm := 42 }
     Ready (.trap w) w [] st ∧ Ready (.brkpt { g := true }) { g := true } [] st ∧ Ready (.region { g := true }) { g := true } [] st) ∧
    (let w := { ww with a := sr 4 }
     Ready (.trap w) w (st.g.useOf 1 w.a true) st) ∧
    (let w : Fields := { g := true, dnum := 2, dfile := .k, ty := 12 }
     Ready (.pollpre w) w (st.g.useDest w true) st) ∧
    (let w : Fields := { g := true, dnum := 2, dfile := .s, ty := 3 }
     Ready (.pollpre w) w (st.g.useDest w true) (on { grp with request := true })) ∧
    (Ready (.halt ww) ww [] (sys grp) ∧ (sys grp).g.status = .resident) := by decide +kernel

theorem witness_ifread : ∃ s1 tr d,
    let s := sys grp
    let w : Fields := { g := true, dnum := 6, dfile := .p, a := sr 4, ty := 13 }
    s.translate s.g.core s.g.id.part 0 .read = (s1, .ok tr) ∧ s1.newest (tr.frame / 128) = (d, false) ∧
      Ready (.ifread w) w (s.g.useDestPtr w ++ s.g.useOf 1 w.a true) s ∧
      Ready (.ifread { w with mod := 1 }) { w with mod := 1 } (s.g.useDestPtr w ++ s.g.useOf 1 w.a true) s :=
  ⟨_, _, 0, rfl, by decide +kernel, by decide +kernel, by decide +kernel⟩

theorem witness_ifreadHome :
    let s := { sys grp with clines := [{ agent := .home, line := 0, st := .S, data := 5 }] }
    (s.homeRead 0).2 = some (5, false) ∧ (s.homeRead 0).1.g = s.g := by decide +kernel

theorem witness_ifreadFault : ∃ s1 f,
    let s := { sys grp with cores := [], regs := [(0, 1)] }
    s.translate s.g.core s.g.id.part 0 .read = (s1, .error f) := ⟨_, _, rfl⟩

def gd : Grid :=
  { launch := 7, queue := 0, part := 0, system := false, groups := 2
    record := List.replicate 16 0 ++ [2, 0, 0, 0, 0x12, 0x11, 0, 0, 64, 0, 0, 16, 0, 32, 0, 0] ++ List.replicate 96 0 }

theorem witness_IdentityAndIndex :
    (let s := { st with grids := [gd] }
     ∀ c : BitVec 6, c ≤ 15 → c ≠ 8 → let w : Fields := { g := true, dnum := 63, dfile := .s, mod := c, ty := 1 }
       Ready (.rdid w) w (s.g.useDest w w.type.wide) s ∧ s.grids.find? (fun x => x.launch = s.g.id.launch) = some gd) ∧
    (let w : Fields := { dnum := 2, mod := 8, ty := 3 }
     Ready (.rdid w) w (st.g.useDest w w.type.wide) st) ∧
    (let w : Fields := { g := true, dnum := 4, dfile := .s, ty := 3 }
     Ready (.rdclk w) w (st.g.useDest w true) st) ∧
    (∀ r : BitVec 6, r ≤ 3 → r ≠ 0 →
      (let w : Fields := { g := true, a := sr 4, mod := r }
       Ready (.xset w) w (st.g.useOf 1 w.a true) st ∧ Ready (.xadd w) w (st.g.useOf 1 w.a true) st) ∧
      (let w : Fields := { g := true, imm := 0xFFFF, mod := r + 32 }
       Ready (.xset w) w [] st ∧ Ready (.xadd w) w [] st) ∧
      (let w : Fields := { g := true, dnum := 10, dfile := .s, mod := r, ty := 1 }
       Ready (.xget w) w (st.g.useDest w false) st)) := by decide +kernel

abbrev grow (n : BitVec 16) : Fields := { g := true, imm := n }

theorem witness_RegisterAllocation :
    (let s := sys grp
     ¬(256 < 64 + 192 ∨ s.quotaRegs 0 < 64 + 192) ∧ s.quarterQueue s.g.core s.g.place.quarter = [] ∧ s.canGrow s.g 192 = true ∧
       Ready (.vgrow (grow 192)) (grow 192) [] s) ∧
    (256 < 64 + 200 ∧ Ready (.vgrow (grow 200)) (grow 200) [] (sys grp)) ∧
    (let s := { sys grp with vgrowQueue := [2 ^ 24], gs := [] }
     ¬(256 < 64 + 8 ∨ s.quotaRegs 0 < 64 + 8) ∧ s.g.granted ≠ 8 ∧ s.quarterQueue ⟨0, 0⟩ 0 = [2 ^ 24] ∧
       Ready (.vgrow (grow 8)) (grow 8) [] s) ∧
    (56 + 8 ≤ grp.alloc ∧ grp.alloc ≤ 256 ∧ (∀ r < 256, (56 + 8 ≤ r && r < 64 && grp.holdCount r ≠ 0) = false) ∧
      Ready (.vshrink (grow 56)) (grow 56) [] st) ∧
    (grp.alloc < 64 + 8 ∧ Ready (.vshrink (grow 64)) (grow 64) [] st) ∧
    (∀ h : Bool, let s := on { grp with holds := wr grp.holds 56 (if h then 0x41 else 1) }
      (s.g.holdCount 56 ≠ 0) ∧ s.g.holdArm 56 = h ∧ (∀ q < 256, q ≠ 56 → s.g.holdCount q = 0) ∧ Ready (.vshrink (grow 8)) (grow 8) [] s) := by
  decide +kernel

/-- A `gridgrow` that waits for its answer. -/
def growing (n : BitVec 64) : State :=
  { st with g := { grp with entries := [{ id := 0, kind := .gridgrow, cls := .d, path := 8, tag := n, dfile := .s, dest := 7 }], stall := .uniform 0
                            ibuf := [.word 0x1C8] }
            grids := [gd] }

theorem witness_GridGrowth :
    (let w : Fields := { g := true, dnum := 7, dfile := .s, imm := 96, mod := 0x20, ty := 3 }
     Ready (.gridgrow w) w (st.g.useDest w true) st) ∧
    (let w : Fields := { g := true, dnum := 7, dfile := .s, b := sr 6, ty := 3 }
     Ready (.gridgrow w) w (st.g.useDest w true ++ st.g.useOf 2 w.b true) st) ∧
    (let s := growing 96
     let x : Grid := s.grids.headD gd
     s.has 1 = true ∧ ((s.group 1).entries.find? (fun e => e.kind = .gridgrow)).any (fun e => e.id = 0 && e.dest = 7) = true ∧ s.gridOf 7 = some x ∧
       (s.group 1).ibuf = .word 0x1C8 :: [] ∧ (s.group 1).boundaryFaults = [] ∧ 0 < x.shape.unit ∧ (s.group 1).stall = .uniform 0 ∧
       (s.group 1).request = false ∧ (s.group 1).entries.all (fun e => !(s.group 1).compares e) = true ∧ x.foreign = false ∧ { s with grids := [{ gd with foreign := true }] }.gridOf 7 = some { gd with foreign := true } ∧
       x.grown.find? (fun k => k.1 = 0 && k.2.1 = 0) = none ∧ 96 % x.shape.unit = 0 ∧ x.groups + 96 ≤ 2 ^ 32 - 1 ∧
       ¬(x.groups + (2 ^ 32 - 1) ≤ 2 ^ 32 - 1)) ∧
    ({ gd with grown := [(0, 0, 2)] }.grown.find? (fun k => k.1 = 0 && k.2.1 = 0) = some (0, 0, 2)) := by decide +kernel

/-- A pointer to 64 words of the team's core space, and one to 64 words of global memory at byte 0x4000. -/
def corePtr : Ptr := ptrTo 0 1 64 0x02 1 0 0
def globalPtr : Ptr := ptrTo 0x4000 0 64 0x02 4 0 3
def withP (n : Nat) (p : Ptr) (g : Group) : Group := g.writeP n p

theorem witness_Pointers :
    (let w : Fields := { g := true, dnum := 4, dfile := .p, a := sr 4, b := sr 5, imm := 0x1902, mod := 0x3F }
     Ready (.pmake w) w (st.g.useDestPtr w ++ (st.g.useOf 1 w.a true ++ st.g.useOf 2 w.b true)) st) ∧
    (∀ c : BitVec 6, c ≤ 10 →
      (let w : Fields := { g := true, dnum := 4, dfile := .p, a := pr 2, imm := 7, mod := c + 16 }
       Ready (.pset w) w (st.g.useDestPtr w ++ (st.g.usePtr 1 w.a ++ [])) st) ∧
      (let w : Fields := { g := true, dnum := 4, dfile := .s, a := pr 2, mod := c }
       Ready (.pget w) w (st.g.useDest w true ++ st.g.usePtr 1 w.a) st)) ∧
    (let w : Fields := { g := true, dnum := 4, dfile := .p, a := pr 2, b := sr 5 }
     Ready (.padd w) w (st.g.useDestPtr w ++ (st.g.usePtr 1 w.a ++ st.g.useOf 2 w.b true)) st ∧
       Ready (.pset w) w (st.g.useDestPtr w ++ (st.g.usePtr 1 w.a ++ st.g.useOf 2 w.b true)) st) ∧
    (let w : Fields := { dnum := 4, a := v 8 }
     Ready (.pmov w) w (st.g.useDestPtr w ++ st.g.usePtr 1 w.a) st) ∧
    (let w : Fields := { dnum := 2, a := v 4, b := v 8 }
     Ready (.psub w) w (st.g.useDest w true ++ (st.g.usePtr 1 w.a ++ st.g.usePtr 2 w.b)) st) ∧
    (let w : Fields := { dnum := 3, a := v 4, b := v 5, mod := 0x18 }
     Ready (.pchk w) w (st.g.useDest w false ++ st.g.usePtr 1 w.a ++ st.useIndex w (w.modBit 2)) st) ∧
    (Ptr.valid 0 = false ∧ (corePtr ||| 2 ^ 126).getLsbD 126 = true ∧ Ptr.cls (ptrTo 0 1 64 2 1 3 0) = 3 ∧ Ptr.scope (ptrTo 0 1 64 2 1 0 6) = 6 ∧
      badPointerBits corePtr 1 none 0 = 0 ∧ Ptr.scope corePtr ≤ 3 ∧ Ptr.anchor corePtr = st.anchorFor grp 0 ∧
      Ptr.anchor (ptrTo 0 2 64 2 1 0 0) ≠ st.anchorFor grp 0 ∧ badPointerBits (ptrTo 0 0 64 2 4 1 3) 2 none 0 = 0 ∧
      Ptr.cls (ptrTo 0 0 64 2 4 1 3) = 1 ∧ Ptr.cls corePtr ≠ 1 ∧ (Ptr.length corePtr : Int) ≤ 64 ∧ st.checkPtr grp corePtr 63 1 1 none 0 = none) := by
  decide +kernel

def accesses : Group := withP 3 globalPtr (withP 2 corePtr grp)

theorem witness_LoadIssues : ∃ s' ts,
    let w : Fields := { dnum := 8, a := pr 2, b := v 7, mod := 0x11, ty := 1 }
    let s := { sys accesses with g := accesses }
    let us := s.laneUses w (w.modBit 2) (elemCount 2 w.type)
    s.g.unsent = [] ∧ (∀ u ∈ us, s.checkLane 1 (some w.type) (wrongForP (w.dfile = .p)) u = none ∧ partKey u.ptr = (0, 0)) ∧
      State.translateLanes s.g.core s.g.id.part .read us s = (s', .ok ts) ∧ HasRoom (payloadSlots (w.a.file = .v) 0) false s ∧
      Ready (.ld w) w ([spanUse 0 w.dfile (s.g.dnum w) 2 (stepOf w.type (s.lanePtrs w)) true] ++ s.g.usePtr 1 w.a ++ s.useIndex w false) s :=
  ⟨_, _, rfl, by decide +kernel, rfl, ⟨by decide +kernel, by decide +kernel, by decide +kernel, by decide +kernel⟩, by decide +kernel⟩

theorem witness_literalLoad : ∃ s' ts,
    let w : Fields := { dnum := 8, imm := 4, mod := 8, ty := 1 }
    let s := sys grp
    HasRoom 1 false s ∧ (s.g.pc + 4 * 4) % 4 = 0 ∧ State.translateList s.g.core s.g.id.part .exec [0x1010] s = (s', .ok ts) ∧
      Ready (.ldLiteral w) w [spanUse 0 .v 8 1 1 true] s ∧
      (let w : Fields := { dnum := 8, imm := 1, mod := 8, ty := 3 }
       (s.g.pc + 4 * 1) % 8 ≠ 0 ∧ Ready (.ldLiteral w) w [spanUse 0 .v 8 1 2 true] s) :=
  ⟨_, _, ⟨by decide +kernel, by decide +kernel, by decide +kernel, by decide +kernel⟩, by decide +kernel, rfl, by decide +kernel, by decide +kernel⟩

/-- What a store or atomic of the first lanes needs: its checks, path and translations. -/
theorem witness_StoreAndAtomicIssues : ∃ s' ts s'' ts',
    let s := { sys accesses with g := accesses }
    let w : Fields := { a := pr 3, b := v 7, c := v 8, mod := 0x10, ty := 1 }
    let us := s.laneUses w (w.modBit 2) (elemCount 1 w.type)
    let wa : Fields := { dnum := 9, a := pr 3, c := v 8, mod := 0x20, ty := 1 }
    let ua := s.laneUses wa false (fun _ => 1)
    ((∀ u ∈ us, s.checkLane 2 (some w.type) (wrongForP false) u = none ∧ partKey u.ptr = (3, 0)) ∧
      (∀ u ∈ us, Ptr.space u.ptr = 7 → ∀ x ∈ engineWrites u (s.storeLane w 1 u).1, startsWork x = false) ∧
      State.translateLanes s.g.core s.g.id.part .write us s = (s', .ok ts) ∧ HasRoom (payloadSlots false 128) true s ∧
      Ready (.st w) w (s.g.usePtr 1 w.a ++ s.useIndex w false ++ [spanUse 3 .v 8 1 1 false]) s) ∧
    (atomTypes 0 wa.type = true ∧ (∀ u ∈ ua, s.checkLane 3 (some wa.type) (fun _ => 0) u = none ∧ partKey u.ptr = (3, 0)) ∧
      State.translateLanes s.g.core s.g.id.part .write ua s = (s'', .ok ts') ∧ HasRoom (payloadSlots false 128) true s ∧
      Ready (.atom wa) wa ([spanUse 0 .v 9 1 1 true] ++ s.g.usePtr 1 wa.a ++ s.useIndex wa false ++ [spanUse 3 .v 8 1 1 false]) s) :=
  ⟨_, _, _, _, ⟨by decide +kernel, by decide +kernel, ok_pair [] (by decide +kernel), ⟨by decide +kernel, by decide +kernel, by decide +kernel, by decide +kernel⟩, by decide +kernel⟩,
    by decide +kernel, by decide +kernel, ok_pair [] (by decide +kernel), ⟨by decide +kernel, by decide +kernel, by decide +kernel, by decide +kernel⟩, by decide +kernel⟩

theorem witness_AccessFaults :
    let s := { sys accesses with g := accesses }
    let w : Fields := { dnum := 8, a := pr 2, imm := 64, ty := 1 }
    let ws : Fields := { a := pr 2, c := v 8, imm := 64, ty := 1 }
    (let us := s.laneUses w false (elemCount 1 w.type)
     s.g.unsent = [] ∧ (us.head?.bind (s.checkLane 1 (some w.type) (wrongForP false))).map (·.cause) = some 5 ∧ (us.head?.map (·.lane)) = some 0 ∧
       (∀ u ∈ us, (s.checkLane 1 (some w.type) (wrongForP false) u).all (fun f => f.cause = 5) = true) ∧
       Ready (.ld w) w ([spanUse 0 .v 8 1 1 true] ++ s.g.usePtr 1 w.a ++ s.useIndex w false) s) ∧
    (let us := s.laneUses ws false (elemCount 1 ws.type)
     (us.head?.bind (s.checkLane 2 (some ws.type) (wrongForP false))).map (·.cause) = some 5 ∧
       (∀ u ∈ us, (s.checkLane 2 (some ws.type) (wrongForP false) u).all (fun f => f.cause = 5) = true) ∧
       Ready (.st ws) ws (s.g.usePtr 1 ws.a ++ s.useIndex ws false ++ [spanUse 3 .v 8 1 1 false]) s) := by decide +kernel

theorem witness_ScopeChangesAndLineClear : ∃ s1 t1 s2 t2 s3 t3,
    let s := { sys accesses with g := { accesses with id := { accesses.id with system := true } } }
    let u : LaneUse := { lane := 0, ptr := globalPtr, index := 0, count := 1 }
    let wn : Fields := { g := true, dnum := 4, dfile := .p, a := pr 3, imm := 2 }
    let ww : Fields := { g := true, dnum := 4, dfile := .p, a := pr 3, imm := 4 }
    let wl : Fields := { g := true, a := pr 3, c := v 8, ty := 12 }
    (Ptr.space globalPtr = 4 ∧ Ptr.length globalPtr ≠ 0 ∧ 2 ≤ Ptr.scope globalPtr ∧ Ptr.scope globalPtr ≤ 4 ∧
      s.checkPtr s.g globalPtr 0 1 1 none 0 = none ∧ s.checkPtr s.g globalPtr 63 1 1 none 0 = none) ∧ HasRoom 1 false s ∧
    State.translateLanes s.g.core s.g.id.part .read [u] s = (s1, .ok t1) ∧ Ready (.narrow wn) wn (s.g.useDestPtr wn ++ s.g.usePtr 1 wn.a) s ∧
    State.translateLanes s.g.core s.g.id.part .write [u] s = (s2, .ok t2) ∧ Ready (.widen ww) ww (s.g.useDestPtr ww ++ s.g.usePtr 1 ww.a) s ∧
    (s.checkPtr s.g globalPtr 0 1 2 none 0 = none ∧ Ptr.elemAddr globalPtr 0 % 128 = 0 ∧
      State.translateLanes s.g.core s.g.id.part .write [{ lane := 0, ptr := globalPtr, index := s.elemIndex wl true 0, count := 1 }] s = (s3, .ok t3) ∧
      HasRoom (payloadSlots false 128) true s ∧ Ready (.linclr wl) wl (s.g.usePtr 1 wl.a ++ s.useIndex wl true ++ s.g.useOf 3 wl.c false) s) ∧
    (let p : Ptr := ptrTo 0 0 0 2 4 0 3
     Ptr.length p = 0 ∧ Ptr.space corePtr < 6 ∧ Ptr.space corePtr ≠ 4) :=
  ⟨_, _, _, _, _, _, by decide +kernel, ⟨by decide +kernel, by decide +kernel, by decide +kernel, by decide +kernel⟩, rfl, by decide +kernel, rfl, by decide +kernel,
    ⟨by decide +kernel, by decide +kernel, rfl, ⟨by decide +kernel, by decide +kernel, by decide +kernel, by decide +kernel⟩, by decide +kernel⟩, by decide +kernel⟩

/-- A load of path 3 that is in flight. -/
def inFlight : Entry := { id := 0, kind := .load, cls := .i, path := 3 }

theorem witness_PathAndArmWaits :
    (let w : Fields := { g := true, imm := 0x0003, mod := 0x20 }
     Ready (.waitp w) w [] st ∧ Ready (.waitp w) w [] (on { grp with entries := [inFlight], nextId := 1 }) ∧
       (({ grp with entries := [inFlight] } : Group).entries.filter (fun (e : Entry) => e.counted && e.path = 3)).length = 1) ∧
    (let w : Fields := { g := true, a := sr 9, imm := 3 }
     Ready (.waitp w) w (st.g.useOf 1 w.a true) st) ∧
    (∀ c : BitVec 16, c = 0 ∨ c = 32 → let w : Fields := { g := true, a := v 63, imm := c }
      Ready (.arm w) w [{ pos := 1, file := .v, num := 63, write := true }] st) ∧
    (let w : Fields := { g := true, a := v 63 }
     Ready (.waith w) w [{ pos := 1, file := .v, num := 63 }] st) ∧
    (∀ h : Bool, let s := on { grp with holds := wr grp.holds 63 (if h then 0x41 else 1) }
      let w : Fields := { g := true, a := v 63 }
      Ready (.waith w) w [] s ∧ Ready (.arm w) w [] s ∧ s.g.outOfBounds { pos := 1, file := .v, num := 63 } = false ∧ s.g.holdCount 63 ≠ 0 ∧
        s.g.holdArm 63 = h) := by
  refine ⟨?_, ?_, ?_, ?_, ?_⟩
  · decide +kernel
  · decide +kernel
  · rintro c (rfl | rfl) <;> decide +kernel
  · decide +kernel
  · decide +kernel

/-- An arrival of the team's other member, with the formats of f32. -/
def arrival (fa : Nat) : Arrival :=
  { ctx := 2, op := 0, handle := 4, mfa := fa, mfb := 1, macc := 0, regA := 8, regB := 16, regS := 0, held := [], pc := 0, mask := 0xFFFFFFFF }
/-- The module with a team in which members 0 and 1 have these arrivals pending, and f32 matrix formats. -/
def pending (mine others : List Arrival) : State :=
  { on { grp with fmt := 0x440 } with teams := [{ tm with arrivals := [mine, others] ++ List.replicate 6 [] }] }

theorem witness_MatrixArrivals :
    (let w : Fields := { g := true, imm := 3 }
     (∀ i < 8, (st.teamOf st.g).size ≤ i → (3 : Nat).testBit i = false) ∧ (∀ l ∈ (st.teamOf st.g).arrivals, l = []) ∧ Ready (.roster w) w [] st) ∧
    (let w : Fields := { g := true, imm := 5 }
     (st.teamOf st.g).size ≤ 2 ∧ (5 : Nat).testBit 2 = true ∧ Ready (.roster w) w [] st) ∧
    (let w : Fields := { g := true, imm := 3 }
     [arrival 1] ∈ ((pending [] [arrival 1]).teamOf grp).arrivals ∧ Ready (.roster w) w [] (pending [] [arrival 1])) ∧
    (let w : Fields := { g := true, a := v 8, b := v 16, c := v 24, imm := 4 }
     (let s := { st with teams := [{ tm with roster := 6 }] }
      s.rosterPlace = none ∧ Ready (.mma w) w (s.usesMma w) s) ∧
     (let s := on { grp with fmt := 0x40 }
      s.rosterPlace = some 0 ∧ matrixShape 1 0 0 = none ∧ fmtMFA s.g.fmt = 1 ∧ fmtMFB s.g.fmt = 0 ∧ Ready (.mma w) w (s.usesMma w) s) ∧
     (let s := pending [] []
      s.rosterPlace = some 0 ∧ fmtMFA s.g.fmt = 1 ∧ fmtMFB s.g.fmt = 1 ∧ fmtMACC s.g.fmt = 0 ∧ matrixShape 1 1 0 = some (32, 32, 8) ∧
        4 + 1 ≤ (s.teamOf s.g).units ∧ 1 ∈ (s.teamOf s.g).positions ∧ Ready (.mma w) w (s.usesMma w) s ∧
        (s.teamOf s.g).units < 8 + 1 ∧ Ready (.mma { w with imm := 8 }) { w with imm := 8 } (s.usesMma { w with imm := 8 }) s) ∧
     (let s := pending (List.replicate 4 (arrival 1)) []
      4 ≤ ((s.teamOf s.g).arrivals.getD 0 []).length ∧ Ready (.mma w) w (s.usesMma w) s) ∧
     (let s := pending [] [arrival 1]
      (s.teamOf s.g).positions = [0, 1] ∧ (s.teamOf s.g).arrivals.getD 1 [] = [arrival 1] ∧ Ready (.mma w) w (s.usesMma w) s)) := by
  refine ⟨?_, ?_, ?_, ?_⟩
  · refine ⟨?_, ?_, ?_⟩
    · intro i hi h; have : i = 2 ∨ i = 3 ∨ i = 4 ∨ i = 5 ∨ i = 6 ∨ i = 7 := by have : 2 ≤ i := h; omega
      rcases this with rfl | rfl | rfl | rfl | rfl | rfl <;> rfl
    · decide +kernel
    · decide +kernel
  all_goals decide +kernel

/-- An operation of the team on units 4 and after. -/
def op : MatrixOp := { id := 9, launch := 7, team := 0, core := ⟨0, 1⟩, handle := 4, mfa := 1, mfb := 1, macc := 0, r := 2, arrivals := [] }

theorem witness_Accumulators :
    (let s := { sys grp with grids := [gd] }
     let w : Fields := { g := true, dnum := 63, dfile := .s, imm := 120 }
     ¬(120 = 0 ∨ 128 < 8 + 120 ∨ s.quotaUnits 0 < 8 + 120) ∧ s.coreQueue s.g.core = [] ∧ s.canGiveUnits s.g.core 0 120 = true ∧
       Ready (.acalloc w) w (s.g.useDest w true) s ∧ (128 < 8 + 121 ∧ Ready (.acalloc { w with imm := 121 }) { w with imm := 121 } (s.g.useDest w true) s) ∧
       (let s := { s with teams := { tm with team := 1, units := 120 } :: s.teams }
        s.canGiveUnits s.g.core 0 8 = false ∧ Ready (.acalloc { w with imm := 8 }) { w with imm := 8 } (s.g.useDest w true) s)) ∧
    (let w : Fields := { g := true, imm := 8 }
     0 < 8 ∧ 8 ≤ (st.teamOf st.g).units ∧ (∀ l ∈ (st.teamOf st.g).arrivals, l = []) ∧ st.opsOn st.g 0 8 = [] ∧ Ready (.acfree w) w [] st ∧
       (st.teamOf st.g).units < 9 ∧ Ready (.acfree { w with imm := 9 }) { w with imm := 9 } [] st ∧
       (let s := { st with ops := [op] }
        s.opsOn s.g 0 8 ≠ [] ∧ Ready (.acfree w) w [] s)) ∧
    (let w : Fields := { g := true, imm := 0x0304 }
     4 + 4 ≤ (st.teamOf st.g).units ∧ (st.opsOn st.g 4 4).getLast? = none ∧ Ready (.aczero w) w [] st ∧
       (st.teamOf st.g).units < 5 + 4 ∧ Ready (.aczero { w with imm := 0x0305 }) { w with imm := 0x0305 } [] st ∧
       (let s := { st with ops := [op] }
        (s.opsOn s.g 4 4).getLast? = some op ∧ Ready (.aczero w) w [] s)) ∧
    (let w : Fields := { dnum := 8, imm := 0x3F04, mod := 0x20, ty := 4 }
     let wc : Fields := { c := v 8, imm := 0x3F04, mod := 0x20, ty := 4 }
     (63 < 64 ∧ 4 + 4 ≤ (st.teamOf st.g).units ∧ st.opsOn st.g 4 4 = [] ∧ st.g.tileWait = none ∧
       Ready (.acrd w) w [{ pos := 0, file := .v, num := 8, count := 2, align := 1, write := true }] st ∧ Ready (.acwr wc) wc [spanUse 3 .v 8 2 1 false] st) ∧
     (let s := { st with ops := [op] }
      s.opsOn s.g 4 4 ≠ [] ∧ (s.opsOn s.g 4 4).getLast? = some op ∧
        Ready (.acrd w) w [{ pos := 0, file := .v, num := 8, count := 2, align := 1, write := true }] s ∧ Ready (.acwr wc) wc [spanUse 3 .v 8 2 1 false] s) ∧
     (let s := on { grp with tileWait := some ([9], 4, 4) }
      (∀ o ∈ s.ops, o.id ∉ [9]) ∧ Ready (.acrd w) w [{ pos := 0, file := .v, num := 8, count := 2, align := 1, write := true }] s) ∧
     (let w : Fields := { dnum := 8, imm := 0x4004, mod := 0x20, ty := 4 }
      64 ≤ w.immBits 8 8 ∧ Ready (.acrd w) w [{ pos := 0, file := .v, num := 8, count := 2, align := 1, write := true }] st)) := by decide +kernel

theorem witness_Batches :
    (let w : Fields := { g := true, dnum := 63, dfile := .s, mod := 1 }
     st.g.matrixBatches.length < 63 ∧ Ready (.sealm w) w (st.g.useDest w true) st ∧ Ready (.sealc w) w (st.g.useDest w true) st ∧
       (let s := on { grp with matrixBatches := List.replicate 63 (0, [0]), copyBatches := List.replicate 63 (0, [0]) }
        63 ≤ s.g.matrixBatches.length ∧ 63 ≤ s.g.copyBatches.length ∧ Ready (.sealm w) w (s.g.useDest w true) s ∧
          Ready (.sealc w) w (s.g.useDest w true) s)) ∧
    (let w : Fields := { g := true, mod := 0x20 }
     st.g.matrixBatches.length ≤ 0 ∧ Ready (.waitm w) w [] st ∧ Ready (.waitc w) w [] st ∧
       (let s := on { grp with matrixBatches := [(0, [0])], copyBatches := [(0, [0])] }
        0 < s.g.matrixBatches.length ∧ Ready (.waitm w) w [] s ∧ Ready (.waitc w) w [] s)) := by decide +kernel

/-- An arrival that is not applied. -/
def arrivingNow : Group := { grp with entries := [{ id := 0, kind := .localArrival, cls := .d, path := 0 }], nextId := 1 }

theorem witness_Barriers :
    (let w : Fields := { g := true, a := sr 4, b := sr 5, imm := 1, mod := 1 }
     let s := on (grp.writeS 4 768)
     (s.readOp .n64 w.a true 0).toNat = 768 ∧ 1 < (s.teamOf s.g).barriers.length ∧ s.g.arriving s.g.teamInCluster = false ∧
       Ready (.barInit w) w (s.g.useOf 1 w.a true ++ s.g.useOf 2 w.b true) s ∧
       (st.readOp .n64 w.a true 0 = 0 ∧ Ready (.barInit w) w (st.g.useOf 1 w.a true ++ st.g.useOf 2 w.b true) st) ∧
       ((st.teamOf st.g).barriers.length ≤ 2 ∧
         Ready (.barInit { w with imm := 2 }) { w with imm := 2 } (st.g.useOf 1 w.a true ++ st.g.useOf 2 w.b true) st)) ∧
    (let w : Fields := { g := true, b := sr 5, imm := 1 }
     Ready (.barExpect w) w (st.g.useOf 2 w.b true) st ∧ Ready (.barExpect { w with imm := 2 }) { w with imm := 2 } (st.g.useOf 2 w.b true) st ∧
       arrivingNow.arriving arrivingNow.teamInCluster = true ∧ Ready (.barExpect w) w (st.g.useOf 2 w.b true) (on arrivingNow)) ∧
    (let w : Fields := { g := true, imm := 1 }
     (st.g.recordUsed < 24 ∧ (st.g.freeSlots 1).isSome ∧ st.nextTag ∉ st.g.liveTags) ∧ Ready (.barArrive w) w [] st ∧
       Ready (.barArrive { w with imm := 2 }) { w with imm := 2 } [] st) ∧
    (let w : Fields := { g := true, a := sr 4, imm := 1, mod := 0x10 }
     (st.readOp .n64 w.a true 0).toNat % 256 < 1 ∧ Ready (.barArriveRemote w) w (st.g.useOf 1 w.a true) st ∧
       (let s := on (grp.writeS 4 1)
        1 ≤ (s.readOp .n64 w.a true 0).toNat % 256 ∧ Ready (.barArriveRemote w) w (s.g.useOf 1 w.a true) s)) ∧
    (∀ p : Bool, let w : Fields := { g := true, imm := if p then 0x41 else 1 }
      let k : Fields := { w with dnum := 2, dfile := .k }
      ((st.teamOf st.g).barriers.getD 1 {}).phase = false ∧ st.g.arriving st.g.teamInCluster = false ∧ Ready (.barWait w) w [] st ∧
        Ready (.barTry k) k (st.g.useDest k false ++ []) st ∧ Ready (.barWait w) w [] (on arrivingNow) ∧
        Ready (.barTry k) k (st.g.useDest k false ++ []) (on arrivingNow)) ∧
    (let w : Fields := { g := true, imm := 2 }
     Ready (.barWait w) w [] st ∧ Ready (.barTry { w with dnum := 2, dfile := .k }) { w with dnum := 2, dfile := .k } [] st) := by decide +kernel

/-- A regs pointer to slot 1, generation 0, of package 0. -/
def regsPtr : Ptr := ptrTo (2 ^ 32) 0 8192 2 6 2 4

theorem witness_NameInstructions :
    (∀ n : Fin 2, let s := on { grp with nameSlot := n.val }
      (let w : Fields := { g := true, dnum := 5, dfile := .p, imm := 0xFF }
       Ready (.myname w) w (s.g.useDestPtr w) s) ∧
      (let w : Fields := { g := true, dnum := 5, dfile := .s, ty := 3 }
       Ready (.myname w) w (s.g.useDest w true) s)) ∧
    (let s := on (withP 5 regsPtr grp)
     let w : Fields := { g := true, dnum := 4, dfile := .s, a := pr 5, ty := 3 }
     Ptr.space (s.ptrOf w.a 0) = 6 ∧ s.checkPtr s.g regsPtr 0 0 2 none 0 = none ∧ (s.g.recordUsed < 24 ∧ (s.g.freeSlots 1).isSome) ∧
       Ready (.nameinfo w) w (s.g.useDest w true ++ s.g.usePtr 1 w.a) s ∧
       (st.checkPtr st.g (st.ptrOf w.a 0) 0 0 2 none (2 ^ 10)).isSome = true ∧ Ready (.nameinfo w) w (st.g.useDest w true ++ st.g.usePtr 1 w.a) st) := by
  decide +kernel

/-- A group with a trap vector, and its handler at depth 1 and 2. -/
def trapping (d : Nat) : Group := { grp with id := { grp.id with trapVector := 0x2000, system := true }, depth := d }

theorem witness_FaultDelivery : ∃ s1 s2 s3,
    let s := { sys grp with g := trapping 0 }
    let f : FaultRec := { cause := 17 }
    let r : FaultRec := { f with depth := s.g.depth, regionPc := s.g.regionPc, regionCount := s.g.regionCount }
    f.cause ≠ 20 ∧ f.cause ≠ 21 ∧ s.g.id.trapVector ≠ 0 ∧ s.g.depth = 0 ∧ f.cause ≠ 8 ∧ f.cause ≠ 9 ∧
    s.imageWrite s.g 0x40 r.bytes = (s1, true) ∧
    s1.imageWrite s.g 0x740 (leBytes 16 (0x1000 + s.g.active.toNat * 2 ^ 64 + s.g.fmt.toNat % 2 ^ 18 * 2 ^ 96 + s.g.stack.length * 2 ^ 114)) = (s2, true) ∧
    s2.imageWrite s.g 0x760 (leBytes 16 (s.g.regionPc + s.g.regionCount * 2 ^ 64)) = (s3, true) ∧ (sys grp).g.id.trapVector = 0 :=
  ⟨_, _, _, by decide, by decide, by decide +kernel, by decide +kernel, by decide, by decide, pair_true (by decide +kernel), pair_true (by decide +kernel),
    pair_true (by decide +kernel), by decide +kernel⟩

theorem witness_HandlerReturn : ∃ s1,
    let w : Fields := { g := true, e := true }
    (∀ d : Fin 3, let s := { sys grp with g := trapping d.val }
      Ready (.hret w) w [] s ∧ Ready (.hretr w) w [] s ∧ ∀ e ∈ s.g.entries, e.writes = true → e.performed = true) ∧
    (let s := { sys grp with g := trapping 2 }
     s.imageWrite s.g 0x40 (s.imageRead s.g 0x700 64) = (s1, true)) ∧
    (let s := { sys grp with g := { trapping 1 with entries := [{ inFlight with kind := .store, cls := .d }], nextId := 1 } }
     (∃ e ∈ s.g.entries, e.writes = true ∧ e.performed = false) ∧ Ready (.hret w) w [] s) :=
  ⟨_, by decide +kernel, pair_true (by decide +kernel), by decide +kernel⟩

theorem witness_SystemRegisters : ∃ s1 s2,
    let s := sys grp
    (∀ n : BitVec 16, n = 0 ∨ n = 3 →
      (let w : Fields := { g := true, dnum := 4, dfile := .s, imm := n, ty := 3 }
       Ready (.rdsr w) w (s.g.useDest w true) s) ∧
      (let w : Fields := { g := true, a := sr 4, imm := n, ty := 13 }
       Ready (.wrsr w) w (s.g.useOf 1 w.a true) s)) ∧ (s.core s.g.core).corece < 2 ^ 32 ∧
    (let w : Fields := { g := true, dnum := 4, dfile := .s, b := sr 5, mod := 0x20, ty := 3 }
     (s.readOp .n64 w.b true 0).toNat % 8 = 0 ∧ Ready (.rdsrMgmt w) w (s.g.useDest w true ++ s.g.useOf 2 w.b true) s ∧
       (let b := { s with g := s.g.writeS 5 (2 ^ 24) }
        ¬(b.readOp .n64 w.b true 0).toNat < 2 ^ 24 ∧ Ready (.rdsrMgmt w) w (b.g.useDest w true ++ b.g.useOf 2 w.b true) b)) ∧
    (let w : Fields := { g := true, a := sr 4, b := sr 5, mod := 0x20, ty := 13 }
     s.fullRelease = (s1, true) ∧ (s1.mgmtWrite 0 0).g = s.g ∧ s.g.running = true ∧ Ready (.wrsrMgmt w) w (s.g.useOf 1 w.a true ++ s.g.useOf 2 w.b true) s ∧
       (let b := { s with g := { s.g with entries := [inFlight], nextId := 1 } }
        b.fullRelease = (s2, false) ∧ Ready (.wrsrMgmt w) w (s.g.useOf 1 w.a true ++ s.g.useOf 2 w.b true) b)) ∧
    (∀ m : BitVec 6, m = 0 ∨ m = 1 ∨ m = 2 ∨ m = 16 →
      let w : Fields := { g := true, a := if m = 2 then {} else sr 4, b := if m = 1 then sr 5 else {}, mod := m }
      Ready (.tlbinv w) w ((if m = 2 then [] else s.g.useOf 1 w.a true) ++ (if m = 1 then s.g.useOf 2 w.b true else [])) s) := by
  refine ⟨_, _, ?_, by decide +kernel, by decide +kernel, ⟨pair_true (by decide +kernel), by decide +kernel, by decide +kernel, by decide +kernel,
    pair_false (by decide +kernel), by decide +kernel⟩, ?_⟩
  · rintro n (rfl | rfl) <;> decide +kernel
  · rintro m (rfl | rfl | rfl | rfl) <;> decide +kernel

/-- A debug monitor, and its inbound ring with one message or its outbound ring full. -/
def monitor (tail : Nat) (tails : Nat) : State :=
  { on { grp with id := { grp.id with system := true, monitor := true } } with
      chip := memWrite (memWrite [] (1023 * 65536 + 8) (leBytes 8 tail)) (1023 * 65536 + 0x18) (leBytes 8 tails) }

theorem witness_Mailboxes :
    (let w : Fields := { dnum := 2, dfile := .k, c := v 12, ty := 12 }
     (let s := monitor 0 510
      ¬((leNat (memRead s.chip (1023 * 65536 + 0x18) 8) + 2 ^ 64 - leNat (memRead s.chip (1023 * 65536 + 0x10) 8)) % 2 ^ 64 ≥ 511) ∧
        Ready (.mbxs w) w (s.g.useDest w false ++ s.g.useOf 3 w.c false) s) ∧
     (let s := monitor 0 511
      ((leNat (memRead s.chip (1023 * 65536 + 0x18) 8) + 2 ^ 64 - leNat (memRead s.chip (1023 * 65536 + 0x10) 8)) % 2 ^ 64 ≥ 511) ∧
        Ready (.mbxs w) w (s.g.useDest w false ++ s.g.useOf 3 w.c false) s)) ∧
    (let w : Fields := { dnum := 8, ty := 12 }
     (let s := monitor 0 0
      leNat (memRead s.chip (1023 * 65536) 8) = leNat (memRead s.chip (1023 * 65536 + 8) 8) ∧ Ready (.mbxr w) w (s.g.useDest w false) s) ∧
     (let s := monitor 1 0
      leNat (memRead s.chip (1023 * 65536) 8) ≠ leNat (memRead s.chip (1023 * 65536 + 8) 8) ∧ Ready (.mbxr w) w (s.g.useDest w false) s)) := by
  decide +kernel

/-- The group between two runs, with nothing fetched, or with one instruction fetched. -/
def idle : Group := { grp with running := false }
def fetched : Group := { idle with ibuf := [.word 0x9C8] }

theorem witness_RunsBegin :
    ((sys idle).has 1 = true ∧ (match ((sys idle).translate ⟨0, 1⟩ 0 0x1000 .exec).2 with | .ok t => decide (t.frame = 0x1000) | .error _ => false) = true ∧
      ((sys idle).codeLine ⟨0, 1⟩ 32).2.2.getLsbD 0 = false ∧ isPoolUnit (lineWords ((sys idle).codeLine ⟨0, 1⟩ 32).2.1) 0 = false) ∧
    (let s := { sys idle with cores := [], regs := [(0, 1)] }
     (match (s.translate ⟨0, 1⟩ 0 0x1000 .exec).2 with | .ok _ => false | .error _ => true) = true) ∧
    (let s := { sys idle with clines := { agent := .home, line := 32, st := .M, data := 0x7FF, poison := false } :: (sys idle).clines }
     isPoolUnit (lineWords (s.codeLine ⟨0, 1⟩ 32).2.1) 0 = true) ∧
    (let s := { sys idle with clines := { agent := .home, line := 32, st := .M, poison := true } :: (sys idle).clines }
     (s.codeLine ⟨0, 1⟩ 32).2.2.getLsbD 0 = true) ∧
    ((st.groups.Pairwise (fun g h => g.id.ctx ≠ h.id.ctx)) ∧ st.groups.any (·.running) = true ∧
      (let s := on { idle with boundaryFaults := [{ cause := 11 }] }
       s.groups.any (·.running) = false ∧ s.groups.any (fun g => !g.boundaryFaults.isEmpty && !g.saving) = true) ∧
      (st.groups.filter st.eligible = []) ∧
      (let s := { on fetched with gs := [{ fetched with id := { fetched.id with ctx := 2, index := 1, member := 1 }, level := 3, waited := 0 }] }
       (s.groups.filter s.eligible).length = 2) ∧
      (let s := { on { fetched with waited := 15 } with
                    gs := [{ fetched with id := { fetched.id with ctx := 2, index := 1, member := 1 }, level := 3 }]
                    cores := [(⟨0, 1⟩, { grants := [List.replicate 15 (false, false)] })] }
       (s.groups.filter s.eligible).length = 2 ∧ (((s.core ⟨0, 1⟩).grants.getD 0 []).take 15).length = 15 ∧ s.g.level = 7 ∧ 15 ≤ s.g.waited)) := by
  decide +kernel

theorem witness_WaitsEnd :
    (let s := on { idle with pending := .pause 5 }
     s.has 1 = true ∧ s.time < 5 ∧ { s with time := 5 }.g.status = .resident) ∧
    (let s := { sys { idle with pending := .vgrow 8 } with vgrowQueue := [1] }
     s.quarterQueue ⟨0, 1⟩ 0 = [1] ∧ (s.group 1).pending = .vgrow 8 ∧ s.canGrow (s.group 1) 8 = true ∧
       { s with regs := [] }.canGrow (s.group 1) 8 = false) ∧
    (let s := { sys { idle with pending := .acalloc 8 } with acallocQueue := [1], grids := [gd] }
     s.coreQueue ⟨0, 1⟩ = [1] ∧ (s.group 1).pending = .acalloc 8 ∧ s.canGiveUnits ⟨0, 1⟩ 0 8 = true ∧ { s with regs := [] }.canGiveUnits ⟨0, 1⟩ 0 8 = false) ∧
    (let s := on { idle with request := true, deadline := 0 }
     s.has 1 = true ∧ s.g.deadline ≤ s.time ∧ s.g.status = .resident ∧ s.g.running = false ∧
       ({ s.g with running := true, stall := .record }).stall ≠ .none) := by decide +kernel

/-- A grid of one cluster that waits for its place. -/
def waiting : State :=
  { sys grp with g := .blank, teams := [], grids := [gd], held := [{ launch := 7, cluster := 0, since := 0 }]
                 regs := [(0, 1), (0x10000, 2), (0x10090, BitVec.allOnes 64), (0x10110, BitVec.allOnes 64), (0x10118, BitVec.allOnes 64)] }

theorem witness_Placement :
    (∀ h ∈ waiting.groups, h.restoring = false) ∧ (waiting.candidates.head?.isSome = true ∧ (st.candidates = [])) ∧ st.candidates.find? st.heldLong = none ∧
    (let s := { waiting with time := 2 ^ 40 }
     (s.candidates.find? s.heldLong).map (·.rank) = some 2 ∧ s.hostMode 1 = false) := by decide +kernel

theorem witness_placed : ∃ c cs t, waiting.candidates = c :: cs ∧ waiting.place c [] = some t := by
  cases h : waiting.candidates with
  | nil => exact absurd h (by decide +kernel)
  | cons c cs =>
    refine ⟨c, cs, ?_⟩
    cases k : waiting.place c [] with
    | some t => exact ⟨t, rfl, rfl⟩
    | none =>
      have e : (waiting.candidates.head?.bind fun c => waiting.place c []) = none := by rw [h]; exact k
      have d : (waiting.candidates.head?.bind fun c => waiting.place c []).isSome = true := by decide +kernel
      rw [e] at d
      cases d

/-- The second member of the team. -/
def mate (g : Group) : Group := { g with id := { g.id with ctx := 2, index := 1, member := 1 } }

theorem witness_Saves :
    ((sys grp).has 1 = true ∧ (sys grp).mayBeSaved (sys grp).g = false ∧
      (let s := sys { idle with saving := true }
       s.mayBeSaved s.g = true)) ∧
    (let s := { on { idle with saving := true } with regs := [] }
     s.mayBeSaved s.g = true ∧ (s.saveImage s.g).2 = false) ∧
    (let s := { on { idle with status := .saved, saving := true } with gs := [mate grp] }
     s.has 1 = true ∧ s.g.status = .saved ∧ s.g.hostSave = false ∧ { s with g := { s.g with saving := false } }.clusterSaved 7 0 = false) ∧
    (let s := on { idle with status := .saved, saving := true }
     { s with g := { s.g with saving := false } }.clusterSaved 7 0 = true) ∧
    (let s := on { idle with status := .saved, saving := true, hostSave := true }
     ∀ h ∈ ({ s with g := { s.g with saving := false } }.groups.filter (fun (h : Group) => h.inCluster 7 0)), h.status ≠ .resident ∧ h.saving = false) ∧
    (st.deadlocked ⟨0, 1⟩ = [] ∧
      (let s := { on { idle with pending := .vgrow 8 } with vgrowQueue := [1] }
       s.deadlocked ⟨0, 1⟩ ≠ [])) := by decide +kernel

def cl : Cluster := { launch := 7, cluster := 0, state := .resident }
/-- A grid whose record has flag 53, idempotent launch. -/
def again : Grid := { gd with record := gd.record.set 0x16 0x20 }

theorem witness_EndsAndKills :
    (let s := on { idle with status := .ended }
     (s.group 1).status = .ended ∧ (s.group 1).id.ctx ≠ 2 ^ 24 ∧ (s.group 1).entries = [] ∧ (s.group 1).unsent = [] ∧ s.arrivalWaits (s.group 1) = false ∧ (st.group 1).status ≠ .ended) ∧
    (let s := { st with g := .blank }
     s.teams.find? (fun t => t.launch = 7 && t.team = 0) = some tm ∧ (∀ h ∈ s.groups, tm.isOf h = true → h.id.ctx = 2 ^ 24) ∧ s.ops = []) ∧
    (∀ x ∈ [gd, again], let s := { st with grids := [x], clusters := [cl] }
      (s.clusterAt 7 0).state = .resident ∧ s.gridOf 7 = some x) ∧
    (again.flag 53 = true ∧ gd.flag 53 = false) ∧
    (let s := { st with grids := [again], clusters := [{ cl with state := .killed, relaunches := 1, assisted := true }], regs := [(0, 1), (0x10, 4)] }
     s.hostMode 2 = true ∧ (s.clusterAt 7 0).assisted = true ∧ (s.clusterAt 7 0).state = .killed ∧ (s.clusterAt 7 0).relaunches < 2 ∧ st.hostMode 2 = false) ∧
    (let s := on { grp with id := { grp.id with shadowed := true } }
     s.has 1 = true ∧ s.g.id.shadowed = true ∧ s.g.status = .resident ∧ st.g.id.shadowed = false) := by decide +kernel

/-- A queue with one record to take, in mapped memory. -/
def queued : State :=
  { sys grp with arrivalOrder := [(0, 1)]
                 regs := [(0, 1), (0x10090, BitVec.allOnes 64), (0x10098, BitVec.ofNat 64 (2 ^ 63 + 2 ^ 17)), (0x100008, 4), (0x100010, BitVec.ofNat 64 (2 ^ 32 + 1)), (0x10128, 4)] }

theorem witness_QueuesAndEvents :
    (State.reset.ready = false ∧ st.ready = true ∧ st.queueOn 8191 = false ∧ queued.queueOn 0 = true) ∧
    (queued.nextQueue = some 0 ∧ st.nextQueue ≠ some 0) ∧
    (queued.virtRead 0 0 256).isSome = true ∧ { queued with regs := [(0, 1), (0x100008, 4), (0x100010, BitVec.ofNat 64 (2 ^ 32 + 1))] }.virtRead 0 0 256 = none ∧
    (queued.launchDetail 0 (List.replicate 256 0) ≠ 0) ∧
    (let s := { st with grids := [gd], clusters := [{ cl with state := .ended }] }
     s.gridOf 7 = some gd ∧ s.gridEnded { gd with placed := 1 } = true ∧ s.gridEnded gd = false ∧ (∀ c ∈ s.cores, ∀ l ∈ c.2.l1, l.dirty = 0)) ∧
    (st.faultBuffer = [] ∧ st.events = [] ∧
      (let e : Event := { kind := 2, part := 0, queue := 0, launch := 7, info := 0 }
       (queued.pushRing e.ring.1 e.ring.2 (e.bytes queued.nextEvent)).2 = true)) := by decide +kernel

/-- A queue's record that nothing forbids: 256 bytes. -/
def goodRecord : List Byte := gd.record ++ List.replicate 128 0
/-- A shadowed group, both sides of which have stopped where the flag says so. -/
def doubled (stopped overflow stale : Bool) (l : List Compared) : Group :=
  { idle with id := { grp.id with shadowed := true }
              shadow := some { slot := 1, quarter := 2, compare := l, stopped := stopped, overflow := overflow, stale := stale } }
/-- A store of the two sides in the compare buffer, the same or of different data. -/
def compared (same : Bool) : Compared :=
  let e (n : Nat) : Entry := { id := 0, kind := .store, cls := .d, path := 0, ty := 1, lanes := [{ lane := 3, ptr := ptrTo 0x40 0 64 2 0 0 4, index := 2, data := [BitVec.ofNat 128 n] }] }
  { instr := 0, closes := false, ours := [e 7], theirs := [e (if same then 7 else 8)], leader := grp.side, shadow := grp.side }

theorem witness_PlacementMore :
    waiting.candidates.head?.any (fun c => decide (c.rank ≠ 0) &&
      (rectOrder.find? (fun r => waiting.rectAllowed (waiting.candPart c) r.1 (waiting.candShape c) r.2)).isSome) = true ∧
    (let s := { waiting with regs := [(0, 1), (0x10, 2)] }
     s.candidates.length = 1 ∧ s.hostMode 1 = true ∧ s.candidates.head?.any (fun c => (s.place c []).isNone) = true) := by decide +kernel

theorem witness_SavesMore :
    (let s := { sys { idle with saving := true } with works := [{ id := 5, kind := .copy, core := ⟨0, 1⟩, channel := 2, ctx := 1, block := [], begun := true }] }
     s.mayBeSaved s.g = true ∧ s.works.any (fun x => x.ctx = 1 && x.begun && x.held.isNone) = true) ∧
    (let s := { sys { idle with saving := true, id := { grp.id with monitor := true } } with gs := [mate grp] }
     let f : State := { s with g := { parked s.g with granted := 0 } }
     s.works = [] ∧ s.mayBeSaved s.g = true ∧ (f.saveImage f.g).2 = true ∧ (f.saveImage f.g).1.g.nameSlot = 0 ∧
       ∃ h ∈ (f.saveImage f.g).1.gs, h.id.launch = 7 ∧ h.id.team = 0 ∧ h.inCluster 7 0 = true ∧ h.status = .resident) ∧
    (let s := { sys { idle with status := .saved, saving := true, hostSave := true, request := true } with
                  teams := [{ tm with resident := false }], clusters := [cl], saveAsked := [{ part := 0, launch := 7, cluster := 0 }] }
     s.clusterRequest s.g = true ∧ (on s.g).clusterRequest s.g = false ∧ s.g.halted = false ∧ (s.clusterAt 7 0).state = .resident ∧
       (s.saveTeams true (fun t => t.launch = 7 && t.cluster = 0)).2 = true ∧ ∃ q ∈ s.saveAsked, ∀ p ∈ s.saveAsked, p = q) := by decide +kernel

theorem witness_KillsMore :
    ({ st with gs := [mate { grp with depth := 2, id := { grp.id with shadowed := true } }] }.groups.any
      (fun g => g.inCluster 7 0 && g.depth = 2 && g.id.shadowed && g.status = Status.resident)) = true ∧
    (let s := { st with ops := [op], clusters := [cl] }
     s.ops.find? (fun o => o.launch = 7 && (s.groups.filter (fun g => g.inCluster 7 0)).any (fun g => g.id.team = o.team)) = some op) ∧
    (∀ p o t : Bool, let s := on (doubled p o t [compared false])
      s.has 1 = true ∧ s.g.shadow = some { slot := 1, quarter := 2, compare := [compared false], stopped := p, overflow := o, stale := t } ∧
        s.g.status = .resident ∧ s.g.running = false) ∧
    (∀ b : Bool, sameOperation (compared b).ours (compared b).theirs = b) ∧
    (on (doubled false false false [])).has 1 = true ∧ (on (doubled false false false [])).g.shadow ≠ none ∧ st.g.shadow = none := by decide +kernel

theorem witness_QueuesMore :
    (queued.ringDrains 0 0).2 = true ∧ { queued with releasers := [{ line := 0, core := ⟨0, 1⟩, mask := 1 }] }.nextQueue = some 0 ∧
    ({ queued with releasers := [{ line := 0, core := ⟨0, 1⟩, mask := 1 }] }.ringDrains 0 0).2 = false ∧
    goodRecord.length = 256 ∧ waiting.launchDetail 0 goodRecord = 0 ∧ st.hostDirty = [] ∧
    (∀ x ∈ st.arrivalOrder, x.1 ≠ 0) := by decide +kernel

theorem performable {ctx id : Nat} {e : Entry} {s : State}
    (h : s.entry ctx id = some e ∧ e.done = false ∧ e.retryAt = none ∧ e.hostWait = false ∧ e.replay = false ∧
      s.mayPerform (s.group ctx) e = true ∧ (s.group ctx).status ≠ .saved) : Performable ctx id e s := h

/-- The group with one entry in its record. -/
def holding (e : Entry) : State := sys { idle with entries := [e], nextId := 1 }
/-- A word that lane 3 accesses: in core space, and in global space at byte 0x4000, which line 128 of memory holds. -/
def coreLane : LaneAcc := { lane := 3, ptr := corePtr, index := 2, data := [7] }
def globalLane : LaneAcc := { lane := 3, ptr := globalPtr, index := 2, data := [7] }
def pageOf : Translation := { vpn := 4, frame := 0x4000, write := true, exec := false, tso := false, pchk := true }
def aLoad : Entry := { id := 0, kind := .load, cls := .i, path := 3, ty := 1, dest := 8, mask := 8, lanes := [{ globalLane with got := [5], performed := true }] }
def aStore (a : LaneAcc) : Entry := { id := 0, kind := .store, cls := .d, path := 0, ty := 1, lanes := [a], pages := [pageOf] }
def aClear : Entry := { aStore { globalLane with index := 0, data := List.replicate 32 1 } with kind := .linclr }
def cached : L1Line := { line := 128, vline := 128, valid := 0xF }

theorem witness_AccessesPerform :
    (∀ e ∈ [{ aLoad with done := true }, { aLoad with retryAt := some 4 }, { aLoad with hostWait := true }],
      (holding e).entry 1 0 = some e ∧ (e.done = true ∨ e.retryAt.isSome = true ∨ e.hostWait = true)) ∧
    (let e := { aStore coreLane with id := 1 }
     let s := sys { idle with entries := [aStore coreLane, e] }
     s.entry 1 1 = some e ∧ s.mayPerform (s.group 1) e = false) ∧
    (let e := { aLoad with replay := true }
     let s := holding e
     s.entry 1 0 = some e ∧ e.done = false ∧ e.retryAt = none ∧ e.hostWait = false ∧ s.mayPerform (s.group 1) e = true ∧ (s.group 1).status ≠ .saved) ∧
    (∀ e ∈ [aLoad, { aLoad with poison := some true }], Performable 1 0 e (holding e) ∧ e.kind = .load ∧ e.lanes ≠ [] ∧
      (∀ x ∈ e.lanes, x.performed = true) ∧ ((holding e).group 1).status = .resident ∧ ((holding e).group 1).boundaryFaults = [] ∧
      e.values = 1 ∧ (∀ x ∈ e.lanes, e.laneStep x = 1)) ∧
    (let e := aStore coreLane
     Performable 1 0 e (holding e) ∧ e.elems coreLane = 1 ∧ Ptr.sync coreLane.ptr = false ∧ Ptr.scope coreLane.ptr ≠ 5 ∧ Ptr.space coreLane.ptr = 1) ∧
    (let e := aStore globalLane
     let s := (holding e).setCore ⟨0, 1⟩ { mapped with l1 := [cached] }
     Performable 1 0 e s ∧ e.elems globalLane = 1 ∧ Ptr.sync globalPtr = false ∧ Ptr.scope globalPtr ≠ 5 ∧ Ptr.space globalPtr = 4 ∧
       e.phys (globalLane.va 0) / 128 = 128 ∧ 0 < Ptr.size globalPtr ∧ globalLane.va 0 % 128 + Ptr.size globalPtr ≤ 128 ∧
       (e.page (globalLane.va 0)).tso = false ∧ s.uncached ⟨0, 1⟩ 128 = false ∧ s.l1Find ⟨0, 1⟩ (globalKey 128) = some cached ∧ cached.valid ≠ 0) ∧
    (let s := { holding aClear with biFilter := [128] }
     Performable 1 0 aClear s ∧ (s.kept aClear.tag 0 0 = none ∧ s.biFilter.contains 128 = true)) ∧
    (let a := { globalLane with index := 0, data := List.replicate 32 1 }
     Performable 1 0 aClear (holding aClear) ∧ aClear.lanes = [a] ∧ (holding aClear).kept aClear.tag 0 0 = none ∧
       (holding aClear).tableFull ((holding aClear).lineReceiver (aClear.phys (a.va 0) / 128)) = false ∧ a.data.length = 32) := by
  refine ⟨by decide +kernel, by decide +kernel, by decide +kernel, ?_, ⟨performable (by decide +kernel), by decide +kernel⟩,
    ⟨performable (by decide +kernel), by decide +kernel⟩, ⟨performable (by decide +kernel), by decide +kernel⟩,
    performable (by decide +kernel), by decide +kernel⟩
  intro e h
  refine ⟨performable ?_, ?_⟩ <;> revert e <;> decide +kernel

def syncCore : LaneAcc := { coreLane with ptr := corePtr ||| BitVec.ofNat 128 (2 ^ 114) }
def arrive (k : EntryKind) : Entry := { id := 0, kind := k, cls := .d, path := 0, imm := 1 }

theorem witness_SynchronisingAccesses :
    (let e := { aStore coreLane with kind := .atomic }
     Performable 1 0 e (holding e) ∧ e.elems coreLane = 1 ∧ (holding e).kept e.tag 3 0 = none) ∧
    (∀ k ∈ [EntryKind.load, .store], let e := { aStore syncCore with kind := k }
     Performable 1 0 e (holding e) ∧ e.elems syncCore = 1 ∧ Ptr.sync syncCore.ptr = true ∧ Ptr.scope syncCore.ptr = 0 ∧ Ptr.space syncCore.ptr = 1 ∧
       (holding e).wrote = [] ∧ (holding e).undef = [] ∧ (holding e).kept e.tag 3 0 = none) ∧
    (∀ k ∈ [EntryKind.localArrival, .remoteArrival], let e := arrive k
     Performable 1 0 e (holding e) ∧ (holding e).kept e.tag 0 0 = none ∧ ((holding e).releaseLines ⟨0, 1⟩ 3 0xFF).2 = true ∧
       (holding e).teams.all (fun y => !((holding e).releaseLines ⟨0, 1⟩ 3 0xFF).1.barriersSaved y) = true ∧ (holding e).tableFull (3, 1, 256) = false) ∧
    (let e := { aLoad with retryAt := some 4 }
     (holding e).entry 1 0 = some e ∧ ((holding e).group 1).status ≠ .saved ∧ (holding e).time < 4 ∧ 4 ≤ { holding e with time := 4 }.time) ∧
    ((∃ h ∈ (holding (arrive .localArrival)).groups, ∃ y ∈ h.entries, y.cls = .d ∧ y.tag = 0 ∧ y.done = false) ∧
      ∀ h ∈ (holding aLoad).groups, ∀ y ∈ h.entries, ¬(y.cls = .d ∧ y.tag = 0 ∧ y.done = false)) := by
  refine ⟨⟨performable (by decide +kernel), by decide +kernel⟩, ?_, ?_, by decide +kernel, by decide +kernel⟩ <;>
  · intro k h
    refine ⟨performable ?_, ?_⟩ <;> revert k <;> decide +kernel

/-- A load of package 5 that has been sent, a multicast store, a store to a register of a name of package `n`, and a question
about it. -/
def peerLoad : Entry := { aLoad with path := 4, anchor := 5, sentAt := some 0, lanes := [{ lane := 3, ptr := ptrTo 0x4000 5 64 2 5 0 4, index := 2 }] }
def mcStore : Entry := { aStore { coreLane with ptr := ptrTo 0x4000 5 64 2 5 0 5 } with path := 4, sentAt := some 0 }
def toName (k : EntryKind) (n : Nat) (fmt : BitVec 32) : Entry :=
  { id := 0, kind := k, cls := .d, path := 5, ty := 1, anchor := n, sentAt := some 0, dfile := .s, g := true, dest := 4, fmt := fmt
    lanes := [{ coreLane with ptr := regsPtr }] }

theorem witness_AnswersArrive :
    (∀ e ∈ [peerLoad, mcStore, toName .regsStore 5 0, toName .regsStore 5 0xFFFFFFFF, toName .nameInfo 5 0, toName .regsStore 0 0, toName .nameInfo 0 0],
      (holding e).entry 1 0 = some e ∧ e.done = false ∧ ((holding e).group 1).status ≠ .saved ∧ e.sentAt.isSome = true ∧
      ((holding e).group 1).boundaryFaults = []) ∧
    (peerLoad.path = 4 ∧ (∀ a ∈ peerLoad.lanes, Ptr.scope a.ptr ≠ 5) ∧ (holding peerLoad).time < 0 + 10 ^ 6 * 940 ∧
      0 + 10 ^ 6 * 940 ≤ { holding peerLoad with time := 2 ^ 40 }.time) ∧
    ((∃ a ∈ mcStore.lanes, Ptr.scope a.ptr = 5) ∧ (holding mcStore).packets = []) ∧
    (fmtDNT 0xFFFFFFFF = true ∧ fmtDNT 0 = false ∧ (holding aLoad).package = 0) ∧
    (let e := toName .regsStore 0 0
     let told (c : BitVec 128) : State := { holding e with suppress := e.words.map (fun w => { table := 1, site := 0, tag := w.tag, lane := w.lane, ord := w.ord, old := c }) }
     (holding e).ownOutcome e .delivered = none ∧ (told 0).ownOutcome e .lost = some .delivered ∧ (told 1).ownOutcome e .lost = some (.deadName 1 0 false) ∧
       (told 2).ownOutcome e .lost = some (.deadName 1 0 true) ∧ (e.words.find? (fun w => w.slot = 1 && w.gen = 0)).isSome = true ∧ ∀ o ∈ [RegsOutcome.retry, .lost], (told 3).ownOutcome e o = some o) := by decide +kernel

/-- A message about line 128 that is next to be received. -/
def msg (k : MsgKind) (src dst : Agent) : Msg := { kind := k, line := 128, src := src, dst := dst, arrived := some 0 }
def receives (m : Msg) : State := { st with msgs := [m] }
def dirOf (st_ : DirState) (o : Agent) (l : List Agent) : Dir := { line := 128, st := st_, owner := o, sharers := l }

theorem witness_DirectoryServes :
    (∀ k ∈ [MsgKind.getS, .getM, .putM, .putO, .putE],
      (receives (msg k (.copy 1) .home)).arriving (fun n => n.kind = k && n.line = 128 && n.src = .copy 1 && n.dst = .home) = some (msg k (.copy 1) .home, [])) ∧
    (let s := receives (msg .getS (.copy 1) .home)
     s.retiring (s.homeSlice 128) = false ∧ s.snoops = [] ∧ (s.filterSet 128).length < 16 ∧ s.mem.wf = true ∧
       (∀ n ∈ s.msgs, n.arrived.isSome = true → n ≠ msg .getS (.copy 1) .home → s.sameFilterSet n.line 128 = false)) ∧
    (∀ d ∈ [dirOf .S .home [.copy 2], dirOf .E (.copy 2) [], dirOf .E (.copy 1) [], dirOf .M (.copy 2) [], dirOf .O (.copy 1) [.copy 2],
        dirOf .O (.copy 2) [.copy 1]],
      { receives (msg .getM (.copy 1) .home) with dirs := [d] }.dir 128 = d) ∧ (st.dir 128).st = .I ∧
    (let s := { receives (msg .getS (.copy 1) .home) with slices := [{ die := (st.homeSlice 128).1, slice := (st.homeSlice 128).2, retire := true }] }
     s.retiring (s.homeSlice 128) = true) ∧
    (∀ l ∈ [[Agent.copy 1], [.copy 1, .copy 2]],
      let s := { receives (msg .backAck (.copy 1) .home) with snoops := [{ line := 128, stamp := 0, awaiting := l, freeing := true }] }
      s.arriving (fun n => n.kind = .backAck && n.line = 128 && n.src = .copy 1) = some (msg .backAck (.copy 1) .home, []) ∧
        (s.snoops.find? (fun y => y.line = 128 && y.freeing)).isSome = true) ∧
    (let s := { receives (msg .getS (.copy 1) .home) with flip := some { page := 4, toHost := true } }
     s.flushing 128 = true ∧ s.inHostBias 128 = false) ∧
    (let m := { msg .getS (.copy 1) .home with arrived := none }
     let s := { receives m with snoops := [{ line := 128, stamp := 0, awaiting := [.copy 2], freeing := true }] }
     s.arriving (fun n => n.kind = .getS && n.line = 128 && n.src = .copy 1 && n.dst = .home) = some (m, []) ∧ s.retiring (s.homeSlice 128) = false) ∧
    (let m := { msg .getS (.copy 1) .home with retryAt := some 0 }
     (receives m).msgs.find? (fun n => n.line = 128 && n.src = .copy 1 && n.retryAt.any (· ≤ st.time)) = some m) := by decide +kernel

theorem witness_CacheReacts :
    (∀ k ∈ [MsgKind.fwdGetS, .fwdGetM, .inv, .backInv, .data, .dataE, .cnt, .invAck, .putAck],
      (receives (msg k .home (.copy 1))).arriving (fun n => n.kind = k && n.line = 128 && n.dst = .copy 1) = some (msg k .home (.copy 1), [])) ∧
    (∀ c ∈ [CState.S, .E, .M, .O, .IS_D, .IM_AD, .IM_A, .SM_AD, .SM_A, .OM_A, .MI_A, .OI_A, .II_A],
      let l : CLine := { agent := .copy 1, line := 128, st := c }
      { receives (msg .inv .home (.copy 1)) with clines := [l] }.cline (.copy 1) 128 = l ∧ l.deferred = [] ∧ l.fills = [] ∧ l.writers = []) ∧
    (st.cline (.copy 1) 128).st = .I := by decide +kernel

theorem witness_AnswersMore :
    (let e := { peerLoad with anchor := 0 }
     (holding e).entry 1 0 = some e ∧ e.asks = true ∧ e.path = 4 ∧ e.anchor = (holding e).package) ∧ peerLoad.asks = true ∧
    (let e := { mcStore with treeSent := true }
     let both := { e with lanes := e.lanes ++ [{ coreLane with lane := 4 }] }
     let taken (e : Entry) : Entry := { e with lanes := e.lanes.map fun a => if a.tree then { a with performed := true } else a }
     (holding e).entry 1 0 = some e ∧ e.done = false ∧ e.treeSent = true ∧ (taken e).performed = true ∧ (taken both).performed = false ∧
       (holding e).packets = [] ∧ ∀ h ∈ (holding e).groups, ∀ y ∈ h.entries, h.id.ctx = 1 ∧ y = e) := by decide +kernel

theorem witness_HomesMore :
    (let s := { receives (msg .getS (.copy 1) .home) with homeLines := [{ line := 128, data := 5, dirty := false, poison := false, stamp := 0 }] }
     ∃ h ∈ s.homeLines, h.line = 128) ∧
    ((State.useEntry (msg .getS (.copy 1) .home) st).slotFor (st.homeSlice 128) 128).2 = true ∧
    (let s := receives (msg .putM (.copy 1) .home)
     s.retiring (s.stop (.copy 1) 128) = false ∧
       { s with slices := [{ die := 1, slice := (s.copySlice 1 128).2, retire := true }] }.retiring (s.copySlice 1 128) = true) := by decide +kernel

theorem snd_eq {α β : Type} {x : α × β} {b : β} (h : x.2 = b) : x = (x.1, b) := by rw [← h]

def homeOf128 : Nat × Nat := st.homeSlice 128
/-- The home slice of line 128 is retiring. -/
def retires : State := { st with slices := [{ die := homeOf128.1, slice := homeOf128.2, retire := true }] }

theorem witness_CachesAndErrors :
    ((sys idle).core ⟨0, 1⟩).tlb.any (fun e => e.part = 0 && e.base ≤ 0x1000 && 0x1000 < e.base + e.size) = true ∧
    (let s := { sys idle with cores := [] }
     (s.core ⟨0, 1⟩).tlb = [] ∧ s.tlb2 = [] ∧ (match s.walk 0 0x1000 .read with | .ok x => decide (x.2 = 2 ^ 29) | .error _ => false) = true ∧
       (match s.walk 0 (2 ^ 40) .read with | .ok _ => false | .error f => decide (f.cause = 8)) = true) ∧
    (let r : Releaser := { line := 128, core := ⟨0, 1⟩, mask := 1, draining := true }
     { st with releasers := [r] }.releasers.find? (fun (r : Releaser) => r.line = 128 && r.core = (⟨0, 1⟩ : CoreId) && r.draining && !r.drained) = some r ∧
       { st with releasers := [{ r with drained := true }] }.releasers = [] ++ { r with drained := true } :: []) ∧
    (st.retiring homeOf128 = false ∧ retires.retiring homeOf128 = true ∧ retires.releasers = [] ∧ retires.snoops = [] ∧ retires.dirs = [] ∧ retires.msgs = [] ∧
      retires.clines.find? (retires.copyIn homeOf128.1 homeOf128.2) = none ∧
      (let s := { retires with clines := [{ agent := .copy homeOf128.1, line := 128, st := .S }] }
       (s.clines.find? (s.copyIn homeOf128.1 homeOf128.2)).isSome = true) ∧
      ∃ r ∈ { retires with releasers := [{ line := 128, core := ⟨0, 1⟩, mask := 1 }] }.releasers, retires.homeSlice r.line = homeOf128 ∧ r.draining = false) ∧
    (st.siteEnabled ⟨0, 1⟩ = true ∧ st.siteEnabled ⟨0, 0⟩ = false ∧ st.siteEnabled ⟨8, 98⟩ = true) ∧
    ((st.slice 8 15).cecnt < 65535 ∧ (st.slice 8 15).cecnt + 1 ≠ (st.slice 8 15).cethr ∧ (st.slice 8 15).retired = false ∧
      homeOf128.2 = st.sliceOf homeOf128.1 (homeBucket 128)) ∧
    ((st.group 1).core = ⟨0, 1⟩ ∧ (st.group 1).status = .resident) ∧
    (cached.dirty &&& byteRange 0 8 = 0 ∧ { cached with dirty := 1 }.dirty &&& byteRange 0 8 ≠ 0 ∧
      { cached with dirty := 1 }.dirty &&& byteRange 8 8 = 0) ∧
    (∀ l ∈ [cached, { cached with dirty := 1 }], ((st.setCore ⟨0, 1⟩ { l1 := [l] }).core ⟨0, 1⟩).l1.find? (fun y => y.line = 128) = some l) ∧
    (128 / 2 ^ 45 < 2 ∧ 128 % 2 ^ 45 * 128 < st.tierLimit (128 / 2 ^ 45)) := by decide +kernel

/-- A block of bytes from fields of 8 bytes. -/
def blk (l : List Nat) : List Byte := (l.map (leBytes 8)).flatten
/-- The words of a block, as a start captures them. -/
def words16 : List Byte → Nat → List (BitVec 128)
  | _, 0 => []
  | bs, n + 1 => BitVec.ofNat 128 (leNat (bs.take 16)) :: words16 (bs.drop 16) n
def apPtr : Ptr := ptrTo 0 0 4096 3 7 0 0
/-- A start at a byte of the aperture that captured these words, and command number 5. -/
def start (off : Nat) (value : BitVec 128) (words : List (BitVec 128)) : Entry :=
  { id := 0, kind := .engineStart, cls := .d, path := 6, ty := 3
    lanes := [{ lane := 3, ptr := apPtr, index := BitVec.ofNat 64 (off / 8), data := value :: words ++ [5] }] }
/-- A copy of 16-byte elements within core space: one dimension, both strides zero, this count, and a barrier or none. -/
def wide : Ptr := ptrTo 0 1 64 0x04 1 0 0
def copyBlock (count : Nat) (barrier : Nat) : List Byte :=
  blk [wide.toNat % 2 ^ 64, wide.toNat / 2 ^ 64, wide.toNat % 2 ^ 64, wide.toNat / 2 ^ 64, 1 + barrier, 0, count, 0, 0, 0, 0, 0, 0, 0, 0, 0]
def aCopy (count barrier next : Nat) : Work :=
  { id := 5, kind := .copy, core := ⟨0, 1⟩, channel := 2, ctx := 1, block := copyBlock count barrier, next := next }
def copying (x : Work) : State :=
  { sys idle with works := [x], teams := [{ tm with core_ := (List.range 16).map (fun i => (i, (7 : Byte))) }] }
def movesOf (x : Work) (s : State) : State × Option (Option Halt) :=
  let t := templateOf x.block
  (s.copyAcquire x t).moveChunk (s.group x.ctx) x t (t.chunk x.srcOff.toInt x.dstOff.toInt x.count.toNat x.next)
/-- Pointers of an engine command: to global memory, and to core space with words of 32 bits as integers and as numbers. -/
def farWide : Ptr := ptrTo 0x4000 0 64 0x04 4 0 3
def coreInts : Ptr := ptrTo 0 1 64 0x0E 1 0 0
def coreNums : Ptr := ptrTo 0 1 64 0x11 1 0 0
def farNums : Ptr := ptrTo 0x4000 0 64 0x11 4 0 3
def farCopy : Work := { aCopy 600 0 1 with block := blk [farWide.toNat % 2 ^ 64, farWide.toNat / 2 ^ 64] ++ (copyBlock 600 0).drop 16 }
/-- A gather of two bags of two rows of four numbers. -/
def gatherBlock (op : Nat) : List Byte :=
  blk [farNums.toNat % 2 ^ 64, farNums.toNat / 2 ^ 64, coreInts.toNat % 2 ^ 64, coreInts.toNat / 2 ^ 64, coreNums.toNat % 2 ^ 64,
    coreNums.toNat / 2 ^ 64, 4 + 2 * 2 ^ 32 + op * 2 ^ 48, 4]
def aGather (op next : Nat) : Work :=
  { id := 5, kind := .gather, core := ⟨0, 1⟩, channel := 2, ctx := 1, block := gatherBlock op, next := next }
/-- The same, with line 128 at its home and in the L1. -/
def gathering (x : Work) : State :=
  let s := copying x
  { s with clines := { agent := .home, line := 128, st := .M, data := 5 } :: s.clines }
def startsAt (off : Nat) (words : List (BitVec 128)) : State := holding (start off 3 words)
/-- The team's core space begins with these bytes. -/
def blocked (bs : List Byte) (s : State) : State :=
  { s with teams := [{ tm with core_ := (List.range 64).zip bs }] }

theorem witness_EngineEvents :
    (∀ off ∈ [0x88, 0x90, 0x98, 0x80, 0x480, 0x800],
      Performable 1 0 (start off 3 []) (startsAt off []) ∧
      (start off 3 []).nextWrite.map (fun x => x.2) = some (off, 3) ∧ (startsAt off []).tableFull (startTable ⟨0, 1⟩) = false ∧
      (startsAt off []).startPending 1 ⟨0, 1⟩ 2 = false) ∧
    ((∀ k : Fin 3, apertureAt (0x88 + 8 * k.val) = .offset 2 (k.val + 1)) ∧ apertureAt 0x80 = .copy 2 ∧ apertureAt 0x480 = .gather 2 ∧ apertureAt 0x800 = .collective) ∧
    { startsAt 0x88 [] with gs := [{ mate idle with entries := [start 0x80 3 []] }] }.startPending 1 ⟨0, 1⟩ 2 = true ∧
    (∀ k ∈ [WorkKind.copy, .gather, .collective], (startsAt 0x80 []).canAccept 1 k ⟨0, 1⟩ 2 = true ∧
      { startsAt 0x80 [] with works := [{ aCopy 1 0 0 with kind := k }, { aCopy 1 0 0 with kind := k }] }.canAccept 1 k ⟨0, 1⟩ 2 = false) ∧
    (st.runningWork .copy ⟨0, 1⟩ 2 = none ∧ st.runningWork .gather ⟨0, 1⟩ 2 = none) ∧
    (let s := { st with ops := [{ op with staged := true }] }
     s.ops.find? (fun o => o.core = (⟨0, 1⟩ : CoreId)) = some { op with staged := true } ∧ s.awaitedBy { op with staged := true } = false ∧
       s.teams.find? (fun t => t.launch = 7 && t.team = 0) = some tm) ∧
    (let s := { on { grp with tileWait := some ([8], 4, 4) } with ops := [{ op with staged := true }] }
     s.awaitedBy { op with staged := true } = true) ∧ st.ops = [] ∧ op.staged = false := by
  refine ⟨?_, by decide +kernel⟩
  intro off h
  refine ⟨performable ?_, ?_⟩ <;> revert off <;> decide +kernel

theorem witness_blocks :
    (match ((startsAt 0x480 []).focus 1).gatherStart 2 3 with | .error _ => true | .ok _ => false) = true ∧
    (match ((blocked (gatherBlock 1) (startsAt 0x480 [])).focus 1).gatherStart 2 0 with | .ok _ => true | .error _ => false) = true ∧
    (match ((startsAt 0x800 []).focus 1).collectiveStart 3 with | .error _ => true | .ok _ => false) = true := by decide +kernel

theorem witness_copies :
    (let x := aCopy 600 0 1
     (copying x).runningWork .copy ⟨0, 1⟩ 2 = some x ∧ 0 < x.next ∧ x.next + 1 < (templateOf x.block).chunks x.count.toNat ∧
       (movesOf x (copying x)).2 = none ∧ (templateOf x.block).barrier = none) ∧
    (let x := aCopy 600 (2 ^ 22 + 2 ^ 23) 1
     (copying x).runningWork .copy ⟨0, 1⟩ 2 = some x ∧ x.next + 1 < (templateOf x.block).chunks x.count.toNat ∧
       (movesOf x (copying x)).2 = none ∧ (templateOf x.block).barrier = some 1) ∧
    (let s := copying farCopy
     s.runningWork .copy ⟨0, 1⟩ 2 = some farCopy ∧ farCopy.next + 1 < (templateOf farCopy.block).chunks farCopy.count.toNat ∧
       (movesOf farCopy s).2 = some none ∧ (movesOf farCopy { s with cores := [], regs := [] }).2.join.isSome = true) ∧
    (let x := aCopy 600 0 2
     (copying x).runningWork .copy ⟨0, 1⟩ 2 = some x ∧ x.next < (templateOf x.block).chunks x.count.toNat ∧ (templateOf x.block).chunks x.count.toNat ≤ x.next + 1 ∧
       (movesOf x (copying x)).2 = none) := by decide +kernel

theorem witness_gathers :
    (let x := aGather 1 2
     (copying x).runningWork .gather ⟨0, 1⟩ 2 = some x ∧ gatherBags x.block ≤ x.next) ∧
    (let x := aGather 1 0
     let s := gathering x
     let z := x.beginBag s.free
     s.runningWork .gather ⟨0, 1⟩ 2 = some x ∧ x.next < gatherBags x.block ∧ gatherScatters x.block = false ∧ x.read = false ∧ x.begun = false ∧ x.landed = [] ∧
       gatherOp x.block ≠ 3 ∧ (z.endBag 0).next < gatherBags x.block ∧
       (match (s.putWork z).bagIndices (s.group 1) z with
        | (b', .ok vs) => (match State.tableRows (s.group 1) z (vs.map (·.toNat)) b' with
          | (b, .ok rows) =>
            let read := (b.haveRead z ((rowElems (gatherRow x.block) z.cur).zip (bagRow x.block rows))).modWork z.id (fun y => { y with
              missed := y.missed + ((vs.map (·.toNat)).filter (rowMissing x.block)).length })
            (match read.writeDense (s.group 1) z with
             | (b'', .ok ()) => decide (((b''.workNow z).endBag 0).next < gatherBags x.block)
             | _ => false)
          | _ => false)
        | _ => false) = true) := by decide +kernel

/-- A request of package 5 for a word at byte 0x4000 of partition 0. -/
def peerReq (kind : Nat) : PeerReq :=
  { source := 5, part := 0, kind := kind, op := 0, ty := 1, sync := false, colour := 0, tag := 9, lanes := [{ lane := 3, va := 0x4000, size := 4, data := 7, data2 := 0 }] }
/-- The module with partition 0 open to the fabric and line 128 at its home; tables or none. -/
def opened : State :=
  let s := sys idle
  { s with regs := (0x100A0, 1) :: s.regs, clines := { agent := .home, line := 128, st := .M, data := 5 } :: s.clines }
def closedTables : State := { opened with regs := [(0, 1), (0x100A0, 1)] }
/-- The module with page tables, multicast enabled and a table of one group at byte 2^22, with this entry. -/
def grouped (entry : Nat) : State :=
  let s := opened
  { s with regs := (0x2008, BitVec.ofNat 64 (2 ^ 22 + 1)) :: s.regs, mem := memWrite [] (2 ^ 22) (leBytes 16 entry) }
def aParked : Parked := { req := peerReq 1, since := 0, cause := 8, extra := 0, addr := 0x4000 }
def walks (r : PeerReq) (s : State) (P : State → List PeerSpot → Bool) : Bool := match s.walkPeer r with | .ok l => P s l | .error _ => false

theorem witness_PortsAndPeers :
    ((let s := { st with ports := [{ port := 35, up := true }] }
      (s.port 35).up = true ∧ (s.port 35).en = true) ∧ (st.port 35).up = false ∧ st.ready = true ∧ (st.port 35).resends < 65536 ∧
      (st.port 35).en = true ∧ (∀ o ∈ st.out, o.leftBy 35 = false) ∧ ({ st with ports := [{ port := 35, en := false }] }.port 35).en = false ∧ State.reset.ready = false) ∧
    (bitsAt 16 16 (2 : BitVec 64).toNat = 0 ∧ bitsAt 16 16 (0xFFFF0002 : BitVec 64).toNat = 65535 ∧
      bitsAt 0 18 (0x8000000000000005 : BitVec 64).toNat = 5 ∧ (0x8000000000000005 : BitVec 64).getLsbD 63 = true ∧ st.inLostTable 5 = false ∧
      { st with regs := [(0x3000 + 8 * 255, 0x8000000000000005)] }.inLostTable 5 = true ∧ (st.reg (lostEntry 255)).getLsbD 63 = false) ∧
    (let s := { holding peerLoad with time := 2 ^ 40 }
     5 ≠ s.package ∧ ∃ g ∈ s.groups, g.status ≠ .saved ∧ ∃ e ∈ g.entries, e.asks = true ∧ e.anchor = 5 ∧ e.heardAt + 2 * (10 ^ 6 * 940) ≤ s.time) ∧
    ((holding peerLoad).requestsTo 5 = [(1, 0)] ∧ ((holding peerLoad).entry 1 0).any (fun e => !e.done) = true) ∧
    ((st.reg (partBlock 0 + 0xA0)).getLsbD 0 = false ∧ (opened.reg (partBlock 0 + 0xA0)).getLsbD 0 = true ∧ ¬(16 < 16)) ∧
    (∀ r ∈ [peerReq 0, peerReq 1, peerReq 2],
      (match closedTables.walkPeer r with | .ok _ => false | .error f => decide (f.2 = 0x4000)) = true ∧ closedTables.parked = [] ∧ closedTables.hostMode 0 = false ∧
      (r.source ≠ opened.package ∧ opened.packets.any (McPacket.of r) = false) ∧ closedTables.parkFull = false ∧
      ({ closedTables with regs := (0x10, 1) :: closedTables.regs }.hostMode 0 = true) ∧
      walks r opened (fun s l => !s.tagsFull r l && (match s.obtain r (peerLines l) with | (b, .ok true) => !b.packets.any (McPacket.of r) && r.source ≠ b.package | _ => false) && l.length = 1 && l.all (fun x => (((s.obtain r (peerLines l)).1).peerBytes x.pieces).2 = none)
        && ((s.obtain r (peerLines l)).1.kept r.tag 3 0x4000).isNone) = true ∧
      walks r { opened with clines := (sys idle).clines } (fun s l =>
        !s.tagsFull r l && (match s.obtain r (peerLines l) with | (_, .ok false) => true | _ => false)) = true) ∧
    (let r := { peerReq 0 with lanes := [{ lane := 3, va := 0x4001, size := 4, data := 7, data2 := 0 }] }
     walks r opened (fun s l => !s.tagsFull r l && (match s.obtain r (peerLines l) with | (b, .ok true) => b.splits r | _ => false)) = true) ∧
    (∀ r ∈ [peerReq 0, peerReq 1, peerReq 2], r.sync = false ∧ ∀ z ∈ r.lanes, laneSplit z = false) ∧
    (let s := { opened with cores := [], releasers := [{ line := 128, core := ⟨0, 1⟩, mask := 1 }] }
     let r := { peerReq 0 with sync := true }
     let s := s.setCore ⟨0, 1⟩ { dead := true }
     walks r s (fun s l => !s.tagsFull r l && (match s.obtain r (peerLines l) with | (_, .error _) => true | _ => false)) = true) ∧
    (1024 ≤ { closedTables with parked := List.replicate 1024 { aParked with req := { peerReq 1 with tag := 8 } } }.parked.length ∧
      ({ opened with suppress := [{ table := 0, site := 0, tag := 9, lane := 3, ord := 0x4000 }] }.kept 9 3 0x4000).isSome = true) ∧
    (let s := { closedTables with parked := [aParked] }
     s.parked[0]? = some aParked ∧ s.time < aParked.since + 64 * 940 ∧ aParked.since + 64 * 940 ≤ { s with time := 2 ^ 20 }.time) ∧
    (let s := { opened with parked := [aParked], time := 2 ^ 20 }
     walks aParked.req (State.noticeParked { aParked with since := s.time } { s with parked := s.parked.set 0 { aParked with since := s.time } })
       (fun a l => (a.servePeer aParked.req l).2) = true ∧
     aParked.own = none ∧ aParked.req.source ≠ s.package) ∧
    (let own := { aParked with own := some { ctx := 1, entry := 0 }, req := { peerReq 1 with source := 0 } }
     let s := { opened with parked := [own], time := 2 ^ 20 }
     own.own.isSome = true ∧ own.assisted = false ∧
       walks own.req (State.noticeParked { own with since := s.time } { s with parked := s.parked.set 0 { own with since := s.time } }) (fun _ _ => true) = true) ∧
    (let s := { opened with parked := [{ aParked with assisted := true }] }
     s.parked[0]? = some { aParked with assisted := true }) := by decide +kernel

/-- A group of ports 2 and 3 with its valid bit; the root's port is not used, or it is port 4. -/
def mcast (local_ root : Bool) (locals : Nat) : Nat :=
  12 + (if local_ then 2 ^ 36 else 0) + 4 * 2 ^ 37 + (if root then 2 ^ 43 else 0) + 2 ^ 44 + locals * 2 ^ 64
def contribution (port : Nat) : Contribution :=
  { group := 0, sequence := 1, chunk := 0, localSource := false, source := port, double := false, op := 0, values := List.replicate 64 1 }
def slot (added : List (Bool × Nat)) : RedSlot := { group := 0, sequence := 1, chunk := 0, added := added, partial_ := List.replicate 64 1, sentUp := true }
/-- A collective of one chunk of two numbers. -/
def aCollective : Work :=
  { id := 5, kind := .collective, core := ⟨0, 1⟩, channel := 0, ctx := 1
    block := blk [coreNums.toNat % 2 ^ 64, coreNums.toNat / 2 ^ 64, coreNums.toNat % 2 ^ 64, coreNums.toNat / 2 ^ 64, 2, 0, 1, 0] }
def collecting (local_ root : Bool) : State :=
  let s := grouped (mcast local_ root 1)
  { s with works := [aCollective], teams := [{ tm with core_ := (List.range 16).map (fun i => (i, (0 : Byte))) }] }
def regsWord (slot : Nat) (reg : Nat) : RegsWord := { tag := BitVec.ofNat 64 (5 * 2 ^ 46), lane := 3, ord := 0, slot := slot, gen := 0, reg := reg, rlane := 3, value := 7 }
/-- The module with name 1, generation 0, in a state of the pegboard. -/
def named (p : Peg) : State := { sys idle with pegs := [p] }
def peg1 : Peg := { slot := 1, st := 1, ctx := 1 }
theorem witness_FabricTraffic :
    (st.multicastValid 0 = false ∧ ∀ l : Bool, let s := grouped (mcast l false 0)
      s.multicastValid 0 = true ∧ s.packets = [] ∧ (s.multicastEntry 0).testBit 36 = l ∧ (s.reg (partBlock 0 + 0xA0)).getLsbD 0 = true) ∧
    (let s := grouped (mcast true false 0)
     (∀ q ∈ s.parked, q.req ≠ peerReq 1) ∧ (BitVec.ofNat 36 (s.multicastEntry 0) : BitVec 36) ≠ 0) ∧
    (let s := grouped (2 ^ 36 + 2 ^ 44 + 4 * 2 ^ 37)
     (BitVec.ofNat 36 (s.multicastEntry 0) : BitVec 36) = 0 ∧
     walks (peerReq 1) { s with packets := [{ req := peerReq 1, group := 0, branches := 0, local_ := true }] }
       (fun a l => l.length = 1 && !a.tagsFull (peerReq 1) l && (match a.obtain (peerReq 1) (peerLines l) with
         | (b, .ok true) => b.packets = a.packets && (b.kept 9 3 0x4000).isNone
         | _ => false)) = true) ∧
    (grouped (mcast true true 0)).aborts.contains (0, 1) = false ∧ { grouped (mcast true true 0) with aborts := [(0, 1)] }.aborts.contains (0, 1) = true ∧
    (∀ root : Bool, let s := grouped (mcast false root 0)
     s.redOrder 0 = [(false, 2), (false, 3)] ∧ s.redSlots = [] ∧ (s.multicastEntry 0).testBit 43 = root ∧
       256 ≤ { s with redSlots := List.replicate 256 { slot [] with chunk := 9 } }.redSlots.length ∧
       { s with redSlots := List.replicate 256 { slot [] with chunk := 9 } }.redSlots.find? (fun (r : RedSlot) => r.is 0 1 0) = none ∧
       { s with redSlots := [slot [(false, 2)]] }.redSlots.find? (fun (r : RedSlot) => r.is 0 1 0) = some (slot [(false, 2)]) ∧ (false, 3) ∉ (slot [(false, 2)]).added) ∧
    (grouped (8 + 2 ^ 44)).redOrder 0 = [(false, 3)] ∧ ((grouped (8 + 2 ^ 44)).multicastEntry 0).testBit 43 = false ∧ (contribution 3).localSource = false ∧
    (let s := collecting true false
     s.multicastValid 0 = true ∧ s.contributor 0 1 0 = some aCollective ∧ aCollective.maySend 0 = true ∧ (s.sendTag (s.group 1)).isSome = true ∧
       ((s.sendTag (s.group 1)).any fun t => { s with g := { s.g with liveTags := [t] } }.sendTag { s.g with liveTags := [t] } = none) = true ∧
       (match s.enginePages ⟨0, 1⟩ 0 .read (collSource aCollective.block) (collElems aCollective.block 0) with
        | (u, .ok rs) => (match State.engineLoads (s.group 1) 0 rs (collSource aCollective.block) (collElems aCollective.block 0) u with
          | (_, .ok _) => true
          | _ => false)
        | _ => false) = true) ∧
    (st.redSlots.find? (fun (r : RedSlot) => r.is 0 1 0) = none ∧ ∀ root : Bool,
      let s := { grouped (mcast false root 0) with redSlots := [slot [(false, 2), (false, 3)]] }
      s.redSlots.find? (fun (r : RedSlot) => r.is 0 1 0) = some (slot [(false, 2), (false, 3)]) ∧ (slot [(false, 2), (false, 3)]).added.length = (s.redOrder 0).length ∧
        s.collectives 0 1 = [] ∧ ¬(slot []).added.length = (s.redOrder 0).length) ∧
    (let s := { collecting false true with redSlots := [slot [(false, 2), (false, 3)]] }
     s.collectives 0 1 = [aCollective] ∧ aCollective.frozen = false ∧ 0 ∉ aCollective.landed ∧
       (State.landChunk aCollective 0 [1, 2] s).2 = none ∧ (∃ y ∈ (State.landChunk aCollective 0 [1, 2] s).1.works, y.id = aCollective.id)) ∧
    (let s := collecting false true
     let r := State.spoil ((List.range (collChunks aCollective.block)).filter (fun k => !aCollective.landed.contains k)) aCollective (s.abortCollective (0, 1))
     s.multicastValid 0 = true ∧ r.2 = true ∧ (r.1.works.find? (fun z => z.id = aCollective.id)).isSome = true ∧
       (r.1.endCollective ((r.1.works.find? (fun z => z.id = aCollective.id)).getD aCollective) true).collectives 0 1 = [] ∧
       { s with works := [{ aCollective with frozen := true }] }.collectives 0 1 = [{ aCollective with frozen := true }] ∧
       (grouped (mcast false true 1)).collectives 0 1 = [] ∧ ¬(st.multicastValid 0 = true ∨ st.aborts.contains (0, 1) = true)) := by decide +kernel

theorem witness_words :
    (tagPackage (regsWord 1 8).tag ≠ st.package % 2 ^ 18 ∧ st.keptWord (regsWord 1 8).tag 3 0 = none ∧ st.tableFull (nameTable 1) = false ∧
      (st.settled 1 0).findName 1 0 = none) ∧
    (∀ p ∈ [{ peg1 with st := 4, fwd := 6 }, { peg1 with st := 2 }, { peg1 with rst := true }, peg1],
      ((named p).settled 1 0).findName 1 0 = some (.own, p) ∧ p.parked.length < 4095) ∧
    (let g := ((named peg1).settled 1 0).group 1
     g.alloc ≤ (regsWord 1 64).reg ∧ (regsWord 1 63).reg < g.alloc ∧ g.running = false ∧ ((named peg1).settled 1 0).has 1 = true ∧ g.pending = .none ∧
       (({ named peg1 with g := grp }.settled 1 0).group 1).running = true) ∧
    ({ st with suppress := [{ table := 1, site := 1, tag := (regsWord 1 8).tag, lane := 3 }] }.keptWord (regsWord 1 8).tag 3 0).isSome = true ∧
    (let w := { regsWord 1 8 with tag := 0 }
     tagPackage w.tag = st.package % 2 ^ 18 ∧ st.ownWord w = none ∧ ((holding (toName .regsStore 0 0)).ownWord w).isSome = true) := by decide +kernel

theorem witness_fullPegboard : ∀ l : List RegsWord, l = List.replicate 4095 (regsWord 1 8) →
    let p := { peg1 with rst := true, parked := l }
    ((named p).settled 1 0).findName 1 0 = some (.own, p) ∧ 4095 ≤ p.parked.length := by
  rintro l rfl
  exact ⟨rfl, Nat.le_of_eq (List.length_replicate ..).symm⟩

/-- Line 128, of page 4, in host bias; and a flip of page 4. -/
def biased : State := { sys idle with hostPages := [4] }
def flipping (toHost : Bool) : State := { sys idle with flip := some { page := 4, toHost := toHost, cores := [⟨0, 1⟩], acks := [⟨0, 1⟩, ⟨0, 2⟩] } }
def tier2Line : Nat := 2 * 2 ^ 45 + 5

theorem witness_HostAccesses :
    (State.reset.ready = false ∧ (sys idle).ready = true ∧ hostLine Config.reservedBase = none ∧ hostLine 0x4004 = some 128 ∧
      hostLine Config.hbmBytes = some (2 ^ 45) ∧ 0x4004 % 128 + 4 ≤ 128) ∧
    (biased.inHostBias 128 = true ∧ biased.flip = none ∧ (biased.biFilter = []) ∧ (sys idle).inHostBias 128 = false ∧
      { biased with flip := (flipping false).flip }.inHostBias 128 = true ∧ hdmPage 128 = some 4 ∧ 128 ∈ { biased with biFilter := [128] }.biFilter) ∧
    ((flipping true).flushing 128 = true ∧ (sys idle).flushing 128 = false ∧ (sys idle).releasers = [] ∧ (sys idle).hostReqs = [] ∧ opened.hostReqs = [] ∧ biased.hostReqs = [] ∧
      ({ opened with hostReqs := [.read 0x4000 false] }.homeRead 128).2 = some (5, false) ∧ ({ sys idle with hostReqs := [.read 0x4000 false] }.homeRead 128).2 = none ∧
      ({ sys idle with hostReqs := [.write 0x4000 []] }.homeOwn 128).2 = false ∧
      (∃ r ∈ [({ flipping true with hostReqs := [.write 0x4004 []] })], r.flushing 128 = true ∧ ∀ q ∈ r.hostReqs, hostLine q.offset = some 128) ∧ (opened.cline .home 128).st = .M ∧
      ∃ r ∈ { sys idle with releasers := [{ line := 128, core := ⟨0, 1⟩, mask := 1 }] }.releasers, r.line = 128 ∧ ((sys idle).core r.core).dead = false) ∧
    (128 / 2 ^ 45 ≠ 2 ∧ tier2Line / 2 ^ 45 = 2 ∧ (st.dir tier2Line).holders = [] ∧ st.msgs = [] ∧ st.homeLines = [] ∧ st.snoops = [] ∧
      (let s := { st with homeLines := [{ line := tier2Line, data := 5, dirty := true, poison := false }], clines := [{ agent := .home, line := tier2Line, st := .M, data := 5 }] }
       s.homeLines.find? (fun y => y.line = tier2Line) = s.homeLines.head? ∧ (s.homeRead tier2Line).2 = some (5, false)) ∧
      ({ st with dirs := [{ dirOf .M (.copy 1) [] with line := tier2Line }] }.dir tier2Line).holders ≠ []) ∧
    (∀ toHost ∈ [0, 1], let v := BitVec.ofNat 64 (4 + toHost * 2 ^ 30 + 2 ^ 31)
      v.getLsbD 31 = true ∧ bitsAt 0 30 v.toNat = 4 ∧ v.getLsbD 30 = decide (toHost = 1) ∧ ((sys idle).reg 0x1008).getLsbD 31 = false) ∧
    (4 < hdmPages ∧ hdmPages ≤ 2 ^ 30 - 1 ∧ 4 ∉ (sys idle).hostPages ∧ 4 ∈ biased.hostPages ∧ biased.hostMode 3 = false ∧
      { biased with regs := [(0, 1), (0x10, 8)] }.hostMode 3 = true ∧
      biased.biFilter.filter (fun l => hdmPage l = some 4) = [] ∧ { biased with biFilter := [128] }.biFilter.filter (fun l => hdmPage l = some 4) ≠ []) ∧
    ({ st with regs := [(0x1008, BitVec.ofNat 64 (2 ^ 31))] }.reg 0x1008).getLsbD 31 = true ∧
    ((⟨0, 1⟩ : CoreId) ∈ [⟨0, 1⟩] ∧ ((flipping true).writeBackAll ⟨0, 1⟩ ((flipping true).onPage 4)).2 = true ∧
      (((flipping true).setCore ⟨0, 1⟩ { mapped with l1 := [{ cached with dirty := 1 }] }).writeBackAll ⟨0, 1⟩ ((flipping true).onPage 4)).2 = false) ∧
    ([(⟨0, 1⟩ : CoreId), ⟨0, 2⟩].erase ⟨0, 2⟩ ≠ [] ∧ [(⟨0, 2⟩ : CoreId)].erase ⟨0, 2⟩ = [] ∧
      ∀ l ∈ pageLines 4, (st.dir l).holders = [] ∧ (∀ m ∈ st.msgs, m.line ≠ l) ∧ (∀ y ∈ st.homeLines, y.line ≠ l) ∧ (∀ r ∈ st.releasers, r.line ≠ l)) ∧
    (128 ∈ { biased with biFilter := [128], biAsked := [128] }.biAsked ∧ 128 ∈ { biased with biFilter := [128], biDataAsked := [128] }.biDataAsked ∧
      128 ∉ biased.biAsked ∧ 128 ∉ biased.biDataAsked) := by decide +kernel

theorem witness_fullFilter : ∀ n, n = 16384 →
    let s := { biased with biFilter := List.replicate n 128 }
    let mine := s.biFilter.filter (fun x => s.homeSlice x = s.homeSlice 129)
    129 ∉ s.biFilter ∧ 16384 ≤ mine.length ∧ mine.getLast? = some 128 ∧ 128 ∉ s.biAsked := by
  intro n h s mine
  have e : s.homeSlice 128 = s.homeSlice 129 := by
    show biased.homeSlice 128 = biased.homeSlice 129
    decide +kernel
  have f : mine = List.replicate n 128 := by
    show List.filter _ (List.replicate n 128) = _
    rw [List.filter_replicate, if_pos (by simpa using e)]
  refine ⟨fun m => absurd (List.eq_of_mem_replicate m) (by decide), ?_, ?_, by show 128 ∉ biased.biAsked; decide +kernel⟩
  · rw [f, List.length_replicate]; exact Nat.le_of_eq h.symm
  · rw [f, List.getLast?_replicate, if_neg (fun z => absurd (h.symm.trans z) (by decide))]

/-- A register's fields, as the statement about management registers reads them. -/
def fieldOf (s : State) (off lo w : Nat) : Nat := (s.reg off).toNat / 2 ^ lo % 2 ^ w

theorem witness_ManagementRegisters :
    (State.reset.ready = false ∧ st.ready = true ∧ 4 % 8 ≠ 0 ∧ (st.slice 8 15).cecnt < 65536) ∧
    ((0x20000 : BitVec 64).toNat % 2 ^ 16 = 0 ∧ (0x2FFFF : BitVec 64).toNat % 2 ^ 16 = 65535 ∧ (0x20000 : BitVec 64).toNat / 2 ^ 32 % 2 = 0) ∧
    ((2 ^ 22 + 1) / 2 ^ 21 % 2 ^ 31 * 2 ^ 21 + 2 ^ 21 ≤ Config.reservedBase ∧ Config.reservedBase < (2 ^ 45) / 2 ^ 21 % 2 ^ 31 * 2 ^ 21 + 2 ^ 21 ∧
      (2 ^ 22 + 1) / 2 ^ 22 % 2 ^ 30 * 2 ^ 22 + 2 ^ 22 ≤ Config.reservedBase ∧ Config.reservedBase < (2 ^ 45) / 2 ^ 22 % 2 ^ 30 * 2 ^ 22 + 2 ^ 22) ∧
    (let window (p d : Nat) : Nat := 0x10000 + 0x1000 * p + 0xC0 + 8 * d
     let s := { State.reset with regs := [(0, 1), (window 1 8, 100 + 50 * 2 ^ 16)] }
     1023 < 1000 + 24 ∧ ¬1023 < 1000 + 23 ∧
       (0 < fieldOf s (window 1 8) 16 10 ∧ 149 < fieldOf s (window 1 8) 0 10 + fieldOf s (window 1 8) 16 10 ∧ fieldOf s (window 1 8) 0 10 < 149 + 1) ∧
       ¬(150 < fieldOf s (window 1 8) 0 10 + fieldOf s (window 1 8) 16 10) ∧ ¬((st.reg (window 0 0)).toNat = 4 + 8 * 2 ^ 16) ∧
       (∃ g ∈ st.groups, g.id.ctx ≠ 2 ^ 24 ∧ g.id.monitor = false ∧ g.id.part = 0 ∧ g.place.die = 0) ∧
       ∀ g ∈ st.groups, ¬(g.id.ctx ≠ 2 ^ 24 ∧ g.id.monitor = false ∧ g.id.part = 0 ∧ g.place.die = 8)) ∧
    (let sum (s : State) : Nat := ((List.range 9).map (fun d => fieldOf s (0x100 + 8 * d) 0 13)).foldl (· + ·) 0
     let s (a : Nat) : State := { State.reset with regs := [(0, 1), (0x10, 32), (0x20, 1000), (0x108, BitVec.ofNat 64 a)] }
     (s 1000).hostMode 5 = true ∧ sum (s 1000) ≤ fieldOf (s 1000) 0x20 0 13 ∧ fieldOf (s 1001) 0x20 0 13 < sum (s 1001) ∧ st.hostMode 5 = false) ∧
    ((2 ^ 63 + 2 * 2 ^ 52) / 2 ^ 52 % 4 = 2 ∧ (2 ^ 63 + 2 * 2 ^ 52) / 2 ^ 63 = 1 ∧ (2 ^ 52) / 2 ^ 52 % 4 = 1 ∧ (2 ^ 8) / 2 ^ 63 = 0 ∧
      (2 ^ 8) / 2 ^ 8 % 2 ^ 44 * 2 ^ 8 + 29936 ≤ Config.reservedBase) ∧
    (State.reset.mem.wf = true ∧ State.reset.flash.firmwareOk = true ∧ State.reset.flash.accepted = true ∧
      { State.reset.flash with configOk := false }.accepted = false ∧ { State.reset.flash with firmwareOk := false }.firmwareOk = false) := by decide +kernel

def saved (g : Group) : State := { sys { g with status := .saved } with clusters := [{ cl with state := .saved }] }
/-- A name that waits in its saved context. -/
def pegS : Peg := { slot := 1, st := 2, ctx := 1 }
def naming (p : List Peg) : State := let s := saved idle; { s with regs := (0x1010, 1) :: s.regs, pegs := p }

theorem witness_HostCommands :
    ((sys idle).ready = true ∧ (sys idle).requestBusy 0 = false ∧
      { sys idle with saveAsked := [{ part := 0, launch := 7, cluster := 0 }] }.requestBusy 0 = true) ∧
    ((sys idle).has 1 = true ∧ (sys idle).g.id.monitor = false ∧ (sys idle).g.id.part = 0 ∧ (sys idle).g.status = .resident ∧ (sys idle).has 2 = false ∧
      (saved idle).g.status = .saved ∧ (saved idle).g.saving = false ∧ (saved idle).g.restoring = false ∧ ((saved idle).clusterAt 7 0).state = .saved) ∧
    ((sys idle).entryWaits 0 1 .group = false ∧ (sys idle).entryWaits 0 1 (.entry 0) = false ∧
      { sys idle with faultBuffer := [{ part := 0, ctx := 1, source := .group, addr := 0, words := [] }] }.entryWaits 0 1 .group = true ∧
      (sys idle).parked = [] ∧ (sys idle).g.entries = [] ∧ (sys idle).g.pending = .none) ∧
    ((sys { idle with pending := .host { cause := 8 } }).g.pending = .host { cause := 8 } ∧
      (holding { aLoad with hostWait := true }).g.entries.find? (fun y => y.hostWait) = some { aLoad with hostWait := true } ∧ aLoad.cls ≠ .c) ∧
    (let q := { aParked with assisted := true, req := { peerReq 1 with tag := BitVec.ofNat 64 (2 * 2 ^ 22) } }
     let s := { opened with parked := [q] }
     s.entryWaits 0 (tagCtx q.req.tag) (.parked q.req.tag) = false ∧ s.faultsFull = false ∧ s.has (tagCtx q.req.tag) = false ∧ s.parked = [q] ∧ q.assisted = true ∧ q.req.part = 0 ∧ tagCtx q.req.tag < 2 ^ 24 ∧
       walks q.req s (fun a l => (a.servePeer q.req l).2) = true ∧
       (match { closedTables with parked := [q] }.walkPeer q.req with | .ok _ => false | .error _ => true) = true) ∧
    ((0x8000000000000001 : BitVec 64).getLsbD 63 = true ∧ (0x8000000000000001 : BitVec 64).toNat % 4 = 1 ∧ (0x8000000000100002 : BitVec 64).toNat % 4 = 2) ∧
    (∀ p ∈ [pegS, { pegS with st := 4 }, { pegS with rst := true }, { pegS with st := 1 }],
      (naming [p]).regField 0x1010 0 20 = 1 ∧ (naming [p]).regField 0x1010 20 16 = 0 ∧ (naming [p]).regField 0x1010 36 18 = (naming [p]).package ∧
      (naming [p]).pegs.find? (fun p => p.slot = 1 && p.gen = 0 && p.st ≠ 0) = some p) ∧ (naming []).pegs = [] ∧
    ((match (naming [pegS]).migrateName with | .ok x => decide (x = (.own, pegS)) | .error _ => false) = true ∧
      (∀ y ∈ ((naming [pegS]).group 1).recordEntries, y.cls = .i) ∧
      ∃ y ∈ ((saved { idle with entries := [aStore coreLane] }).group 1).recordEntries, y.cls ≠ .i) := by decide +kernel

/-- Name 1 lives elsewhere, and an image that holds it stands at context 2. -/
def admitting : State :=
  let s := naming [{ pegS with st := 4 }]
  { s with mem := memWrite (memWrite [] 0x18000 [1, 0, 0, 0, 2]) 0x18080 [1] }

theorem witness_admitted : (admitting.comesBack 0 1 0).1.admitError 0 1 0 0 2 = 0 ∧ ((naming []).comesBack 0 1 0).1.admitError 0 1 0 0 2 = 1 ∧
    ((naming []).comesBack 0 0 0).1.admitError 0 0 0 0 2 = 1 ∧ (admitting.nameEntry 0 1 0).all (fun x => x.2.st ≠ 3) = true ∧
    (admitting.vaddrs 0 .write 4 (admitting.regField 0x10110 16 36 * 65536 + 49152 * 2 + 0x28)).isSome = true ∧
    admitting.regField 0x1010 0 20 = 1 ∧ admitting.regField 0x1010 20 16 = 0 ∧ admitting.package = 0 ∧ (0x8000000000200002 : BitVec 64).toNat / 2 ^ 20 % 2 ^ 24 = 2 := by
  decide +kernel

theorem witness_repliesMore :
    ((sys { idle with status := .saved, pending := .host { cause := 8 } }).g.pending = .host { cause := 8 }) ∧
    (let e := { aLoad with hostWait := true, cls := .c, kind := .copy }
     let s := { holding e with works := [{ aCopy 1 0 0 with held := some { cause := 8 } }] }
     s.g.entries.find? (fun y => y.hostWait) = some e ∧ e.cls = .c ∧
       s.works.find? (fun y => y.ctx = 1 && y.entry = e.id) = some { aCopy 1 0 0 with held := some { cause := 8 } }) ∧
    (let q := { aParked with assisted := true, own := some { ctx := 1, entry := 0 } }
     let s := { opened with parked := [q] }
     s.has 1 = true ∧ s.g.pending = .none ∧ s.g.entries = [] ∧ s.entryWaits 0 1 (.parked q.req.tag) = false ∧ walks q.req s (fun _ _ => true) = true) := by decide +kernel

/-- A die's monitor with one inbound message. -/
def mailed (s : State) (command length arg1 arg2 : Nat) : State :=
  { s with
    gs := s.gs ++ [{ idle with id := { ctx := 0xFFFF00, system := true, monitor := true } }]
    chip := memWrite (memWrite [] (mailbox 0 + 8) (leBytes 8 1)) (mailbox 0 + 0x40)
      (leBytes 2 command ++ leBytes 2 3 ++ leBytes 2 0 ++ leBytes 2 length ++ leBytes 8 arg1 ++ leBytes 8 arg2 ++ List.replicate 40 9) }
/-- The monitor is asked for this. -/
def asked (s : State) (command length arg1 arg2 : Nat) : Bool :=
  (s.monitorOf 0).isSome && (match s.nextMail 0 with
    | some b =>
      let m := messageOf b
      decide (m.command = command ∧ m.length = length ∧ m.arg1 = arg1 ∧ m.arg2 = arg2 ∧ b.length = 64)
    | none => false) && s.mailRoom 0

theorem witness_MonitorService :
    ((sys idle).monitorOf 0 = none ∧ ((mailed (sys idle) 1 0 1 0).monitorOf 0).isSome = true ∧ (sys idle).nextMail 0 = none ∧
      { sys idle with chip := memWrite [] (mailbox 0 + 0x18) (leBytes 8 511) }.mailRoom 0 = false) ∧
    (∀ c ∈ [1, 7], asked (mailed (sys idle) c (26 + c) 1 0) c (26 + c) 1 0 = true) ∧
    ((mailed (sys idle) 1 0 2 0).liveContext 2 = none ∧ ((mailed (sys idle) 1 0 1 0).liveContext 1).any (fun g => g.id.ctx = 1 && g.status = .resident) = true ∧ (sys idle).g.id.monitor = false ∧
      (sys idle).g.status = .resident ∧ ((mailed (saved idle) 1 0 1 0).liveContext 1).any (fun g => g.status = .saved && !g.saving) = true ∧
      (let s := mailed (sys { idle with status := .saved, id := { grp.id with monitor := true } }) 2 0 1 0
       (s.liveContext 1).any (fun g => g.id.monitor && g.status = .saved && !g.saving) = true) ∧
      ((mailed (saved { idle with saving := true }) 1 0 1 0).liveContext 1).any (·.saving) = true) ∧
    (49152 < 49121 + 32 ∧ ¬49152 < 49150 + 2 ∧ ((sys idle).coreRead ⟨0, 0⟩ 0 ((sys idle).imageAddr (sys idle).g + 49150) 2).isSome = true) ∧
    ((∃ k < 1, 0x24 ≤ 0x24 + k ∧ 0x24 + k < 0x40) ∧ (∀ k < 2, imageWritable (0x40 + k) = true) ∧
      ((saved idle).virtWrite (some ⟨0, 0⟩) 0 ((saved idle).imageAddr (saved idle).g + 0x40) [9, 9]).isSome = true) ∧
    (2 ^ 52 < (2 ^ 52 - 31) + 32 ∧ (2 ^ 52 - 32) + 32 ≤ 2 ^ 52 ∧ st.coreRead ⟨0, 0⟩ 0 0x4000 2 = none ∧ (opened.coreRead ⟨0, 0⟩ 0 0x4000 2).isSome = true ∧
      (st.virtWrite (some ⟨0, 0⟩) 0 0x4000 [9]) = none ∧ (opened.virtWrite (some ⟨0, 0⟩) 0 0x4000 [9]).isSome = true ∧
      ((mailed (sys idle) 6 1 0 0x4000).releaseLines ⟨0, 0⟩ 3 0xFF).2 = true ∧
      ((mailed ((sys idle).setCore ⟨0, 0⟩ { mapped with l1 := [{ cached with dirty := 1, colours := 1 }] }) 6 1 0 0x4000).releaseLines ⟨0, 0⟩ 3 0xFF).2 = false) ∧
    ((mailed (sys idle) 1 0 1 0).chip.wf = true ∧ (8 ≤ 8 && 8 + 16 ≤ 0x18) = true ∧ (0x40 ≤ 0x7FF0 && 0x7FF0 + 16 ≤ 0x40 + 32704) = true ∧
      ((8 ≤ 0 && 0 + 8 ≤ 0x18) || (0x40 ≤ 0 && 0 + 8 ≤ 0x40 + 32704)) = false) := by decide +kernel

/-! Checks of R82: one ill-formed term for each, with the operand position that it gives. -/

def positionOf (i : Instr) (w : Fields) : Option Nat := i.form.bind (·.badPosition w)

theorem smoke_wellFormed : (Instr.iadd w2).WellFormed = true ∧ positionOf (.iadd w2) w2 = none := by decide +kernel
theorem smoke_unusedDestination : (let w := { w1 with g := true, e := true, imm := 0 }
    positionOf (.trap w) w = some 0 ∧ (Instr.trap w).WellFormed = false) := by decide +kernel
theorem smoke_unusedOperands : positionOf (.iabs w2) w2 = some 2 ∧ positionOf (.iadd w3) w3 = some 3 ∧
    (let w : Fields := { a := v 4 }
     positionOf (.nop w) w = some 1) := by decide +kernel
theorem smoke_unusedFields : (∀ w ∈ [{ w2 with imm := 1 }, { w2 with mod := 1 }, { w2 with ty := 14 }], positionOf (.iadd w) w = some 0xFF) ∧
    (let w : Fields := { ty := 1 }
     positionOf (.nop w) w = some 0xFF) := by decide +kernel
theorem smoke_unguarded : (let w : Fields := { g := true, e := true, grd := 1 }
    positionOf (.halt w) w = some 0xFF) := by decide +kernel
theorem smoke_type : (let w := { w2 with ty := 4 }
    positionOf (.iadd w) w = some 0xFF) ∧
    (let w : Fields := { dnum := 2, dfile := .k, imm := 1, ty := 3 }
     positionOf (.ldi w) w = some 0xFF) := by decide +kernel
theorem smoke_fields : (let w := { w1 with imm := 0x2001 }
    positionOf (.bfx w) w = some 0xFF) ∧ (let w : Fields := { g := true, imm := 7 }
    positionOf (.vgrow w) w = some 0xFF) := by decide +kernel
theorem smoke_file : (let w := { w2 with dfile := .k }
    positionOf (.iadd w) w = some 0) ∧ (let w := { w2 with b := kr 5 }
    positionOf (.iadd w) w = some 2) := by decide +kernel
theorem smoke_latch : (let w := { w2 with a := { num := 4, latch := true } }
    positionOf (.iadd w) w = some 1) := by decide +kernel
theorem smoke_pattern : (let w := { w2 with b := { num := 4, pat := 4, parm := 6 } }
    positionOf (.iadd w) w = some 2) ∧ (let w := { w2 with g := true, dfile := .s, b := { num := 4, pat := 1 } }
    positionOf (.iadd w) w = some 2) := by decide +kernel
theorem smoke_negation : (let w := { w2 with b := { num := 4, neg := true } }
    positionOf (.iadd w) w = some 2) := by decide +kernel
theorem smoke_noResult : positionOf (.iadd { w2 with n := true }) { w2 with n := true } = some 0 ∧ (let w := { w1 with a := pr 2, n := true, dnum := 0, ty := 1 }
    positionOf (.ld w) w = some 0) := by decide +kernel
theorem smoke_group : (let w : Fields := { dnum := 4, dfile := .s, ty := 3 }
    positionOf (.rdclk w) w = some 0xFF) := by decide +kernel
theorem smoke_ending : (let w : Fields := { g := true }
    positionOf (.halt w) w = some 0xFF) := by decide +kernel
theorem smoke_event : positionOf .powerOn {} = none ∧ Instr.isEvent .powerOn = true := by decide +kernel

/-! One step of one instruction, on values worked out from its rule. -/

/-- What a lane of a register holds after an instruction. -/
def laneAfter (i : Instr) (s : State) (r lane : Nat) : Option Nat :=
  match exec i s with
  | .next t => some (t.g.readV r lane).toNat
  | _ => none
def uniformAfter (i : Instr) (s : State) (r : Nat) : Option Nat :=
  match exec i s with
  | .next t => some (rd 0 t.g.s r).toNat
  | _ => none
/-- Two operands in lane 3. -/
def with2 (x y : BitVec 32) : State := on ((grp.writeV 4 3 x).writeV 5 3 y)

/-- R104: the sum is kept modulo 2^32. -/
theorem test_iadd_wraps : laneAfter (.iadd w2) (with2 0xFFFFFFFF 2) 3 3 = some 1 := by decide +kernel

/-- R104: the difference is kept modulo 2^32. -/
theorem test_isub_wraps : laneAfter (.isub w2) (with2 0 1) 3 3 = some 0xFFFFFFFF := by decide +kernel

/-- R104, R62: TYPE 0 compares signed numbers, TYPE 1 unsigned ones. -/
theorem test_imax_signed : laneAfter (.imax w2) (with2 0xFFFFFFFF 2) 3 3 = some 2 ∧ laneAfter (.imax { w2 with ty := 1 }) (with2 0xFFFFFFFF 2) 3 3 = some 0xFFFFFFFF := by decide +kernel

/-- R13: an inactive lane keeps its register. -/
theorem test_inactiveLane : laneAfter (.iadd w2) (on { (grp.writeV 3 3 9) with active := 1 }) 3 3 = some 9 := by decide +kernel

/-- R104: the sign bit fills. -/
theorem test_sar : laneAfter (.sar w2) (with2 0x80000000 4) 3 3 = some 0xF8000000 := by decide +kernel

/-- R104: bits leave at the left and enter at the right. -/
theorem test_rotl : laneAfter (.rotl { w2 with ty := 12 }) (with2 0x80000001 4) 3 3 = some 0x18 := by decide +kernel

/-- R104: no 1 bit gives the width. -/
theorem test_clz_zero : laneAfter (.clz { w1 with ty := 12 }) (with2 0 0) 3 3 = some 32 := by decide +kernel

/-- R41: 1 + 2^-24 is a tie, and goes to the even number. -/
theorem test_fadd : laneAfter (.fadd { w2 with ty := 4 }) (with2 0x3F800000 0x33800000) 3 3 = some 0x3F800000 := by decide +kernel

/-- R107: 1.5 - 2 = -0.5. -/
theorem test_fadd_signs : laneAfter (.fadd { w2 with ty := 4 }) (with2 0x3FC00000 0xC0000000) 3 3 = some 0xBF000000 := by decide +kernel

/-- R40, R41: a finite number divided by zero gives infinity. -/
theorem test_fdiv_byZero : laneAfter (.fdiv { w2 with ty := 4 }) (with2 0xBF800000 0) 3 3 = some 0xFF800000 := by decide +kernel

/-- R104: IMM is sign-extended. -/
theorem test_ldi : laneAfter (.ldi { dnum := 3, imm := 0x8000 }) st 3 3 = some 0xFFFF8000 := by decide +kernel

/-- R119: the number of 1 bits of 0xF1. -/
theorem test_kpop : uniformAfter (.kpop { g := true, dnum := 1, dfile := .s, a := kr 2, ty := 12 }) (on { grp with k := wr grp.k 2 0xF1 }) 1 = some 5 := by decide +kernel

/-- R313, R344: a trap goes to the trap vector at depth 1. -/
theorem test_trap : (match exec (.trap { g := true, e := true, imm := 42 }) { sys grp with g := trapping 0 } with | .next t => decide (t.g.pc = 0x2000 ∧ t.g.depth = 1) | _ => false) = true := by decide +kernel

end Sys2Proof.Tests
end

section
/-! LEMMAS. A pattern and the value it decodes to (R39, R43), the order of two values (R111), and from them `fmin`, `fmax` and `fcmp`
(R109, R111). The order compares values, and the results are patterns: the two meet because a value of a format is written in one
way only. -/
namespace Sys2Proof.Machine
open Sys2Proof

/-! Decoding and flushing. -/

/-- The pattern of a value in a format: what `FFmt.decode` reads as that value (`FFmt.pattern_decode`). -/
def FVal.pattern (f : FFmt) : FVal → Nat
  | .nan s _ fr => f.infBits s + fr
  | .inf s => f.infBits s
  | .fin s m e => f.signBit s + (e - (f.emin - f.frac)).toNat * 2 ^ f.frac + m

/-- R39: a finite value of the format has F+1 bits of significand, and fewer only at the smallest exponent; a NaN has F bits of
fraction. -/
def FVal.Written (f : FFmt) : FVal → Prop
  | .fin _ m e => f.emin - f.frac ≤ e ∧ m < 2 ^ (f.frac + 1) ∧ (f.emin - f.frac < e → 2 ^ f.frac ≤ m)
  | .nan _ _ fr => fr < 2 ^ f.frac
  | .inf _ => True

theorem FFmt.infBits_eq {f : FFmt} (hf : f ≠ .e4m3) (s : Bool) : f.infBits s = f.signBit s + (2 ^ f.exp - 1) * 2 ^ f.frac := by
  simp [FFmt.infBits, hf]

theorem bitsAt_lt (lo n x : Nat) : bitsAt lo n x < 2 ^ n := Nat.mod_lt _ (Nat.two_pow_pos n)

/-- R39: sign, exponent and fraction make up the pattern. -/
theorem FFmt.fields_eq {f : FFmt} {x : Nat} (hx : x < 2 ^ f.bits) :
    f.signBit (x.testBit (f.bits - 1)) + bitsAt f.frac f.exp x * 2 ^ f.frac + bitsAt 0 f.frac x = x := by
  have hbits : f.bits = f.frac + f.exp + 1 := by cases f <;> rfl
  have hlow : x % 2 ^ (f.frac + f.exp) = bitsAt 0 f.frac x + bitsAt f.frac f.exp x * 2 ^ f.frac := by
    rw [Nat.pow_add, Nat.mod_mul, bitsAt, bitsAt, Nat.shiftRight_zero, Nat.shiftRight_eq_div_pow, Nat.mul_comm (2 ^ f.frac)]
  have hdiv := Nat.div_add_mod x (2 ^ (f.frac + f.exp))
  have htop : x / 2 ^ (f.frac + f.exp) < 2 := Nat.div_lt_of_lt_mul (by rwa [hbits, Nat.pow_succ] at hx)
  rw [hbits, Nat.add_sub_cancel, FFmt.signBit, Nat.testBit_eq_decide_div_mod_eq, hbits, Nat.add_sub_cancel]
  rcases Nat.le_one_iff_eq_zero_or_eq_one.mp (Nat.lt_succ_iff.mp htop) with hq | hq
  · rw [hq] at hdiv ⊢
    simp only [Nat.zero_mod, Nat.zero_ne_one, decide_false, Bool.false_eq_true, ↓reduceIte]
    omega
  · rw [hq] at hdiv ⊢
    simp only [Nat.one_mod, decide_true, ↓reduceIte]
    omega

theorem FFmt.decode_eq {f : FFmt} (hf : f ≠ .e4m3) (x : Nat) :
    f.decode x =
      if bitsAt f.frac f.exp x = 2 ^ f.exp - 1 then
        if bitsAt 0 f.frac x = 0 then .inf (x.testBit (f.bits - 1))
        else .nan (x.testBit (f.bits - 1)) (!(bitsAt 0 f.frac x).testBit (f.frac - 1)) (bitsAt 0 f.frac x)
      else if bitsAt f.frac f.exp x = 0 then .fin (x.testBit (f.bits - 1)) (bitsAt 0 f.frac x) (f.emin - f.frac)
      else .fin (x.testBit (f.bits - 1)) (2 ^ f.frac + bitsAt 0 f.frac x) (f.emin - f.frac + (bitsAt f.frac f.exp x - 1 : Nat)) := by
  simp [FFmt.decode, hf]

theorem FFmt.sign_decode {f : FFmt} (hf : f ≠ .e4m3) (x : Nat) : (f.decode x).sign = x.testBit (f.bits - 1) := by
  rw [FFmt.decode_eq hf]
  split
  · split <;> rfl
  · split <;> rfl

theorem FFmt.pattern_decode {f : FFmt} (hf : f ≠ .e4m3) {x : Nat} (hx : x < 2 ^ f.bits) : (f.decode x).pattern f = x := by
  have hsum := FFmt.fields_eq hx
  rw [FFmt.decode_eq hf]
  split
  · next hex =>
    rw [hex] at hsum
    split <;> simp only [FVal.pattern, FFmt.infBits_eq hf] <;> omega
  · split
    · next hex => simpa [FVal.pattern, hex] using hsum
    · next hex =>
      obtain ⟨k, hk⟩ := Nat.exists_eq_succ_of_ne_zero hex
      simp only [hk, Nat.succ_mul] at hsum
      simp only [FVal.pattern, hk]
      rw [Int.add_comm, Int.add_sub_cancel, Int.toNat_natCast, Nat.succ_sub_one]
      omega

theorem FFmt.written_decode {f : FFmt} (hf : f ≠ .e4m3) (x : Nat) : (f.decode x).Written f := by
  have hfr := bitsAt_lt 0 f.frac x
  rw [FFmt.decode_eq hf]
  split
  · split
    · trivial
    · exact hfr
  · split <;> simp only [FVal.Written, Nat.pow_succ] <;> omega

/-- R43: flushing changes the operands of exponent field 0. -/
theorem FFmt.read_eq {f : FFmt} (hf : f ≠ .e4m3) (c : FCtx) (x : Nat) :
    f.read c x = if c.flushes f = true ∧ bitsAt f.frac f.exp x = 0 then .fin (x.testBit (f.bits - 1)) 0 (f.emin - f.frac)
      else f.decode x := by
  have hfr := bitsAt_lt 0 f.frac x
  have hexp : 2 ^ f.exp - 1 ≠ 0 := by cases f <;> decide
  unfold FFmt.read
  rw [FFmt.decode_eq hf]
  by_cases h0 : bitsAt f.frac f.exp x = 0
  · simp [h0, hexp.symm, hfr]
  · by_cases hmax : bitsAt f.frac f.exp x = 2 ^ f.exp - 1
    · by_cases hfr0 : bitsAt 0 f.frac x = 0 <;> simp [hmax, hfr0, hexp]
    · have hm : ¬2 ^ f.frac + bitsAt 0 f.frac x < 2 ^ f.frac := Nat.not_lt.mpr (Nat.le_add_right ..)
      simp only [hmax, h0, hm, and_false, if_false]

theorem FFmt.read_cases (f : FFmt) (c : FCtx) (x : Nat) :
    f.read c x = f.decode x ∨ ∃ s m e, f.decode x = .fin s m e ∧ f.read c x = .fin s 0 e := by
  unfold FFmt.read
  cases f.decode x with
  | nan | inf => exact .inl rfl
  | fin s m e =>
    by_cases h : c.flushes f = true ∧ m < 2 ^ f.frac
    · exact .inr ⟨s, m, e, rfl, if_pos h⟩
    · exact .inl (if_neg h)

@[simp] theorem FFmt.isNan_read (f : FFmt) (c : FCtx) (x : Nat) : (f.read c x).isNan = (f.decode x).isNan := by
  obtain h | ⟨s, m, e, hdec, hread⟩ := f.read_cases c x
  · rw [h]
  · rw [hdec, hread]; rfl

@[simp] theorem FFmt.isSnan_read (f : FFmt) (c : FCtx) (x : Nat) : (f.read c x).isSnan = (f.decode x).isSnan := by
  obtain h | ⟨s, m, e, hdec, hread⟩ := f.read_cases c x
  · rw [h]
  · rw [hdec, hread]; rfl

theorem FFmt.sign_read {f : FFmt} (hf : f ≠ .e4m3) (c : FCtx) (x : Nat) : (f.read c x).sign = x.testBit (f.bits - 1) := by
  rw [FFmt.read_eq hf]
  split
  · rfl
  · exact FFmt.sign_decode hf x

theorem FFmt.written_read {f : FFmt} (hf : f ≠ .e4m3) (c : FCtx) (x : Nat) : (f.read c x).Written f := by
  rw [FFmt.read_eq hf]
  split
  · exact ⟨Int.le_refl _, Nat.two_pow_pos _, fun h => absurd h (Int.lt_irrefl _)⟩
  · exact FFmt.written_decode hf x

theorem FVal.pattern_of_isZero {f : FFmt} {v : FVal} (hw : v.Written f) (hz : v.isZero = true) : v.pattern f = f.signBit v.sign := by
  match v, hz with
  | .fin s 0 e, _ =>
    obtain ⟨hlo, -, hhi⟩ := hw
    have := Nat.two_pow_pos f.frac
    have he : e = f.emin - f.frac := by omega
    simp [FVal.pattern, FVal.sign, he]

/-- R43: an operand after flushing. -/
theorem FFmt.flushed_eq {f : FFmt} (hf : f ≠ .e4m3) (c : FCtx) {x : Nat} (hx : x < 2 ^ f.bits) :
    f.flushed c x =
      if c.flushes f = true ∧ bitsAt f.frac f.exp x = 0 then f.signBit (x.testBit (f.bits - 1)) else x := by
  unfold FFmt.flushed
  rw [FFmt.read_eq hf]
  split
  · rfl
  · split
    · next hz =>
      rw [← FFmt.sign_decode hf, ← FVal.pattern_of_isZero (FFmt.written_decode hf x) hz, FFmt.pattern_decode hf hx]
    · rfl

/-- What is left of an operand after flushing is the pattern of its value. -/
theorem FFmt.pattern_read {f : FFmt} (hf : f ≠ .e4m3) (c : FCtx) {x : Nat} (hx : x < 2 ^ f.bits) :
    (f.read c x).pattern f = f.flushed c x := by
  rw [FFmt.flushed_eq hf c hx, FFmt.read_eq hf]
  split
  · simp [FVal.pattern]
  · exact FFmt.pattern_decode hf hx

/-! The order of values. -/

theorem FVal.lt_asymm {x y : FVal} (h : x.lt y = true) : y.lt x = false := by
  cases x with
  | nan => cases y <;> simp_all [FVal.lt]
  | inf s => cases y <;> cases s <;> simp_all [FVal.lt]
  | fin s m e =>
    cases y with
    | nan => simp [FVal.lt] at h
    | inf s' => simp_all [FVal.lt]
    | fin s' m' e' =>
      simp only [FVal.lt, decide_eq_true_eq, decide_eq_false_iff_not, Int.min_comm e' e] at h ⊢
      omega

/-- A value is written in one way: of two equal ones the larger exponent would be above the smallest, so its significand is full,
and shifted it no longer fits. -/
theorem shiftLeft_inj_of_written {f : FFmt} {s s' : Bool} {m m' : Nat} {e e' : Int} (h : (FVal.fin s m e).Written f)
    (h' : (FVal.fin s' m' e').Written f) (hle : e ≤ e') (heq : m = m' <<< (e' - e).toNat) : m = m' ∧ e = e' := by
  obtain ⟨hlo, hm, -⟩ := h
  obtain ⟨-, -, hnorm⟩ := h'
  rcases Int.lt_or_eq_of_le hle with hlt | rfl
  · have hm' := hnorm (by omega)
    obtain ⟨k, hk⟩ : ∃ k, (e' - e).toNat = k + 1 := ⟨(e' - e).toNat - 1, by omega⟩
    have : 2 ^ f.frac * 2 ≤ m' * 2 ^ (k + 1) :=
      Nat.mul_le_mul hm' (by rw [Nat.pow_succ]; have := Nat.two_pow_pos k; omega)
    rw [hk, Nat.shiftLeft_eq] at heq
    rw [Nat.pow_succ] at hm
    omega
  · exact ⟨by simpa using heq, rfl⟩

theorem scaledTo_inj_of_sign {lo : Int} {s : Bool} {m m' : Nat} {e e' : Int} (h : scaledTo lo s m e = scaledTo lo s m' e') :
    m <<< (e - lo).toNat = m' <<< (e' - lo).toNat := by
  cases s
  · exact Int.ofNat_inj.mp h
  · exact Int.ofNat_inj.mp (Int.neg_inj.mp h)

/-- Two values of a format of which neither is less, and of one sign, are the same. -/
theorem FVal.eq_of_not_lt {f : FFmt} {x y : FVal} (hx : x.Written f) (hy : y.Written f) (hxn : x.isNan = false) (hyn : y.isNan = false)
    (hlt : x.lt y = false) (hgt : y.lt x = false) (hs : x.sign = y.sign) : x = y := by
  match x, y with
  | .nan .., _ => simp [FVal.isNan] at hxn
  | _, .nan .. => simp [FVal.isNan] at hyn
  | .inf s, .inf s' => exact congrArg FVal.inf hs
  | .inf s, .fin .. => cases s <;> simp [FVal.lt] at hlt hgt
  | .fin .., .inf s => cases s <;> simp [FVal.lt] at hlt hgt
  | .fin s m e, .fin s' m' e' =>
    obtain rfl : s = s' := hs
    simp only [FVal.lt, decide_eq_false_iff_not, Int.min_comm e' e] at hlt hgt
    have heq := scaledTo_inj_of_sign (by omega : scaledTo (min e e') s m e = scaledTo (min e e') s m' e')
    rcases Int.le_total e e' with hle | hle
    · obtain ⟨rfl, rfl⟩ := shiftLeft_inj_of_written hx hy hle (by simpa [Int.min_eq_left hle] using heq)
      rfl
    · obtain ⟨rfl, rfl⟩ := shiftLeft_inj_of_written hy hx hle (by simpa [Int.min_eq_right hle] using heq.symm)
      rfl

/-! `fmin` and `fmax`. -/

theorem fMinMax_snd (f : FFmt) (c : FCtx) (mx : Bool) (a b : Nat) :
    (fMinMax f c mx a b).2 = if (f.decode a).isSnan || (f.decode b).isSnan then flagNV else 0 := by
  unfold fMinMax
  simp only [FFmt.isSnan_read]
  split
  · rfl
  · split
    · rfl
    · split <;> rfl

/-- R109: a single NaN is passed over. -/
theorem fMinMax_fst_of_nan_left {f : FFmt} (c : FCtx) (mx : Bool) {a b : Nat} (ha : (f.decode a).isNan = true)
    (hb : (f.decode b).isNan = false) : (fMinMax f c mx a b).1 = f.flushed c b := by
  simp [fMinMax, ha, hb]

theorem fMinMax_fst_of_nan_right {f : FFmt} (c : FCtx) (mx : Bool) {a b : Nat} (ha : (f.decode a).isNan = false)
    (hb : (f.decode b).isNan = true) : (fMinMax f c mx a b).1 = f.flushed c a := by
  simp [fMinMax, ha, hb]

theorem FFmt.nanResult_cons_nan {f : FFmt} (hf : f ≠ .e4m3) (c : FCtx) (s q : Bool) (fr : Nat) (l : List (FFmt × FVal)) :
    f.nanResult c ((f, .nan s q fr) :: l) = if c.nanp then f.infBits s + (fr ||| f.quiet) else f.canonical := by
  unfold FFmt.nanResult
  cases c.nanp <;> simp [hf]

/-- The bits of a NaN above its fraction are those of an infinity, so a fraction bit may be set in the whole pattern. -/
theorem FFmt.infBits_add_or {f : FFmt} (hf : f ≠ .e4m3) (s : Bool) {fr k : Nat} (hfr : fr < 2 ^ f.frac) (hk : k < 2 ^ f.frac) :
    f.infBits s + (fr ||| k) = (f.infBits s + fr) ||| k := by
  have hdvd : 2 ^ f.frac ∣ f.infBits s := by
    rw [FFmt.infBits_eq hf, FFmt.signBit]
    refine Nat.dvd_add ?_ (Nat.dvd_mul_left ..)
    split
    · exact Nat.pow_dvd_pow 2 (by cases f <;> decide)
    · exact Nat.dvd_zero _
  obtain ⟨n, hn⟩ := hdvd
  rw [hn, Nat.two_pow_add_eq_or_of_lt (Nat.or_lt_two_pow hfr hk), Nat.two_pow_add_eq_or_of_lt hfr, Nat.or_assoc]

/-- R45: a NaN quietened is its pattern with the quiet bit. -/
theorem fMinMax_fst_of_nans {f : FFmt} (hf : f ≠ .e4m3) (c : FCtx) (mx : Bool) {a b : Nat} (hlt : a < 2 ^ f.bits)
    (ha : (f.decode a).isNan = true) (hb : (f.decode b).isNan = true) :
    (fMinMax f c mx a b).1 = if c.nanp then a ||| 2 ^ (f.frac - 1) else f.canonical := by
  have hres : (fMinMax f c mx a b).1 = f.nanResult c [(f, f.read c a), (f, f.read c b)] := by
    simp [fMinMax, ha, hb]
  have hw := FFmt.written_read hf c a
  have hpat := FFmt.pattern_read hf c hlt
  rw [← FFmt.isNan_read f c] at ha
  rw [hres]
  unfold FFmt.flushed at hpat
  cases hx : f.read c a with
  | nan s q fr =>
    rw [hx] at hw hpat
    have hpat : f.infBits s + fr = a := hpat
    have hquiet : f.quiet < 2 ^ f.frac := by cases f <;> decide
    rw [FFmt.nanResult_cons_nan hf, FFmt.infBits_add_or hf s hw hquiet, hpat, FFmt.quiet]
  | inf s => simp [hx, FVal.isNan] at ha
  | fin s m e => simp [hx, FVal.isNan] at ha

/-- The order of R109: that of values, and −0 before +0. -/
def FVal.precedes (x y : FVal) : Bool := x.lt y || (!y.lt x && x.sign && !y.sign)

theorem fMinMax_fst_of_numbers {f : FFmt} (c : FCtx) (mx : Bool) {a b : Nat} (ha : (f.decode a).isNan = false)
    (hb : (f.decode b).isNan = false) :
    (fMinMax f c mx a b).1 = if (f.read c a).precedes (f.read c b) != mx then f.flushed c a else f.flushed c b := by
  simp [fMinMax, ha, hb, FVal.precedes]

/-! `fcmp`. -/

/-- R111: the conditions between two numbers, 0 eq, 1 ne, 2 lt, 3 le, 4 gt, 5 ge, 6 unordered and 7 ordered. -/
theorem fCmp_fst_of_numbers {f : FFmt} (c : FCtx) {a b : Nat} (ha : (f.decode a).isNan = false) (hb : (f.decode b).isNan = false) :
    (fCmp f c 0 a b).1 = (!(f.read c a).lt (f.read c b) && !(f.read c b).lt (f.read c a)) ∧
    (fCmp f c 1 a b).1 = ((f.read c a).lt (f.read c b) || (f.read c b).lt (f.read c a)) ∧
    (fCmp f c 2 a b).1 = (f.read c a).lt (f.read c b) ∧ (fCmp f c 3 a b).1 = !(f.read c b).lt (f.read c a) ∧
    (fCmp f c 4 a b).1 = (f.read c b).lt (f.read c a) ∧ (fCmp f c 5 a b).1 = !(f.read c a).lt (f.read c b) ∧
    (fCmp f c 6 a b).1 = false ∧ (fCmp f c 7 a b).1 = true := by
  simp [fCmp, ha, hb]

theorem fCmp_fst_of_nan {f : FFmt} (c : FCtx) {a b : Nat} (h : (f.decode a).isNan = true ∨ (f.decode b).isNan = true) :
    (fCmp f c 1 a b).1 = true ∧ (fCmp f c 6 a b).1 = true ∧ (fCmp f c 0 a b).1 = false ∧ (fCmp f c 2 a b).1 = false ∧
    (fCmp f c 3 a b).1 = false ∧ (fCmp f c 4 a b).1 = false ∧ (fCmp f c 5 a b).1 = false ∧ (fCmp f c 7 a b).1 = false := by
  have hun : ((f.decode a).isNan || (f.decode b).isNan) = true := by simpa using h
  simp [fCmp, hun]

/-- R111: of two values exactly one of less, equal and greater holds. -/
theorem FVal.lt_cases (x y : FVal) :
    (x.lt y = true ∧ y.lt x = false) ∨ (x.lt y = false ∧ y.lt x = false) ∨ (x.lt y = false ∧ y.lt x = true) := by
  cases h : x.lt y
  · cases y.lt x <;> simp
  · simp [FVal.lt_asymm h]

/-- R109: of two numbers of which neither is less and of one sign, `fmin` and `fmax` return the same pattern. -/
theorem FFmt.flushed_eq_of_not_lt {f : FFmt} (hf : f ≠ .e4m3) (c : FCtx) {a b : Nat} (ha : a < 2 ^ f.bits) (hb : b < 2 ^ f.bits)
    (hna : (f.decode a).isNan = false) (hnb : (f.decode b).isNan = false) (hlt : (f.read c a).lt (f.read c b) = false)
    (hgt : (f.read c b).lt (f.read c a) = false) (hs : a.testBit (f.bits - 1) = b.testBit (f.bits - 1)) :
    f.flushed c a = f.flushed c b := by
  have hval : f.read c a = f.read c b :=
    FVal.eq_of_not_lt (FFmt.written_read hf c a) (FFmt.written_read hf c b) (by rwa [FFmt.isNan_read]) (by rwa [FFmt.isNan_read])
      hlt hgt (by rwa [FFmt.sign_read hf, FFmt.sign_read hf])
  rw [← FFmt.pattern_read hf c ha, hval, FFmt.pattern_read hf c hb]

/-! Zeros. -/

theorem FFmt.read_signBit (f : FFmt) (c : FCtx) (s : Bool) : f.read c (f.signBit s) = .fin s 0 (f.emin - f.frac) := by
  have h : f.decode (f.signBit s) = .fin s 0 (f.emin - f.frac) := by cases f <;> cases s <;> decide
  simp [FFmt.read, h]

theorem FFmt.flushed_signBit (f : FFmt) (c : FCtx) (s : Bool) : f.flushed c (f.signBit s) = f.signBit s := by
  have h : (f.signBit s).testBit (f.bits - 1) = s := by cases f <;> cases s <;> decide
  rw [FFmt.flushed, h, ite_self]

/-- R109: −0 is below +0. -/
theorem fMinMax_fst_signBit (f : FFmt) (c : FCtx) (mx : Bool) :
    (fMinMax f c mx (f.signBit true) (f.signBit false)).1 = f.signBit (!mx) := by
  have hnum (s : Bool) : (f.decode (f.signBit s)).isNan = false := by
    rw [← FFmt.isNan_read f c, FFmt.read_signBit]; rfl
  have hpre : (f.read c (f.signBit true)).precedes (f.read c (f.signBit false)) = true := by
    simp [FFmt.read_signBit, FVal.precedes, FVal.lt, FVal.sign, scaledTo]
  rw [fMinMax_fst_of_numbers c mx (hnum true) (hnum false), hpre, FFmt.flushed_signBit, FFmt.flushed_signBit]
  cases mx <;> rfl

/-- Settles O14: the order of two operands and their signs decide which of them `fmin` and `fmax` return, and two of one sign of which
neither is less are one pattern. -/
theorem minMaxAndOrder : Obligations.MinMaxAndOrder := by
  unfold Obligations.MinMaxAndOrder
  intro f c a b hf ha hb nan negative v least greatest r
  have hv {x : Nat} (hx : x < 2 ^ f.bits) : v x = f.flushed c x := by
    simp only [FFmt.flushed_eq hf c hx, bitsAt, Nat.shiftRight_eq_div_pow, v, negative]
  rw [hv ha, hv hb]
  refine ⟨fun mx => fMinMax_snd f c mx a b,
    fun hna hnb => ⟨fMinMax_fst_of_nan_right c false hna hnb, fMinMax_fst_of_nan_right c true hna hnb⟩,
    fun hna hnb => ⟨fMinMax_fst_of_nan_left c false hna hnb, fMinMax_fst_of_nan_left c true hna hnb⟩,
    fun hna hnb mx => fMinMax_fst_of_nans hf c mx ha hna hnb, fun hna hnb => ?_, fCmp_fst_of_nan c,
    fMinMax_fst_signBit f c false, fMinMax_fst_signBit f c true⟩
  obtain ⟨heq, hne, hlt, hle, hgt, hge, hun, hord⟩ := fCmp_fst_of_numbers c hna hnb
  have hsame := FFmt.flushed_eq_of_not_lt hf c ha hb hna hnb
  simp only [r, least, greatest, negative, heq, hne, hlt, hle, hgt, hge, hun, hord, fMinMax_fst_of_numbers c _ hna hnb, FVal.precedes,
    FFmt.sign_read hf]
  rcases FVal.lt_cases (f.read c a) (f.read c b) with ⟨h, h'⟩ | ⟨h, h'⟩ | ⟨h, h'⟩
  · simp [h, h']
  · refine ⟨by simp [h], by simp [h'], fun _ hs => ?_, fun _ hsa hsb => by simp [h, h', hsa, hsb],
      fun _ hsa hsb => by simp [h, h', hsa, hsb], by simp [h, h']⟩
    simp [hsame h h' hs]
  · simp [h, h']

end Sys2Proof.Machine
end

section
/-! LEMMAS. The return from the handler (R315), and what a fault in it leaves: whichever row of R313 delivers a fault of a group that no
other fault waits for, none waits after it, so that the run boundary at the end of `hret` and `hretr` does nothing more. -/
namespace Sys2Proof.Machine
open Sys2Proof Sys2Proof.Safety

/-! Operations that leave the issuing group alone. -/

theorem foldl_keeps_g {α : Type} {f : State → α → State} (hf : ∀ s a, (f s a).g = s.g) (l : List α) (s : State) : (l.foldl f s).g = s.g :=
  List.foldlRecOn (motive := fun t => t.g = s.g) l f rfl fun t ht a _ => (hf t a).trans ht

@[simp] theorem State.writeLine_g (s : State) (line : Nat) (d : LineData) (mask : ByteMask) : (s.writeLine line d mask).g = s.g := rfl

@[simp] theorem State.recallHost_g (line : Nat) (s : State) : (s.recallHost line).g = s.g := by
  unfold State.recallHost
  split <;> rfl

@[simp] theorem State.physWrite_g : ∀ (bs : List Byte) (s : State) (a : Nat), (s.physWrite a bs).g = s.g
  | [], _, _ => rfl
  | b :: bs, s, a => by
    rw [State.physWrite, State.physWrite_g bs, State.writeLine_g, State.recallHost_g]

theorem State.virtWrite_g {s t : State} {core : Option CoreId} {part va : Nat} {bs : List Byte} (h : s.virtWrite core part va bs = some t) :
    t.g = s.g := by
  unfold State.virtWrite at h
  split at h
  · cases h
  · next as _ =>
    have hg := foldl_keeps_g (fun s (x : Nat × Byte) => State.physWrite_g [x.2] s x.1) (as.zip bs) s
    split at h
    all_goals
      cases h
      exact hg

@[simp] theorem State.imageWrite_g (s : State) (g : Group) (off : Nat) (bs : List Byte) : (s.imageWrite g off bs).1.g = s.g := by
  unfold State.imageWrite
  split
  · rfl
  · split
    · next h => exact State.virtWrite_g h
    · rfl

/-- A debug monitor has no image, so that none of its writes fails (R321). -/
theorem State.not_monitor_of_imageWrite {s t : State} {g : Group} {off : Nat} {bs : List Byte} (h : s.imageWrite g off bs = (t, false)) :
    g.id.monitor = false := by
  cases hm : g.id.monitor
  · rfl
  · simp [State.imageWrite, hm] at h

theorem State.g_of_imageWrite {s t : State} {g : Group} {off : Nat} {bs : List Byte} {ok : Bool} (h : s.imageWrite g off bs = (t, ok)) :
    t.g = s.g := by
  rw [← s.imageWrite_g g off bs, h]

@[simp] theorem State.freeName_g (s : State) (g : Group) : (s.freeName g).g = s.g := by
  unfold State.freeName
  split
  · rfl
  · split <;> rfl

@[simp] theorem State.retireTag_g (e : Entry) (s : State) : (s.retireTag e).g = s.g := by
  unfold State.retireTag
  dsimp only
  split <;> rfl

@[simp] theorem State.abortCollective_g (s : State) (x : Nat × BitVec 64) : (s.abortCollective x).g = s.g := by
  unfold State.abortCollective
  split <;> rfl

@[simp] theorem State.killGroup_g (rec : Option FaultRec) (s : State) (g : Group) : (State.killGroup rec s g).g = s.g := by
  have hretire (s : State) (e : Entry) : (if e.done then s else s.retireTag e).g = s.g := by
    split
    · rfl
    · exact s.retireTag_g e
  unfold State.killGroup
  rw [State.freeName_g, foldl_keeps_g hretire]
  cases rec
  · exact State.imageWrite_g ..
  · exact (State.imageWrite_g ..).trans (State.imageWrite_g ..)

/-- R337: a kill takes the issuing group when it is of the cluster, and else leaves it as it was. -/
theorem State.killCluster_g (launch cluster reason : Nat) (rec : Group → Option FaultRec) (s : State) :
    (s.killCluster launch cluster reason rec).g = if s.g.inCluster launch cluster then .blank else s.g := by
  unfold State.killCluster
  extract_lets mine ctxs stopped dropped freed grid cluster_ part queue idem relaunches reported again killed ended
  have hstopped : stopped.g = s.g :=
    (foldl_keeps_g State.abortCollective_g _ _).trans (foldl_keeps_g (fun s g => State.killGroup_g (rec g) s g) mine s)
  have hended : ended.g = if s.g.inCluster launch cluster then .blank else s.g := by
    rw [← hstopped]
    rfl
  split
  · exact hended
  · exact hended

/-! No fault waits for the run boundary. -/

/-- The issuing group stands in no run, or no fault waits for its run boundary. -/
def State.Untroubled (s : State) : Prop := s.g.status = .resident → s.g.boundaryFaults = []

theorem State.boundary_of_untroubled {s : State} (h : s.Untroubled) : s.boundary = s := by
  unfold State.boundary
  split
  · rfl
  · next f rest hf =>
    rw [if_neg]
    intro hr
    rw [h hr] at hf
    cases hf

theorem State.untroubled_killCluster {s : State} (h : s.Untroubled) (launch cluster reason : Nat) (rec : Group → Option FaultRec) :
    (s.killCluster launch cluster reason rec).Untroubled := by
  unfold State.Untroubled
  rw [State.killCluster_g]
  split
  · exact fun _ => rfl
  · exact h

theorem State.untroubled_congr {s t : State} (h : s.Untroubled) (hstatus : t.g.status = s.g.status)
    (hfaults : t.g.boundaryFaults = s.g.boundaryFaults) : t.Untroubled := fun hr => hfaults.trans (h (hstatus.symm.trans hr))

theorem State.untroubled_killCtx {s : State} (h : s.Untroubled) (hm : s.g.id.monitor = false) (reason : Nat) :
    (s.killCtx s.g.id.ctx reason).Untroubled := by
  have hself : s.group s.g.id.ctx = s.g := by simp [State.group, State.groups]
  unfold State.killCtx
  rw [hself]
  extract_lets g
  split
  · exact h
  · rw [if_neg (by simp [g, hm])]
    exact State.untroubled_killCluster h _ _ _ _

/-- R321: the cluster is killed after a write of the image that failed. -/
theorem State.untroubled_killCtx_of_imageWrite {s t u : State} {off : Nat} {bs : List Byte} (h : s.Untroubled)
    (hw : t.imageWrite s.g off bs = (u, false)) {v : State} (hg : v.g = s.g) : (v.killCtx s.g.id.ctx 10).Untroubled := by
  rw [← hg] at hw ⊢
  exact State.untroubled_killCtx (State.untroubled_congr h (by rw [hg]) (by rw [hg])) (State.not_monitor_of_imageWrite hw) 10

theorem State.untroubled_quit (s : State) : s.quit.1.Untroubled := fun h => by cases h

theorem State.not_monitor_of_quit {s : State} (h : s.quit.2 = false) : s.g.id.monitor = false :=
  State.not_monitor_of_imageWrite (Prod.ext rfl h)

/-- R313: the record is written, or the image is unreachable. -/
theorem State.recordFault_cases (f : FaultRec) (s : State) :
    (s.recordFault f = none ∧ s.g.id.monitor = false) ∨ ∃ t, s.recordFault f = some t ∧ t.g = { s.g with reported := true } := by
  rcases hw : s.imageWrite s.g 0x40 f.bytes with ⟨t, ok⟩
  cases ok with
  | false => exact .inl ⟨by simp [State.recordFault, hw], State.not_monitor_of_imageWrite hw⟩
  | true =>
    rw [← State.g_of_imageWrite hw]
    unfold State.recordFault
    simp only [hw]
    exact .inr ⟨_, rfl, rfl⟩

/-- A group that ends has ended, or its cluster is killed (R321). -/
theorem State.untroubled_ending {s : State} (h : s.Untroubled) :
    (if s.quit.2 then s.quit.1 else s.killCtx s.g.id.ctx 10).Untroubled := by
  cases hq : s.quit.2
  · exact State.untroubled_killCtx h (State.not_monitor_of_quit hq) 10
  · exact s.untroubled_quit

theorem State.untroubled_endGroup {s : State} (h : s.Untroubled) : s.endGroup.Untroubled := by
  unfold State.endGroup
  split
  · next f rest _ _ =>
    obtain ⟨hnone, hm⟩ | ⟨t, ht, hg⟩ := s.recordFault_cases (s.g.stamp f)
    · rw [hnone]
      exact State.untroubled_killCtx h hm 10
    · rw [ht]
      have hctx : s.g.id.ctx = t.g.id.ctx := by rw [hg]
      rw [hctx]
      exact State.untroubled_ending (State.untroubled_congr h (by rw [hg]) (by rw [hg]))
  · exact State.untroubled_ending h

theorem State.untroubled_faultEnds {s : State} (h : s.Untroubled) (f : FaultRec) : (s.faultEnds f).Untroubled := by
  unfold State.faultEnds
  obtain ⟨hnone, hm⟩ | ⟨t, ht, hg⟩ := s.recordFault_cases f
  · rw [hnone]
    exact State.untroubled_killCtx h hm 10
  · rw [ht]
    exact State.untroubled_endGroup (State.untroubled_congr h (by rw [hg]) (by rw [hg]))

/-- R314: the handler is entered, or the cluster of an unreachable image is killed. -/
theorem State.untroubled_enterHandler {s : State} (h : s.Untroubled) (f : FaultRec) (resume : Nat) : (s.enterHandler f resume).Untroubled := by
  unfold State.enterHandler
  extract_lets g old
  split
  next s1 ok1 h1 =>
  split
  next s2 ok2 h2 =>
  split
  next s3 ok3 h3 =>
  split
  next s4 ok4 h4 =>
  have hg1 : s1.g = s.g := by
    split at h1
    · exact State.g_of_imageWrite h1
    · cases h1
      rfl
  have hg : s4.g = s.g := by
    rw [State.g_of_imageWrite h4, State.g_of_imageWrite h3, State.g_of_imageWrite h2, hg1]
  split
  · exact h
  · next hok =>
    cases ok1
    · split at h1
      · exact State.untroubled_killCtx_of_imageWrite h h1 hg
      · cases h1
    cases ok2
    · exact State.untroubled_killCtx_of_imageWrite h h2 hg
    cases ok3
    · exact State.untroubled_killCtx_of_imageWrite h h3 hg
    cases ok4
    · exact State.untroubled_killCtx_of_imageWrite h h4 hg
    exact absurd rfl hok

/-- Every row of R313. -/
theorem State.untroubled_deliver {s : State} (h : s.Untroubled) (f : FaultRec) (resume : Nat) : (s.deliver f resume).Untroubled := by
  unfold State.deliver
  split
  · exact State.untroubled_killCluster h _ _ _ _
  split
  · exact State.untroubled_killCluster h _ _ _ _
  split
  · exact State.untroubled_faultEnds h f
  split
  · exact State.untroubled_killCluster h _ _ _ _
  · exact State.untroubled_enterHandler h f resume

theorem State.untroubled_illegal {s : State} (h : s.Untroubled) (subcode pos : Nat) (m : Mask) : (s.illegal subcode pos m).Untroubled := by
  have hstopped : State.Untroubled { s with g := s.g.stopRun } := h
  unfold State.illegal State.takeFault
  extract_lets f
  rw [if_neg (by simp)]
  exact State.untroubled_deliver hstopped _ _

/-! The return. -/

/-- R316: the entry word of the handler's depth. -/
def State.handlerEntry (s : State) : Nat := leNat (s.imageRead s.g (0x730 + 16 * s.g.depth) 16)
/-- R316: the region word of the handler's depth. -/
def State.handlerRegion (s : State) : Nat := leNat (s.imageRead s.g (0x750 + 16 * s.g.depth) 16)
/-- R316: fmt in the entry word. -/
def State.handlerFmt (s : State) : BitVec 32 := BitVec.ofNat 32 (s.handlerEntry / 2 ^ 96 % 2 ^ 18)
/-- R316: hs of the depth-1 handler, as the bank keeps it. -/
def State.handlerHs (s : State) : Vector Word64 8 :=
  Vector.ofFn fun i : Fin 8 => BitVec.ofNat 64 (leNat (s.imageRead s.g (0x6C0 + 8 * i.1) 8))

theorem State.rd_handlerHs (s : State) {j : Nat} (hj : j < 8) :
    rd 0 s.handlerHs j = BitVec.ofNat 64 (leNat (s.imageRead s.g (0x6C0 + 8 * j) 8)) := by
  simp [State.handlerHs, rd_ofFn, hj]

/-- R315: the issuing group out of its handler, with `hs` in place of the handler's hs. -/
def State.returned (toRegion : Bool) (hs : Vector Word64 8) (s : State) : Group :=
  let rpc := s.handlerRegion % 2 ^ 52 / 16 * 16
  { jumped (if toRegion then rpc else s.handlerEntry % 2 ^ 52 / 16 * 16) s.g with
      stack := s.g.stack.drop (s.g.stack.length - s.handlerEntry / 2 ^ 114 % 64)
      active := BitVec.ofNat 32 (s.handlerEntry / 2 ^ 64 % 2 ^ 32) &&& s.g.live, fmt := s.handlerFmt
      regionPc := rpc, regionCount := s.handlerRegion / 2 ^ 64 % 2 ^ 32, hs := hs, depth := s.g.depth - 1, heldRecord := none }

/-- R315: at depth 2 the record of the depth-1 fault comes back, and with it hs. -/
theorem State.leaveHandler_eq {s : State} (hd : 0 < s.g.depth) (toRegion : Bool) :
    s.leaveHandler toRegion =
      if !fmtLegal s.handlerFmt then s.illegal 4 0xFF s.g.active
      else
        let r := if s.g.depth = 2 then s.imageWrite s.g 0x40 (s.imageRead s.g 0x700 64) else (s, true)
        if !r.2 then r.1.killCtx s.g.id.ctx 10
        else { r.1 with g := s.returned toRegion (if s.g.depth = 2 then s.handlerHs else s.g.hs) } := by
  have hentry : 0x740 + 16 * (s.g.depth - 1) = 0x730 + 16 * s.g.depth := by omega
  have hregion : 0x760 + 16 * (s.g.depth - 1) = 0x750 + 16 * s.g.depth := by omega
  have hbits (lo n x : Nat) : bitsAt lo n x = x / 2 ^ lo % 2 ^ n := by rw [bitsAt, Nat.shiftRight_eq_div_pow]
  have hlow (n x : Nat) : bitsAt 0 n x = x % 2 ^ n := by rw [hbits, Nat.pow_zero, Nat.div_one]
  simp only [State.leaveHandler, Nat.reduceAdd, hentry, hregion, hlow, hbits]
  rfl

theorem State.leaveHandler_of_reserved {s : State} (hd : 0 < s.g.depth) (hf : fmtLegal s.handlerFmt = false) (toRegion : Bool) :
    s.leaveHandler toRegion = s.illegal 4 0xFF s.g.active := by
  rw [State.leaveHandler_eq hd, if_pos (by simp [hf])]

theorem State.leaveHandler_depth_one {s : State} (hd : s.g.depth = 1) (hf : fmtLegal s.handlerFmt = true) (toRegion : Bool) :
    s.leaveHandler toRegion = { s with g := s.returned toRegion s.g.hs } := by
  rw [State.leaveHandler_eq (by omega), if_neg (by simp [hf])]
  simp [hd]

theorem State.leaveHandler_depth_two {s t : State} (hd : s.g.depth = 2) (hf : fmtLegal s.handlerFmt = true)
    (hw : s.imageWrite s.g 0x40 (s.imageRead s.g 0x700 64) = (t, true)) (toRegion : Bool) :
    s.leaveHandler toRegion = { t with g := s.returned toRegion s.handlerHs } := by
  rw [State.leaveHandler_eq (by omega), if_neg (by simp [hf])]
  simp [hd, hw]

theorem State.untroubled_leaveHandler {s : State} (h : s.Untroubled) (hd : 0 < s.g.depth) (toRegion : Bool) :
    (s.leaveHandler toRegion).Untroubled := by
  rw [State.leaveHandler_eq hd]
  split
  · exact State.untroubled_illegal h _ _ _
  by_cases h2 : s.g.depth = 2
  · rw [if_pos h2]
    rcases hw : s.imageWrite s.g 0x40 (s.imageRead s.g 0x700 64) with ⟨t, ok⟩
    cases ok
    · exact State.untroubled_killCtx_of_imageWrite h hw (State.g_of_imageWrite hw)
    · exact h
  · rw [if_neg h2]
    exact h

/-- R315: with every earlier store performed, the handler is left. -/
theorem State.handlerReturn_of_idle {s : State} (h : s.Untroubled) (hd : 0 < s.g.depth)
    (hidle : ∀ e ∈ s.g.entries, e.writes = true → e.performed = true) (w : Fields) (toRegion : Bool) :
    s.handlerReturn w toRegion = s.leaveHandler toRegion := by
  have hany : ¬(s.g.entries.any fun e => e.writes && !e.performed) = true := by simpa using hidle
  rw [State.handlerReturn, if_neg (by omega), if_neg hany]
  exact State.boundary_of_untroubled (State.untroubled_leaveHandler h hd toRegion)

theorem State.handlerReturn_of_storing {s : State} (hd : 0 < s.g.depth)
    (hstore : ¬∀ e ∈ s.g.entries, e.writes = true → e.performed = true) (w : Fields) (toRegion : Bool) :
    s.handlerReturn w toRegion = { s with g := { s.g with stall := .other } } := by
  have hany : (s.g.entries.any fun e => e.writes && !e.performed) = true := by simpa using hstore
  rw [State.handlerReturn, if_neg (by omega), if_pos hany]
  rfl

theorem State.handlerReturn_depth_zero {s : State} (hd : s.g.depth = 0) (w : Fields) (toRegion : Bool) :
    s.handlerReturn w toRegion = s.illegal 0 0xFF (s.g.lanes w) := if_pos hd

/-! The two instructions. -/

/-- R82: a word whose instruction has to end the run ends it. -/
theorem Form.e_of_badPosition_eq_none {f : Form} {w : Fields} (hn : f.needE = true) (h : f.badPosition w = none) : w.e = true := by
  have hlast : f.lastRows w = none := by
    unfold Form.badPosition at h
    iterate 4
      split at h
      · cases h
    exact h
  unfold Form.lastRows at hlast
  split at hlast
  · cases hlast
  · cases he : w.e
    · simp [hn, he] at hlast
    · rfl

/-- An instruction that makes the handler's return, ready: it ends the run, so that no fault waits for the boundary (R268). -/
def ReturnsWhenReady (i : Instr) (w : Fields) (toRegion : Bool) (s : State) : Prop :=
  Ready i w [] s → exec i s = .next (s.handlerReturn w toRegion) ∧ s.Untroubled

theorem returnsWhenReady_of_needE {i : Instr} {w : Fields} {toRegion : Bool} {s : State} {f : Form} (hfields : i.fields = some w)
    (hform : i.form = some f) (hn : f.needE = true)
    (hexec : exec i s = s.issueWith i w false [] (State.handlerReturn w toRegion) (State.handlerReturn w toRegion)) :
    ReturnsWhenReady i w toRegion s := fun h => by
  refine ⟨hexec.trans (issueWith_ready false _ _ hfields nofun h), fun _ => ?_⟩
  obtain ⟨hw, -, -, -, -, -, -, -, hboundary⟩ := h
  have hbad : f.badPosition w = none := by
    simpa only [badEncoding, hform] using badEncoding_of_wellFormed hfields hw
  exact hboundary (Form.e_of_badPosition_eq_none hn hbad)

theorem returnsWhenReady_hret (w : Fields) (s : State) : ReturnsWhenReady (.hret w) w false s :=
  returnsWhenReady_of_needE rfl rfl rfl rfl

theorem returnsWhenReady_hretr (w : Fields) (s : State) : ReturnsWhenReady (.hretr w) w true s :=
  returnsWhenReady_of_needE rfl rfl rfl rfl

/-- Settles O39: both instructions are one return, which the depth, the stores under way and the bank's fmt decide; no fault is left to
wait for the run boundary at its end. -/
theorem handlerReturn : Obligations.HandlerReturn := by
  unfold Obligations.HandlerReturn
  intro w s g entry region rpc resumed legal idle returns
  have hreturns (i : Instr) (toRegion : Bool) (hi : ReturnsWhenReady i w toRegion s) : returns i toRegion := by
    refine ⟨fun hd hidle hlegal hr => ?_, fun hd hidle hlegal t hw hr => ?_, fun hd hidle hlegal hr => ?_, fun hd hstore hr => ?_,
      fun hd hr => ?_⟩
    all_goals obtain ⟨hexec, hu⟩ := hi hr
    · rw [hexec, State.handlerReturn_of_idle hu (hd ▸ Nat.one_pos) hidle, State.leaveHandler_depth_one hd hlegal]
      exact ⟨rfl, physRead_group s _⟩
    · rw [hexec, State.handlerReturn_of_idle hu (hd ▸ Nat.two_pos) hidle, State.leaveHandler_depth_two hd hlegal hw]
      exact ⟨_, rfl, s.handlerHs, rfl, fun j hj => s.rd_handlerHs hj⟩
    · rw [hexec, State.handlerReturn_of_idle hu hd hidle, State.leaveHandler_of_reserved hd (Bool.eq_false_iff.mpr hlegal)]
    · rw [hexec, State.handlerReturn_of_storing hd hstore]
    · rw [hexec, State.handlerReturn_depth_zero hd]
  exact ⟨hreturns (.hret w) false (returnsWhenReady_hret w s), hreturns (.hretr w) true (returnsWhenReady_hretr w s)⟩

end Sys2Proof.Machine
end
